-- ==== Sys2Proof/Word.lean ====
section
/-! DEFINITION. The word types of the FZ-9400 and their plainest arithmetic (spec 01 R10, R12, R16).
Nothing here says what an instruction does. -/
namespace Sys2Proof

/-- A 32-bit register value (R10). -/
abbrev Word := BitVec 32
/-- A 64-bit value: a register pair, a counter, an instruction word. -/
abbrev DWord := BitVec 64
/-- A 48-bit virtual byte address (R16). -/
abbrev VA := BitVec 48
/-- A 44-bit physical byte address (R230). -/
abbrev PA := BitVec 44
/-- One byte of memory. -/
abbrev Byte := BitVec 8
/-- A set of the 16 strands of a strip, bit i for strand i. -/
abbrev Strands := BitVec 16

/-- The low half of a 64-bit value. -/
def lo32 (x : DWord) : Word := BitVec.ofNat 32 x.toNat
/-- The high half of a 64-bit value. -/
def hi32 (x : DWord) : Word := BitVec.ofNat 32 (x.toNat / 2 ^ 32)
/-- The 64-bit value of a pair, `hi` holding bits [63:32] (R10). -/
def pair64 (lo hi : Word) : DWord := BitVec.ofNat 64 (hi.toNat * 2 ^ 32 + lo.toNat)

@[simp] theorem lo32_pair64 (a b : Word) : lo32 (pair64 a b) = a := by
  apply BitVec.eq_of_toNat_eq
  simp [lo32, pair64]
  omega

@[simp] theorem hi32_pair64 (a b : Word) : hi32 (pair64 a b) = b := by
  apply BitVec.eq_of_toNat_eq
  simp [hi32, pair64]
  omega

end Sys2Proof
end

