-- ==== Sys2Proof/Syntax.lean ====
section
/-! DEFINITION. The instructions and machine events of the FZ-9400: the six word formats with every field they
carry (spec 03 R50, R52, R56), and one constructor per row of the opcode table. -/
namespace Sys2Proof

/-- A source operand field: the last-use bit L and the 10-bit selector (R52). -/
structure Src where
  last : Bool
  sel : BitVec 10
deriving DecidableEq, Repr

/-- Format R: register operations (R56). -/
structure FmtR where
  fn : BitVec 4
  d : BitVec 9
  a : Src
  b : Src
  c : Src
  la : BitVec 4
  rm : BitVec 2
  sat : Bool
  mod : BitVec 3
deriving DecidableEq, Repr

/-- Format I: a 32-bit immediate (R56). -/
structure FmtI where
  fn : BitVec 4
  d : BitVec 9
  a : Src
  imm : Word
deriving DecidableEq, Repr

/-- Format M: unordered memory operations (R56, R58). -/
structure FmtM where
  fn : BitVec 4
  d : BitVec 9
  a : Src
  b : Src
  c : Src
  la : BitVec 4
  cp : BitVec 2
  sc : BitVec 2
  iw : Bool
  isg : Bool
deriving DecidableEq, Repr

/-- Format MA: ordered memory operations and atomics (R56, R59). -/
structure FmtMA where
  fn : BitVec 4
  d : BitVec 9
  a : Src
  b : Src
  c : Src
  la : BitVec 4
  scope : BitVec 3
  ord : BitVec 2
  w : Bool
deriving DecidableEq, Repr

/-- Format B: branches and calls (R56, R60). -/
structure FmtB where
  fn : BitVec 4
  d : BitVec 9
  a : Src
  off : Word
deriving DecidableEq, Repr

/-- Format E: engine commands (R56, R61). -/
structure FmtE where
  fn : BitVec 4
  d : BitVec 9
  a : Src
  b : Src
  c : Src
  la : BitVec 4
  tv : Bool
  tok : BitVec 3
  mod : BitVec 2
deriving DecidableEq, Repr

/-- A place where an error event strikes, by the units of R422. Strips are named by the model's identifier, cores
by die × 96 + core, lines and words by physical address. -/
inductive ErrSite where
  /-- A Coffer word: one strand's entry of a v register. -/
  | coffer (strip reg strand : Nat)
  /-- A word of the uniform file: an s register. -/
  | uniformFile (strip reg : Nat)
  /-- A 32-bit word of a core's scratch, by its index in the core's scratch. -/
  | scratch (core word : Nat)
  /-- An entry of an accumulator slot (core, slot, row × 128 + column). -/
  | slot (core slot entry : Nat)
  /-- A 32-bit word of a store coalescing buffer entry. -/
  | scb (core entry word : Nat)
  /-- A word of a spill slot on its way to the spill area (by strip, register and strand). -/
  | spillBuffer (strip reg strand : Nat)
  /-- A line of a core's read cache. -/
  | readCache (core : Nat) (pa : PA)
  /-- A word of a core's instruction cache. -/
  | instrCache (core : Nat) (pa : PA)
  /-- A line of a core's walker caches. -/
  | walker (core : Nat) (pa : PA)
  /-- A line of the remote-die cache. -/
  | rdc (pa : PA)
  /-- A TLB entry of the die, by its position. -/
  | tlb (entry : Nat)
  /-- A TLB entry of a core, by its position. -/
  | coreTlb (core entry : Nat)
  /-- A 64-bit word of the L2. -/
  | l2 (pa : PA)
  /-- A 64-bit word of HBM. -/
  | hbm (pa : PA)
  /-- A lane datapath whose residue check fails: the destination entry. -/
  | laneDatapath (strip reg strand : Nat)
  /-- A uniform datapath whose residue check fails: the destination s register. -/
  | uniformDatapath (strip reg : Nat)
  /-- A link (0-15 die links, 16 up the scale-out ports). -/
  | link (link : Nat)
  /-- An undetected fault of the matrix array: the bits it flips in one slot entry. -/
  | matrixArray (core slot entry : Nat) (flips : Word)
deriving DecidableEq, Repr

/-- One halo entry as the scale-out ports carry it (R467, R471): the destination, the parts and the count. -/
structure HaloMsg where
  /-- Destination tree's VDESC, in the receiving job's address space. -/
  dvdesc : BitVec 64
  /-- Destination ghost leaf index. -/
  dleaf : Word
  /-- Element data of the leaf, when the entry carries DATA. -/
  data : Option (List Byte)
  /-- Active mask of the leaf, when it carries MASK. -/
  mask : Option (List Byte)
  /-- Header words OX, OY, OZ, when it carries HDR. -/
  hdr : Option (List Byte)
  /-- Destination phase record; 0 for no count. -/
  dphase : BitVec 64
  /-- The step number counted. -/
  step : Word
  /-- ETYPE of the source tree, for the receiver's check. -/
  etype : Nat
  /-- The C-die of the remote package whose halo engine writes it. -/
  ddie : Nat
deriving DecidableEq, Repr

/-- What one scale-out packet carries (R471). -/
inductive PacketBody where
  /-- Up to 4,096 bytes of writes at an offset of the receive region. -/
  | writes (offset : Word) (bytes : List Byte)
  /-- One halo entry with its count. -/
  | halo (msg : HaloMsg)
deriving DecidableEq, Repr

/-- A scale-out packet: its sequence number for its direction and its contents (R471). -/
structure Packet where
  seq : BitVec 64
  body : PacketBody
deriving DecidableEq, Repr

/-- The roles of the management port (R491). -/
inductive Role where
  | observe
  | operate
  | firmware
deriving DecidableEq, Repr

/-- A firmware image (R492): its contents, the header's digest, signatures and public keys, the security version,
and the operator trust anchors with their roles (R491). -/
structure FwImage where
  body : List Byte
  digest : BitVec 512
  keyEd : List Byte
  keyMl : List Byte
  sigEd : List Byte
  sigMl : List Byte
  version : Nat
  anchors : List Role
deriving DecidableEq, Repr

/-- How much of an access an arrival performs: a set of strands and, of an access that is not single-copy atomic, a mask of
its bytes (R239, R240). -/
structure AccessPart where
  set : BitVec 16
  bytes : BitVec 16
deriving DecidableEq, Repr

/-- An acknowledgement (R471): the cumulative sequence number, and how its last packet ended: 0 performed, 1 refused, 2 cut
short by a fault. -/
structure PacketAck where
  seq : Nat
  outcome : Nat
deriving DecidableEq, Repr

/-- The errors that a scrub finds (R422): correctable ones and uncorrectable ones. -/
structure ScrubErrors where
  good : List ErrSite
  bad : List ErrSite
deriving DecidableEq, Repr

/-- The units that fail self-test (R3): bays by die × 1,152 + core × 12 + bay, cores by die × 96 + core. -/
structure SelfTest where
  bays : List Nat
  cores : List Nat
deriving DecidableEq, Repr

/-- One constructor per row of the opcode table, in the table's order: the 94 lane-pipe instructions, the 73
uniform-pipe instructions, then the machine's own operations and events (no words; they are performed from the
state's input list or as internal progress). -/
inductive Instr where
  /-- IADD (R78). -/
  | iadd (f : FmtR)
  /-- ISUB (R78). -/
  | isub (f : FmtR)
  /-- IMUL (R78). -/
  | imul (f : FmtR)
  /-- IMULH (R79). -/
  | imulh (f : FmtR)
  /-- IMAD (R78). -/
  | imad (f : FmtR)
  /-- IDIV (R80). -/
  | idiv (f : FmtR)
  /-- IREM (R80). -/
  | irem (f : FmtR)
  /-- IMIN (R78). -/
  | imin (f : FmtR)
  /-- IMAX (R78). -/
  | imax (f : FmtR)
  /-- IABS (R78). -/
  | iabs (f : FmtR)
  /-- INEG (R78). -/
  | ineg (f : FmtR)
  /-- ICMP (R81). -/
  | icmp (f : FmtR)
  /-- ISEL (R81). -/
  | isel (f : FmtR)
  /-- IAND (R82). -/
  | iand (f : FmtR)
  /-- IOR (R82). -/
  | ior (f : FmtR)
  /-- IXOR (R82). -/
  | ixor (f : FmtR)
  /-- IANDN (R82). -/
  | iandn (f : FmtR)
  /-- ISHL (R83). -/
  | ishl (f : FmtR)
  /-- ISHR (R83). -/
  | ishr (f : FmtR)
  /-- ISAR (R83). -/
  | isar (f : FmtR)
  /-- IFSHL (R84). -/
  | ifshl (f : FmtR)
  /-- IFSHR (R84). -/
  | ifshr (f : FmtR)
  /-- BFX (R85). -/
  | bfx (f : FmtR)
  /-- BFI (R85). -/
  | bfi (f : FmtR)
  /-- POPC (R86). -/
  | popc (f : FmtR)
  /-- CLZ (R86). -/
  | clz (f : FmtR)
  /-- CTZ (R86). -/
  | ctz (f : FmtR)
  /-- BREV (R86). -/
  | brev (f : FmtR)
  /-- BPERM (R87). -/
  | bperm (f : FmtR)
  /-- LEA (R88). -/
  | lea (f : FmtR)
  /-- ISAD (R89). -/
  | isad (f : FmtR)
  /-- MOV (R90). -/
  | mov (f : FmtR)
  /-- MOVI (R91). -/
  | movi (f : FmtI)
  /-- DOT4 (R92). -/
  | dot4 (f : FmtR)
  /-- DOT8 (R92). -/
  | dot8 (f : FmtR)
  /-- FADD (R94). -/
  | fadd (f : FmtR)
  /-- FSUB (R94). -/
  | fsub (f : FmtR)
  /-- FMUL (R94). -/
  | fmul (f : FmtR)
  /-- FFMA (R94). -/
  | ffma (f : FmtR)
  /-- FMIN (R95). -/
  | fmin (f : FmtR)
  /-- FMAX (R95). -/
  | fmax (f : FmtR)
  /-- FCMP (R96). -/
  | fcmp (f : FmtR)
  /-- FCLASS (R97). -/
  | fclass (f : FmtR)
  /-- FRND (R98). -/
  | frnd (f : FmtR)
  /-- FSCALE (R99). -/
  | fscale (f : FmtR)
  /-- FRCP (R100). -/
  | frcp (f : FmtR)
  /-- FRSQ (R100). -/
  | frsq (f : FmtR)
  /-- FSQRT (R94). -/
  | fsqrt (f : FmtR)
  /-- FDIV (R94). -/
  | fdiv (f : FmtR)
  /-- FEX2 (R100). -/
  | fex2 (f : FmtR)
  /-- FLG2 (R100). -/
  | flg2 (f : FmtR)
  /-- FSINPI (R100). -/
  | fsinpi (f : FmtR)
  /-- FCOSPI (R100). -/
  | fcospi (f : FmtR)
  /-- FTANH (R100). -/
  | ftanh (f : FmtR)
  /-- HFMA2 (R101). -/
  | hfma2 (f : FmtR)
  /-- FDOT2 (R102). -/
  | fdot2 (f : FmtR)
  /-- CVT (R104). -/
  | cvt (f : FmtR)
  /-- CVTPK (R105). -/
  | cvtpk (f : FmtR)
  /-- CVTXP (R106). -/
  | cvtxp (f : FmtR)
  /-- SHFL (R160). -/
  | shfl (f : FmtR)
  /-- GSHFL (R160). -/
  | gshfl (f : FmtR)
  /-- VOTE (R161). -/
  | vote (f : FmtR)
  /-- RED (R163). -/
  | red (f : FmtR)
  /-- SCAN (R163). -/
  | scan (f : FmtR)
  /-- ISECT (R167). -/
  | isect (f : FmtR)
  /-- SMERGE (R166). -/
  | smerge (f : FmtR)
  /-- SORT16 (R165). -/
  | sort16 (f : FmtR)
  /-- MATCH (R162). -/
  | matchKeys (f : FmtR)
  /-- JARV (R169). -/
  | jarv (f : FmtR)
  /-- JWAIT (R127). -/
  | jwait (f : FmtR)
  /-- BRA (R107). -/
  | bra (f : FmtB)
  /-- BRX (R108). -/
  | brx (f : FmtR)
  /-- CALL (R109). -/
  | call (f : FmtB)
  /-- RET (R110). -/
  | ret (f : FmtR)
  /-- EXIT (R111). -/
  | exit (f : FmtR)
  /-- NOP (R112). -/
  | nop (f : FmtR)
  /-- LDG (R114). -/
  | ldg (f : FmtM)
  /-- STG (R115). -/
  | stg (f : FmtM)
  /-- LDC (R117). -/
  | ldc (f : FmtM)
  /-- LDGA (R257). -/
  | ldga (f : FmtMA)
  /-- STGR (R258). -/
  | stgr (f : FmtMA)
  /-- LDL (R259). -/
  | ldl (f : FmtM)
  /-- STL (R259). -/
  | stl (f : FmtM)
  /-- ATOMG (R262). -/
  | atomg (f : FmtMA)
  /-- ATOML (R264). -/
  | atoml (f : FmtMA)
  /-- REDG (R263). -/
  | redg (f : FmtMA)
  /-- PREF (R265). -/
  | pref (f : FmtM)
  /-- VLOOK (R334). -/
  | vlook (f : FmtR)
  /-- VSTEN (R335). -/
  | vsten (f : FmtR)
  /-- VMARCH (R338). -/
  | vmarch (f : FmtR)
  /-- VPROBE (R336). -/
  | vprobe (f : FmtR)
  /-- VINS (R343). -/
  | vins (f : FmtMA)
  /-- VACT (R345). -/
  | vact (f : FmtMA)
  /-- ENQ (R211). -/
  | enq (f : FmtR)
  /-- SADD (R170). -/
  | sadd (f : FmtR)
  /-- SSUB (R170). -/
  | ssub (f : FmtR)
  /-- SMUL (R170). -/
  | smul (f : FmtR)
  /-- SMULH (R170). -/
  | smulh (f : FmtR)
  /-- SMAD (R170). -/
  | smad (f : FmtR)
  /-- SMIN (R170). -/
  | smin (f : FmtR)
  /-- SMAX (R170). -/
  | smax (f : FmtR)
  /-- SCMP (R170). -/
  | scmp (f : FmtR)
  /-- SSEL (R170). -/
  | ssel (f : FmtR)
  /-- SAND (R170). -/
  | sand (f : FmtR)
  /-- SOR (R170). -/
  | sor (f : FmtR)
  /-- SXOR (R170). -/
  | sxor (f : FmtR)
  /-- SSHL (R170). -/
  | sshl (f : FmtR)
  /-- SSHR (R170). -/
  | sshr (f : FmtR)
  /-- SSAR (R170). -/
  | ssar (f : FmtR)
  /-- SBFX (R170). -/
  | sbfx (f : FmtR)
  /-- SPOPC (R170). -/
  | spopc (f : FmtR)
  /-- SLEA (R170). -/
  | slea (f : FmtR)
  /-- SMOV (R170). -/
  | smov (f : FmtR)
  /-- SMOVI (R170). -/
  | smovi (f : FmtI)
  /-- SFADD (R170). -/
  | sfadd (f : FmtR)
  /-- SFMUL (R170). -/
  | sfmul (f : FmtR)
  /-- SFFMA (R170). -/
  | sffma (f : FmtR)
  /-- SCVT (R170). -/
  | scvt (f : FmtR)
  /-- SLD (R171). -/
  | sld (f : FmtM)
  /-- SST (R171). -/
  | sst (f : FmtM)
  /-- FENCE (R266). -/
  | fence (f : FmtMA)
  /-- FENCE_PROMOTE (R460). -/
  | fencePromote (f : FmtMA)
  /-- DISCARD (R267). -/
  | discard (f : FmtR)
  /-- DGST (R268). -/
  | dgst (f : FmtR)
  /-- SBRA (R173). -/
  | sbra (f : FmtB)
  /-- SBRX (R174). -/
  | sbrx (f : FmtR)
  /-- JINIT (R168). -/
  | jinit (f : FmtR)
  /-- SGETM (R175). -/
  | sgetm (f : FmtR)
  /-- YIELD (R176). -/
  | yield (f : FmtR)
  /-- BAR (R177). -/
  | bar (f : FmtR)
  /-- GROW (R178). -/
  | grow (f : FmtR)
  /-- SHRINK (R148). -/
  | shrink (f : FmtR)
  /-- HBEAT (R179). -/
  | hbeat (f : FmtR)
  /-- LAUNCH (R208). -/
  | launch (f : FmtE)
  /-- CANCEL (R209). -/
  | cancel (f : FmtE)
  /-- CCNT (R210). -/
  | ccnt (f : FmtE)
  /-- WAIT (R284). -/
  | wait (f : FmtR)
  /-- CPYIN (R288). -/
  | cpyin (f : FmtE)
  /-- CPYOUT (R288). -/
  | cpyout (f : FmtE)
  /-- CPYGG (R288). -/
  | cpygg (f : FmtE)
  /-- CPYMC (R289). -/
  | cpymc (f : FmtE)
  /-- CPYT (R293). -/
  | cpyt (f : FmtE)
  /-- CPYTN (R294). -/
  | cpytn (f : FmtE)
  /-- MMA (R302). -/
  | mma (f : FmtE)
  /-- MMASP (R306). -/
  | mmasp (f : FmtE)
  /-- MZERO (R307). -/
  | mzero (f : FmtE)
  /-- MLOADB (R308). -/
  | mloadb (f : FmtE)
  /-- MDRAIN (R310). -/
  | mdrain (f : FmtE)
  /-- MLEASE (R315). -/
  | mlease (f : FmtR)
  /-- SPPROJ (R353). -/
  | spproj (f : FmtE)
  /-- SPSORT (R355). -/
  | spsort (f : FmtE)
  /-- SPBLND (R357). -/
  | spblnd (f : FmtE)
  /-- SPBACK (R358). -/
  | spback (f : FmtE)
  /-- RXREG (R377). -/
  | rxreg (f : FmtE)
  /-- RXDEREG (R379). -/
  | rxdereg (f : FmtE)
  /-- ROUTE (R385). -/
  | route (f : FmtE)
  /-- RECV (R381). -/
  | recv (f : FmtE)
  /-- RETN (R382). -/
  | retn (f : FmtE)
  /-- ESCQ (R391). -/
  | escq (f : FmtE)
  /-- HALO (R467). -/
  | halo (f : FmtE)
  /-- PHWAIT (R470). -/
  | phwait (f : FmtR)
  /-- VALLOC (R341). -/
  | valloc (f : FmtR)
  /-- VFREE (R342). -/
  | vfree (f : FmtR)
  /-- WFENCE (R346). -/
  | wfence (f : FmtMA)
  /-- TRAP (R408). -/
  | trap (f : FmtI)
  /-- RTE (R409). -/
  | rte (f : FmtR)
  /-- SPRR (R410). -/
  | sprr (f : FmtI)
  /-- SPRW (R410). -/
  | sprw (f : FmtI)
  /-- ASYNC_TRAP_ENTRY (R400): the strip. -/
  | asyncTrapEntry (strip : Nat)
  /-- LONG_LATENCY_RESULT_ARRIVAL (R153): the strip, the window's position in its list, and the part of the access that is performed now. -/
  | longLatencyResultArrival (strip win : Nat) (part : AccessPart)
  /-- SPILL_REFILL_ARRIVAL (R150): the strip and the v register. -/
  | spillRefillArrival (strip reg : Nat)
  /-- GROW_CLAIM_GRANT (R147): the core and the slice of it (bay × 4 + slice). -/
  | growClaimGrant (core slice : Nat)
  /-- SCB_DRAIN (R226): the core and the entry's position; a position past the entries is the oldest posted write. -/
  | scbDrain (core entry : Nat)
  /-- ENGINE_COMMAND_START (R277): the core and the command's identifier. -/
  | engineCommandStart (core cmd : Nat)
  /-- COMMAND_COMPLETION (R281): the core and the command's identifier. -/
  | commandCompletion (core cmd : Nat)
  /-- MINT_OPERATION (R339): the die and the position of the request that reaches Mint. -/
  | mintOperation (die req : Nat)
  /-- TRANSLATION_FAULT (R418): the strip served, the address, KIND and ACCESS. -/
  | translationFault (strip : Nat) (va : BitVec 48) (kind access : BitVec 8)
  /-- ROUTE_DELIVERY_ARRIVAL (R378): the position of the delivery in flight. -/
  | routeDeliveryArrival (msg : Nat)
  /-- ROUTE_RETRY (R385): the sender's core, its escrow entry and the slot (row × K + slot). -/
  | routeRetry (core entry slot : Nat)
  /-- ROUTE_ANSWER_ARRIVAL (R387): the position of the answer in flight. -/
  | routeAnswerArrival (msg : Nat)
  /-- DROP_NOTICE_ARRIVAL (R387): the position of the notice in flight. -/
  | dropNoticeArrival (msg : Nat)
  /-- ESCROW_DEADLINE (R388): the core and its escrow entry. -/
  | escrowDeadline (core entry : Nat)
  /-- LAUNCH_COMMAND (R182): the package queue. -/
  | launchCommand (queue : Nat)
  /-- GRAPH_COMMAND (R198): the package queue. -/
  | graphCommand (queue : Nat)
  /-- COPY_COMMAND (R202): the package queue. -/
  | copyCommand (queue : Nat)
  /-- CANCEL_COMMAND (R504): the package queue. -/
  | cancelCommand (queue : Nat)
  /-- CLOSE_COMMAND (R504): the package queue. -/
  | closeCommand (queue : Nat)
  /-- LAUNCH_FORWARD (R487): the die and the launch. -/
  | launchForward (die launch : Nat)
  /-- WORKGROUP_DISPATCH (R186): the die, the launch and the cluster (SPAN ≤ 4) or sector (SPAN > 4) chosen. -/
  | workgroupDispatch (die launch target : Nat)
  /-- STEAL_REQUEST (R187): the die and the two clusters. -/
  | stealRequest (die thief victim : Nat)
  /-- STRIP_RETIREMENT (R193): the strip. -/
  | stripRetirement (strip : Nat)
  /-- WORK_GRAPH_CONSUMER_DISPATCH (R204): the work-graph queue in use and the cluster or sector chosen. -/
  | workGraphConsumerDispatch (queue target : Nat)
  /-- PHASE_COUNT_EVENT (R468): the position of the count event that reaches its record. -/
  | phaseCountEvent (ev : Nat)
  /-- QUEUE_HALTED (R488): the package queue. -/
  | queueHalted (queue : Nat)
  /-- WATCHDOG_HEARTBEAT_EXPIRY (R428): the die and the launch. -/
  | watchdogHeartbeatExpiry (die launch : Nat)
  /-- WATCHDOG_WALL_CLOCK_EXPIRY (R429): the launch. -/
  | watchdogWallClockExpiry (launch : Nat)
  /-- TIME_SLICE_EXPIRY (R431): the die and the job. -/
  | timeSliceExpiry (die job : Nat)
  /-- WORKGROUP_SAVE (R433): the workgroup. -/
  | workgroupSave (wg : Nat)
  /-- WORKGROUP_RESTORE (R439): the workgroup and the sector chosen. -/
  | workgroupRestore (wg target : Nat)
  /-- HALO_ENTRY_DELIVERY (R467): the position of the halo entry in flight. -/
  | haloEntryDelivery (entry : Nat)
  /-- SCALE_OUT_PACKET_RECEIVE (R471): the connection and the packet. -/
  | scaleOutPacketReceive (conn : Nat) (pkt : Packet)
  /-- SCALE_OUT_ACK (R471): the connection and the acknowledgement. -/
  | scaleOutAck (conn : Nat) (ack : PacketAck)
  /-- SCALE_OUT_RETRANSMIT (R471): the connection. -/
  | scaleOutRetransmit (conn : Nat)
  /-- LINK_FLIT_RETRY (R422): the link and whether the retried flit arrived with good parity. -/
  | linkFlitRetry (link : Nat) (good : Bool)
  /-- CORRECTABLE_ERROR (R422): the die and the place. -/
  | correctableError (die : Nat) (site : ErrSite)
  /-- UNCORRECTABLE_ERROR (R422): the die and the place. -/
  | uncorrectableError (die : Nat) (site : ErrSite)
  /-- PATROL_SCRUB (R422): the die and the errors the pass finds. -/
  | patrolScrub (die : Nat) (found : ScrubErrors)
  /-- HBM_SCRUB (R422): the die and the errors the pass finds. -/
  | hbmScrub (die : Nat) (found : ScrubErrors)
  /-- QBELL (R487): the package queue. -/
  | qbell (queue : Nat)
  /-- TIBELL (R464): the die. -/
  | tibell (die : Nat)
  /-- SAVEREQ (R431): the die and the partition. -/
  | savereq (die part : Nat)
  /-- FQANS_RETRY (R420): the die and the fault sequence number. -/
  | fqansRetry (die : Nat) (seq : BitVec 64)
  /-- FQANS_ZERO (R420): the die and the fault sequence number. -/
  | fqansZero (die : Nat) (seq : BitVec 64)
  /-- FQANS_ABORT (R420): the die and the fault sequence number. -/
  | fqansAbort (die : Nat) (seq : BitVec 64)
  /-- FQCONS (R426): the die and the counter's new value. -/
  | fqcons (die : Nat) (value : BitVec 64)
  /-- REGISTER_WRITE (R483): the register's physical address and the value. -/
  | registerWrite (pa : BitVec 44) (value : BitVec 64)
  /-- FLIP (R496): the display head and the frame buffer address. -/
  | flip (head : Nat) (value : BitVec 64)
  /-- KEYREQ (R497): the display head. -/
  | keyreq (head : Nat)
  /-- IOINV_ASID (R498): the address-space identifier. -/
  | ioinvAsid (asid : BitVec 16)
  /-- IOINV_ALL (R498). -/
  | ioinvAll
  /-- DISPLAY_FRAME_START (R496): the display head. -/
  | displayFrameStart (head : Nat)
  /-- ENCODED_FRAME_WRITE (R497): the encoder. -/
  | encodedFrameWrite (enc : Nat)
  /-- DEVICE_DMA_ACCESS (R498): the requester, the address, the bytes read, or the bytes written. -/
  | deviceDmaAccess (bdf : BitVec 16) (va : BitVec 48) (len : Nat) (write : Option (List Byte))
  /-- MGMT_READ_STATUS (R490): the session and the request number. -/
  | mgmtReadStatus (session : Nat) (num : BitVec 64)
  /-- MGMT_READ_ERROR_LOG (R490): the session, the request number and the sequence number read after. -/
  | mgmtReadErrorLog (session : Nat) (num after : BitVec 64)
  /-- MGMT_SET_PARTITIONS (R490): the session, the request number, the partition of each sector, the owner of each head (partition + 256 × ENABLE), the encoder weights and the HBM shares (partition, first byte, end). -/
  | mgmtSetPartitions (session : Nat) (num : BitVec 64) (map owners weights : List Nat) (shares : List (Nat × Nat × Nat))
  /-- MGMT_PATROL_SCRUB (R490): the session, the request number and the switch. -/
  | mgmtPatrolScrub (session : Nat) (num : BitVec 64) (on : Bool)
  /-- MGMT_SET_POWER_CAP (R490): the session, the request number, the die and its cap. -/
  | mgmtSetPowerCap (session : Nat) (num : BitVec 64) (die watts : Nat)
  /-- MGMT_LOAD_FIRMWARE (R492): the session, the request number and the image. -/
  | mgmtLoadFirmware (session : Nat) (num : BitVec 64) (image : FwImage)
  /-- MGMT_ATTESTATION (R493): the session, the request number and the nonce. -/
  | mgmtAttestation (session : Nat) (num : BitVec 64) (nonce : BitVec 256)
  /-- MGMT_MODULE_RESET (R490): the session and the request number. -/
  | mgmtModuleReset (session : Nat) (num : BitVec 64)
  /-- MGMT_RAISE_SECURITY_VERSION (R492): the session and the request number. -/
  | mgmtRaiseSecurityVersion (session : Nat) (num : BitVec 64)
  /-- BOOT (R492): the image found in the first NVMe namespace, and the units that fail self-test. -/
  | boot (image : Option FwImage) (failed : SelfTest)
  /-- POWER_CAP_THROTTLE (R499): the die and its measured power. -/
  | powerCapThrottle (die watts : Nat)
  /-- THERMAL_THROTTLE_BAND (R500): the die and its junction temperature in degrees. -/
  | thermalThrottleBand (die temp : Nat)
  /-- THERMAL_CRITICAL_BAND (R500): the die and its junction temperature in degrees. -/
  | thermalCriticalBand (die temp : Nat)
  /-- THERMAL_RESET (R500): the die and its junction temperature in degrees. -/
  | thermalReset (die temp : Nat)
  /-- COOLANT_ALARM (R500): the inlet temperature in degrees and the flow in litres a minute. -/
  | coolantAlarm (inlet flow : Nat)
  /-- ILLEGAL_INSTRUCTION (R71): the word. -/
  | illegalInstruction (word : BitVec 64)
  /-- RETN_ANSWER_RETRY (R382): the answering core and its RETN. -/
  | retnAnswerRetry (core cmd : Nat)
  /-- COPY_NODE_COMPLETION (R202): the copy. -/
  | copyNodeCompletion (copy : Nat)
  /-- HALT_CLEARED (R488): the package queue. -/
  | haltCleared (queue : Nat)
  /-- MGMT_SESSION (R491): the trust anchor at which the client's certificate chain ends. -/
  | mgmtSession (anchor : Option Nat)
  /-- MGMT_MALFORMED_REQUEST (R490): the session and the request number. -/
  | mgmtMalformedRequest (session : Nat) (num : BitVec 64)
deriving DecidableEq, Repr

end Sys2Proof
end

