-- ==== Sys2Proof/Decode.lean ====
section
/-! DEFINITION. From words to instructions and back (spec 03): the fields of the six formats, the opcode maps, what
makes a word illegal (R69) as one description per instruction, the decoder that rejects by name, and the encoder. -/
namespace Sys2Proof

/-- Bits [lo + n - 1 : lo] of a word. -/
def fieldAt (w : DWord) (lo n : Nat) : BitVec n := BitVec.ofNat n (w.toNat / 2 ^ lo)
/-- Bit `lo` of a word. -/
def bitAt (w : DWord) (lo : Nat) : Bool := w.toNat / 2 ^ lo % 2 == 1
/-- The pipe bit P (R50, R51): true selects the uniform pipe. -/
def pipeOf (w : DWord) : Bool := bitAt w 63
/-- The major opcode (R50). -/
def majorOf (w : DWord) : Nat := w.toNat / 2 ^ 56 % 128
/-- The 11-bit source operand field at bit `lo` (R52). -/
def srcAt (w : DWord) (lo : Nat) : Src := ⟨bitAt w (lo + 10), fieldAt w lo 10⟩

/-- The fields of format R (R56). -/
def fmtR (w : DWord) : FmtR where
  fn := fieldAt w 52 4
  d := fieldAt w 43 9
  a := srcAt w 32
  b := srcAt w 21
  c := srcAt w 10
  la := fieldAt w 6 4
  rm := fieldAt w 4 2
  sat := bitAt w 3
  mod := fieldAt w 0 3

/-- The fields of format I (R56). -/
def fmtI (w : DWord) : FmtI where
  fn := fieldAt w 52 4
  d := fieldAt w 43 9
  a := srcAt w 32
  imm := fieldAt w 0 32

/-- The fields of format M (R56). -/
def fmtM (w : DWord) : FmtM where
  fn := fieldAt w 52 4
  d := fieldAt w 43 9
  a := srcAt w 32
  b := srcAt w 21
  c := srcAt w 10
  la := fieldAt w 6 4
  cp := fieldAt w 4 2
  sc := fieldAt w 2 2
  iw := bitAt w 1
  isg := bitAt w 0

/-- The fields of format MA (R56). -/
def fmtMA (w : DWord) : FmtMA where
  fn := fieldAt w 52 4
  d := fieldAt w 43 9
  a := srcAt w 32
  b := srcAt w 21
  c := srcAt w 10
  la := fieldAt w 6 4
  scope := fieldAt w 3 3
  ord := fieldAt w 1 2
  w := bitAt w 0

/-- The fields of format B (R56). -/
def fmtB (w : DWord) : FmtB where
  fn := fieldAt w 52 4
  d := fieldAt w 43 9
  a := srcAt w 32
  off := fieldAt w 0 32

/-- The fields of format E (R56). -/
def fmtE (w : DWord) : FmtE where
  fn := fieldAt w 52 4
  d := fieldAt w 43 9
  a := srcAt w 32
  b := srcAt w 21
  c := srcAt w 10
  la := fieldAt w 6 4
  tv := bitAt w 5
  tok := fieldAt w 2 3
  mod := fieldAt w 0 2

/-- The lane-pipe map (R66, R67): the instruction of a major, with its fields, or none for a major never allocated
or reserved. A MOD of 4-7 in the shared majors 0x0E and 0x16 selects the first mnemonic and is ill-formed (code 3). -/
def laneAt (major : Nat) (w : DWord) : Option Instr :=
  match major with
  | 0x01 => some (.iadd (fmtR w))
  | 0x02 => some (.isub (fmtR w))
  | 0x03 => some (.imul (fmtR w))
  | 0x04 => some (.imulh (fmtR w))
  | 0x05 => some (.imad (fmtR w))
  | 0x06 => some (.idiv (fmtR w))
  | 0x07 => some (.irem (fmtR w))
  | 0x08 => some (.imin (fmtR w))
  | 0x09 => some (.imax (fmtR w))
  | 0x0A => some (.iabs (fmtR w))
  | 0x0B => some (.ineg (fmtR w))
  | 0x0C => some (.icmp (fmtR w))
  | 0x0D => some (.isel (fmtR w))
  | 0x0E => some (match (fmtR w).mod.toNat with
    | 1 => .ior (fmtR w)
    | 2 => .ixor (fmtR w)
    | 3 => .iandn (fmtR w)
    | _ => .iand (fmtR w))
  | 0x0F => some (.ishl (fmtR w))
  | 0x10 => some (.ishr (fmtR w))
  | 0x11 => some (.isar (fmtR w))
  | 0x12 => some (.ifshl (fmtR w))
  | 0x13 => some (.ifshr (fmtR w))
  | 0x14 => some (.bfx (fmtR w))
  | 0x15 => some (.bfi (fmtR w))
  | 0x16 => some (match (fmtR w).mod.toNat with
    | 1 => .clz (fmtR w)
    | 2 => .ctz (fmtR w)
    | 3 => .brev (fmtR w)
    | _ => .popc (fmtR w))
  | 0x17 => some (.bperm (fmtR w))
  | 0x18 => some (.lea (fmtR w))
  | 0x19 => some (.isad (fmtR w))
  | 0x1A => some (.mov (fmtR w))
  | 0x1B => some (.movi (fmtI w))
  | 0x1C => some (.dot4 (fmtR w))
  | 0x1D => some (.dot8 (fmtR w))
  | 0x20 => some (.fadd (fmtR w))
  | 0x21 => some (.fsub (fmtR w))
  | 0x22 => some (.fmul (fmtR w))
  | 0x23 => some (.ffma (fmtR w))
  | 0x24 => some (.fmin (fmtR w))
  | 0x25 => some (.fmax (fmtR w))
  | 0x26 => some (.fcmp (fmtR w))
  | 0x27 => some (.fclass (fmtR w))
  | 0x28 => some (.frnd (fmtR w))
  | 0x29 => some (.fscale (fmtR w))
  | 0x2A => some (.frcp (fmtR w))
  | 0x2B => some (.frsq (fmtR w))
  | 0x2C => some (.fsqrt (fmtR w))
  | 0x2D => some (.fdiv (fmtR w))
  | 0x2E => some (.fex2 (fmtR w))
  | 0x2F => some (.flg2 (fmtR w))
  | 0x30 => some (.fsinpi (fmtR w))
  | 0x31 => some (.fcospi (fmtR w))
  | 0x32 => some (.ftanh (fmtR w))
  | 0x33 => some (.hfma2 (fmtR w))
  | 0x34 => some (.fdot2 (fmtR w))
  | 0x35 => some (.cvt (fmtR w))
  | 0x36 => some (.cvtpk (fmtR w))
  | 0x37 => some (.cvtxp (fmtR w))
  | 0x40 => some (.shfl (fmtR w))
  | 0x41 => some (.gshfl (fmtR w))
  | 0x42 => some (.vote (fmtR w))
  | 0x43 => some (.red (fmtR w))
  | 0x44 => some (.scan (fmtR w))
  | 0x45 => some (.isect (fmtR w))
  | 0x46 => some (.smerge (fmtR w))
  | 0x47 => some (.sort16 (fmtR w))
  | 0x48 => some (.matchKeys (fmtR w))
  | 0x49 => some (.jarv (fmtR w))
  | 0x4A => some (.jwait (fmtR w))
  | 0x50 => some (.bra (fmtB w))
  | 0x51 => some (.brx (fmtR w))
  | 0x52 => some (.call (fmtB w))
  | 0x53 => some (.ret (fmtR w))
  | 0x54 => some (.exit (fmtR w))
  | 0x55 => some (.nop (fmtR w))
  | 0x58 => some (.ldg (fmtM w))
  | 0x59 => some (.stg (fmtM w))
  | 0x5A => some (.ldc (fmtM w))
  | 0x5B => some (.ldga (fmtMA w))
  | 0x5C => some (.stgr (fmtMA w))
  | 0x5D => some (.ldl (fmtM w))
  | 0x5E => some (.stl (fmtM w))
  | 0x5F => some (.atomg (fmtMA w))
  | 0x60 => some (.atoml (fmtMA w))
  | 0x61 => some (.redg (fmtMA w))
  | 0x62 => some (.pref (fmtM w))
  | 0x68 => some (.vlook (fmtR w))
  | 0x69 => some (.vsten (fmtR w))
  | 0x6A => some (.vmarch (fmtR w))
  | 0x6B => some (.vprobe (fmtR w))
  | 0x6C => some (.vins (fmtMA w))
  | 0x6D => some (.vact (fmtMA w))
  | 0x70 => some (.enq (fmtR w))
  | _ => none

/-- The lane-pipe instruction of a word. -/
def laneInstr (w : DWord) : Option Instr := laneAt (majorOf w) w

/-- The uniform-pipe map (R68). FENCE with FN 1 is FENCE.PROMOTE. -/
def uniformAt (major : Nat) (w : DWord) : Option Instr :=
  match major with
  | 0x01 => some (.sadd (fmtR w))
  | 0x02 => some (.ssub (fmtR w))
  | 0x03 => some (.smul (fmtR w))
  | 0x04 => some (.smulh (fmtR w))
  | 0x05 => some (.smad (fmtR w))
  | 0x06 => some (.smin (fmtR w))
  | 0x07 => some (.smax (fmtR w))
  | 0x08 => some (.scmp (fmtR w))
  | 0x09 => some (.ssel (fmtR w))
  | 0x0A => some (.sand (fmtR w))
  | 0x0B => some (.sor (fmtR w))
  | 0x0C => some (.sxor (fmtR w))
  | 0x0D => some (.sshl (fmtR w))
  | 0x0E => some (.sshr (fmtR w))
  | 0x0F => some (.ssar (fmtR w))
  | 0x10 => some (.sbfx (fmtR w))
  | 0x11 => some (.spopc (fmtR w))
  | 0x12 => some (.slea (fmtR w))
  | 0x13 => some (.smov (fmtR w))
  | 0x14 => some (.smovi (fmtI w))
  | 0x20 => some (.sfadd (fmtR w))
  | 0x21 => some (.sfmul (fmtR w))
  | 0x22 => some (.sffma (fmtR w))
  | 0x23 => some (.scvt (fmtR w))
  | 0x28 => some (.sld (fmtM w))
  | 0x29 => some (.sst (fmtM w))
  | 0x2A => some (if (fmtMA w).fn = 1 then .fencePromote (fmtMA w) else .fence (fmtMA w))
  | 0x2B => some (.discard (fmtR w))
  | 0x2C => some (.dgst (fmtR w))
  | 0x30 => some (.sbra (fmtB w))
  | 0x31 => some (.sbrx (fmtR w))
  | 0x32 => some (.jinit (fmtR w))
  | 0x33 => some (.sgetm (fmtR w))
  | 0x34 => some (.yield (fmtR w))
  | 0x35 => some (.bar (fmtR w))
  | 0x36 => some (.grow (fmtR w))
  | 0x37 => some (.shrink (fmtR w))
  | 0x38 => some (.hbeat (fmtR w))
  | 0x40 => some (.launch (fmtE w))
  | 0x41 => some (.cancel (fmtE w))
  | 0x42 => some (.ccnt (fmtE w))
  | 0x48 => some (.wait (fmtR w))
  | 0x49 => some (.cpyin (fmtE w))
  | 0x4A => some (.cpyout (fmtE w))
  | 0x4B => some (.cpygg (fmtE w))
  | 0x4C => some (.cpymc (fmtE w))
  | 0x4D => some (.cpyt (fmtE w))
  | 0x4E => some (.cpytn (fmtE w))
  | 0x50 => some (.mma (fmtE w))
  | 0x51 => some (.mmasp (fmtE w))
  | 0x52 => some (.mzero (fmtE w))
  | 0x53 => some (.mloadb (fmtE w))
  | 0x54 => some (.mdrain (fmtE w))
  | 0x55 => some (.mlease (fmtR w))
  | 0x58 => some (.spproj (fmtE w))
  | 0x59 => some (.spsort (fmtE w))
  | 0x5A => some (.spblnd (fmtE w))
  | 0x5B => some (.spback (fmtE w))
  | 0x60 => some (.rxreg (fmtE w))
  | 0x61 => some (.rxdereg (fmtE w))
  | 0x62 => some (.route (fmtE w))
  | 0x63 => some (.recv (fmtE w))
  | 0x64 => some (.retn (fmtE w))
  | 0x65 => some (.escq (fmtE w))
  | 0x68 => some (.halo (fmtE w))
  | 0x69 => some (.phwait (fmtR w))
  | 0x6C => some (.valloc (fmtR w))
  | 0x6D => some (.vfree (fmtR w))
  | 0x6E => some (.wfence (fmtMA w))
  | 0x70 => some (.trap (fmtI w))
  | 0x71 => some (.rte (fmtR w))
  | 0x72 => some (.sprr (fmtI w))
  | 0x73 => some (.sprw (fmtI w))
  | _ => none

/-- The uniform-pipe instruction of a word. -/
def uniformInstr (w : DWord) : Option Instr := uniformAt (majorOf w) w

/-- The instruction a word spells, legal or not: total on every word. A word whose major is no instruction's is the
ILLEGAL_INSTRUCTION of the table (R69 code 1). -/
def decodeRaw (w : DWord) : Instr :=
  ((if pipeOf w then uniformInstr w else laneInstr w).getD (.illegalInstruction w))

/-! ## What makes a word illegal -/

/-- What a source field may name (R74 and each instruction's table). -/
inductive OpKind where
  /-- The instruction does not read the field: it holds 0x000 (R57). -/
  | unused
  /-- Any v, s, constant or special selector; `n` registers, aligned to `n` (R22, R74). -/
  | any (n : Nat)
  /-- A v or s register; `n` registers, aligned to `n`. -/
  | vs (n : Nat)
  /-- An s register; `n` registers, aligned to `n`. -/
  | s (n : Nat)
  /-- A group of four s registers, aligned to 4, of which `n` from number `lo` on are read (R308, R309, R382). -/
  | sPart (lo n : Nat)
  /-- A v register; `n` registers, the first a multiple of `align`. -/
  | v (n align : Nat)
  /-- A type field and no selector (R103). -/
  | typeField
deriving DecidableEq, Repr

/-- What the D field may name (R55): nothing, or `n` registers of the pipe, the first a multiple of `align`. -/
inductive DKind where
  | none
  | reg (n align : Nat)
deriving DecidableEq, Repr

/-- The description of one instruction's encoding, with its field values: what R69 tests and what the issue of the
instruction reads, releases and writes. -/
structure Shape where
  /-- True for the uniform pipe. -/
  uniform : Bool
  /-- The FN value is accepted (code 2). -/
  fnOk : Bool := true
  /-- MOD, RM, SCOPE, ORD and W are accepted (code 3). -/
  ctlOk : Bool := true
  /-- The other fields that must be zero are zero (code 4). -/
  zeroOk : Bool := true
  d : BitVec 9 := 0
  dk : DKind := .none
  a : Src := ⟨false, 0⟩
  ak : OpKind := .unused
  b : Src := ⟨false, 0⟩
  bk : OpKind := .unused
  c : Src := ⟨false, 0⟩
  ck : OpKind := .unused
  la : BitVec 4 := 0
  /-- The instruction is long-latency: LA may be non-zero (R57, R76, R136). -/
  long : Bool := false
  /-- Register groups lie inside v0-v255 and do not overlap where they must not (code 9). -/
  groupOk : Bool := true
deriving DecidableEq, Repr

/-- Registers of a value of integer or floating type code `t`: a pair for the 64-bit types 2, 3 and 9 (R10). -/
def tyRegs (t : BitVec 4) : Nat := if t = 2 ∨ t = 3 ∨ t = 9 then 2 else 1
/-- Registers of a value of size code `fn`: 2 for 64 bits, 4 for 128 bits (R64). -/
def sizeRegs (fn : BitVec 4) : Nat :=
  if fn.toNat % 8 = 3 then 2 else if fn.toNat % 8 = 4 then 4 else 1

/-- The value of field FN lies in a list. -/
def fnIn (fn : BitVec 4) (l : List Nat) : Bool := l.contains fn.toNat

/-- A format R word (R56): accepted FN and MOD values, whether RM and SAT may be non-zero, D and the operands. -/
def shapeR (f : FmtR) (uniform : Bool) (fns mods : List Nat) (rm sat long : Bool) (dk : DKind) (ak bk ck : OpKind)
    : Shape where
  uniform := uniform
  fnOk := fnIn f.fn fns
  ctlOk := mods.contains f.mod.toNat && (rm || f.rm = 0)
  zeroOk := sat || !f.sat
  d := f.d
  dk := dk
  a := f.a
  ak := ak
  b := f.b
  bk := bk
  c := f.c
  ck := ck
  la := f.la
  long := long

/-- A format I word (R56). -/
def shapeI (f : FmtI) (uniform : Bool) (dk : DKind) (ak : OpKind) : Shape where
  uniform := uniform
  fnOk := f.fn = 0
  d := f.d
  dk := dk
  a := f.a
  ak := ak

/-- A format M word (R56, R58): A is the index, any selector. -/
def shapeM (f : FmtM) (uniform : Bool) (fns : List Nat) (long : Bool) (dk : DKind) (bk ck : OpKind) : Shape where
  uniform := uniform
  fnOk := fnIn f.fn fns
  d := f.d
  dk := dk
  a := f.a
  ak := .any 1
  b := f.b
  bk := bk
  c := f.c
  ck := ck
  la := f.la
  long := long

/-- A format MA word (R56, R59): accepted FN, ORD, SCOPE and W values. -/
def shapeMA (f : FmtMA) (uniform : Bool) (fns ords scopes : List Nat) (wOk long : Bool) (dk : DKind)
    (ak bk ck : OpKind) : Shape where
  uniform := uniform
  fnOk := fnIn f.fn fns
  ctlOk := ords.contains f.ord.toNat && scopes.contains f.scope.toNat && wOk
  d := f.d
  dk := dk
  a := f.a
  ak := ak
  b := f.b
  bk := bk
  c := f.c
  ck := ck
  la := f.la
  long := long

/-- A format B word (R56, R60): FN is the condition, and A is read unless the condition is "always". -/
def shapeB (f : FmtB) (uniform : Bool) (dk : DKind) : Shape where
  uniform := uniform
  fnOk := f.fn.toNat ≤ 4
  d := f.d
  dk := dk
  a := f.a
  ak := if f.fn = 0 then .unused else .any 1

/-- A format E word (R56, R61). TV = 0 requires TOK = 0 (R57); a command that writes a register takes no token. -/
def shapeE (f : FmtE) (fns mods : List Nat) (dk : DKind) (ak bk ck : OpKind) : Shape where
  uniform := true
  fnOk := fnIn f.fn fns
  ctlOk := mods.contains f.mod.toNat
  zeroOk := (f.tv || f.tok = 0) && (dk = .none || !f.tv)
  d := f.d
  dk := dk
  a := f.a
  ak := ak
  b := f.b
  bk := bk
  c := f.c
  ck := ck
  la := f.la
  long := dk != .none

/-- FN lists of the integer majors (R77, R170). -/
def fn07 : List Nat := [0, 1, 2, 3, 4, 5, 6, 7]
def fn03 : List Nat := [0, 1, 2, 3]

/-- An integer form with `n` type-width operands and a type-width result. -/
def shapeInt (f : FmtR) (uniform : Bool) (fns : List Nat) (sat long : Bool) (n : Nat) : Shape :=
  let w := tyRegs f.fn
  shapeR f uniform fns [0] false sat long (.reg w w) (.any w)
    (if 2 ≤ n then .any w else .unused) (if 3 ≤ n then .any w else .unused)

/-- A bitwise form whose MOD names the mnemonic (R67, R82). -/
def shapeLogic (f : FmtR) (uniform : Bool) (mod : Nat) : Shape :=
  let w := tyRegs f.fn
  shapeR f uniform [0, 2] [mod] false false false (.reg w w) (.any w) (.any w) .unused

/-- A shift: A and D of the width, B a single register (R83). -/
def shapeShift (f : FmtR) (uniform : Bool) : Shape :=
  let w := tyRegs f.fn
  shapeR f uniform [0, 2] [0] false false false (.reg w w) (.any w) (.any 1) .unused

/-- A bit count: A of the width, the result single, or of the width for BREV (R86). -/
def shapeCount (f : FmtR) (uniform : Bool) (mod : Nat) (wide : Bool) : Shape :=
  let w := tyRegs f.fn
  let r := if wide then w else 1
  shapeR f uniform [0, 2] [mod] false false false (.reg r r) (.any w) .unused .unused

/-- A floating-point form with `n` operands of the type (R93). -/
def shapeFp (f : FmtR) (uniform : Bool) (fns mods : List Nat) (rm sat long : Bool) (n : Nat) : Shape :=
  let w := tyRegs f.fn
  shapeR f uniform fns mods rm sat long (.reg w w) (.any w)
    (if 2 ≤ n then .any w else .unused) (if 3 ≤ n then .any w else .unused)

/-- The wider-than relation of R104 between float types, by codes. -/
def widerFloat (src dst : Nat) : Bool :=
  match src with
  | 12 => [10, 11, 8, 9].contains dst
  | 13 => [10, 11, 8, 9].contains dst
  | 10 => [8, 9].contains dst
  | 11 => [8, 9].contains dst
  | 8 => dst == 9
  | _ => false
/-- Bits of an integer type code (R33). -/
def intBits (t : Nat) : Nat :=
  match t with
  | 0 => 32 | 1 => 32 | 2 => 64 | 3 => 64 | 4 => 16 | 5 => 16 | 6 => 8 | 7 => 8 | _ => 4
/-- The exact conversions of R48: float to wider float, integer to wider integer. -/
def exactConv (src dst : Nat) : Bool :=
  if src < 8 && dst < 8 then intBits src < intBits dst else widerFloat src dst
/-- The source type code of a conversion, in B[3:0] (R103). -/
def convSrc (f : FmtR) : Nat := f.b.sel.toNat % 16
/-- B[10:4] is 0 (R103). -/
def convHigh (f : FmtR) : Bool := !f.b.last && f.b.sel.toNat < 16

/-- CVT (R103, R104) and SCVT (R170), `ok` saying which pairs are accepted. -/
def shapeCvt (f : FmtR) (uniform : Bool) (ok : Bool) : Shape :=
  let src := convSrc f
  let dst := f.fn.toNat
  let exact := exactConv src dst
  { uniform := uniform
    fnOk := ok
    ctlOk := f.mod = 0 && (f.rm = 0 || !(exact || (src < 8 && dst < 8)))
    zeroOk := convHigh f && !(f.sat && exact)
    d := f.d
    dk := .reg (tyRegs f.fn) (tyRegs f.fn)
    a := f.a
    ak := .any (tyRegs (BitVec.ofNat 4 src))
    b := f.b
    bk := .typeField
    c := f.c
    la := f.la }

/-- The modes of CVTPK (R105), by source and destination. -/
def packsFloat (src dst : Nat) : Bool := src == 8 && [10, 11, 12, 13].contains dst
def packsInt (src dst : Nat) : Bool := src == 0 && [4, 5, 6, 7].contains dst
def unpacks (src dst : Nat) : Bool :=
  (dst == 8 && [10, 11, 12, 13].contains src) || (dst == 0 && [4, 5, 6, 7, 14, 15].contains src)
/-- Elements of a packed type in a register (R39). -/
def packedElems (t : Nat) : Nat :=
  if [4, 5, 10, 11].contains t then 2 else if [14, 15].contains t then 8 else 4

/-- CVTPK (R105). -/
def shapeCvtpk (f : FmtR) : Shape :=
  let src := convSrc f
  let dst := f.fn.toNat
  let un := unpacks src dst
  { uniform := false
    fnOk := packsFloat src dst || packsInt src dst || un
    ctlOk := (if un then f.mod.toNat < packedElems src else f.mod = 0) && (packsFloat src dst || f.rm = 0)
    zeroOk := convHigh f && !(un && f.sat)
    d := f.d
    dk := .reg 1 1
    a := f.a
    ak := .any 1
    b := f.b
    bk := .typeField
    c := f.c
    ck := if un then .unused else .any 1
    la := f.la }

/-- CVTXP (R106). -/
def shapeCvtxp (f : FmtR) : Shape :=
  let src := convSrc f
  let dst := f.fn.toNat
  { uniform := false
    fnOk := (src == 8 && [10, 11, 12, 13].contains dst) || (dst == 8 && [10, 11, 12, 13].contains src)
    ctlOk := f.mod = 0
    zeroOk := convHigh f
    d := f.d
    dk := .reg 1 1
    a := f.a
    ak := .any 1
    b := f.b
    bk := .typeField
    c := f.c
    ck := .any 1
    la := f.la }

/-- The present-mask bit PM = MOD[2] (R157). -/
def pmBit (f : FmtR) : Bool := f.mod.toNat / 4 % 2 == 1

/-- A cross-strand form with a PM bit (R157, R159): with PM the result takes an even pair. -/
def shapePm (f : FmtR) (fns mods : List Nat) (sat : Bool) (dn : Nat) (ak bk : OpKind) : Shape :=
  let n := if pmBit f then 2 else dn
  { shapeR f false fns mods false sat false (.reg n n) ak bk .unused with
    ctlOk := mods.contains f.mod.toNat && f.rm = 0 && !(pmBit f && tyRegs f.fn = 2) }

/-- Modes 0-2 with and without PM. -/
def mod3pm : List Nat := [0, 1, 2, 4, 5, 6]

/-- RED and SCAN (R159): SAT only with ADD and an integer type. -/
def shapeRed (f : FmtR) : Shape :=
  shapePm f [0, 1, 2, 3, 8, 9] mod3pm (f.mod.toNat % 4 == 0 && f.fn.toNat < 8) (tyRegs f.fn) (.any (tyRegs f.fn))
    .unused

/-- ISECT, SMERGE and SORT16 (R159). -/
def shapeKeys (f : FmtR) (long : Bool) : Shape :=
  shapeR f false [0, 1, 8] [0] false false long (.reg 2 2) (.any 1) (.any 1) .unused

/-- BRX and SBRX (R108, R174): A the target pair, B the condition operand. -/
def shapeBrx (f : FmtR) (uniform : Bool) : Shape :=
  shapeR f uniform [0, 1, 2, 3, 4] [0] false false false .none (.vs 2) (if f.fn = 0 then .unused else .any 1) .unused

/-- A word with no field at all: every bit of [55:0] is 0. NOP gives code 4 for any of them, FN code 2 (R112). -/
def shapeNone (f : FmtR) (uniform : Bool) (nop : Bool) : Shape :=
  let s := shapeR f uniform [0] [0] false false false .none .unused .unused .unused
  if nop then { s with ctlOk := true, zeroOk := !f.sat && f.mod = 0 && f.rm = 0 } else s

/-- An operand aligned pair in v or s registers, the global base of R113. -/
def baseVS : OpKind := .vs 2

/-- LDG, LDC and SLD (R114, R117, R171). -/
def shapeLoad (f : FmtM) (uniform : Bool) (fns : List Nat) (bk : OpKind) : Shape :=
  shapeM f uniform fns true (.reg (sizeRegs f.fn) (sizeRegs f.fn)) bk .unused

/-- STG, STL and SST (R115, R171, R255). -/
def shapeStore (f : FmtM) (uniform : Bool) (bk : OpKind) : Shape :=
  shapeM f uniform [0, 1, 2, 3, 4] false .none bk (if sizeRegs f.fn = 4 then .vs 4 else .any (sizeRegs f.fn))

/-- The 0x000-or-compare operand C of the atomics (R255): read only by CAS. -/
def casOperand (f : FmtMA) (n : Nat) : OpKind := if f.fn = 9 then .any n else .unused

/-- ATOMG and ATOML (R255). -/
def shapeAtom (f : FmtMA) (bk : OpKind) : Shape :=
  let n := if f.w then 2 else 1
  shapeMA f false [0, 1, 2, 3, 4, 5, 6, 7, 8, 9, 10, 11, 12] [0, 1, 2, 3] [0, 1, 2, 3, 4] true true (.reg n n) (.any n)
    bk (casOperand f n)

/-- Three registers from a multiple of 4 (R332). -/
def triple : OpKind := .v 3 4

/-- Stencil points by MOD (R335). -/
def stencilCount (f : FmtR) : Nat := if f.mod = 0 then 7 else if f.mod = 1 then 19 else 27

/-- Two register intervals [a, a+n) and [b, b+m) share a register. -/
def spansMeet (a n b m : Nat) : Bool := a < b + m && b < a + n

/-- A walker form (R332): A a coordinate triple, B the VDESC pair. -/
def shapeWalk (f : FmtR) (mods : List Nat) (dk : DKind) (ck : OpKind) : Shape :=
  shapeR f false [0] mods false false true dk triple (.s 2) ck

/-- VMARCH's three register groups must not overlap (R332). -/
def marchGroupsOk (f : FmtR) : Bool :=
  let d := f.d.toNat
  let a := f.a.sel.toNat
  let c := f.c.sel.toNat
  !(a < 256 && spansMeet d 2 a 3) && !(c < 256 && spansMeet d 2 c 3) && !(a < 256 && c < 256 && spansMeet a 3 c 3)

/-- CPY* (R287): global operands are s pairs or strand 0's v pair. -/
def shapeCopy (f : FmtE) (ak bk ck : OpKind) : Shape := shapeE f [0] [0, 1, 2, 3] .none ak bk ck

/-- FN of the matrix commands (R301). -/
def mmaFns : List Nat := [6, 7, 10, 11, 12, 13]
/-- MOD[1] is SAT and needs I8 or N8 (R301). -/
def mmaMods (f : FmtE) : List Nat := if f.fn.toNat < 8 then [0, 1, 2, 3] else [0, 1]

/-- The shape of every instruction; an event has the empty shape. -/
def shape : Instr → Shape
  | .iadd f => shapeInt f false fn07 true false 2
  | .isub f => shapeInt f false fn07 true false 2
  | .imul f => shapeInt f false fn03 true false 2
  | .imulh f => shapeInt f false fn03 false false 2
  | .imad f => shapeInt f false fn03 true false 3
  | .idiv f => shapeInt f false fn03 false true 2
  | .irem f => shapeInt f false fn03 false true 2
  | .imin f => shapeInt f false fn07 false false 2
  | .imax f => shapeInt f false fn07 false false 2
  | .iabs f => shapeInt f false [0, 2, 4, 6] true false 1
  | .ineg f => shapeInt f false [0, 2, 4, 6] true false 1
  | .icmp f => shapeR f false fn07 [0, 1, 2, 3, 4, 5] false false false (.reg 1 1) (.any (tyRegs f.fn))
      (.any (tyRegs f.fn)) .unused
  | .isel f => shapeR f false [0, 2] [0] false false false (.reg (tyRegs f.fn) (tyRegs f.fn)) (.any 1)
      (.any (tyRegs f.fn)) (.any (tyRegs f.fn))
  | .iand f => shapeLogic f false 0
  | .ior f => shapeLogic f false 1
  | .ixor f => shapeLogic f false 2
  | .iandn f => shapeLogic f false 3
  | .ishl f => shapeShift f false
  | .ishr f => shapeShift f false
  | .isar f => shapeShift f false
  | .ifshl f => shapeR f false [0] [0] false false false (.reg 1 1) (.any 1) (.any 1) (.any 1)
  | .ifshr f => shapeR f false [0] [0] false false false (.reg 1 1) (.any 1) (.any 1) (.any 1)
  | .bfx f => shapeR f false [0, 1] [0] false false false (.reg 1 1) (.any 1) (.any 1) .unused
  | .bfi f => shapeR f false [0] [0] false false false (.reg 1 1) (.any 1) (.any 1) (.any 1)
  | .popc f => shapeCount f false 0 false
  | .clz f => shapeCount f false 1 false
  | .ctz f => shapeCount f false 2 false
  | .brev f => shapeCount f false 3 true
  | .bperm f => shapeR f false [0] [0] false false false (.reg 1 1) (.any 1) (.any 1) (.any 1)
  | .lea f => shapeR f false [0, 1] [0, 1, 2, 3] false false false (.reg 2 2) (.any 2) (.any 1) .unused
  | .isad f => shapeR f false [0, 1, 6, 7] [0] false true false (.reg 1 1) (.any 1) (.any 1) (.any 1)
  | .mov f => shapeInt f false [0, 2] false false 1
  | .movi f => shapeI f false (.reg 1 1) .unused
  | .dot4 f => shapeR f false [0] [0, 1, 2, 3] false true false (.reg 1 1) (.any 1) (.any 1) (.any 1)
  | .dot8 f => shapeR f false [0] [0, 1, 2, 3] false true false (.reg 1 1) (.any 1) (.any 1) (.any 1)
  | .fadd f => shapeFp f false [8, 9, 10] [0] true true false 2
  | .fsub f => shapeFp f false [8, 9, 10] [0] true true false 2
  | .fmul f => shapeFp f false [8, 9, 10] [0] true true false 2
  | .ffma f => shapeFp f false [8, 9, 10] [0] true true false 3
  | .fmin f => shapeFp f false [8, 9, 10, 11] [0, 1] false false false 2
  | .fmax f => shapeFp f false [8, 9, 10, 11] [0, 1] false false false 2
  | .fcmp f => shapeR f false [8, 9, 10, 11] fn07 false false false (.reg 1 1) (.any (tyRegs f.fn))
      (.any (tyRegs f.fn)) .unused
  | .fclass f => shapeR f false [8, 9, 10, 11, 12, 13] [0] false false false (.reg 1 1) (.any (tyRegs f.fn)) .unused
      .unused
  | .frnd f => shapeFp f false [8, 9, 10, 11] [0] true false false 1
  | .fscale f => shapeR f false [8, 9, 10, 11] [0] true true false (.reg (tyRegs f.fn) (tyRegs f.fn))
      (.any (tyRegs f.fn)) (.any 1) .unused
  | .frcp f => shapeFp f false [8] [0] true false true 1
  | .frsq f => shapeFp f false [8] [0] true false true 1
  | .fsqrt f => shapeFp f false [8, 9, 10] [0] true true true 1
  | .fdiv f => shapeFp f false [8, 9, 10] [0] true true true 2
  | .fex2 f => shapeFp f false [8] [0] true false true 1
  | .flg2 f => shapeFp f false [8] [0] true false true 1
  | .fsinpi f => shapeFp f false [8] [0] true false true 1
  | .fcospi f => shapeFp f false [8] [0] true false true 1
  | .ftanh f => shapeFp f false [8] [0] true false true 1
  | .hfma2 f => shapeFp f false [10, 11] [0] true true false 3
  | .fdot2 f => shapeFp f false [10, 11] [0] true true false 3
  | .cvt f => shapeCvt f false (convSrc f < 14 && f.fn.toNat < 14 && convSrc f != f.fn.toNat)
  | .cvtpk f => shapeCvtpk f
  | .cvtxp f => shapeCvtxp f
  | .shfl f => shapePm f [0, 2] fn07 false (tyRegs f.fn) (.any (tyRegs f.fn)) (.any 1)
  | .gshfl f => shapePm f [0, 2] fn07 false (tyRegs f.fn) (.any (tyRegs f.fn)) (.any 1)
  | .vote f => shapePm f [0] mod3pm false 1 (.any 1) .unused
  | .red f => shapeRed f
  | .scan f => shapeRed f
  | .isect f => shapeKeys f false
  | .smerge f => shapeKeys f false
  | .sort16 f => shapeKeys f true
  | .matchKeys f => shapePm f [0, 2] [0, 4] false (tyRegs f.fn) (.any (tyRegs f.fn)) .unused
  | .jarv f => shapeR f false [0] [0] false false false .none (.s 1) .unused .unused
  | .jwait f => shapeR f false [0] [0] false false false .none (.s 1) .unused .unused
  | .bra f => shapeB f false .none
  | .brx f => shapeBrx f false
  | .call f => shapeB f false (.reg 2 2)
  | .ret f => shapeR f false [0] [0] false false false .none (.any 2) .unused .unused
  | .exit f => shapeNone f false false
  | .nop f => shapeNone f false true
  | .ldg f => shapeLoad f false [0, 1, 2, 3, 4, 5, 6, 8, 9, 10, 11, 12, 13, 14] baseVS
  | .stg f => shapeStore f false baseVS
  | .ldc f => shapeLoad f false [0, 1, 2, 3, 4, 5, 6] baseVS
  | .ldga f => shapeMA f false [0, 1, 2, 3, 5, 6] [0, 1] [0, 1, 2, 3, 4] (f.w == (f.fn = 3)) true
      (.reg (sizeRegs f.fn) (sizeRegs f.fn)) .unused baseVS .unused
  | .stgr f => shapeMA f false [0, 1, 2, 3] [0, 2] [0, 1, 2, 3, 4] (f.w == (f.fn = 3)) false .none .unused baseVS
      (.any (sizeRegs f.fn))
  | .ldl f => shapeLoad f false [0, 1, 2, 3, 4, 5, 6] (.any 1)
  | .stl f => shapeStore f false (.any 1)
  | .atomg f => shapeAtom f baseVS
  | .atoml f => shapeAtom f (.any 1)
  | .redg f => shapeMA f false [0, 1, 2, 3, 4, 5, 6, 7, 8, 10, 11, 12] [0, 2] [0, 1, 2, 3, 4] true false .none
      (.any (if f.w then 2 else 1)) baseVS .unused
  | .pref f => shapeM f false [0, 1] false .none baseVS .unused
  | .vlook f => shapeWalk f [0, 1] (if f.mod = 1 then .reg 2 2 else .reg 1 1) .unused
  | .vsten f => { shapeWalk f [0, 1, 2] (.reg (stencilCount f) 1) .unused with
      groupOk := f.d.toNat + stencilCount f ≤ 256 }
  | .vmarch f => { shapeWalk f [0, 1] (.reg 2 2) triple with groupOk := marchGroupsOk f }
  | .vprobe f => shapeWalk f [0] (.reg 1 1) .unused
  | .vins f => shapeMA f false [0] [2, 3] [1, 2, 3, 4] (!f.w) true (.reg 2 2) triple (.s 2) .unused
  | .vact f => shapeMA f false [0, 1, 2, 3] [0, 1, 2, 3] [0, 1, 2, 3, 4] (!f.w) true (.reg 1 1)
      (if f.fn.toNat < 2 then triple else .v 1 1) (.s 2) .unused
  | .enq f => { shapeR f false [0, 1, 2, 3, 4, 5, 6, 7, 8, 9, 10, 11, 12, 13, 14, 15] [0] false false true (.reg 1 1)
        (.v (f.fn.toNat + 1) 1) (.s 2) .unused with
      groupOk := !(f.a.sel.toNat < 256 && 256 < f.a.sel.toNat + (f.fn.toNat + 1)) }
  | .sadd f => shapeInt f true fn07 true false 2
  | .ssub f => shapeInt f true fn07 true false 2
  | .smul f => shapeInt f true fn03 true false 2
  | .smulh f => shapeInt f true fn03 false false 2
  | .smad f => shapeInt f true fn03 true false 3
  | .smin f => shapeInt f true fn07 false false 2
  | .smax f => shapeInt f true fn07 false false 2
  | .scmp f => shapeR f true fn07 [0, 1, 2, 3, 4, 5] false false false (.reg 1 1) (.any (tyRegs f.fn))
      (.any (tyRegs f.fn)) .unused
  | .ssel f => shapeR f true [0, 2] [0] false false false (.reg (tyRegs f.fn) (tyRegs f.fn)) (.any 1)
      (.any (tyRegs f.fn)) (.any (tyRegs f.fn))
  | .sand f => shapeLogic f true 0
  | .sor f => shapeLogic f true 0
  | .sxor f => shapeLogic f true 0
  | .sshl f => shapeShift f true
  | .sshr f => shapeShift f true
  | .ssar f => shapeShift f true
  | .sbfx f => shapeR f true [0, 1] [0] false false false (.reg 1 1) (.any 1) (.any 1) .unused
  | .spopc f => shapeCount f true 0 false
  | .slea f => shapeR f true [0, 1] [0, 1, 2, 3] false false false (.reg 2 2) (.any 2) (.any 1) .unused
  | .smov f => shapeInt f true [0, 2] false false 1
  | .smovi f => shapeI f true (.reg 1 1) .unused
  | .sfadd f => shapeFp f true [8] [0] true true false 2
  | .sfmul f => shapeFp f true [8] [0] true true false 2
  | .sffma f => shapeFp f true [8] [0] true true false 3
  | .scvt f => shapeCvt f true ([0, 1, 8, 10, 11].contains (convSrc f) && fnIn f.fn [0, 1, 8, 10, 11] &&
      convSrc f != f.fn.toNat)
  | .sld f => shapeLoad f true [0, 1, 2, 3, 4, 5, 6, 8, 9, 10, 11, 12, 13, 14] baseVS
  | .sst f => shapeStore f true baseVS
  | .fence f => shapeMA f true [0] [1, 2, 3] [0, 1, 2, 3, 4] (!f.w) false .none .unused .unused .unused
  | .fencePromote f => shapeMA f true [1] [1, 3] [3] (!f.w) false .none (.any 1) .unused .unused
  | .discard f => shapeR f true [0] [0] false false false .none (.vs 2) (.any 1) .unused
  | .dgst f => shapeR f true [0] [0] false false true (.reg 2 2) .unused .unused .unused
  | .sbra f => shapeB f true .none
  | .sbrx f => shapeBrx f true
  | .jinit f => shapeR f true [0] [0] false false false (.reg 1 1) .unused .unused .unused
  | .sgetm f => shapeR f true [0] [0, 1, 2, 3] false false false (.reg 1 1) .unused .unused .unused
  | .yield f => shapeR f true [0] [0] false false false .none (.any 1) .unused .unused
  | .bar f => shapeR f true [0, 1, 2, 3, 4, 5, 6, 7, 8, 9, 10, 11, 12, 13, 14, 15] [0, 1] false false false .none .unused
      .unused .unused
  | .grow f => shapeR f true [0] [0] false false false .none (.any 1) .unused .unused
  | .shrink f => shapeR f true [0] [0] false false false .none (.any 1) .unused .unused
  | .hbeat f => shapeNone f true false
  | .launch f => shapeE f [0] [0] .none (.s 2) (.any 1) .unused
  | .cancel f => shapeE f [0] [0, 1, 2, 3] .none (.s 2) .unused .unused
  | .ccnt f => shapeE f [0] [0] (.reg 4 4) (.s 2) .unused .unused
  | .wait f => { shapeR f true fn07 [0] false false false .none (.any 1) .unused .unused with
      fnOk := true, zeroOk := !f.sat && f.fn = 0 }
  | .cpyin f => shapeCopy f baseVS (.any 1) (.any 1)
  | .cpyout f => shapeCopy f baseVS (.any 1) (.any 1)
  | .cpygg f => shapeCopy f baseVS baseVS (.any 1)
  | .cpymc f => shapeCopy f baseVS (.s 2) (.any 1)
  | .cpyt f => shapeCopy f baseVS (.s 4) (.any 1)
  | .cpytn f => shapeCopy f baseVS (.s 4) (.any 1)
  | .mma f => shapeE f mmaFns (mmaMods f) .none (.s 4) (.any 1) .unused
  | .mmasp f => shapeE f mmaFns (mmaMods f) .none (.s 4) (.any 1) (.any 1)
  | .mzero f => shapeE f [0] [0] .none (.any 1) .unused .unused
  | .mloadb f => shapeE f mmaFns [0, 1] .none (.sPart 2 1) (.any 1) .unused
  | .mdrain f => shapeE f [0, 8, 10, 11, 12, 13] (if f.fn.toNat ≤ 8 then [0] else [0, 1, 2, 3]) .none (.sPart 0 3) (.any 1)
      .unused
  | .mlease f => shapeNone f true false
  | .spproj f => shapeE f [0] [0] .none (.s 4) (.s 2) (.s 2)
  | .spsort f => shapeE f [0] [0] .none (.s 2) (.any 1) .unused
  | .spblnd f => shapeE f [0] [0] .none (.s 2) (.any 1) (.any 1)
  | .spback f => shapeE f [0] [0] .none (.s 2) (.any 1) (.s 2)
  | .rxreg f => shapeE f [0] [0] .none (.s 4) .unused .unused
  | .rxdereg f => shapeE f [0] [0] .none (.any 1) .unused .unused
  | .route f => shapeE f [0] [0, 1] .none (.s 4) (.any 1) (.any 1)
  | .recv f => shapeE f [0] [0] (.reg 4 4) (.any 1) (.any 1) .unused
  | .retn f => shapeE f [0] [0] .none (.sPart 0 3) (.any 1) .unused
  | .escq f => shapeE f [0] [0] (.reg 4 4) (.any 1) .unused .unused
  | .halo f => shapeE f [0] [0] .none (.s 2) (.s 2) (.any 1)
  | .phwait f => shapeR f true [0] [0] false false false .none (.s 2) (.any 1) .unused
  | .valloc f => shapeR f true [0] [0, 1] false false true (.reg 1 1) (.s 2) .unused .unused
  | .vfree f => shapeR f true [0] [0, 1] false false false .none (.s 2) (.any 1) .unused
  | .wfence f => shapeMA f true [0] [1, 3] [0, 1, 2, 3, 4] (!f.w) false .none .unused .unused .unused
  | .trap f => shapeI f true .none .unused
  | .rte f => shapeR f true [0] [0, 1] false false false .none .unused .unused .unused
  | .sprr f => shapeI f true (.reg 1 1) .unused
  | .sprw f => shapeI f true .none (.any 1)
  | _ => { uniform := true }

/-- Classes of selectors (R52). -/
inductive SelClass where
  | v | s | k | special | reserved
deriving DecidableEq, Repr

/-- The class a selector falls in (R52, R24): 0x355-0x3FF are reserved or illegal, both code 5. -/
def selClass (sel : BitVec 10) : SelClass :=
  let n := sel.toNat
  if n < 0x100 then .v else if n < 0x300 then .s else if n < 0x340 then .k else if n < 0x355 then .special
  else .reserved

/-- The number of the register or constant a selector names, within its class. -/
def selNum (sel : BitVec 10) : Nat :=
  let n := sel.toNat
  if n < 0x100 then n else if n < 0x300 then n - 0x100 else if n < 0x340 then n - 0x300 else n - 0x340

/-- How many registers an operand kind reads of a class, with their alignment; none where the kind does not accept
the class (code 10). -/
def kindRegs (k : OpKind) (c : SelClass) : Option (Nat × Nat) :=
  match k, c with
  | .any n, .v => some (n, n)
  | .any n, .s => some (n, n)
  | .any n, .k => some (n, n)
  | .any _, .special => some (1, 1)
  | .vs n, .v => some (n, n)
  | .vs n, .s => some (n, n)
  | .s n, .s => some (n, n)
  | .sPart _ _, .s => some (4, 4)
  | .v n al, .v => some (n, al)
  | _, _ => none

/-- The detail codes (R69) of one source field under its kind, in rising order. -/
def srcCodes (uniform : Bool) (nS : Nat) (x : Src) (k : OpKind) : List Nat :=
  match k with
  | .unused => if x.last || x.sel ≠ 0 then [4] else []
  | .typeField => []
  | _ =>
    let c := selClass x.sel
    let n := selNum x.sel
    if c = .reserved then [5]
    else
      (if x.last && (uniform || c ≠ .v) then [6] else []) ++
      (match kindRegs k c with
      | none => (if c = .s ∧ nS ≤ n then [8] else []) ++ [10]
      | some (m, al) =>
        (if c = .s ∧ nS < n + m then [8] else []) ++ (if n % al ≠ 0 then [9] else []))

/-- The detail codes of the D field (R55, R69). -/
def dstCodes (sh : Shape) (nS : Nat) : List Nat :=
  match sh.dk with
  | .none => if sh.d ≠ 0 then [4] else []
  | .reg n al =>
    (if !sh.uniform && 256 ≤ sh.d.toNat then [7] else []) ++
    (if sh.uniform && nS < sh.d.toNat + n then [8] else []) ++
    (if sh.d.toNat % al ≠ 0 then [9] else [])

/-- Every detail code (R69) that a shape earns on a strip with `nS` s registers. -/
def shapeCodes (sh : Shape) (nS : Nat) : List Nat :=
  (if sh.fnOk then [] else [2]) ++ (if sh.ctlOk then [] else [3]) ++
  (if sh.zeroOk && (sh.long || sh.la = 0) then [] else [4]) ++
  dstCodes sh nS ++ srcCodes sh.uniform nS sh.a sh.ak ++ srcCodes sh.uniform nS sh.b sh.bk ++
  srcCodes sh.uniform nS sh.c sh.ck ++ (if sh.groupOk then [] else [9])

/-- The least element of a list of detail codes. -/
def leastCode : List Nat → Option Nat
  | [] => none
  | c :: l =>
    match leastCode l with
    | none => some c
    | some m => some (min c m)

/-- The detail code with which an instruction traps as illegal on a strip with `nS` s registers (R69: the lowest
applies), or none when it is legal. -/
def illegalCode (i : Instr) (nS : Nat) : Option Nat :=
  match i with
  | .illegalInstruction _ => some 1
  | i => leastCode (shapeCodes (shape i) nS)

/-- The most s registers a strip can have (R29). A word legal with 512 of them is legal but for code 8. -/
def maxSregs : Nat := 512

/-- Why the decoder rejects a word (R69 codes 2-10): the word is an instruction's, but not a legal form of it. -/
inductive Reject where
  | badFunction
  | badControlField
  | nonzeroUnusedField
  | reservedSelector
  | badLastUse
  | badDestination
  | missingSRegister
  | misalignedGroup
  | badOperandKind
deriving DecidableEq, Repr

/-- The name of a detail code 2-10. -/
def rejectOf (code : Nat) : Reject :=
  match code with
  | 2 => .badFunction
  | 3 => .badControlField
  | 4 => .nonzeroUnusedField
  | 5 => .reservedSelector
  | 6 => .badLastUse
  | 7 => .badDestination
  | 8 => .missingSRegister
  | 9 => .misalignedGroup
  | _ => .badOperandKind

/-- The decoder: total on every word; an ill-formed word is rejected by name. A word of a major that is no
instruction's decodes to the table's ILLEGAL_INSTRUCTION. -/
def decode (w : DWord) : Except Reject Instr :=
  let i := decodeRaw w
  match i with
  | .illegalInstruction _ => .ok i
  | _ =>
    match illegalCode i maxSregs with
    | none => .ok i
    | some c => .error (rejectOf c)

/-! ## The encoder -/

/-- The 11 bits of a source field. -/
def Src.num (s : Src) : Nat := s.last.toNat * 2 ^ 10 + s.sel.toNat

/-- Bits [55:0] of the six formats (R56). -/
def FmtR.num (f : FmtR) : Nat :=
  f.fn.toNat * 2 ^ 52 + f.d.toNat * 2 ^ 43 + f.a.num * 2 ^ 32 + f.b.num * 2 ^ 21 + f.c.num * 2 ^ 10 +
    f.la.toNat * 2 ^ 6 + f.rm.toNat * 2 ^ 4 + f.sat.toNat * 2 ^ 3 + f.mod.toNat
def FmtI.num (f : FmtI) : Nat := f.fn.toNat * 2 ^ 52 + f.d.toNat * 2 ^ 43 + f.a.num * 2 ^ 32 + f.imm.toNat
def FmtM.num (f : FmtM) : Nat :=
  f.fn.toNat * 2 ^ 52 + f.d.toNat * 2 ^ 43 + f.a.num * 2 ^ 32 + f.b.num * 2 ^ 21 + f.c.num * 2 ^ 10 +
    f.la.toNat * 2 ^ 6 + f.cp.toNat * 2 ^ 4 + f.sc.toNat * 2 ^ 2 + f.iw.toNat * 2 + f.isg.toNat
def FmtMA.num (f : FmtMA) : Nat :=
  f.fn.toNat * 2 ^ 52 + f.d.toNat * 2 ^ 43 + f.a.num * 2 ^ 32 + f.b.num * 2 ^ 21 + f.c.num * 2 ^ 10 +
    f.la.toNat * 2 ^ 6 + f.scope.toNat * 2 ^ 3 + f.ord.toNat * 2 + f.w.toNat
def FmtB.num (f : FmtB) : Nat := f.fn.toNat * 2 ^ 52 + f.d.toNat * 2 ^ 43 + f.a.num * 2 ^ 32 + f.off.toNat
def FmtE.num (f : FmtE) : Nat :=
  f.fn.toNat * 2 ^ 52 + f.d.toNat * 2 ^ 43 + f.a.num * 2 ^ 32 + f.b.num * 2 ^ 21 + f.c.num * 2 ^ 10 +
    f.la.toNat * 2 ^ 6 + f.tv.toNat * 2 ^ 5 + f.tok.toNat * 2 ^ 2 + f.mod.toNat

/-- A word from its pipe bit, major and bits [55:0] (R50). -/
def pack (p : Bool) (major rest : Nat) : DWord := BitVec.ofNat 64 (p.toNat * 2 ^ 63 + major * 2 ^ 56 + rest)

/-- The word of an instruction, written from the same tables (R50, R56, R66-R68): the pipe bit, the major and the
format's fields. Machine events have no word; ILLEGAL_INSTRUCTION carries its own. -/
def encode : Instr → Option DWord
  | .iadd f => some (pack false 0x01 f.num)
  | .isub f => some (pack false 0x02 f.num)
  | .imul f => some (pack false 0x03 f.num)
  | .imulh f => some (pack false 0x04 f.num)
  | .imad f => some (pack false 0x05 f.num)
  | .idiv f => some (pack false 0x06 f.num)
  | .irem f => some (pack false 0x07 f.num)
  | .imin f => some (pack false 0x08 f.num)
  | .imax f => some (pack false 0x09 f.num)
  | .iabs f => some (pack false 0x0A f.num)
  | .ineg f => some (pack false 0x0B f.num)
  | .icmp f => some (pack false 0x0C f.num)
  | .isel f => some (pack false 0x0D f.num)
  | .iand f => some (pack false 0x0E f.num)
  | .ior f => some (pack false 0x0E f.num)
  | .ixor f => some (pack false 0x0E f.num)
  | .iandn f => some (pack false 0x0E f.num)
  | .ishl f => some (pack false 0x0F f.num)
  | .ishr f => some (pack false 0x10 f.num)
  | .isar f => some (pack false 0x11 f.num)
  | .ifshl f => some (pack false 0x12 f.num)
  | .ifshr f => some (pack false 0x13 f.num)
  | .bfx f => some (pack false 0x14 f.num)
  | .bfi f => some (pack false 0x15 f.num)
  | .popc f => some (pack false 0x16 f.num)
  | .clz f => some (pack false 0x16 f.num)
  | .ctz f => some (pack false 0x16 f.num)
  | .brev f => some (pack false 0x16 f.num)
  | .bperm f => some (pack false 0x17 f.num)
  | .lea f => some (pack false 0x18 f.num)
  | .isad f => some (pack false 0x19 f.num)
  | .mov f => some (pack false 0x1A f.num)
  | .movi f => some (pack false 0x1B f.num)
  | .dot4 f => some (pack false 0x1C f.num)
  | .dot8 f => some (pack false 0x1D f.num)
  | .fadd f => some (pack false 0x20 f.num)
  | .fsub f => some (pack false 0x21 f.num)
  | .fmul f => some (pack false 0x22 f.num)
  | .ffma f => some (pack false 0x23 f.num)
  | .fmin f => some (pack false 0x24 f.num)
  | .fmax f => some (pack false 0x25 f.num)
  | .fcmp f => some (pack false 0x26 f.num)
  | .fclass f => some (pack false 0x27 f.num)
  | .frnd f => some (pack false 0x28 f.num)
  | .fscale f => some (pack false 0x29 f.num)
  | .frcp f => some (pack false 0x2A f.num)
  | .frsq f => some (pack false 0x2B f.num)
  | .fsqrt f => some (pack false 0x2C f.num)
  | .fdiv f => some (pack false 0x2D f.num)
  | .fex2 f => some (pack false 0x2E f.num)
  | .flg2 f => some (pack false 0x2F f.num)
  | .fsinpi f => some (pack false 0x30 f.num)
  | .fcospi f => some (pack false 0x31 f.num)
  | .ftanh f => some (pack false 0x32 f.num)
  | .hfma2 f => some (pack false 0x33 f.num)
  | .fdot2 f => some (pack false 0x34 f.num)
  | .cvt f => some (pack false 0x35 f.num)
  | .cvtpk f => some (pack false 0x36 f.num)
  | .cvtxp f => some (pack false 0x37 f.num)
  | .shfl f => some (pack false 0x40 f.num)
  | .gshfl f => some (pack false 0x41 f.num)
  | .vote f => some (pack false 0x42 f.num)
  | .red f => some (pack false 0x43 f.num)
  | .scan f => some (pack false 0x44 f.num)
  | .isect f => some (pack false 0x45 f.num)
  | .smerge f => some (pack false 0x46 f.num)
  | .sort16 f => some (pack false 0x47 f.num)
  | .matchKeys f => some (pack false 0x48 f.num)
  | .jarv f => some (pack false 0x49 f.num)
  | .jwait f => some (pack false 0x4A f.num)
  | .bra f => some (pack false 0x50 f.num)
  | .brx f => some (pack false 0x51 f.num)
  | .call f => some (pack false 0x52 f.num)
  | .ret f => some (pack false 0x53 f.num)
  | .exit f => some (pack false 0x54 f.num)
  | .nop f => some (pack false 0x55 f.num)
  | .ldg f => some (pack false 0x58 f.num)
  | .stg f => some (pack false 0x59 f.num)
  | .ldc f => some (pack false 0x5A f.num)
  | .ldga f => some (pack false 0x5B f.num)
  | .stgr f => some (pack false 0x5C f.num)
  | .ldl f => some (pack false 0x5D f.num)
  | .stl f => some (pack false 0x5E f.num)
  | .atomg f => some (pack false 0x5F f.num)
  | .atoml f => some (pack false 0x60 f.num)
  | .redg f => some (pack false 0x61 f.num)
  | .pref f => some (pack false 0x62 f.num)
  | .vlook f => some (pack false 0x68 f.num)
  | .vsten f => some (pack false 0x69 f.num)
  | .vmarch f => some (pack false 0x6A f.num)
  | .vprobe f => some (pack false 0x6B f.num)
  | .vins f => some (pack false 0x6C f.num)
  | .vact f => some (pack false 0x6D f.num)
  | .enq f => some (pack false 0x70 f.num)
  | .sadd f => some (pack true 0x01 f.num)
  | .ssub f => some (pack true 0x02 f.num)
  | .smul f => some (pack true 0x03 f.num)
  | .smulh f => some (pack true 0x04 f.num)
  | .smad f => some (pack true 0x05 f.num)
  | .smin f => some (pack true 0x06 f.num)
  | .smax f => some (pack true 0x07 f.num)
  | .scmp f => some (pack true 0x08 f.num)
  | .ssel f => some (pack true 0x09 f.num)
  | .sand f => some (pack true 0x0A f.num)
  | .sor f => some (pack true 0x0B f.num)
  | .sxor f => some (pack true 0x0C f.num)
  | .sshl f => some (pack true 0x0D f.num)
  | .sshr f => some (pack true 0x0E f.num)
  | .ssar f => some (pack true 0x0F f.num)
  | .sbfx f => some (pack true 0x10 f.num)
  | .spopc f => some (pack true 0x11 f.num)
  | .slea f => some (pack true 0x12 f.num)
  | .smov f => some (pack true 0x13 f.num)
  | .smovi f => some (pack true 0x14 f.num)
  | .sfadd f => some (pack true 0x20 f.num)
  | .sfmul f => some (pack true 0x21 f.num)
  | .sffma f => some (pack true 0x22 f.num)
  | .scvt f => some (pack true 0x23 f.num)
  | .sld f => some (pack true 0x28 f.num)
  | .sst f => some (pack true 0x29 f.num)
  | .fence f => some (pack true 0x2A f.num)
  | .fencePromote f => some (pack true 0x2A f.num)
  | .discard f => some (pack true 0x2B f.num)
  | .dgst f => some (pack true 0x2C f.num)
  | .sbra f => some (pack true 0x30 f.num)
  | .sbrx f => some (pack true 0x31 f.num)
  | .jinit f => some (pack true 0x32 f.num)
  | .sgetm f => some (pack true 0x33 f.num)
  | .yield f => some (pack true 0x34 f.num)
  | .bar f => some (pack true 0x35 f.num)
  | .grow f => some (pack true 0x36 f.num)
  | .shrink f => some (pack true 0x37 f.num)
  | .hbeat f => some (pack true 0x38 f.num)
  | .launch f => some (pack true 0x40 f.num)
  | .cancel f => some (pack true 0x41 f.num)
  | .ccnt f => some (pack true 0x42 f.num)
  | .wait f => some (pack true 0x48 f.num)
  | .cpyin f => some (pack true 0x49 f.num)
  | .cpyout f => some (pack true 0x4A f.num)
  | .cpygg f => some (pack true 0x4B f.num)
  | .cpymc f => some (pack true 0x4C f.num)
  | .cpyt f => some (pack true 0x4D f.num)
  | .cpytn f => some (pack true 0x4E f.num)
  | .mma f => some (pack true 0x50 f.num)
  | .mmasp f => some (pack true 0x51 f.num)
  | .mzero f => some (pack true 0x52 f.num)
  | .mloadb f => some (pack true 0x53 f.num)
  | .mdrain f => some (pack true 0x54 f.num)
  | .mlease f => some (pack true 0x55 f.num)
  | .spproj f => some (pack true 0x58 f.num)
  | .spsort f => some (pack true 0x59 f.num)
  | .spblnd f => some (pack true 0x5A f.num)
  | .spback f => some (pack true 0x5B f.num)
  | .rxreg f => some (pack true 0x60 f.num)
  | .rxdereg f => some (pack true 0x61 f.num)
  | .route f => some (pack true 0x62 f.num)
  | .recv f => some (pack true 0x63 f.num)
  | .retn f => some (pack true 0x64 f.num)
  | .escq f => some (pack true 0x65 f.num)
  | .halo f => some (pack true 0x68 f.num)
  | .phwait f => some (pack true 0x69 f.num)
  | .valloc f => some (pack true 0x6C f.num)
  | .vfree f => some (pack true 0x6D f.num)
  | .wfence f => some (pack true 0x6E f.num)
  | .trap f => some (pack true 0x70 f.num)
  | .rte f => some (pack true 0x71 f.num)
  | .sprr f => some (pack true 0x72 f.num)
  | .sprw f => some (pack true 0x73 f.num)
  | .asyncTrapEntry _ => none
  | .longLatencyResultArrival _ _ _ => none
  | .spillRefillArrival _ _ => none
  | .growClaimGrant _ _ => none
  | .scbDrain _ _ => none
  | .engineCommandStart _ _ => none
  | .commandCompletion _ _ => none
  | .mintOperation _ _ => none
  | .translationFault _ _ _ _ => none
  | .routeDeliveryArrival _ => none
  | .routeRetry _ _ _ => none
  | .routeAnswerArrival _ => none
  | .dropNoticeArrival _ => none
  | .escrowDeadline _ _ => none
  | .launchCommand _ => none
  | .graphCommand _ => none
  | .copyCommand _ => none
  | .cancelCommand _ => none
  | .closeCommand _ => none
  | .launchForward _ _ => none
  | .workgroupDispatch _ _ _ => none
  | .stealRequest _ _ _ => none
  | .stripRetirement _ => none
  | .workGraphConsumerDispatch _ _ => none
  | .phaseCountEvent _ => none
  | .queueHalted _ => none
  | .watchdogHeartbeatExpiry _ _ => none
  | .watchdogWallClockExpiry _ => none
  | .timeSliceExpiry _ _ => none
  | .workgroupSave _ => none
  | .workgroupRestore _ _ => none
  | .haloEntryDelivery _ => none
  | .scaleOutPacketReceive _ _ => none
  | .scaleOutAck _ _ => none
  | .scaleOutRetransmit _ => none
  | .linkFlitRetry _ _ => none
  | .correctableError _ _ => none
  | .uncorrectableError _ _ => none
  | .patrolScrub _ _ => none
  | .hbmScrub _ _ => none
  | .qbell _ => none
  | .tibell _ => none
  | .savereq _ _ => none
  | .fqansRetry _ _ => none
  | .fqansZero _ _ => none
  | .fqansAbort _ _ => none
  | .fqcons _ _ => none
  | .registerWrite _ _ => none
  | .flip _ _ => none
  | .keyreq _ => none
  | .ioinvAsid _ => none
  | .ioinvAll => none
  | .displayFrameStart _ => none
  | .encodedFrameWrite _ => none
  | .deviceDmaAccess _ _ _ _ => none
  | .mgmtReadStatus _ _ => none
  | .mgmtReadErrorLog _ _ _ => none
  | .mgmtSetPartitions _ _ _ _ _ _ => none
  | .mgmtPatrolScrub _ _ _ => none
  | .mgmtSetPowerCap _ _ _ _ => none
  | .mgmtLoadFirmware _ _ _ => none
  | .mgmtAttestation _ _ _ => none
  | .mgmtModuleReset _ _ => none
  | .mgmtRaiseSecurityVersion _ _ => none
  | .boot _ _ => none
  | .powerCapThrottle _ _ => none
  | .thermalThrottleBand _ _ => none
  | .thermalCriticalBand _ _ => none
  | .thermalReset _ _ => none
  | .coolantAlarm _ _ => none
  | .illegalInstruction w => some w
  | .retnAnswerRetry _ _ => none
  | .copyNodeCompletion _ => none
  | .haltCleared _ => none
  | .mgmtSession _ => none
  | .mgmtMalformedRequest _ _ => none

/-- The instruction read from the word of an opcode-table row. The table numbers no bits; every instruction is one
64-bit little-endian word, and the bits above `nbits` are 0. -/
def decodeTableWord (_nbits w : Nat) : Option Instr :=
  match decode (BitVec.ofNat 64 w) with
  | .ok i => some i
  | .error _ => none

end Sys2Proof
end

