-- ==== Sys2Proof/Config.lean ====
section
/-! DEFINITION. What the spec leaves to the implementation or to standards outside it: free values without a body, so
that nothing proved of the model can rest on one of them (log 2, log 8, log 12, log 13, log 14). -/
namespace Sys2Proof

/-- A free choice between two things the spec allows ("software cannot tell which"), by the state's counter. -/
opaque Config.choice : Nat → Bool
/-- A free byte, by the counter and a position: what a discarded line or a half-done write holds. -/
opaque Config.freeByte : Nat → Nat → BitVec 8
/-- A free 32-bit word, by the counter and a position. -/
opaque Config.freeWord : Nat → Nat → BitVec 32
/-- SHA-512 (R492): outside the spec. -/
opaque Config.sha512 : List (BitVec 8) → BitVec 512
/-- Verification of an Ed25519 signature: key, signature, digest (R492). -/
opaque Config.verifyEd : List (BitVec 8) → List (BitVec 8) → BitVec 512 → Bool
/-- Verification of an ML-DSA-65 signature: key, signature, digest (R492). -/
opaque Config.verifyMl : List (BitVec 8) → List (BitVec 8) → BitVec 512 → Bool
/-- The device key pair's two signatures over an attestation report (R493). -/
opaque Config.attest : List (BitVec 8) → List (BitVec 8)
/-- The payload of an encoded frame: the registers in force, the key-frame flag and the frame's samples (R497). -/
opaque Config.encodeFrame : List (BitVec 64) → Bool → List Nat → List (BitVec 8)
/-- A chroma sample of 4:2:0 at a block of four pixels, out of the samples of all pixels of a frame: the width, the block's
column and row, and the plane (R496). BT.709 gives no filter. -/
opaque Config.chroma : Nat → Nat → Nat → List Nat → Nat
/-- A read of PCIe configuration space: the offset and the counter (R498). -/
opaque Config.pcieRead : Nat → Nat → BitVec 64
/-- The response body of a status read: temperatures, power and fused units as firmware formats them (R490). -/
opaque Config.statusBody : List Nat → List (BitVec 8)

end Sys2Proof
end

