-- ==== Sys2Proof/Machine/State.lean ====
section
/-! DEFINITION. Everything the FZ-9400 holds, as plain data: strips and strands, workgroups and launches, the cores'
buffers, caches, engines and scratch, the C-dies' dispatchers and reporting units, the S-die, and the package's
memory; and the state right after package reset. Sparse tables are lists of (key, value) with rising keys. -/
namespace Sys2Proof.Machine

/-- A sparse table: (key, value) pairs with strictly rising keys. -/
abbrev Table (α : Type) := List (Nat × α)
/-- Bytes by address, in canonical form: rising addresses, no zero byte listed (an unlisted byte reads 0). -/
abbrev Memory := List Host.Cell

/-! ## Strands and strips -/

/-- What a blocked strand waits for (R124). -/
inductive Block where
  /-- JWAIT on an s register (R127). -/
  | join (reg : Nat)
  /-- BAR n, with AR or not (R177). -/
  | bar (n : Nat) (ar : Bool)
  /-- WAIT on a token mask (R284). -/
  | wait (mask : BitVec 8)
  /-- GROW, by the claim's identifier (R147). -/
  | grow (claim : Nat)
  /-- PHWAIT on a phase record (R470). -/
  | phase (record : DWord) (target : Word)
  /-- RTE whose vectored strands are not all present (R409). -/
  | rte (skip : Bool)
deriving DecidableEq, Repr

/-- The states of a strand (R124). -/
inductive StrandState where
  | runnable
  | blocked (b : Block)
  | exited
deriving DecidableEq, Repr

/-- One strand: its PC (R12), its state, its starvation count (R125), YIELD's mark (R176) and a handler's freeze
(R401). -/
structure Strand where
  pc : VA
  st : StrandState
  starve : Nat
  deferred : Bool
  frozen : Bool
deriving DecidableEq, Repr

/-- A v register that is not unmapped (R141, R142): mapped or spilled, its valid bits, its poisoned entries (R423) and
its 16 entries. A spilled register's entries are in the strip's spill area, and here read 0. -/
structure VReg where
  spilled : Bool
  valid : Strands
  poison : Strands
  vals : List Word
deriving DecidableEq, Repr

/-- A token: its outstanding count and its status code (R281, R282). -/
structure Token where
  count : Nat
  code : Nat
deriving DecidableEq, Repr

/-- The destination registers of an issue; VMARCH writes its D pair and its position triple (R338). -/
inductive Dest where
  | none
  | v (first n : Nat)
  | march (d p : Nat)
  | s (first n : Nat)
deriving DecidableEq, Repr

/-- The operands an issue read: for each field, one list of words per strand (one list in all for the uniform pipe). -/
structure Operands where
  a : List (List Word)
  b : List (List Word)
  c : List (List Word)
deriving DecidableEq, Repr

/-- An issued instruction whose result is outstanding, with its lookahead window (R137, R138), or a memory instruction
recorded for re-issue after a translation fault (R418). -/
structure Flight where
  id : Nat
  instr : Instr
  pc : VA
  /-- The executing set. -/
  x : Strands
  /-- Strands of the set whose access is not yet performed. -/
  undone : Strands
  /-- Issues of the window still to come. -/
  left : Nat
  dest : Dest
  /-- For each destination register, the strands for which the result is discarded (R138). -/
  lost : List Strands
  ops : Operands
  /-- The result words of each strand performed so far. -/
  got : List (List Word)
  /-- The flags to raise at arrival (R501). -/
  flags : BitVec 6
  arrived : Bool
  /-- The result stands in staging rows (R153). -/
  staged : Bool
  /-- Issued inside a trap handler (R402). -/
  handler : Bool
  /-- Long-latency, with a window; false for a store recorded for re-issue. -/
  long : Bool
  /-- The poison fault was answered ZERO: poison reads as zero (R424). -/
  zero : Bool
  /-- A release, or an instruction that is one, that waits for its strands' earlier accesses while the strip goes on (R245,
  R258): not long-latency, and not held against the next issue. -/
  later : Bool
  /-- Notes of an access under way: the record positions an ENQ has reserved (R212), plus 1; a DISCARD's next line; of a
  store, (strand, first byte, end) of each physical span written (R116). -/
  notes : List Nat
  /-- For each strand whose access is not single-copy atomic and has been read in part: the bytes read so far, by their
  offset in the access (R240). -/
  part : Table (Table Byte)
  /-- The strands of `part` that have read a poisoned byte. -/
  partBad : Strands
  /-- For each destination register, the strands whose result word a restore has found poisoned (R435). -/
  spoilt : List Strands
deriving DecidableEq, Repr

/-- An asynchronous trap not yet taken (R400): its cause, TRAP_WORD, TRAP_INFO0 and TRAP_INFO1. -/
structure AsyncTrap where
  cause : Nat
  word : DWord
  info0 : Word
  info1 : Word
deriving DecidableEq, Repr

/-- A resident strip. -/
structure Strip where
  wg : Nat
  /-- Strip index within the workgroup (R23). -/
  index : Nat
  die : Nat
  /-- Core within the die. -/
  core : Nat
  bay : Nat
  slice : Nat
  slot : Nat
  /-- Strands 0-15. -/
  strands : List Strand
  /-- The v registers that are not unmapped. -/
  v : Table VReg
  /-- s registers that are not 0. -/
  s : Table Word
  /-- Poisoned s registers (R423). -/
  sPoison : List Nat
  /-- STRIP_STATUS (R13). -/
  status : Word
  /-- STRIP_FPFLAGS (R14). -/
  fpflags : Word
  /-- Tokens 0-7 (R281). -/
  tokens : List Token
  flights : List Flight
  /-- The Coffer floor F (R144). -/
  floor : Nat
  /-- TRAP_CAUSE, TRAP_MASK, TRAP_PC, TRAP_WORD, TRAP_INFO0 and TRAP_INFO1 (R404-R406). -/
  cause : Word
  mask : Word
  trapPc : VA
  trapWord : DWord
  info0 : Word
  info1 : Word
  /-- Asynchronous traps in completion order (R403). -/
  asyncs : List AsyncTrap
  /-- Fault queue sequence numbers the strip waits on (R418, R419). -/
  waits : List Nat
  /-- Physical addresses of poison that refills have met, to be noted when the issue takes effect (R151). -/
  noted : List Nat
  /-- A poisoned fetch was answered ZERO: the next fetch reads the all-zero word (R424). -/
  zeroFetch : Bool
  /-- The executing set of a fetch that met a fault or trapped poison, until it has issued (R421); 0 for none. -/
  fetchX : Strands
  /-- Cycles below which the strip is not ready after a YIELD (R176). -/
  yieldUntil : Nat
  /-- Matrix engine lease count (R313). -/
  lease : Nat
deriving DecidableEq, Repr

/-! ## Workgroups and launches -/

/-- A workgroup's part on one core (R186): its scratch base and its first accumulator slot. -/
structure Part where
  core : Nat
  scratch : Nat
  slots : Nat
deriving DecidableEq, Repr

/-- The check state of an even slot pair (R316). -/
inductive PairCheck where
  | off
  | clean
  | twin (count : Nat)
deriving DecidableEq, Repr

/-- A resident workgroup. -/
structure Wg where
  launch : Nat
  wg0 : Word
  wg1 : Word
  wg2 : Word
  leaf : Word
  die : Nat
  /-- The sector that holds its cores (R186). -/
  sector : Nat
  parts : List Part
  /-- Check states other than OFF, by part × 16 + pair (R316). -/
  checks : Table PairCheck
  /-- First record position and record count of a consumer workgroup (R203). -/
  records : Nat × Nat
  /-- Ordinal within its launch's dispatch (for a consumer, R200). -/
  ordinal : Nat
  /-- The cycle in which a save began and its strips stopped issuing (R433, step 1). -/
  saving : Option Nat
deriving DecidableEq, Repr

/-- A launch record as read (R180, R181). -/
structure Lrec where
  code : DWord
  handler : DWord
  param : DWord
  spill : DWord
  done : DWord
  flags : Word
  strands : Nat
  sregs : Nat
  floor : Nat
  scratch : Nat
  acc : Nat
  lease : Nat
  sweight : Nat
  span : Nat
  hbperiod : Nat
  g0 : Nat
  g1 : Nat
  g2 : Nat
  escto : Nat
  walllim : Nat
  vdesc : DWord
  /-- (LO, HI) of the four C-dies. -/
  range : List (Nat × Nat)
deriving DecidableEq, Repr

/-- The status values of a counter record (R195). -/
inductive Status where
  | pending | running | done | cancelled | watchdog | invalid | aborted
deriving DecidableEq, Repr

/-- A job's attributes as the dispatcher read them (R206, R489). -/
structure Job where
  index : Nat
  asid : Nat
  part : Nat
  ceil : Nat
  poisonTrap : Bool
  watchdog : Bool
  slice : Nat
  root : Nat
  jrec : DWord
  /-- Context pools of the four dies: base and size (R435). -/
  pool : List (Nat × Nat)
deriving DecidableEq, Repr

/-- What a launch, graph or copy serves: a queue command, by queue and position, or a graph run's node. -/
inductive Origin where
  | command (queue pos : Nat)
  | node (graph index : Nat)
deriving DecidableEq, Repr

/-- Work of a launch on one die: unstarted index ranges held by the die's dispatcher, batches held by clusters, the
residency used for the watchdog. -/
structure DieWork where
  /-- Unstarted workgroup (dense) or leaf (sparse) indices, as ranges [lo, hi). -/
  todo : List (Nat × Nat)
  /-- Batches handed to clusters: the cluster and the indices not yet placed (R187). -/
  batches : List (Nat × List Nat)
  /-- The die has received the launch (R487). -/
  forwarded : Bool
  /-- Cycle of the last heartbeat, restore or first residency, moved on by the time without residency (R428). -/
  beat : Nat
  /-- The cycle from which no strip of the launch has been resident here. -/
  away : Option Nat
deriving DecidableEq, Repr

/-- A launch that has been read and is not yet final. -/
structure Launch where
  /-- Address of its record. -/
  address : DWord
  /-- The queue's owner die (R487). -/
  owner : Nat
  lrec : Lrec
  seq : DWord
  job : Job
  origin : Origin
  /-- PHASE of its command; 0 for none. -/
  phase : DWord
  /-- %phase for its workgroups (R205). -/
  phaseCount : Word
  prio : Nat
  status : Status
  count : Nat
  /-- The Assay digest D (R253). -/
  digest : DWord
  work : List DieWork
  /-- Cycle of the first workgroup's start (R429). -/
  start : Nat
  started : Bool
  /-- Its record was found invalid; completed once the previous command has (R182). -/
  badRecord : Bool
  /-- Its workgroups may be dispatched (R182, R189). -/
  open_ : Bool
  /-- The launch of a work-graph queue's consumers: NQDESC's identifier in `nodeQueues`, plus 1; 0 otherwise. -/
  consumerOf : Nat
  /-- The count of memory writes when it opened: older instruction words cannot be fetched in it (R18). -/
  wrote : Nat
deriving DecidableEq, Repr

/-! ## Cores -/

/-- A store coalescing buffer entry (R224). -/
structure ScbEntry where
  /-- Physical line address (PA / 128). -/
  line : Nat
  /-- Valid bytes: byte i of the line is valid when listed (offset, value), rising offsets. -/
  bytes : Table Byte
  /-- Poisoned 32-bit words of the entry (R422). -/
  poison : List Nat
  /-- Cycle in which its first byte entered. -/
  since : Nat
  /-- Launches whose stores it carries (R253); spills carry none. -/
  launches : List Nat
  /-- CP of the last store merged into it (R234). -/
  cp : Nat
deriving DecidableEq, Repr

/-- One write on its way to its home slice: bytes, or a reduction (function, 64-bit width, PR of its page, operand),
with the cache policy of its page. -/
inductive PostedOp where
  | write (pa cp : Nat) (bytes : List Byte)
  | red (pa cp fn : Nat) (w pr : Bool) (a : Nat)
deriving DecidableEq, Repr

/-- An ordered store or a REDG not yet performed (R258, R263): its strip and strands, the launches whose digest it joins,
and its writes in order. -/
structure Posted where
  strip : Nat
  x : Strands
  launches : List Nat
  ops : List PostedOp
deriving DecidableEq, Repr

/-- A line held in a cache: its bytes and poisoned 8-byte words (0-15) at the fill, and whether it is marked constant
(R117, R228). -/
structure CacheLine where
  bytes : List Byte
  poison : List Nat
  constant : Bool
deriving DecidableEq, Repr

/-- A leaf-pointer entry of the walker (R330): for a VDESC and a leaf position, the leaf and its 26 neighbours. -/
structure LeafEntry where
  vdesc : Nat
  position : Int × Int × Int
  leaves : List Nat
deriving DecidableEq, Repr

/-- A translation held by a TLB: ASID, first page address, page bytes and the leaf entry (R417). -/
structure TlbEntry where
  asid : Nat
  page : Nat
  bytes : Nat
  entry : DWord
deriving DecidableEq, Repr

/-- A range of scratch bytes of a core, or of accumulator slots (R275): [lo, hi). -/
structure Region where
  slot : Bool
  lo : Nat
  hi : Nat
deriving DecidableEq, Repr

/-- An engine command in a region scoreboard (R276). -/
structure Cmd where
  id : Nat
  strip : Nat
  wg : Nat
  instr : Instr
  pc : VA
  x : Strands
  ops : Operands
  /-- TOK when TV = 1. -/
  token : Option Nat
  reads : List Region
  writes : List Region
  /-- Another core's entry of a CPYMC (R289). -/
  shadow : Bool
  started : Bool
  /-- The code with which the command completes, once it is known: it failed a check at issue, or it has been performed. -/
  failed : Option Nat
  /-- Launch of the issuing workgroup, and its job. -/
  launch : Nat
  job : Job
  /-- Progress of a command that takes several events: a phase number and numbers of its own. -/
  stage : Nat
  data : List Nat
deriving DecidableEq, Repr

/-- The state of one slot of an open escrow entry (R387). UNSENT is `inFlight`: its delivery is on its way. -/
inductive SlotState where
  | unused
  | inFlight
  | waiting (retryAt : Nat)
  | sent
  | returned
  | dropped
  | timedOut
deriving DecidableEq, Repr

/-- The states of an escrow entry (R385). -/
inductive EscrowState where
  | free
  | held
  | open
deriving DecidableEq, Repr

/-- An escrow entry of a core (R385-R388). -/
structure Escrow where
  st : EscrowState
  gen : BitVec 16
  /-- The core that its handles name (die × 96 + core); after a restore another than its own (R394). -/
  origin : Nat
  /-- The ROUTE command that holds it. -/
  cmd : Nat
  slots : List SlotState
  /-- Cycle of the deadline; none when ESCTO is 0. -/
  deadline : Option Nat
  /-- Rows reassembled and written. -/
  rowsDone : List Nat
deriving DecidableEq, Repr

/-- An inbox slot of a core (R377, R378). -/
structure Inbox where
  ident : Nat
  job : Nat
  wg : Nat
  part : Nat
  ring : Nat
  cap : Nat
  rb : Nat
  rsv : Nat
  arr : Nat
  clm : Nat
  fre : Nat
deriving DecidableEq, Repr

/-- What an admission claim is for (R145): the next workgroup of a launch, a consumer of a work-graph queue, or a saved
workgroup, on a target. -/
inductive Admission where
  | launch (die launch target : Nat)
  | consumer (queue target : Nat)
  | restore (wg target : Nat)
deriving DecidableEq, Repr

/-- A claim in a slice's queue (R145, R147), with the cycle in which it was made: a GROW of a strip, with the strip's slot,
or an admission. -/
inductive Claim where
  | grow (id strip floor slot made : Nat)
  | admission (id : Nat) (who : Admission) (floor made : Nat)
deriving DecidableEq, Repr

/-- One core. -/
structure Core where
  scb : List ScbEntry
  posted : List Posted
  /-- Read cache lines by physical line. -/
  rc : Table CacheLine
  /-- Instruction cache: 64-bit words by PA / 8, as fetched. -/
  ic : Table DWord
  wleaf : List LeafEntry
  /-- Walker node and voxel data lines by physical line. -/
  wnode : Table CacheLine
  wdata : Table CacheLine
  scratch : Memory
  /-- Poisoned 32-bit words of scratch, by word index. -/
  scratchPoison : List Nat
  /-- Accumulator entries by slot × 2,048 + row × 128 + column. -/
  acc : Table Word
  accPoison : List Nat
  /-- The windows and slot ranges that occupants have left, newest first: (first, end, job) (R183). -/
  scratchLeft : List (Nat × Nat × Nat)
  accLeft : List (Nat × Nat × Nat)
  rsb : List Cmd
  /-- Escrow entries 0-31 other than the reset entry; an entry that a restore put here stands at its number + 32 × (1 + the
  core it came from) (R394). -/
  escrow : Table Escrow
  /-- Inbox slots 0-7 in use. -/
  inboxes : Table Inbox
  /-- ENGEVT, PSNCNT (R404) and the route discard counter (R390). -/
  engevt : Word
  psncnt : Word
  discards : Word
  /-- The strip that holds the matrix engine (R313), plus 1; 0 for none. -/
  holder : Nat
  /-- Where the matrix engine's round robin starts: one past the last holder's place (bay, slice, slot) (R313). -/
  holderPlace : Nat
  tlb : List TlbEntry
  /-- Claim queues by slice of the core (bay × 4 + slice). -/
  claims : Table (List Claim)
deriving DecidableEq, Repr

/-! ## Dies -/

/-- An unanswered entry of a die's fault queue (R420), or a fault waiting for room (R426). -/
structure FaultEntry where
  seq : Nat
  asid : Nat
  page : Nat
  kind : Nat
  va : Nat
  access : Nat
  source : Nat
  waiters : Nat
  /-- The strips and agents that have joined, each once: strip identifiers × 2, other agents' codes × 2 + 1. -/
  who : List Nat
  /-- Written in the queue; false while it waits for room. -/
  written : Bool
deriving DecidableEq, Repr

/-- How far one strand's VINS has come (R343): what it does next. -/
inductive InsertStep where
  /-- Nothing done yet. -/
  | fresh
  /-- Read root entry `j` of the probe, `left` of them still to be read. -/
  | probe (j left : Nat)
  /-- Claim the empty root entry `j`. -/
  | claim (j left : Nat)
  /-- The entry is claimed: take and clear a node. -/
  | root (j left : Nat)
  /-- Publish node `n` in the claimed entry. -/
  | publish (j left n : Nat)
  /-- Read the child word of a node: a branch, or the leaf. -/
  | link (leaf : Bool) (parent : Nat)
  /-- The child word was empty: take and initialise an index. -/
  | alloc (leaf : Bool) (parent : Nat)
  /-- Link index `m` by a CAS. -/
  | cas (leaf : Bool) (parent m : Nat)
  /-- Another request linked `old` first: give `m` back. -/
  | spare (leaf : Bool) (m old : Nat)
deriving DecidableEq, Repr

/-- A request waiting at a die's Mint (R339), for a strip of a core (die × 96 + core) and its job. -/
structure MintReq where
  strip : Nat
  core : Nat
  job : Job
  /-- The flight it serves, or none for VFREE. -/
  flight : Option Nat
  strand : Nat
  instr : Instr
  ops : Operands
  /-- Its poison fault was answered ZERO (R424). -/
  zero : Bool
  /-- Of a VINS: its progress. -/
  step : InsertStep
deriving DecidableEq, Repr

/-- A job's time slice on a die (R431): the cycle at which it began. -/
structure Slice where
  job : Nat
  since : Nat
deriving DecidableEq, Repr

/-- A saved workgroup (R434-R438): what the image holds, with its address in the job's pool. -/
structure Image where
  addr : Nat
  bytes : Nat
  job : Nat
  wgId : Nat
  wg : Wg
  strips : Table Strip
  /-- Uncompleted commands in scoreboard order, each with its part. -/
  cmds : List (Nat × Cmd)
  /-- For each part: window bytes, poisoned window words, slot entries and poisoned slot entries. -/
  scratch : List Memory
  scratchPoison : List (List Nat)
  acc : List (Table Word)
  accPoison : List (List Nat)
  /-- Inboxes with their slots; escrow entries with their parts and numbers. -/
  inboxes : List (Nat × Inbox)
  escrow : List (Nat × Nat × Escrow)
  /-- GROW claims that waited: strip, identifier and new floor. -/
  claims : List (Nat × Nat × Nat)
  savedAt : Nat
deriving DecidableEq, Repr

/-- An entry of the route directory held by a die (R376). -/
structure DirEntry where
  ident : Nat
  job : Nat
  die : Nat
  core : Nat
  slot : Nat
  wg : Nat
  resident : Bool
deriving DecidableEq, Repr

/-- The thermal bands of R500. -/
inductive Band where
  | normal | throttle | critical
deriving DecidableEq, Repr

/-- One C-die and its control block page (R483). -/
structure Die where
  rdc : Table CacheLine
  /-- The ASID of each RDC line (R453). -/
  rdcAsid : Table Nat
  tlb : List TlbEntry
  tiPending : Bool
  fqbase : DWord
  fqcap : DWord
  fqprod : DWord
  fqcons : DWord
  /-- SEQ written to FQANS and not yet completed by its action. -/
  fqans : DWord
  elbase : DWord
  elcap : DWord
  elprod : DWord
  elcons : DWord
  ellost : DWord
  tilog : DWord
  jobtab : DWord
  qtab : DWord
  tiskip : DWord
  faults : List FaultEntry
  /-- Next fault sequence number. -/
  fseq : Nat
  mint : List MintReq
  slices : List Slice
  /-- Jobs whose slices have expired here, the one whose last expiry lies furthest back first (R431). -/
  expired : List Nat
  /-- For each priority, the queue whose turn it is and what it has taken of its weight (R190). -/
  turns : List (Nat × Nat)
  images : List Image
  directory : List DirEntry
  /-- Power cap in W and whether issue is held back (R499). -/
  cap : Nat
  held : Bool
  band : Band
  temp : Nat
  power : Nat
  scrubs : Nat
  hbmScrubs : Nat
  /-- Sequence number of the next error record, and the last record (unit, severity, position, cycle, ring index)
  for repeats within 1 ms (R425). -/
  elseq : Nat
  lastErr : Option (Nat × Nat × Nat × Nat × Nat)
deriving DecidableEq, Repr

/-! ## Package -/

/-- The state of a graph node (R199). -/
inductive NodeState where
  | waiting | running | completed | skipped
deriving DecidableEq, Repr

/-- A graph node as read (R198). -/
structure Node where
  kind : Nat
  npred : Nat
  succ0 : List Nat
  succ1 : List Nat
  arg : DWord
  st : NodeState
  /-- Predecessors completed or skipped, and whether one completed. -/
  met : Nat
  live : Bool
deriving DecidableEq, Repr

/-- A graph in progress (R198-R201). -/
structure Graph where
  owner : Nat
  record : DWord
  seq : DWord
  job : Job
  origin : Origin
  phase : DWord
  prio : Nat
  nodes : List Node
  count : Nat
  status : Status
deriving DecidableEq, Repr

/-- A copy in progress for a copy command or node (R202). -/
structure Copy where
  origin : Origin
  job : Job
  src : DWord
  dst : DWord
  len : Nat
  die : Nat
deriving DecidableEq, Repr

/-- A work-graph queue in use (R203, R204). -/
structure NodeQueue where
  graph : Nat
  node : Nat
  desc : DWord
  die : Nat
  job : Job
  /-- The consumer launch's identifier, plus 1; 0 before CONS has been read. -/
  launch : Nat
  /-- Consumers dispatched: (ordinal, last position + 1, retired). -/
  consumers : List (Nat × Nat × Bool)
  next : Nat
deriving DecidableEq, Repr

/-- A command accepted from a package queue and not yet completed (R486). -/
structure Accepted where
  pos : Nat
  /-- The job as read at acceptance (R489). -/
  job : Job
  seq : DWord
  kind : Nat
  level : Nat
  arg : DWord
  phase : DWord
  /-- The status with which it ends without running: INVALID (R486, R489) or CANCELLED (R503, R196). -/
  ends : Option Status
  started : Bool
  /-- The launch, graph or copy that runs it, plus 1; 0 before the start. -/
  runs : Nat
deriving DecidableEq, Repr

/-- A package queue's dispatcher state: commands accepted and not complete, and a doorbell rung for positions that wait. -/
structure Queue where
  accepted : List Accepted
  bell : Bool
  /-- HALT seen and HALTED written (R488). -/
  halted : Bool
deriving DecidableEq, Repr

/-- A route message between cores (R378-R387); the handle names the escrow slot (R380). -/
inductive Message where
  /-- A delivery: the handle, the inbox identifier, the row's bytes, the sending job, and whether it is the slot's first
  attempt (R443). -/
  | delivery (handle : DWord) (ident : Nat) (bytes : List Byte) (job : Nat) (first : Bool)
  /-- An answer: the handle and the row's bytes, with the RETN command that sent it and the answer's number. -/
  | answer (handle : DWord) (bytes : List Byte) (cmd index : Nat)
  /-- A drop notice. -/
  | drop (handle : DWord)
deriving DecidableEq, Repr

/-- A halo entry of a HALO command under way (R467): the issuing core and command, the entry, and what its delivery
needs of them, so that it finishes after a cancellation too (R469): the job, the launch, the plan's address and the
step. -/
structure HaloFlight where
  core : Nat
  cmd : Nat
  index : Nat
  job : Job
  launch : Nat
  plan : Nat
  step : Word
  /-- Its writes are performed, or it has gone out over a connection: it waits for its count or its acknowledgement. -/
  sent : Bool
deriving DecidableEq, Repr

/-- A phase count event on its way to its record (R468). -/
structure PhaseEvent where
  record : DWord
  job : Job
  /-- The die whose agent performs it. -/
  die : Nat
  /-- The step of a delivery, or none for a member's completion. -/
  step : Option Word
  /-- The HALO command that waits for it. -/
  halo : Option Nat
deriving DecidableEq, Repr

/-- What a die's own agent was doing when it met a translation fault (R421), to be repeated or ended. -/
inductive Waiter where
  | launch (id : Nat)
  | node (graph node : Nat)
  | copy (id : Nat)
  | queue (q : Nat)
  | nodeQueue (id : Nat)
  | mint (strip : Nat)
  | phase (record : DWord) (job : Nat)
deriving DecidableEq, Repr

/-- A die's agent that waits on a fault queue entry. -/
structure DieWait where
  die : Nat
  seq : Nat
  who : Waiter
deriving DecidableEq, Repr

/-- What a die's agent does at an address of a job: one operation on memory, repeated whole after a fault (R421). -/
inductive AgentOp where
  /-- Write bytes. -/
  | bytes (b : List Byte)
  /-- Add 1 to the COUNT of a counter record that is not final (R195). -/
  | countLive
  /-- A counter record that is PENDING becomes RUNNING (R195). -/
  | startPending
  /-- A counter record that is not final takes a status (R196). -/
  | statusLive (code : Nat)
  /-- PUB of a node-queue descriptor advances past every record that is written behind no unwritten one (R211). -/
  | publish
  /-- A position of a node queue becomes a void record (R212). -/
  | voidRecord (pos : Nat)
  /-- A command of a package queue completes, its records being final (R486, R487, R504). With `all`, the records are those
  of other levels of the job too. -/
  | commandDone (q pos count : Nat) (st : Status) (digest : DWord) (all : Bool)
  /-- A launch node's launch has completed, its record being final (R194). -/
  | nodeDone (graph node : Nat)
deriving DecidableEq, Repr

/-- An operation of a die's agent that met a translation fault, or that follows such a one of its job; performed in
order once the entry is answered. -/
structure Owed where
  die : Nat
  job : Job
  va : Nat
  op : AgentOp
deriving DecidableEq, Repr

/-- A scale-out connection (R471). -/
structure Conn where
  up : Bool
  job : Job
  /-- Receive region of this side: base address and size in the job's space. -/
  base : DWord
  size : Nat
  /-- Next sequence number to send and to receive. -/
  sendSeq : Nat
  recvSeq : Nat
  /-- Unacknowledged packets: the packet, its command, tries and last send cycle. -/
  unacked : List (Packet × Nat × Nat × Nat)
  /-- What this side reports of packets it did not perform: the sequence number, and 1 for a refusal or 2 for a fault. -/
  reports : List (Nat × Nat)
deriving DecidableEq, Repr

/-- A display head's registers (R496, R497) and frame state. -/
structure Head where
  owner : DWord
  fbaddr : DWord
  pitch : DWord
  mode : DWord
  flipTo : Option DWord
  flipped : DWord
  frames : DWord
  enc : DWord
  codec : DWord
  bitrate : DWord
  bsbase : DWord
  bscap : DWord
  bsprod : DWord
  bscons : DWord
  skipped : DWord
  keyreq : Bool
  /-- MODE, PITCH and stream registers in force for the current frame. -/
  live : List DWord
  /-- A frame handed over and not yet encoded: (frame number, cycle, key, first after a change). -/
  frame : Option (Nat × Nat × Bool × Bool)
  /-- The samples of that frame as converted: the Y′ plane, then the Cb and Cr planes (R496). -/
  scan : List Nat
  /-- Frames encoded since the last key frame. -/
  sinceKey : Nat
deriving DecidableEq, Repr

/-- An encoder's BUSY counter and turn (R497). -/
structure Encoder where
  busy : DWord
  turn : Nat
deriving DecidableEq, Repr

/-- The IOMMU (R498). -/
structure Iommu where
  iotab : DWord
  cached : List TlbEntry
deriving DecidableEq, Repr

/-- A management session (R491). -/
structure Session where
  role : Option Role
  answered : List (DWord × Nat × List Byte)
deriving DecidableEq, Repr

/-- A unit that failed its power-on self-test (R3): a bay by die × 1,152 + core × 12 + bay, or a core by die × 96 + core. -/
inductive FailedUnit where
  | bay (n : Nat)
  | core (n : Nat)
deriving DecidableEq, Repr

/-- The boot state (R492), with the module's error record of self-test failures (R3), oldest first. -/
structure Boot where
  recovery : Bool
  image : Option FwImage
  fuseMin : Nat
  keyEd : BitVec 512
  keyMl : BitVec 512
  failures : List FailedUnit
deriving DecidableEq, Repr

/-- A line held by the L2 slice of its home die (R231, R234): modified since its write-back or not, the CP of the access
that allocated it, and its place in the order of allocations. -/
structure L2Line where
  dirty : Bool
  cp : Nat
  age : Nat
  /-- The sector presence vector: the sectors in which a copy has been left (R232). -/
  present : BitVec 4
deriving DecidableEq, Repr

/-- A read-only copy of a line that a sector of its home die holds (R232): the CP of the read that left it, and its place in
the order of allocations. Its contents are the home's: a write at home invalidates it first. -/
structure SectorCopy where
  cp : Nat
  age : Nat
deriving DecidableEq, Repr

/-- Contents of a memory line: its bytes and its poisoned 8-byte words (0-15). -/
structure LineData where
  bytes : List Byte
  poison : List Nat
deriving DecidableEq, Repr

/-- What stands behind the L2 for a line whose home value may be another (R235): what HBM holds, and a write-back queued
towards it. -/
structure HbmLine where
  held : LineData
  queued : Option LineData
deriving DecidableEq, Repr

/-- A write to memory that has been performed: its address and the bytes that stood there before (R18). -/
structure Past where
  pa : Nat
  old : List Byte
deriving DecidableEq, Repr

/-- What the outside of the C-dies, or a chosen order of issue, does in a step (the model's own). -/
inductive Input where
  /-- A machine event of the opcode table. -/
  | event (i : Instr)
  /-- The strip that issues. -/
  | issue (strip : Nat)
  /-- A store of the runtime on an RV64 core, at a physical address (R1, R456). -/
  | store (pa : Nat) (bytes : List Byte)
  /-- The runtime opens a connection for the job of a table index, with its receive region (R471, R495). -/
  | connect (conn job : Nat) (base : DWord) (size : Nat)
deriving DecidableEq, Repr

/-- The whole machine. -/
structure State where
  /-- The cycle counter (R25). -/
  clk : Nat
  mem : Memory
  /-- Poisoned 8-byte words of memory by PA / 8, rising (R422, R423). -/
  poison : List Nat
  /-- The lines that the L2s of the four dies hold, by physical line (R231). -/
  l2 : Table L2Line
  /-- The sector copies of lines, by physical line × 4 + sector (R232). -/
  sectorCopies : Table SectorCopy
  /-- What HBM holds for the lines whose home value may be another, by physical line (R235). -/
  hbm : Table HbmLine
  /-- The writes to memory performed while launches run, newest first, and how many there have been (R18). -/
  past : List Past
  wrote : Nat
  /-- Cores other than the reset core, by die × 96 + core. -/
  cores : Table Core
  dies : List Die
  strips : Table Strip
  wgs : Table Wg
  launches : Table Launch
  graphs : Table Graph
  copies : Table Copy
  nodeQueues : Table NodeQueue
  queues : Table Queue
  net : List Message
  halos : List HaloFlight
  phaseEvents : List PhaseEvent
  dieWaits : List DieWait
  owed : List Owed
  /-- Phase records that commands of a job have named (R196): (job, record). -/
  phases : List (Nat × DWord)
  conns : Table Conn
  /-- Link retry counts in progress, and links that are down (R422). -/
  links : Table Nat
  linksDown : List Nat
  heads : List Head
  encoders : List Encoder
  iommu : Iommu
  /-- The partition of each of the 16 sectors (R489). -/
  parts : List Nat
  /-- The encoder weight of each partition. -/
  weights : List Nat
  /-- HBM shares: (partition, first byte, end) ranges of physical addresses (R489). -/
  shares : List (Nat × Nat × Nat)
  sessions : Table Session
  scrubOn : Bool
  alarm : Bool
  /-- Inlet temperature and coolant flow as last reported (R500). -/
  coolant : Nat × Nat
  /-- The S-die's junction temperature as last reported, and its band (R500). -/
  sTemp : Nat
  sBand : Band
  boot : Boot
  /-- Units fenced by self-test (R3): die × 1,152 + core × 12 + bay. -/
  fenced : List Nat
  /-- Runtime notifications (R403, R429): (launch SEQ, status, registers). -/
  notices : List (DWord × Status × List DWord)
  /-- What the next steps do (the model's own): the head first; the machine's own choice when it is empty. -/
  inputs : List Input
  /-- Cycles that the next steps take (the model's own); 1 each when empty. -/
  ticks : List Nat
  /-- A cancellation, a watchdog or an expiry has ended the current cycle (R197): the next step falls in a later one. -/
  cycleOver : Bool
  /-- Counter of free values (the model's own). -/
  free : Nat
  /-- The strip that issues (the model's own). -/
  cur : Nat
  /-- True when the machine's own progress comes before the next issue (the model's own). -/
  turn : Bool
  /-- Next identifier (the model's own). -/
  nextId : Nat
deriving DecidableEq, Repr

/-! ## Stops -/

/-- No step of this model faults: every event of the spec that stops something (a trap, a translation fault, an abort)
is a next state. The type has no constructor, so a fault is impossible; that is safe. -/
inductive Fault where
deriving DecidableEq, Repr

/-- Why the model has no meaning for an instruction. -/
inductive Refusal where
  /-- Raised by an arm of `exec` for an instruction whose meaning is not written. Safe: nothing is claimed of it. -/
  | notModelled (mnemonic : String)
deriving DecidableEq, Repr

/-! ## Reset -/

/-- A core with nothing resident (R224, R228, R276, R385: DESIGN CHOICE for the counters and contents, log 10). -/
def resetCore : Core where
  scb := []
  posted := []
  rc := []
  ic := []
  wleaf := []
  wnode := []
  wdata := []
  scratch := []
  scratchPoison := []
  acc := []
  accPoison := []
  scratchLeft := []
  accLeft := []
  rsb := []
  escrow := []
  inboxes := []
  engevt := 0
  psncnt := 0
  discards := 0
  holder := 0
  holderPlace := 0
  tlb := []
  claims := []

/-- A die with nothing resident; its control block registers at 0 (DESIGN CHOICE, log 10), its cap at R499's 650 W. -/
def resetDie : Die where
  rdc := []
  rdcAsid := []
  tlb := []
  tiPending := false
  fqbase := 0
  fqcap := 0
  fqprod := 0
  fqcons := 0
  fqans := 0
  elbase := 0
  elcap := 0
  elprod := 0
  elcons := 0
  ellost := 0
  tilog := 0
  jobtab := 0
  qtab := 0
  tiskip := 0
  faults := []
  fseq := 0
  mint := []
  slices := []
  expired := []
  turns := List.replicate 4 (0, 0)
  images := []
  directory := []
  cap := 650
  held := false
  band := .normal
  temp := 0
  power := 0
  scrubs := 0
  hbmScrubs := 0
  elseq := 0
  lastErr := none

/-- A display head with every register 0 (DESIGN CHOICE, log 10). -/
def resetHead : Head where
  owner := 0
  fbaddr := 0
  pitch := 0
  mode := 0
  flipTo := none
  flipped := 0
  frames := 0
  enc := 0
  codec := 0
  bitrate := 0
  bsbase := 0
  bscap := 0
  bsprod := 0
  bscons := 0
  skipped := 0
  keyreq := false
  live := []
  frame := none
  scan := []
  sinceKey := 0

/-- The machine right after package reset: nothing resident, the cycle counter 0 (R25), memory with nothing listed
(log 1), the registers without a stated reset value at the values log 10 names, the module in recovery until BOOT. -/
def State.reset : State where
  clk := 0
  mem := []
  poison := []
  l2 := []
  sectorCopies := []
  hbm := []
  past := []
  wrote := 0
  cores := []
  dies := List.replicate 4 resetDie
  strips := []
  wgs := []
  launches := []
  graphs := []
  copies := []
  nodeQueues := []
  queues := []
  net := []
  halos := []
  phaseEvents := []
  dieWaits := []
  owed := []
  phases := []
  conns := []
  links := []
  linksDown := []
  heads := List.replicate 16 resetHead
  encoders := List.replicate 8 ⟨0, 0⟩
  iommu := ⟨0, []⟩
  parts := List.replicate 16 0
  weights := List.replicate 16 1
  shares := []
  sessions := []
  scrubOn := true
  alarm := false
  coolant := (0, 0)
  sTemp := 0
  sBand := .normal
  boot := ⟨true, none, 0, 0, 0, []⟩
  fenced := []
  notices := []
  inputs := []
  ticks := []
  cycleOver := false
  free := 0
  cur := 0
  turn := false
  nextId := 1

end Sys2Proof.Machine
end

