-- ==== Sys2Proof/Machine/Cells.lean ====
section
/-! DEFINITION. Sparse tables: lists of (key, value) with strictly rising keys, with and without a default value that
unlisted keys read as, and lists of numbers used as sets. -/
namespace Sys2Proof.Machine

/-- The value at a key, `dflt` where none is listed. -/
def cellGet {β : Type} (dflt : β) : List (Nat × β) → Nat → β
  | [], _ => dflt
  | (k, v) :: m, a => if a < k then dflt else if a = k then v else cellGet dflt m a

/-- Write a value at a key, keeping the keys rising and listing no default value. -/
def cellPut {β : Type} [DecidableEq β] (dflt : β) : List (Nat × β) → Nat → β → List (Nat × β)
  | [], a, x => if x = dflt then [] else [(a, x)]
  | (k, v) :: m, a, x =>
    if a < k then (if x = dflt then (k, v) :: m else (a, x) :: (k, v) :: m)
    else if a = k then (if x = dflt then m else (a, x) :: m)
    else (k, v) :: cellPut dflt m a x

/-- Every key of a table is above `lo`, keys rise, and no value is the default. -/
def cellsAbove {β : Type} [DecidableEq β] (dflt : β) : Option Nat → List (Nat × β) → Bool
  | _, [] => true
  | lo, (k, v) :: m => (match lo with | none => true | some l => decide (l < k)) && decide (v ≠ dflt) &&
      cellsAbove dflt (some k) m

/-- The canonical form of a table with a default value. -/
def cellsWf {β : Type} [DecidableEq β] (dflt : β) (m : List (Nat × β)) : Bool := cellsAbove dflt none m

/-- The canonical form of a memory: rising addresses, no listed byte equal to the 0 that an unlisted byte reads. -/
def Memory.wf (m : Memory) : Bool := cellsWf (0 : Byte) m

/-- The entry at a key of a table without default. -/
def tableGet {α : Type} : Table α → Nat → Option α
  | [], _ => none
  | (k, v) :: m, a => if a < k then none else if a = k then some v else tableGet m a

/-- Write an entry. -/
def tablePut {α : Type} : Table α → Nat → α → Table α
  | [], a, x => [(a, x)]
  | (k, v) :: m, a, x =>
    if a < k then (a, x) :: (k, v) :: m else if a = k then (a, x) :: m else (k, v) :: tablePut m a x

/-- Remove an entry. -/
def tableDel {α : Type} : Table α → Nat → Table α
  | [], _ => []
  | (k, v) :: m, a => if a < k then (k, v) :: m else if a = k then m else (k, v) :: tableDel m a

/-- Change an entry if it is there. -/
def tableMod {α : Type} (m : Table α) (a : Nat) (f : α → α) : Table α :=
  match tableGet m a with
  | some x => tablePut m a (f x)
  | none => m

/-- The keys of a table lie above `lo` and rise. -/
def tableAbove {α : Type} : Option Nat → Table α → Bool
  | _, [] => true
  | lo, (k, _) :: m => (match lo with | none => true | some l => decide (l < k)) && tableAbove (some k) m

/-- The canonical form of a table without default. -/
def tableWf {α : Type} (m : Table α) : Bool := tableAbove none m

/-- Add a number to a rising list of numbers. -/
def setAdd : List Nat → Nat → List Nat
  | [], a => [a]
  | k :: m, a => if a < k then a :: k :: m else if a = k then k :: m else k :: setAdd m a

/-- Remove a number from a list. -/
def setDel (l : List Nat) (a : Nat) : List Nat := l.filter (· ≠ a)

/-- The cells at or above an address. -/
def dropBelow {β : Type} : List (Nat × β) → Nat → List (Nat × β)
  | [], _ => []
  | (k, v) :: m, a => if k < a then dropBelow m a else (k, v) :: m

/-- The `n` values from `a` on, read in one pass. -/
def cellRange {β : Type} (dflt : β) (m : List (Nat × β)) (a : Nat) : Nat → List β
  | 0 => []
  | n + 1 =>
    match dropBelow m a with
    | [] => List.replicate (n + 1) dflt
    | (k, v) :: m' =>
      if k = a then v :: cellRange dflt m' (a + 1) n else dflt :: cellRange dflt ((k, v) :: m') (a + 1) n

/-- Write a list of values from `a` on. -/
def cellPutAll {β : Type} [DecidableEq β] (dflt : β) (m : List (Nat × β)) (a : Nat) : List β → List (Nat × β)
  | [] => m
  | x :: xs => cellPutAll dflt (cellPut dflt m a x) (a + 1) xs

/-- Change element `i` of a list. -/
def listMod {α : Type} : List α → Nat → (α → α) → List α
  | [], _, _ => []
  | x :: xs, 0, f => f x :: xs
  | x :: xs, i + 1, f => x :: listMod xs i f

/-- Replace element `i` of a list. -/
def listPut {α : Type} (l : List α) (i : Nat) (x : α) : List α := listMod l i fun _ => x

end Sys2Proof.Machine
end

