-- ==== Sys2Proof/Machine/Bits.lean ====
section
/-! DEFINITION. Bytes, words and strand sets: little-endian byte order (R16), sign and zero extension, strand sets as
16-bit masks, register pairs. -/
namespace Sys2Proof.Machine

/-- The `n` low bytes of a number, lowest first (R16). -/
def leBytes : Nat → Nat → List Byte
  | 0, _ => []
  | n + 1, x => BitVec.ofNat 8 x :: leBytes n (x / 256)

/-- The number whose bytes, lowest first, are listed (R16). -/
def leNat : List Byte → Nat
  | [] => 0
  | b :: l => b.toNat + 256 * leNat l

/-- The 32-bit words of a byte list, lowest first. -/
def bytesWords (n : Nat) (l : List Byte) : List Word :=
  (List.range n).map fun i => BitVec.ofNat 32 (leNat ((l.drop (4 * i)).take 4))

/-- The bytes of a list of words, lowest word first. -/
def wordsBytes (l : List Word) : List Byte := l.flatMap fun w => leBytes 4 w.toNat

/-- `x` as an `n`-bit two's complement number. -/
def signedOf (n x : Nat) : Int :=
  let y := x % 2 ^ n
  if 2 ^ (n - 1) ≤ y then (y : Int) - 2 ^ n else y

/-- An integer modulo 2^n, as the number that holds its pattern. -/
def wrapNat (n : Nat) (x : Int) : Nat := (x % (2 ^ n : Int)).toNat

/-- The words of a value of 32 × n bits. -/
def wordsOf (n x : Nat) : List Word := (List.range n).map fun i => BitVec.ofNat 32 (x / 2 ^ (32 * i))

/-- The number held by one or more words, lowest first. -/
def wordsNat : List Word → Nat
  | [] => 0
  | w :: l => w.toNat + 2 ^ 32 * wordsNat l

/-- First word of an operand; 0 of none. -/
def word0 (l : List Word) : Word := l.headD 0
/-- The 64-bit value of an operand of at least two words. -/
def dword0 (l : List Word) : DWord := BitVec.ofNat 64 (wordsNat (l.take 2))
/-- Word `i` of a list. -/
def wordAt (l : List Word) (i : Nat) : Word := l.getD i 0

/-- Strand indices. -/
def strandIxs : List Nat := List.range 16
/-- The strands of a set, ascending. -/
def strandsOf (x : Strands) : List Nat := strandIxs.filter fun i => x.getLsbD i
/-- The set of the strands that satisfy a test. -/
def strandSet (p : Nat → Bool) : Strands :=
  BitVec.ofNat 16 (strandIxs.foldl (fun n i => if p i then n + 2 ^ i else n) 0)
/-- A set of one strand. -/
def oneStrand (i : Nat) : Strands := strandSet (· == i)
/-- The lowest strand of a set; 16 of the empty set. -/
def lowStrand (x : Strands) : Nat := (strandsOf x).headD 16

/-- The low 16 bits of a word as a strand set. -/
def lowMask (w : Word) : Strands := w.setWidth 16
/-- Two strand sets as the halves of a word. -/
def maskWord (hi lo : Strands) : Word := BitVec.ofNat 32 (hi.toNat * 2 ^ 16 + lo.toNat)

/-- Round up to a multiple. -/
def roundUp (x m : Nat) : Nat := (x + (m - 1)) / m * m

/-- The number is a power of two. -/
def isPow2 (n : Nat) : Bool := n ≠ 0 && 2 ^ n.log2 == n

/-- A virtual address from a 64-bit value: reduced modulo 2^48 (R16). -/
def vaOf (x : Nat) : Nat := x % 2 ^ 48

end Sys2Proof.Machine
end

