-- ==== Sys2Proof/Machine/Home.lean ====
section
/-! DEFINITION. Memory at its home: the cores, dies and strips of a state, physical memory and poison (R230, R423), the
L2 over HBM (R231, R234, R235), the Assay digest (R252, R253), the error log (R425), page tables (R412-R417) and the fault queue (R418-R421, R426). -/
namespace Sys2Proof.Machine

/-! ## The parts of a state -/

/-- A core by die × 96 + core. -/
def coreOf (s : State) (id : Nat) : Core := (tableGet s.cores id).getD resetCore
def putCore (s : State) (id : Nat) (c : Core) : State := { s with cores := tablePut s.cores id c }
def modCore (s : State) (id : Nat) (f : Core → Core) : State := putCore s id (f (coreOf s id))

/-- Change every core that is not the reset core. -/
def mapCores (s : State) (f : Core → Core) : State := { s with cores := s.cores.map fun c => (c.1, f c.2) }
/-- Change every die. -/
def mapDies (s : State) (f : Die → Die) : State := { s with dies := s.dies.map f }

/-- A C-die. -/
def dieOf (s : State) (d : Nat) : Die := s.dies.getD d resetDie
def modDie (s : State) (d : Nat) (f : Die → Die) : State := { s with dies := listMod s.dies d f }

def putStrip (s : State) (id : Nat) (p : Strip) : State := { s with strips := tablePut s.strips id p }
def modStrip (s : State) (id : Nat) (f : Strip → Strip) : State := { s with strips := tableMod s.strips id f }
def modWg (s : State) (id : Nat) (f : Wg → Wg) : State := { s with wgs := tableMod s.wgs id f }
def modLaunch (s : State) (id : Nat) (f : Launch → Launch) : State := { s with launches := tableMod s.launches id f }

/-- The core of a strip. -/
def Strip.coreId (p : Strip) : Nat := p.die * 96 + p.core

/-- The next free choice (log 8): advances the counter. -/
def State.choose (s : State) : Bool × State := (Config.choice s.free, { s with free := s.free + 1 })

/-- A list held in `n` places, with room for one more: an entry of a full one, freely chosen, is evicted (log 45). -/
def dropFull {α : Type} (n : Nat) (s : State) (l : List α) : List α × State :=
  if l.length < n then (l, s)
  else (l.eraseIdx ((Config.freeWord s.free 0).toNat % l.length), { s with free := s.free + 1 })

/-- Count a poisoned value in PSNCNT of a core (R404). -/
def countPoison (s : State) (core : Nat) : State := modCore s core fun c => { c with psncnt := c.psncnt + 1 }
/-- Count an engine event in ENGEVT of a core (R404). -/
def countEngine (s : State) (core : Nat) : State := modCore s core fun c => { c with engevt := c.engevt + 1 }

/-! ## Physical memory -/

/-- PA[43:40] (R230, R481). -/
def paRegion (pa : Nat) : Nat := pa / 2 ^ 40 % 16
/-- The home die of a C-die address, PA[39:38] (R230). -/
def homeDie (pa : Nat) : Nat := pa / 2 ^ 38 % 4
/-- The physical line of an address. -/
def lineOf (pa : Nat) : Nat := pa / 128
/-- Addresses that hold memory: 192 GiB of each die's window, and 32 MiB of S-die RAM (R230, R481). -/
def populated (pa : Nat) : Bool :=
  (paRegion pa == 0 && pa % 2 ^ 38 < 0x3000000000) || (paRegion pa == 1 && pa % 2 ^ 40 < 0x2000000)
/-- Addresses of the S-die (R230): they bypass the read cache, the L2 and the RDC. -/
def onSdie (pa : Nat) : Bool := paRegion pa != 0
/-- Device registers (R481, R482). -/
def isDevice (pa : Nat) : Bool := paRegion pa == 2

/-- Some 8-byte word of [pa, pa + n) is poisoned. -/
def anyPoison (s : State) (pa n : Nat) : Bool :=
  s.poison.any fun w => pa / 8 ≤ w && w * 8 < pa + n

/-- The bytes of [pa, pa + n) at their home, and whether they read as poison (R230, R423). -/
def readHome (s : State) (pa n : Nat) : List Byte × Bool :=
  (cellRange (0 : Byte) s.mem pa n, !populated pa || anyPoison s pa n)

/-- A whole line at its home. -/
def readLine (s : State) (line : Nat) : List Byte := cellRange (0 : Byte) s.mem (line * 128) 128

/-- Poison left after writing [pa, pa + n): words wholly covered lose it, others keep it (R423). -/
def poisonAfter (l : List Nat) (pa n : Nat) : List Nat := l.filter fun w => !(pa ≤ w * 8 && w * 8 + 8 ≤ pa + n)

/-- The poisoned words of a line, 0-15. -/
def linePoison (s : State) (line : Nat) : List Nat := (s.poison.filter fun w => w / 16 == line).map fun w => w % 16
/-- A line at its home. -/
def lineData (s : State) (line : Nat) : LineData := ⟨readLine s line, linePoison s line⟩
/-- A line's home takes other contents. -/
def putLine (s : State) (line : Nat) (d : LineData) : State :=
  { s with
    mem := cellPutAll (0 : Byte) s.mem (line * 128) d.bytes
    poison := d.poison.foldl (fun l w => setAdd l (line * 16 + w)) (s.poison.filter fun w => w / 16 ≠ line) }
/-- Note the bytes that a write is about to replace, while any launch is live (R18). -/
def notePast (s : State) (pa n : Nat) : State :=
  if s.launches.isEmpty then { s with past := [] }
  else { s with past := ⟨pa, cellRange (0 : Byte) s.mem pa n⟩ :: s.past, wrote := s.wrote + 1 }

/-! ## The L2 -/

/-- The line index H = PA[37:7] (R231). -/
def lineIndex (line : Nat) : Nat := line % 2 ^ 31
/-- The home slice of a line on its die, 0-63 (R231). -/
def slice6 (line : Nat) : Nat :=
  let h := lineIndex line
  let g := fun k => h / 2 ^ (6 * k) % 64
  g 0 ^^^ g 1 ^^^ g 2 ^^^ g 3 ^^^ g 4 ^^^ (h / 2 ^ 30)
/-- The sector of the home slice, the slice within it, and the set of the line in it (R231). -/
def l2Sector (line : Nat) : Nat := slice6 line / 16
def l2Slice (line : Nat) : Nat := slice6 line % 16
def l2Set (line : Nat) : Nat := lineIndex line / 64 % 1024
/-- Two lines meet in a set of L2 slices of one number. -/
def sameL2Set (a b : Nat) : Bool :=
  homeDie (a * 128) == homeDie (b * 128) && l2Slice a == l2Slice b && l2Set a == l2Set b

/-- What a way of an L2 slice holds: a line at its home, or another sector's copy of one (R232). -/
inductive Way where
  | home (line : Nat)
  | copy (line sector : Nat)
deriving DecidableEq, Repr

/-- A way in use: what it holds, its CP and its place in the order of allocations. -/
structure WayUse where
  way : Way
  cp : Nat
  age : Nat
deriving DecidableEq, Repr

/-- The ways in use of the set that a line has in a sector of its die. -/
def l2Ways (s : State) (line sector : Nat) : List WayUse :=
  (s.l2.filter fun l => sameL2Set l.1 line && l2Sector l.1 == sector).map (fun l => ⟨.home l.1, l.2.cp, l.2.age⟩) ++
    (s.sectorCopies.filter fun c => sameL2Set (c.1 / 4) line && c.1 % 4 == sector).map fun c =>
      ⟨.copy (c.1 / 4) (c.1 % 4), c.2.cp, c.2.age⟩

/-- The newest or the oldest of some ways of a set. -/
def l2Newest (l : List WayUse) : Option Way :=
  (l.foldl (fun (m : Option WayUse) x => match m with
    | some y => if y.age ≤ x.age then some x else m
    | none => some x) none).map fun x => x.way
def l2Oldest (l : List WayUse) : Option Way :=
  (l.foldl (fun (m : Option WayUse) x => match m with
    | some y => if x.age < y.age then some x else m
    | none => some x) none).map fun x => x.way

/-- The way that a fill with a policy evicts (R234): a ninth keep-high line takes the oldest keep-high one; a full set
gives up its newest keep-low line, else an unmarked line, freely chosen, else its oldest keep-high one. -/
def l2Victim (s : State) (line sector cp : Nat) : Option Way :=
  let m := l2Ways s line sector
  let high := m.filter fun l => l.cp == 2
  let plain := m.filter fun l => l.cp == 0
  if cp = 2 ∧ 8 ≤ high.length then l2Oldest high
  else if m.length < 16 then none
  else match l2Newest (m.filter fun l => l.cp == 3) with
    | some l => some l
    | none =>
      if plain.isEmpty then l2Oldest high
      else (plain.map fun l => l.way)[(Config.freeWord s.free 1).toNat % plain.length]?

/-- The sector copies that a line's presence vector names go (R232). -/
def dropCopies (s : State) (line : Nat) : State :=
  match tableGet s.l2 line with
  | none => s
  | some l => { s with
      sectorCopies := s.sectorCopies.filter fun c => !(c.1 / 4 == line && l.present.getLsbD (c.1 % 4))
      l2 := tablePut s.l2 line { l with present := 0 } }

/-- A line leaves the L2 (R234, R235): a modified one is queued towards HBM, behind a write-back that may or may not have
arrived (log 45); an unmodified one goes, and HBM's contents show again. Its sector copies go with it (DESIGN CHOICE,
log 57). -/
def l2Evict (s : State) (line : Nat) : State :=
  match tableGet s.l2 line with
  | none => s
  | some l =>
    let s := dropCopies s line
    let s := { s with l2 := tableDel s.l2 line }
    match tableGet s.hbm line with
    | none => s
    | some h =>
      if l.dirty then
        let (c, s) := s.choose
        let held := if c then h.queued.getD h.held else h.held
        { s with hbm := tablePut s.hbm line ⟨held, some (lineData s line)⟩ }
      else match h.queued with
        | some _ => s
        | none => putLine { s with hbm := tableDel s.hbm line } line h.held

/-- A way of the L2 is given up; a sector copy goes silently (R232). -/
def l2Free (s : State) : Option Way → State
  | none => s
  | some (.home l) => l2Evict { s with free := s.free + 1 } l
  | some (.copy l c) => { s with free := s.free + 1, sectorCopies := tableDel s.sectorCopies (l * 4 + c) }

/-- The place in the order of allocations that a new line of a set takes. -/
def l2Age (s : State) (line sector : Nat) : Nat := (l2Ways s line sector).foldl (fun n l => max n (l.age + 1)) 0

/-- A line of memory of a C-die, which an L2 may hold. -/
def inL2Space (line : Nat) : Bool := paRegion (line * 128) == 0 && populated (line * 128)

/-- A line is brought into its L2 slice with a policy (R231, R234); STRM allocates nothing, and a line already there keeps
the policy of the access that allocated it. -/
def l2Alloc (s : State) (line cp : Nat) : State :=
  if cp = 1 || !inL2Space line || (tableGet s.l2 line).isSome then s
  else
    let s := l2Free s (l2Victim s line (l2Sector line) cp)
    { s with l2 := tablePut s.l2 line ⟨false, cp, l2Age s line (l2Sector line), 0⟩ }

/-- A copy of a line is left in a sector (R232): it takes a way there, and the home records it. -/
def l2Copy (s : State) (line sector cp : Nat) : State :=
  match tableGet s.l2 line with
  | none => s
  | some _ =>
    let s := l2Free s (l2Victim s line sector cp)
    { s with
      sectorCopies := tablePut s.sectorCopies (line * 4 + sector) ⟨cp, l2Age s line sector⟩
      l2 := tableMod s.l2 line fun l => { l with present := l.present ||| BitVec.ofNat 4 (2 ^ sector) } }

/-- An atomic on a line at its home, whether or not it writes: the line is taken in, and its sector copies go (R232). -/
def l2Atomic (s : State) (line cp : Nat) : State := dropCopies (l2Alloc s line cp) line

/-- What a write at a line's home does to the L2 before it is performed (R231, R234): the line is allocated and modified
there, its sector copies go (R232), and HBM keeps what it holds; a STRM write to an absent line goes through to HBM. -/
def l2Write (s : State) (line cp : Nat) : State :=
  if paRegion (line * 128) ≠ 0 then s
  else
    let s := l2Atomic s line cp
    match tableGet s.l2 line with
    | some l =>
      let h := (tableGet s.hbm line).getD ⟨lineData s line, none⟩
      { s with l2 := tablePut s.l2 line { l with dirty := true }, hbm := tablePut s.hbm line h }
    | none => { s with hbm := tableDel s.hbm line }

/-- A line is dropped at its home without write-back, after its sector copies (R235): what reads as its contents is what
HBM holds, or what a write-back queued towards it carries, freely chosen. -/
def l2Drop (s : State) (line : Nat) : State :=
  let s := dropCopies s line
  match tableGet s.hbm line with
  | none => { s with l2 := tableDel s.l2 line }
  | some h =>
    let (c, s) := s.choose
    let d := if c then h.queued.getD h.held else h.held
    putLine (notePast { s with l2 := tableDel s.l2 line, hbm := tableDel s.hbm line } (line * 128) 128) line d

/-! ## Writes -/

/-- lh64(a, L) (R252). -/
def lh64 (a : Nat) (l : List Byte) : Nat :=
  (List.range 17).foldl (fun h i =>
    let w := if i = 0 then a else leNat ((l.drop (8 * (i - 1))).take 8)
    let h := (h ^^^ w) * 0x9E3779B97F4A7C15 % 2 ^ 64
    h ^^^ (h / 2 ^ 29)) 0

/-- Add a line's change to the digests of the launches named that have DIGEST set (R253). -/
def addDigest (s : State) (launches : List Nat) (line : Nat) (old new : List Byte) : State :=
  launches.foldl (fun s l =>
    modLaunch s l fun la =>
      if la.lrec.flags.getLsbD 6 then
        { la with digest := la.digest + BitVec.ofNat 64 (lh64 (line * 128) new)
            - BitVec.ofNat 64 (lh64 (line * 128) old) }
      else la) s

/-- A launch of the list has DIGEST set. -/
def wantsDigest (s : State) (launches : List Nat) : Bool :=
  launches.any fun l => match tableGet s.launches l with
    | some la => la.lrec.flags.getLsbD 6
    | none => false

/-- Write bytes of one line at their home with a cache policy, as one event on behalf of `launches` (R234, R236, R253).
Bytes beyond the populated window are dropped (R230). -/
def writeHomeAs (s : State) (cp : Nat) (launches : List Nat) (pa : Nat) (bytes : List Byte) : State :=
  if populated pa then
    let s := notePast (l2Write s (lineOf pa) cp) pa bytes.length
    let s' := { s with
      mem := cellPutAll (0 : Byte) s.mem pa bytes
      poison := poisonAfter s.poison pa bytes.length }
    if wantsDigest s launches then
      addDigest s' launches (lineOf pa) (readLine s (lineOf pa)) (readLine s' (lineOf pa))
    else s'
  else s

/-- Write bytes of one line at their home with the ordinary policy. -/
def writeHome (s : State) (launches : List Nat) (pa : Nat) (bytes : List Byte) : State := writeHomeAs s 0 launches pa bytes

/-- Write a set of bytes of one line, given by offsets, as one event (R226). -/
def writeLine (s : State) (cp : Nat) (launches : List Nat) (line : Nat) (bytes : Table Byte) : State :=
  if populated (line * 128) then
    let s := notePast (l2Write s line cp) (line * 128) 128
    let mem := bytes.foldl (fun m b => cellPut (0 : Byte) m (line * 128 + b.1) b.2) s.mem
    -- an 8-byte word loses its poison when all of it is written
    let poison := s.poison.filter fun w =>
      !((List.range 8).all fun k => bytes.any fun b => line * 128 + b.1 == w * 8 + k)
    let s' := { s with mem := mem, poison := poison }
    if wantsDigest s launches then addDigest s' launches line (readLine s line) (readLine s' line) else s'
  else s

/-! ## The error log -/

/-- Severities of an error record (R425). -/
inductive Severity where
  | corrected | poisoned | masked | fatal
deriving DecidableEq, Repr
def Severity.code : Severity → Nat
  | .corrected => 0
  | .poisoned => 1
  | .masked => 2
  | .fatal => 3

/-- Cycles in 1 ms at 1.4 GHz (R25, R425). -/
def cyclesMs : Nat := 1400000
/-- Cycles in 1 µs at 1.4 GHz. -/
def cyclesUs : Nat := 1400

/-- Append an error record of 32 bytes to a die's log (R425, R426): sequence number, cycle counter, unit and severity,
repeat count, position (layout: log 17). An identical event within 1 ms raises the last record's repeat count. -/
def logError (s : State) (die unit : Nat) (sev : Severity) (pos : Nat) : State :=
  let d := dieOf s die
  let base := d.elbase.toNat
  match d.lastErr with
  | some (u, sv, p, since, ix) =>
    if u = unit ∧ sv = sev.code ∧ p = pos ∧ s.clk < since + cyclesMs then
      let at_ := base + 32 * ix + 20
      writeHome s [] at_ (leBytes 4 (leNat (readHome s at_ 4).1 + 1))
    else append s d base
  | none => append s d base
where
  /-- A new record, or a count in ELLOST when the ring is full. -/
  append (s : State) (d : Die) (base : Nat) : State :=
    if d.elprod.toNat - d.elcons.toNat < d.elcap.toNat then
      let ix := d.elprod.toNat % d.elcap.toNat
      let rec_ := leBytes 8 d.elseq ++ leBytes 8 s.clk ++ leBytes 2 unit ++ leBytes 2 sev.code ++ leBytes 4 0 ++
        leBytes 8 pos
      let s := writeHome s [] (base + 32 * ix) rec_
      modDie s die fun d => { d with
        elprod := d.elprod + 1
        elseq := d.elseq + 1
        lastErr := some (unit, sev.code, pos, s.clk, ix) }
    else modDie s die fun d => { d with ellost := d.ellost + 1 }

/-- The unit code under which an access beyond the populated window is logged (R230; codes: log 17). -/
def unitBeyond : Nat := 32

/-- An access of a die's hardware beyond the populated window is recorded in its error log (R230). -/
def noteBeyond (s : State) (die pa : Nat) : State :=
  if populated pa then s else logError s die unitBeyond .poisoned pa

/-- A write of a die's hardware at home, for no launch: dropped and recorded beyond the populated window (R230). -/
def hardWrite (s : State) (die pa : Nat) (bytes : List Byte) : State := noteBeyond (writeHome s [] pa bytes) die pa

/-! ## Agents -/

/-- Who makes a global access: its die and core, its job's translation, and the launch whose digest its writes join; for
an engine command, the code under which WAITERS counts it (R420) and its CP (R287). -/
structure Agent where
  die : Nat
  core : Nat
  asid : Nat
  root : Nat
  job : Nat
  launches : List Nat
  poisonTrap : Bool
  who : Nat
  cp : Nat
deriving DecidableEq, Repr

/-- The launch and workgroup of a strip. -/
def launchOfStrip (s : State) (p : Strip) : Option (Nat × Launch) :=
  match tableGet s.wgs p.wg with
  | some w => match tableGet s.launches w.launch with
    | some l => some (w.launch, l)
    | none => none
  | none => none

/-- No job. -/
def noJob : Job := ⟨0, 0, 0, 0, false, false, 0, 0, 0, []⟩
/-- The job of a strip. -/
def stripJob (s : State) (p : Strip) : Job := match launchOfStrip s p with
  | some (_, l) => l.job
  | none => noJob

/-- A strip as an agent. -/
def stripAgent (s : State) (p : Strip) : Agent :=
  match launchOfStrip s p with
  | some (id, l) => ⟨p.die, p.coreId, l.job.asid, l.job.root, l.job.index, [id], l.job.poisonTrap, 0, 0⟩
  | none => ⟨p.die, p.coreId, 0, 0, 0, [], false, 0, 0⟩

/-- A die's own agent (dispatcher, Mint, halo engine) acting for a job. -/
def dieAgent (die : Nat) (j : Job) : Agent := ⟨die, die * 96, j.asid, j.root, j.index, [], j.poisonTrap, 0, 0⟩

/-! ## Page tables -/

/-- What an access needs (R416). -/
inductive Access where
  | read | write | both | exec | any
deriving DecidableEq, Repr

/-- A translation: the physical address and the attributes of its leaf (R414, R416). -/
structure Leaf where
  pa : Nat
  pr : Bool
  cls : Nat
deriving DecidableEq, Repr

/-- Fault kinds of R420. -/
def kindAbsent : Nat := 1
def kindPermission : Nat := 2
def kindMalformed : Nat := 3
def kindPoison : Nat := 4

/-- Page bytes of a leaf at a level (R413). -/
def pageBytes (level : Nat) : Nat := if level = 1 then 2 ^ 30 else if level = 2 then 2 ^ 21 else 2 ^ 12

/-- A leaf entry is well formed at its level (R413-R415). -/
def leafOk (level : Nat) (e : DWord) : Bool :=
  let n := e.toNat
  level != 0 && n / 2 ^ 12 % 2 ^ 32 * 2 ^ 12 % pageBytes level == 0 &&
    !(e.getLsbD 3 && !e.getLsbD 2) && n / 32 % 4 != 3 && !(e.getLsbD 8 && level != 3)

/-- What an entry of a level says (R413-R415): the next table's address, or a leaf; or the fault kind. -/
def entryTarget (bad : Bool) (level : Nat) (e : DWord) : Except Nat (Option Nat) :=
  let n := e.toNat
  let addr := n / 2 ^ 12 % 2 ^ 32 * 2 ^ 12
  if bad then .error kindMalformed
  else if !e.getLsbD 0 then .error kindAbsent
  else if n / 2 ^ 44 ≠ 0 ∨ n / 2 ^ 9 % 8 ≠ 0 then .error kindMalformed
  else if e.getLsbD 1 then
    if level = 3 ∨ n / 4 % 128 ≠ 0 ∨ paRegion addr ≠ 0 then .error kindMalformed else .ok (some addr)
  else if leafOk level e then .ok none
  else .error kindMalformed

/-- An entry of a table at its home, and whether it is poisoned. -/
def readEntry (s : State) (at_ : Nat) : DWord × Bool :=
  let r := readHome s at_ 8
  (BitVec.ofNat 64 (leNat r.1), r.2)

/-- One level of a walk (R413-R415): the table's address, the level and the entry, down to a leaf or a fault kind. -/
def walkFrom (s : State) (va : Nat) : Nat → Nat → Nat → Except Nat (DWord × Nat × Nat)
  | 0, _, _ => .error kindMalformed
  | fuel + 1, level, table =>
    let at_ := table + 8 * (va / 2 ^ (39 - 9 * level) % 512)
    let e := readEntry s at_
    match entryTarget e.2 level e.1 with
    | .error k => .error k
    | .ok (some addr) => walkFrom s va fuel (level + 1) addr
    | .ok none => .ok (e.1, level, at_)

/-- A level-3 entry's aligned block of 16 may be held as one TLB entry (R415). -/
def contOk (s : State) (at_ : Nat) : Bool :=
  let base := at_ / 128 * 128
  let rs := (List.range 16).map fun i => readEntry s (base + 8 * i)
  let es := rs.map fun r => r.1.toNat
  let e0 := es.headD 0
  let a0 := e0 / 2 ^ 12 % 2 ^ 32
  let sound := rs.all fun r => match entryTarget r.2 3 r.1 with
    | .ok none => true
    | _ => false
  sound && a0 % 16 == 0 && ((List.range 16).all fun i =>
    let e := es.getD i 0
    e / 2 ^ 8 % 2 == 1 && e % 512 == e0 % 512 && e / 2 ^ 12 % 2 ^ 32 == a0 + i)

/-- A walk of a job's tables (R413-R415): the leaf entry and the bytes of the page, or of the block, it translates. Where
CONT is set and its conditions fail, another well-formed entry of the block may serve. -/
def walk (s : State) (root va : Nat) : Except Nat (DWord × Nat) :=
  match walkFrom s va 4 0 root with
  | .error k => .error k
  | .ok (e, level, at_) =>
    if !e.getLsbD 8 then .ok (e, pageBytes level)
    else if contOk s at_ then .ok (e, 65536)
    else if Config.choice s.free then
      let other := readEntry s (at_ / 128 * 128 + 8 * ((Config.freeWord s.free 0).toNat % 16))
      match entryTarget other.2 3 other.1 with
      | .ok none => .ok (other.1, 4096)
      | _ => .ok (e, 4096)
    else .ok (e, 4096)

/-- The entries of a walk that lie beyond the populated window, as they are read (R230, R413). -/
def walkBeyond (s : State) (va : Nat) : Nat → Nat → Nat → List Nat
  | 0, _, _ => []
  | fuel + 1, level, table =>
    let at_ := table + 8 * (va / 2 ^ (39 - 9 * level) % 512)
    let e := readEntry s at_
    let rest := match entryTarget e.2 level e.1 with
      | .ok (some addr) => walkBeyond s va fuel (level + 1) addr
      | _ => []
    if populated at_ then rest else at_ :: rest

/-- A die's walk of a job's tables is recorded where it reads beyond the populated window (R230). -/
def noteWalk (s : State) (die root va : Nat) : State :=
  (walkBeyond s va 4 0 root).foldl (fun s at_ => logError s die unitBeyond .poisoned at_) s

/-- The entry grants an access (R416). -/
def permits (e : DWord) : Access → Bool
  | .read => e.getLsbD 2
  | .write => e.getLsbD 3
  | .both => e.getLsbD 2 && e.getLsbD 3
  | .exec => e.getLsbD 4
  | .any => true

/-- A translation through an entry. -/
def leafOf (e : DWord) (bytes va : Nat) : Leaf :=
  ⟨e.toNat / 2 ^ 12 % 2 ^ 32 * 2 ^ 12 / bytes * bytes + va % bytes, e.getLsbD 7, e.toNat / 32 % 4⟩

/-- Use an entry for an access: its translation, or a permission fault. -/
def useEntry (e : DWord) (bytes va : Nat) (acc : Access) : Except Nat Leaf :=
  if permits e acc then .ok (leafOf e bytes va) else .error kindPermission

/-- A held translation of an address. -/
def tlbFind (l : List TlbEntry) (asid va : Nat) : Option TlbEntry :=
  l.find? fun t => t.asid == asid && t.page == va / t.bytes * t.bytes

/-- Hold a translation that succeeded in a buffer of `n` entries, in place of an older one of the page (R417). -/
def tlbPut (s : State) (n : Nat) (l : List TlbEntry) (t : TlbEntry) : List TlbEntry × State :=
  if l.contains t then (l, s)
  else
    let (l, s) := dropFull n s (l.filter fun u => !(u.asid == t.asid && u.page == t.page))
    (t :: l, s)

/-- Entries of a core's and of a die's TLB (R417). -/
def coreTlbEntries : Nat := 512
def dieTlbEntries : Nat := 16384

/-- Hold a translation in the core's TLB and its die's. -/
def tlbHold (s : State) (ag : Agent) (t : TlbEntry) : State :=
  let (l, s) := tlbPut s coreTlbEntries (coreOf s ag.core).tlb t
  let s := modCore s ag.core fun c => { c with tlb := l }
  let (l, s) := tlbPut s dieTlbEntries (dieOf s ag.die).tlb t
  modDie s ag.die fun d => { d with tlb := l }

/-- An older translation that one of some held entries gives may serve: each is a free choice. -/
def pickOld (s : State) : List TlbEntry → Option TlbEntry × State
  | [] => (none, s)
  | t :: ts =>
    let (c, s) := s.choose
    if c then (some t, s) else pickOld s ts

/-- The held translations of an address by the core's TLB and the die's that differ from the walk's answer. -/
def olderEntries (s : State) (ag : Agent) (va : Nat) (fresh : Except Nat (DWord × Nat)) : List TlbEntry :=
  let held := (tlbFind (coreOf s ag.core).tlb ag.asid va).toList ++ (tlbFind (dieOf s ag.die).tlb ag.asid va).toList
  held.filter fun t => match fresh with
    | .ok (e, b) => !(leafOf t.entry t.bytes va == leafOf e b va && t.entry.toNat % 512 == e.toNat % 512)
    | .error _ => true

/-- Translate an access of an agent (R412-R417). A TLB may still use an older translation of the page (log 8), and may
hold a contiguous block as one entry or as single pages (R415). -/
def xlate (s : State) (ag : Agent) (va : Nat) (acc : Access) : Except Nat Leaf × State :=
  let fresh := walk s ag.root va
  match pickOld s (olderEntries s ag va fresh) with
  | (some t, s) => (useEntry t.entry t.bytes va acc, s)
  | (none, s) => finish (noteWalk s ag.die ag.root va) fresh
where
  /-- Use the walked entry and hold it when the access succeeds. -/
  finish (s : State) (fresh : Except Nat (DWord × Nat)) : Except Nat Leaf × State :=
    match fresh with
    | .error k => (.error k, s)
    | .ok (e, b) =>
      match useEntry e b va acc with
      | .error k => (.error k, s)
      | .ok l =>
        let (b, s) := if b = 65536 then
            (let (c, s) := s.choose
             (if c then 65536 else 4096, s))
          else (b, s)
        (.ok l, tlbHold s ag ⟨ag.asid, va / b * b, b, e⟩)

/-- The pieces of [va, va + n), reduced modulo 2^48, cut at 128-byte lines: (address, length). -/
def linePieces : Nat → Nat → Nat → List (Nat × Nat)
  | 0, _, _ => []
  | fuel + 1, va, n =>
    if n = 0 then []
    else
      let m := min n (128 - va % 128)
      (vaOf va, m) :: linePieces fuel (va + m) (n - m)

/-- A translated piece of an access: its virtual address, its leaf and its length. -/
structure Piece where
  va : Nat
  leaf : Leaf
  len : Nat
deriving DecidableEq, Repr

/-- Translate pieces in order; the first fault gives its address and kind. -/
def xlateAll (s : State) (ag : Agent) (acc : Access) : List (Nat × Nat) → Except (Nat × Nat) (List Piece) × State
  | [] => (.ok [], s)
  | (va, n) :: rest =>
    match xlate s ag va acc with
    | (.error k, s) => (.error (va, k), s)
    | (.ok l, s) =>
      match xlateAll s ag acc rest with
      | (.error e, s) => (.error e, s)
      | (.ok ps, s) => (.ok (⟨va, l, n⟩ :: ps), s)

/-- Translate [va, va + n). -/
def xlateRange (s : State) (ag : Agent) (va n : Nat) (acc : Access) : Except (Nat × Nat) (List Piece) × State :=
  xlateAll s ag acc (linePieces (n / 128 + 2) va n)

/-! ## The fault queue -/

/-- ACCESS bits of a fault entry (R420). -/
def accRead : Nat := 1
def accWrite : Nat := 2
def accExec : Nat := 4
def accEngine : Nat := 8
def accDie : Nat := 16
def Access.bits : Access → Nat
  | .read => accRead
  | .write => accWrite
  | .both => accRead + accWrite
  | .exec => accExec
  | .any => 0

/-- SOURCE of a fault entry: die, core, bay, slice, strip slot (R420). -/
def faultSource (die core bay slice slot : Nat) : Nat :=
  die % 4 * 2 ^ 30 + core % 128 * 2 ^ 23 + bay % 16 * 2 ^ 19 + slice % 4 * 2 ^ 17 + slot % 8 * 2 ^ 14

/-- The 32 bytes of a fault queue entry (R420). -/
def faultBytes (f : FaultEntry) : List Byte :=
  leBytes 8 f.seq ++ leBytes 8 f.va ++ leBytes 2 f.asid ++ leBytes 1 f.kind ++ leBytes 1 f.access ++
    leBytes 4 f.source ++ leBytes 4 f.waiters ++ leBytes 4 0

/-- Write the fault entries that wait for room, oldest first, while the ring has room (R426). -/
def flushFaults (s : State) (die : Nat) : State :=
  (dieOf s die).faults.foldl (fun s f =>
    let d := dieOf s die
    if f.written then s
    else if d.fqprod.toNat - d.fqcons.toNat < d.fqcap.toNat then
      let s := hardWrite s die (d.fqbase.toNat + 32 * (d.fqprod.toNat % d.fqcap.toNat)) (faultBytes f)
      modDie s die fun d => { d with
        fqprod := d.fqprod + 1
        faults := d.faults.map fun g => if g.seq = f.seq then { g with written := true } else g }
    else s) s

/-- Report a fault to a die's queue (R420, R426): join the unanswered entry of its ASID, page and kind, or make an
entry. `who` names the strip or agent, which WAITERS counts once. Gives the sequence number to wait on. -/
def reportFault (s : State) (die asid va kind access source who : Nat) : Nat × State :=
  let d := dieOf s die
  match d.faults.find? fun f => f.asid == asid && f.page == va / 4096 && f.kind == kind with
  | some f =>
    let f' := if f.who.contains who then f
      else { f with waiters := min (f.waiters + 1) (2 ^ 32 - 1), who := f.who ++ [who] }
    let s := modDie s die fun d => { d with faults := d.faults.map fun g => if g.seq = f.seq then f' else g }
    -- the entry's WAITERS in memory follows, when the entry is still in the ring
    let s := if f.written ∧ f.seq < d.fqprod.toNat ∧ d.fqprod.toNat ≤ f.seq + d.fqcap.toNat then
        hardWrite s die (d.fqbase.toNat + 32 * (f.seq % d.fqcap.toNat) + 0x18) (leBytes 4 f'.waiters)
      else s
    (f.seq, s)
  | none =>
    let f : FaultEntry := ⟨d.fseq, asid, va / 4096, kind, va, access, source, 1, [who], false⟩
    let s := modDie s die fun d => { d with fseq := d.fseq + 1, faults := d.faults ++ [f] }
    (f.seq, flushFaults s die)

/-- Make a strip wait on a fault of its own (R418). -/
def suspendStrip (s : State) (id : Nat) (p : Strip) (ag : Agent) (va kind access : Nat) : State :=
  let (seq, s) := reportFault s p.die ag.asid va kind access (faultSource p.die p.core p.bay p.slice p.slot) (2 * id)
  modStrip s id fun p => { p with waits := if p.waits.contains seq then p.waits else p.waits ++ [seq] }

end Sys2Proof.Machine
end

