-- ==== Sys2Proof/Machine/Device.lean ====
section
/-! DEFINITION. Reads of the S-die's registers at PA[43:40] = 0x2 (R481-R483, R496-R498). A store to a register is a
REGISTER_WRITE event, performed before the next issue in the order of arrival (R482). -/
namespace Sys2Proof.Machine

/-- Offset of a register address within PA[39:0]. -/
def devOff (pa : Nat) : Nat := pa % 2 ^ 40

/-- A control block register of die d (R483): WO registers read 0 (R5). -/
def controlRead (d : Die) (off : Nat) : DWord :=
  match off with
  | 0x00 => d.fqbase
  | 0x08 => d.fqcap
  | 0x10 => d.fqprod
  | 0x28 => d.elbase
  | 0x30 => d.elcap
  | 0x38 => d.elprod
  | 0x40 => d.tilog
  | 0x50 => d.jobtab
  | 0x58 => d.qtab
  | 0x70 => d.fqcons
  | 0x78 => d.elcons
  | 0x80 => d.ellost
  | 0x88 => d.tiskip
  | _ => 0

/-- A display head register (R496, R497). -/
def headRead (h : Head) (off : Nat) : DWord :=
  match off with
  | 0x00 => h.owner
  | 0x08 => h.fbaddr
  | 0x10 => h.pitch
  | 0x18 => h.mode
  | 0x28 => h.flipped
  | 0x30 => h.frames
  | 0x38 => h.enc
  | 0x40 => h.codec
  | 0x48 => h.bitrate
  | 0x50 => h.bsbase
  | 0x58 => h.bscap
  | 0x60 => h.bsprod
  | 0x68 => h.bscons
  | 0x70 => h.skipped
  | _ => 0

/-- HEADS of encoder e (R497): the heads whose ENC names it. -/
def encoderHeads (s : State) (e : Nat) : DWord :=
  BitVec.ofNat 64 ((List.range 16).foldl (fun n h =>
    if (s.heads.getD h resetHead).enc.toNat % 8 = e then n + 2 ^ h else n) 0)

/-- An aligned 8-byte read of a register. -/
def deviceRead (s : State) (pa : Nat) : DWord :=
  let o := devOff pa
  if o < 0x4000 then controlRead (dieOf s (o / 0x1000)) (o % 0x1000)
  else if o = 0x4000 then s.iommu.iotab
  else if 0x10000 ≤ o ∧ o < 0x11000 then headRead (s.heads.getD ((o - 0x10000) / 256) resetHead) (o % 256)
  else if 0x20000 ≤ o ∧ o < 0x20800 then
    let e := (o - 0x20000) / 256
    if o % 256 = 0 then encoderHeads s e else if o % 256 = 8 then (s.encoders.getD e ⟨0, 0⟩).busy else 0
  else if 0x10000000 ≤ o ∧ o < 0x20000000 then Config.pcieRead (o - 0x10000000) s.free
  else 0

/-- An input is a store to a register on its way. -/
def Input.isRegister : Input → Bool
  | .event (.registerWrite _ _) => true
  | _ => false

/-- A store of 8 aligned bytes to a register: the write arrives at its block before anything else happens, after the
register stores made before it (R482). -/
def deviceWrite (s : State) (pa : Nat) (value : DWord) : State :=
  { s with inputs := s.inputs.takeWhile Input.isRegister ++
      .event (.registerWrite (BitVec.ofNat 44 pa) value) :: s.inputs.dropWhile Input.isRegister }

/-- The unit code for a refused register access (log 17). -/
def unitDevice : Nat := 33

end Sys2Proof.Machine
end

