-- ==== Sys2Proof/Machine/Caches.lean ====
section
/-! DEFINITION. A core's store coalescing buffer and caches, and the remote-data cache (spec 10, 11, 23): how stores
enter and drain, where each kind of read finds its bytes, and what invalidates a line. A cache that holds an older copy
may have evicted it: which happens is a free choice, made only where the copy differs (log 8). A cache that is full
evicts a line, freely chosen (log 45). -/
namespace Sys2Proof.Machine

/-! ## Capacities -/

/-- Hold an entry in a cache of `n` places for the keys that a test picks; a full one evicts one of them. -/
def cacheHold {α : Type} (s : State) (n : Nat) (same : Nat → Bool) (t : Table α) (key : Nat) (x : α) : Table α × State :=
  let keys := (t.filter fun l => same l.1 && l.1 != key).map fun l => l.1
  if keys.length < n then (tablePut t key x, s)
  else
    let out := keys.getD ((Config.freeWord s.free 0).toNat % keys.length) 0
    (tablePut (tableDel t out) key x, { s with free := s.free + 1 })

/-- Hold a line in a core's read cache: 128 sets, by the low bits of the line (log 45), of 8 ways (R228). -/
def rcHold (s : State) (core line : Nat) (l : CacheLine) : State :=
  let (t, s) := cacheHold s 8 (fun k => k % 128 == line % 128) (coreOf s core).rc line l
  modCore s core fun c => { c with rc := t }

/-- Lines of the RDC: 32 MiB (R453). -/
def rdcLines : Nat := 262144
/-- Hold a line in a die's RDC for an ASID (R453, R454). -/
def rdcHold (s : State) (die asid line : Nat) (l : CacheLine) : State :=
  let (t, s) := cacheHold s rdcLines (fun _ => true) (dieOf s die).rdc line l
  modDie s die fun d => { d with
    rdc := t, rdcAsid := tablePut (d.rdcAsid.filter fun a => (tableGet t a.1).isSome) line asid }

/-! ## Invalidation -/

/-- Drop one line of a core's read cache (R228). -/
def dropRc (s : State) (core line : Nat) : State := modCore s core fun c => { c with rc := tableDel c.rc line }
/-- Drop every read-cache line but the constant-marked ones (R228). -/
def acquireRc (s : State) (core : Nat) : State :=
  modCore s core fun c => { c with rc := c.rc.filter fun l => l.2.constant }
/-- Drop the constant-marked lines (a launch starts on the core, R117). -/
def dropConstants (s : State) (core : Nat) : State :=
  modCore s core fun c => { c with rc := c.rc.filter fun l => !l.2.constant }
/-- Drop the whole read cache (R193). -/
def dropAllRc (s : State) (core : Nat) : State := modCore s core fun c => { c with rc := [] }
/-- Drop the three walker caches (R330, R346). -/
def dropWalker (s : State) (core : Nat) : State :=
  modCore s core fun c => { c with wleaf := [], wnode := [], wdata := [] }
/-- Drop one line of a die's RDC (R455). -/
def dropRdc (s : State) (die line : Nat) : State :=
  modDie s die fun d => { d with rdc := tableDel d.rdc line, rdcAsid := tableDel d.rdcAsid line }
/-- Drop a die's RDC lines filled for an ASID and satisfying a test (R455). -/
def dropRdcJob (s : State) (die asid : Nat) (p : Nat → Bool) : State :=
  modDie s die fun d =>
    let out := fun line => tableGet d.rdcAsid line == some asid && p line
    { d with rdc := d.rdc.filter fun l => !out l.1, rdcAsid := d.rdcAsid.filter fun l => !out l.1 }

/-- After a write performed at its home on behalf of an agent of `die`, the die's RDC copy goes (R455). -/
def dropRdcFor (s : State) (die pa : Nat) : State :=
  if !onSdie pa && homeDie pa ≠ die then dropRdc s die (lineOf pa) else s

/-! ## The store coalescing buffer -/

/-- The entry of a line. -/
def scbFind (c : Core) (line : Nat) : Option ScbEntry := c.scb.find? fun e => e.line == line

/-- Drain the entry of a line to its home as one event (R226, R227). A copy of the line that the core's read cache took
while the entry stood holds the bytes from before the store: it goes with the entry, so that the core's own later reads
see its store (R17, R227). -/
def drainLine (s : State) (core line : Nat) : State :=
  match scbFind (coreOf s core) line with
  | none => s
  | some e =>
    let s := modCore s core fun c => { c with scb := c.scb.filter fun f => f.line != line }
    let s := dropRc s core line
    let s := writeLine s e.cp e.launches line e.bytes
    let s := { s with poison := e.poison.foldl (fun l w => setAdd l (line * 16 + w / 2)) s.poison }
    dropRdcFor s (core / 96) (line * 128)

/-- Drain every entry of a core, oldest first (R226, trigger 4). -/
def drainAll (s : State) (core : Nat) : State :=
  (coreOf s core).scb.foldl (fun s e => drainLine s core e.line) s

/-! ## Stores -/

/-- An entry's drain has begun: complete, or 1,024 cycles old (R226, triggers 1 and 2). -/
def scbDue (s : State) (e : ScbEntry) : Bool := e.bytes.length == 128 || e.since + 1024 ≤ s.clk

/-- The entry after merging the bytes (offset, value) of one store. A 32-bit word that the store writes whole loses its
poison; several stores that cover it only together leave it poisoned (DESIGN CHOICE, log 46). The store's CP governs the
drain (R234). -/
def scbMerge (e : ScbEntry) (bytes : Table Byte) (launches : List Nat) (cp : Nat) : ScbEntry :=
  { e with
    cp := cp
    bytes := bytes.foldl (fun t b => tablePut t b.1 b.2) e.bytes
    poison := e.poison.filter fun w => !((List.range 4).all fun k => bytes.any fun b => b.1 == w * 4 + k)
    launches := launches.foldl setAdd e.launches }

/-- Bytes of one line enter a core's SCB (R224-R227): the read-cache line goes, an entry already draining is performed
first, a full buffer drains its oldest entry. An address beyond the populated window discards the store (R230). -/
def scbStore (s : State) (core : Nat) (launches : List Nat) (cp line : Nat) (bytes : Table Byte) : State :=
  if !populated (line * 128) then logError s (core / 96) unitBeyond .poisoned (line * 128)
  else
    let s := dropRc s core line
    let s := match scbFind (coreOf s core) line with
      | some e => if e.bytes.length = 128 then drainLine s core line else s
      | none => s
    match scbFind (coreOf s core) line with
    | some e =>
      modCore s core fun c => { c with
        scb := c.scb.map fun f => if f.line = line then scbMerge e bytes launches cp else f }
    | none =>
      let c := coreOf s core
      let s := if 64 ≤ c.scb.length then (match c.scb with
          | e :: _ => drainLine s core e.line
          | [] => s) else s
      modCore s core fun c => { c with
        scb := c.scb ++ [scbMerge ⟨line, [], [], s.clk, [], cp⟩ bytes launches cp] }

/-- Store bytes at a translated piece through the SCB. -/
def scbStorePiece (s : State) (core : Nat) (launches : List Nat) (cp pa : Nat) (bytes : List Byte) : State :=
  scbStore s core launches cp (lineOf pa) ((List.range bytes.length).map fun i => (pa % 128 + i, bytes.getD i 0))

/-! ## Reads -/

/-- The kinds of read (R228, R238, R454): cached (plain LDG and SLD) and constant (LDC) with their CP, reads that use the
RDC for remote lines, and reads performed at the home slice. -/
inductive ReadPath where
  | cached (cp : Nat)
  | constant (cp : Nat)
  | fresh (cp : Nat)
  | home
deriving DecidableEq, Repr

/-- A read of a line by an agent of a die at its home slice (R231): the L2 takes it in. Beyond the populated window every
word reads as poisoned (R230). -/
def homeLine (s : State) (line cp : Nat) : LineData × State :=
  let d := lineData s line
  (if populated (line * 128) then d else ⟨d.bytes, List.range 16⟩, l2Alloc s line cp)

/-- The sector of its die in which a core stands. -/
def sectorOfCore (core : Nat) : Nat := core % 96 / 24

/-- A core's read of a line homed on its own die (R232): the requester's sector copy serves as the home would; a read that
is not STRM, of a line homed in another sector, may leave a copy. Whether it does is free, and no other read leaves one
(DESIGN CHOICE, log 57). -/
def localLine (s : State) (core line cp : Nat) : LineData × State :=
  let sector := sectorOfCore core
  if sector = l2Sector line || cp = 1 || !inL2Space line then homeLine s line cp
  else if (tableGet s.sectorCopies (line * 4 + sector)).isSome then (lineData s line, s)
  else
    let (d, s) := homeLine s line cp
    let (c, s) := s.choose
    (d, if c then l2Copy s line sector cp else s)

/-- A line as the L2 level gives it to a strand's read (R232, R454): its home or a sector copy, or the die's RDC for a line
homed on another C-die. A copy that differs from the home may have been evicted (log 8). -/
def levelLine (s : State) (ag : Agent) (line cp : Nat) (install : Bool) : LineData × State :=
  if onSdie (line * 128) then homeLine s line cp
  else if homeDie (line * 128) == ag.die then localLine s ag.core line cp
  else
    let fill := fun s : State =>
      let (d, s) := homeLine s line cp
      (d, if install then rdcHold s ag.die ag.asid line ⟨d.bytes, d.poison, false⟩ else s)
    match tableGet (dieOf s ag.die).rdc line with
    | some l =>
      if (⟨l.bytes, l.poison⟩ : LineData) = lineData s line then (⟨l.bytes, l.poison⟩, s)
      else
        let (c, s) := s.choose
        if c then (⟨l.bytes, l.poison⟩, s) else fill (dropRdc s ag.die line)
    | none => fill s

/-- The CP of a read (R234). -/
def ReadPath.cp (ag : Agent) : ReadPath → Nat
  | .cached cp => cp
  | .constant cp => cp
  | .fresh cp => cp
  | .home => ag.cp

/-- A line as a read path delivers it below the SCB. A hit in the read cache is served as the line was filled (R117,
R228); pages of CLASS 1 are read as with STRM; reads of pages of CLASS 2 are coherent and fill neither the read cache nor the
RDC (R416). -/
def pathLine (s : State) (ag : Agent) (path : ReadPath) (cls : Nat) (line : Nat) : LineData × State :=
  let policy := fun (cp : Nat) => if cls = 1 then 1 else cp
  let level := fun (s : State) (cp : Nat) => levelLine s ag line (policy cp) (policy cp != 1)
  let cachedRead := fun (cp : Nat) (mark : Bool) =>
    let fill := fun s : State =>
      let (d, s) := level s cp
      (d, if policy cp = 1 then s else rcHold s ag.core line ⟨d.bytes, d.poison, mark⟩)
    match tableGet (coreOf s ag.core).rc line with
    | some l =>
      if (⟨l.bytes, l.poison⟩ : LineData) = lineData s line then (⟨l.bytes, l.poison⟩, s)
      else
        let (c, s) := s.choose
        if c then (⟨l.bytes, l.poison⟩, s) else fill (dropRc s ag.core line)
    | none => fill s
  if onSdie (line * 128) then homeLine s line (path.cp ag)
  else if cls = 2 then
    if homeDie (line * 128) == ag.die && path != .home then localLine s ag.core line (path.cp ag)
    else homeLine s line (path.cp ag)
  else
    match path with
    | .cached cp => cachedRead cp false
    | .constant cp => cachedRead cp true
    | .fresh cp => level s cp
    | .home => homeLine s line (policy ag.cp)

/-- The bytes of one piece, each with its poison: the SCB's valid bytes first when `scb`, the rest from the path, all at one
instant (R225, R238). A page with PR reads as poison (R416); an address beyond the window is logged (R230). -/
def readBytes (s : State) (ag : Agent) (path : ReadPath) (scb : Bool) (p : Piece) : List (Byte × Bool) × State :=
  let line := lineOf p.leaf.pa
  let off := p.leaf.pa % 128
  let (d, s') := pathLine s ag path p.leaf.cls line
  let e := if scb then scbFind (coreOf s ag.core) line else none
  let at_ := fun i => match e with
    | some e => (tableGet e.bytes (off + i)).map fun b => (b, e.poison.contains ((off + i) / 4))
    | none => none
  let one := fun i =>
    let r := (at_ i).getD (d.bytes.getD (off + i) 0, d.poison.contains ((off + i) / 8))
    (r.1, p.leaf.pr || r.2)
  ((List.range p.len).map one, if populated p.leaf.pa then s' else logError s' ag.die unitBeyond .poisoned p.leaf.pa)

/-- Read one piece: its bytes, and whether any is poisoned. -/
def readPiece (s : State) (ag : Agent) (path : ReadPath) (scb : Bool) (p : Piece) : List Byte × Bool × State :=
  let (r, s) := readBytes s ag path scb p
  (r.map fun b => b.1, p.leaf.pr || r.any fun b => b.2, s)

/-- Read translated pieces in order. -/
def readPieces (s : State) (ag : Agent) (path : ReadPath) (scb : Bool) : List Piece → List Byte × Bool × State
  | [] => ([], false, s)
  | p :: ps =>
    let (b, bad, s) := readPiece s ag path scb p
    let (bs, bad', s) := readPieces s ag path scb ps
    (b ++ bs, bad || bad', s)

/-- The pieces are one aligned 8-byte access to a register (R482). -/
def devicePieces (ps : List Piece) : Option Nat :=
  match ps with
  | [p] => if p.len = 8 ∧ p.leaf.pa % 8 = 0 then some p.leaf.pa else none
  | _ => none

/-- The bytes of an access cut into its pieces, lowest first. -/
def splitBytes : List Piece → List Byte → List (Nat × List Byte)
  | [], _ => []
  | p :: ps, l => (p.leaf.pa, l.take p.len) :: splitBytes ps (l.drop p.len)

/-- The physical address at which an access begins. -/
def firstPa (ps : List Piece) : Nat := (ps.map fun p => p.leaf.pa).headD 0

/-- The policy of an access to a page: STRM where its CLASS is 1 (R416). -/
def piecePolicy (cp : Nat) (p : Piece) : Nat := if p.leaf.cls = 1 then 1 else cp

/-- Read a translated access: registers take one aligned 8-byte read and answer any other with 0 and a log record
(R482); memory follows the path. -/
def readAccess (s : State) (ag : Agent) (path : ReadPath) (scb : Bool) (ps : List Piece) : List Byte × Bool × State :=
  if ps.any fun p => isDevice p.leaf.pa then
    match devicePieces ps with
    | some pa => (leBytes 8 (deviceRead s pa).toNat, false, { s with free := s.free + 1 })
    | none =>
      let n := ps.foldl (fun n p => n + p.len) 0
      (List.replicate n 0, false, logError s ag.die unitDevice .masked (firstPa ps))
  else readPieces s ag path scb ps

/-- A register store, or a refused one (R482). -/
def storeDevice (s : State) (ag : Agent) (ps : List Piece) (bytes : List Byte) : State :=
  match devicePieces ps with
  | some pa => deviceWrite s pa (BitVec.ofNat 64 (leNat bytes))
  | none => logError s ag.die unitDevice .masked (firstPa ps)

/-- Store a translated access through the SCB with a policy (R115, R224, R234). -/
def storeAccess (s : State) (ag : Agent) (launches : List Nat) (cp : Nat) (ps : List Piece) (bytes : List Byte) : State :=
  if ps.any fun p => isDevice p.leaf.pa then storeDevice s ag ps bytes
  else (ps.zip (splitBytes ps bytes)).foldl (fun s pb =>
    scbStorePiece s ag.core launches (piecePolicy cp pb.1) pb.2.1 pb.2.2) s

/-- Write at the home slice on behalf of an agent: one event for each line, the issuing die's RDC copies go (R236,
R455). `rc` says whether the issuing core's read-cache line goes too (R228). -/
def writeAt (s : State) (ag : Agent) (rc : Bool) (cp pa : Nat) (bytes : List Byte) : State :=
  let s := writeHomeAs s cp ag.launches pa bytes
  let s := if populated pa then s else logError s ag.die unitBeyond .poisoned pa
  let s := if rc then dropRc s ag.core (lineOf pa) else s
  dropRdcFor s ag.die pa

/-- Write translated pieces at their homes. -/
def writePieces (s : State) (ag : Agent) (rc : Bool) (ps : List Piece) (bytes : List Byte) : State :=
  if ps.any fun p => isDevice p.leaf.pa then storeDevice s ag ps bytes
  else (ps.zip (splitBytes ps bytes)).foldl (fun s pb => writeAt s ag rc (piecePolicy ag.cp pb.1) pb.2.1 pb.2.2) s

/-! ## Reads and writes of a die's own agents -/

/-- Read [va, va + n) coherently at home for an agent (R238): bytes and poison, or the fault's address and kind. -/
def readVirt (s : State) (ag : Agent) (va n : Nat) : Except (Nat × Nat) (List Byte × Bool) × State :=
  match xlateRange s ag va n .read with
  | (.error e, s) => (.error e, s)
  | (.ok ps, s) =>
    let (b, bad, s) := readAccess s ag .home false ps
    (.ok (b, bad), s)

/-- Write bytes at [va, ...) at their homes for an agent. -/
def writeVirt (s : State) (ag : Agent) (va : Nat) (bytes : List Byte) : Except (Nat × Nat) Unit × State :=
  match xlateRange s ag va bytes.length .write with
  | (.error e, s) => (.error e, s)
  | (.ok ps, s) => (.ok (), writePieces s ag false ps bytes)

end Sys2Proof.Machine
end

