-- ==== Sys2Proof/Machine/Float.lean ====
section
/-! DEFINITION. Floating point (spec 02): formats, exact values, the one rounding of R41 with its flags, and the exact
arithmetic of R45-R48 below it. Values are exact: a sign, a natural significand and a power of two; a sticky bit says
that the true value lies strictly above the significand's. -/
namespace Sys2Proof.Machine

/-- A floating-point format (R35): exponent bits, fraction bits, bias; E4M3 has no infinity. -/
structure Flt where
  eb : Nat
  fb : Nat
  bias : Nat
  hasInf : Bool
deriving DecidableEq, Repr

def f64 : Flt := ⟨11, 52, 1023, true⟩
def f32 : Flt := ⟨8, 23, 127, true⟩
def f16 : Flt := ⟨5, 10, 15, true⟩
def bf16 : Flt := ⟨8, 7, 127, true⟩
def e4m3 : Flt := ⟨4, 3, 7, false⟩
def e5m2 : Flt := ⟨5, 2, 15, true⟩

/-- The format of a type code (R35). -/
def fltOf (t : Nat) : Flt :=
  match t with
  | 9 => f64 | 10 => f16 | 11 => bf16 | 12 => e4m3 | 13 => e5m2 | _ => f32

/-- Bits of a format. -/
def Flt.bits (f : Flt) : Nat := 1 + f.eb + f.fb

/-- The flags of STRIP_FPFLAGS (R14), bits [5:0]: SAT NX UF OF DZ NV. -/
abbrev Flags := BitVec 6
def flagNV : Flags := 1
def flagDZ : Flags := 2
def flagOF : Flags := 4
def flagUF : Flags := 8
def flagNX : Flags := 16
def flagSAT : Flags := 32

/-- An exact operand or result: NaN (signalling or not), infinity, zero, or a finite non-zero m × 2^e; with `sticky`
the true magnitude lies strictly between m × 2^e and (m + 1) × 2^e. -/
inductive Exact where
  | nan (signalling : Bool)
  | inf (neg : Bool)
  | zero (neg : Bool)
  | fin (neg : Bool) (m : Nat) (e : Int) (sticky : Bool)
deriving DecidableEq, Repr

/-- val(f, b) (R36, R37). -/
def Flt.val (f : Flt) (b : Nat) : Exact :=
  let s := b / 2 ^ (f.eb + f.fb) % 2 == 1
  let e := b / 2 ^ f.fb % 2 ^ f.eb
  let m := b % 2 ^ f.fb
  let top := 2 ^ f.eb - 1
  if e = 0 then
    if m = 0 then .zero s else .fin s m (1 - (f.bias : Int) - f.fb) false
  else if e = top && f.hasInf then
    if m = 0 then .inf s else .nan (m < 2 ^ (f.fb - 1))
  else if e = top && m = 2 ^ f.fb - 1 then .nan false
  else .fin s (2 ^ f.fb + m) ((e : Int) - f.bias - f.fb) false

/-- qnan(f) (R35, R37). -/
def Flt.qnan (f : Flt) : Nat :=
  (2 ^ f.eb - 1) * 2 ^ f.fb + (if f.hasInf then 2 ^ (f.fb - 1) else 2 ^ f.fb - 1)
/-- The sign bit in place. -/
def Flt.sign (f : Flt) (neg : Bool) : Nat := if neg then 2 ^ (f.eb + f.fb) else 0
/-- ±maxf(f) (R35). -/
def Flt.maxf (f : Flt) (neg : Bool) : Nat :=
  f.sign neg + (if f.hasInf then (2 ^ f.eb - 1) * 2 ^ f.fb - 1 else (2 ^ f.eb - 1) * 2 ^ f.fb + (2 ^ f.fb - 2))
/-- ±∞. -/
def Flt.inf (f : Flt) (neg : Bool) : Nat := f.sign neg + (2 ^ f.eb - 1) * 2 ^ f.fb
/-- The exponent of the unit of maxf's significand, and that significand. -/
def Flt.maxExp (f : Flt) : Int := ((if f.hasInf then 2 ^ f.eb - 2 else 2 ^ f.eb - 1 : Nat) : Int) - f.bias - f.fb
def Flt.maxSig (f : Flt) : Nat := if f.hasInf then 2 ^ (f.fb + 1) - 1 else 2 ^ (f.fb + 1) - 2
/-- The exponent of the least subnormal. -/
def Flt.minExp (f : Flt) : Int := 1 - (f.bias : Int) - f.fb

/-- m × 2^e (sticky) rounded in direction rm to a multiple of 2^q: the significand and whether it changed. -/
def roundAt (rm : Nat) (neg : Bool) (m : Nat) (e : Int) (sticky : Bool) (q : Int) : Nat × Bool :=
  if q ≤ e then
    -- only exact operands reach a unit at or below their own, or the sticky part rounds as below one half
    let y := m * 2 ^ (e - q).toNat
    if sticky then (if (rm = 2 && !neg) || (rm = 3 && neg) then (y + 1, true) else (y, true)) else (y, false)
  else
    let sh := (q - e).toNat
    if m.log2 + 2 < sh then
      let up := (rm = 2 && !neg) || (rm = 3 && neg)
      ((if up then 1 else 0), true)
    else
      let y := m / 2 ^ sh
      let r := m % 2 ^ sh
      let half := 2 ^ (sh - 1)
      let inexact := r ≠ 0 || sticky
      let up :=
        match rm with
        | 0 => half < r || (r == half && (sticky || y % 2 == 1))
        | 1 => false
        | 2 => inexact && !neg
        | _ => inexact && neg
      (if up then y + 1 else y, inexact)

/-- ovf(f, sign, rm) (R41). -/
def Flt.ovf (f : Flt) (neg : Bool) (rm : Nat) : Nat × Flags :=
  let toInf := match rm with
    | 0 => true
    | 1 => false
    | 2 => !neg
    | _ => neg
  if toInf then (if f.hasInf then (f.inf neg, flagOF ||| flagNX) else (f.qnan, flagOF ||| flagNX ||| flagNV))
  else (f.maxf neg, flagOF ||| flagNX)

/-- round_to(f, x, rm, satf) (R41): the pattern and the flags it raises. -/
def Flt.round (f : Flt) (x : Exact) (rm : Nat) (satf : Bool) : Nat × Flags :=
  match x with
  | .nan _ => (f.qnan, 0)
  | .inf neg => if satf then (f.maxf neg, flagSAT) else if f.hasInf then (f.inf neg, 0) else (f.qnan, flagNV)
  | .zero neg => (f.sign neg, 0)
  | .fin neg m e sticky =>
    let top := e + m.log2
    let q := max (top - f.fb) f.minExp
    let (y0, inexact) := roundAt rm neg m e sticky q
    let (y, q) := if y0 = 2 ^ (f.fb + 1) then (2 ^ f.fb, q + 1) else (y0, q)
    if f.maxExp < q || (q = f.maxExp && f.maxSig < y) then
      if satf then (f.maxf neg, flagOF ||| flagNX ||| flagSAT) else f.ovf neg rm
    else
      let (z, _) := roundAt rm neg m e sticky (top - f.fb)
      let topz := if z = 2 ^ (f.fb + 1) then top + 1 else top
      let tiny := topz < 1 - (f.bias : Int)
      let fl := if inexact then (if tiny then flagNX ||| flagUF else flagNX) else 0
      let pat := if y < 2 ^ f.fb then y else (q + f.bias + f.fb).toNat * 2 ^ f.fb + (y - 2 ^ f.fb)
      (f.sign neg + pat, fl)

/-- A NaN operand that is signalling raises NV (R37). -/
def snanFlag (xs : List Exact) : Flags := if xs.any (· == .nan true) then flagNV else 0
/-- The value is a NaN. -/
def Exact.isNan : Exact → Bool
  | .nan _ => true
  | _ => false
/-- The sign of a value that is not a NaN. -/
def Exact.neg : Exact → Bool
  | .nan _ => false
  | .inf s => s
  | .zero s => s
  | .fin s _ _ _ => s
/-- The value with its sign reversed. -/
def Exact.negate : Exact → Exact
  | .nan s => .nan s
  | .inf s => .inf !s
  | .zero s => .zero !s
  | .fin s m e k => .fin (!s) m e k
/-- A signed integer times a power of two. -/
def Exact.ofInt (n : Int) (e : Int) : Exact := if n = 0 then .zero false else .fin (n < 0) n.natAbs e false
/-- The signed significand of a finite value at exponent `e`, at or below its own. -/
def Exact.at (x : Exact) (e : Int) : Int :=
  match x with
  | .fin s m e' _ =>
    let v : Int := ((m * 2 ^ (e' - e).toNat : Nat) : Int)
    if s then -v else v
  | _ => 0
/-- The exponent of a finite value's significand. -/
def Exact.exp : Exact → Int
  | .fin _ _ e _ => e
  | _ => 0

/-- a × b exactly: NaN with NV for 0 × ∞ (R44). -/
def Exact.mul (a b : Exact) : Exact × Flags :=
  match a, b with
  | .nan _, _ => (.nan false, 0)
  | _, .nan _ => (.nan false, 0)
  | .inf _, .zero _ => (.nan false, flagNV)
  | .zero _, .inf _ => (.nan false, flagNV)
  | .inf s, y => (.inf (s != y.neg), 0)
  | x, .inf s => (.inf (x.neg != s), 0)
  | .zero s, y => (.zero (s != y.neg), 0)
  | x, .zero s => (.zero (x.neg != s), 0)
  | .fin s m e _, .fin s' m' e' _ => (.fin (s != s') (m * m') (e + e') false, 0)

/-- The sign of a zero sum of opposite signs (R42): minus only under RDN. -/
def zeroSum (rm : Nat) : Exact := .zero (rm = 3)

/-- a + b exactly (R42, R44). Two finite operands whose exponents lie further apart than any format's reach keep the
larger one and a sticky part. -/
def Exact.add (rm : Nat) (a b : Exact) : Exact × Flags :=
  match a, b with
  | .nan _, _ => (.nan false, 0)
  | _, .nan _ => (.nan false, 0)
  | .inf s, .inf s' => if s = s' then (.inf s, 0) else (.nan false, flagNV)
  | .inf s, _ => (.inf s, 0)
  | _, .inf s => (.inf s, 0)
  | .zero s, .zero s' => if s = s' then (.zero s, 0) else (zeroSum rm, 0)
  | .zero _, y => (y, 0)
  | x, .zero _ => (x, 0)
  | x, y =>
    let e := min x.exp y.exp
    let n := x.at e + y.at e
    (if n = 0 then zeroSum rm else .ofInt n e, 0)

/-- The quotient m × 2^e / (m' × 2^e') to at least 70 significant bits, with its remainder in the sticky bit. -/
def divFin (neg : Bool) (m : Nat) (e : Int) (m' : Nat) (e' : Int) : Exact :=
  let k : Nat := m'.log2 + 70 - min m.log2 (m'.log2 + 70)
  let n := m * 2 ^ k
  .fin neg (n / m') (e - e' - k) (n % m' ≠ 0)

/-- a / b exactly (R44). -/
def Exact.div (a b : Exact) : Exact × Flags :=
  match a, b with
  | .nan _, _ => (.nan false, 0)
  | _, .nan _ => (.nan false, 0)
  | .inf _, .inf _ => (.nan false, flagNV)
  | .zero _, .zero _ => (.nan false, flagNV)
  | .inf s, y => (.inf (s != y.neg), 0)
  | x, .inf s => (.zero (x.neg != s), 0)
  | .zero s, y => (.zero (s != y.neg), 0)
  | x, .zero s => (.inf (x.neg != s), flagDZ)
  | .fin s m e _, .fin s' m' e' _ => (divFin (s != s') m e m' e', 0)

/-- Bit by bit from `k` down: the largest r with r² ≤ n. -/
def isqrtLoop (n : Nat) : Nat → Nat → Nat
  | 0, r => r
  | k + 1, r => if (r + 2 ^ k) * (r + 2 ^ k) ≤ n then isqrtLoop n k (r + 2 ^ k) else isqrtLoop n k r
/-- The integer square root. -/
def isqrt (n : Nat) : Nat := isqrtLoop n (n.log2 / 2 + 1) 0

/-- √(m × 2^e) to at least 70 significant bits. -/
def sqrtFin (m : Nat) (e : Int) : Exact :=
  let k : Nat := 144 + (if (e - 144) % 2 = 0 then 0 else 1)
  let n := m * 2 ^ k
  let r := isqrt n
  .fin false r ((e - k) / 2) (r * r ≠ n)

/-- √a exactly (R44, R47). -/
def Exact.sqrt (a : Exact) : Exact × Flags :=
  match a with
  | .nan _ => (.nan false, 0)
  | .zero s => (.zero s, 0)
  | .inf false => (.inf false, 0)
  | .inf true => (.nan false, flagNV)
  | .fin true _ _ _ => (.nan false, flagNV)
  | .fin false m e _ => (sqrtFin m e, 0)

/-- 1/√(m × 2^e): the floor of the root of 2^(2k) / n with its remainder. -/
def rsqrtFin (m : Nat) (e : Int) : Exact :=
  let odd := e % 2 ≠ 0
  let m := if odd then m * 2 else m
  let e := if odd then e - 1 else e
  let k : Nat := m.log2 + 80
  let r := isqrt (2 ^ (2 * k) / m)
  .fin false r (-(k : Int) - e / 2) (r * r * m ≠ 2 ^ (2 * k))

/-! ## Comparison, minimum and maximum -/

/-- a < b for values that are not NaN, -0 equal to +0. -/
def Exact.lt (a b : Exact) : Bool :=
  match a, b with
  | .nan _, _ => false
  | _, .nan _ => false
  | .inf s, .inf s' => s && !s'
  | .inf s, _ => s
  | _, .inf s => !s
  | x, y =>
    let e := min x.exp y.exp
    decide (x.at e < y.at e)

/-- a = b for values that are not NaN, -0 equal to +0. -/
def Exact.eqv (a b : Exact) : Bool := !a.isNan && !b.isNan && !a.lt b && !b.lt a

/-- FMIN and FMAX (R45) on patterns: `isMax`, and `prop` for the NaN-propagating variants. -/
def Flt.minmax (f : Flt) (isMax prop : Bool) (a b : Nat) : Nat × Flags :=
  let x := f.val a
  let y := f.val b
  let fl := snanFlag [x, y]
  if x.isNan && y.isNan then (f.qnan, fl)
  else if x.isNan then (if prop then f.qnan else b, fl)
  else if y.isNan then (if prop then f.qnan else a, fl)
  else
    let less := x.lt y || (x.eqv y && x.neg && !y.neg)
    ((if less != isMax then a else b), fl)

/-- The compare conditions of R62 on values, with the NV of R44 and R96. -/
def fcmp (cc : Nat) (x y : Exact) : Bool × Flags :=
  let un := x.isNan || y.isNan
  let ordered := cc = 2 || cc = 3 || cc = 4 || cc = 5
  let fl : Flags := if un && ordered then flagNV else snanFlag [x, y]
  let r := match cc with
    | 0 => x.eqv y
    | 1 => !x.eqv y
    | 2 => x.lt y
    | 3 => x.lt y || x.eqv y
    | 4 => y.lt x
    | 5 => y.lt x || x.eqv y
    | 6 => un
    | _ => !un
  (r, fl)

/-- FCLASS (R97): the bit of the class. -/
def Flt.cls (f : Flt) (b : Nat) : Nat :=
  match f.val b with
  | .nan true => 8
  | .nan false => 9
  | .inf true => 0
  | .inf false => 7
  | .zero true => 3
  | .zero false => 4
  | .fin s _ _ _ =>
    let sub := b / 2 ^ f.fb % 2 ^ f.eb = 0
    if s then (if sub then 2 else 1) else (if sub then 5 else 6)

/-! ## The operations of R94-R102 on patterns -/

/-- Round an exact result, with the flags raised on the way. -/
def Flt.finish (f : Flt) (x : Exact × Flags) (ops : List Exact) (rm : Nat) (satf : Bool) : Nat × Flags :=
  let (b, fl) := f.round x.1 rm satf
  (b, fl ||| x.2 ||| snanFlag ops)

def Flt.add (f : Flt) (a b rm : Nat) (satf : Bool) : Nat × Flags :=
  f.finish ((f.val a).add rm (f.val b)) [f.val a, f.val b] rm satf
def Flt.sub (f : Flt) (a b rm : Nat) (satf : Bool) : Nat × Flags :=
  f.finish ((f.val a).add rm (f.val b).negate) [f.val a, f.val b] rm satf
def Flt.mul (f : Flt) (a b rm : Nat) (satf : Bool) : Nat × Flags :=
  f.finish ((f.val a).mul (f.val b)) [f.val a, f.val b] rm satf
/-- a × b + c exactly (R44: NV for 0 × ∞ whatever the addend). -/
def fmaExact (rm : Nat) (a b c : Exact) : Exact × Flags :=
  let p := a.mul b
  let r := p.1.add rm c
  (r.1, p.2 ||| r.2)
def Flt.fma (f : Flt) (a b c rm : Nat) (satf : Bool) : Nat × Flags :=
  f.finish (fmaExact rm (f.val a) (f.val b) (f.val c)) [f.val a, f.val b, f.val c] rm satf
def Flt.div (f : Flt) (a b rm : Nat) (satf : Bool) : Nat × Flags :=
  f.finish ((f.val a).div (f.val b)) [f.val a, f.val b] rm satf
def Flt.sqrt (f : Flt) (a rm : Nat) (satf : Bool) : Nat × Flags :=
  f.finish (f.val a).sqrt [f.val a] rm satf

/-- fl32 of exact values used by the engines, flags dropped (R43, R305). -/
def fl32add (a b : Nat) : Nat := (f32.add a b 0 false).1
/-- The pattern of a value read as FP32: every NaN is the canonical one (R37, R43). -/
def fl32canon (x : Nat) : Nat := if (f32.val x).isNan then f32.qnan else x
def fl32mul (a b : Nat) : Nat := (f32.mul a b 0 false).1
def fl32sub (a b : Nat) : Nat := (f32.sub a b 0 false).1
def fl32of (x : Exact) : Nat := (f32.round x 0 false).1

/-- FRND (R98): to an integral value, no NX; the sign of a zero kept. -/
def Flt.frnd (f : Flt) (a rm : Nat) : Nat × Flags :=
  match f.val a with
  | .nan s => (f.qnan, if s then flagNV else 0)
  | .inf s => (f.inf s, 0)
  | .zero s => (f.sign s, 0)
  | .fin s m e k =>
    if 0 ≤ e then (a, 0)
    else
      let (y, _) := roundAt rm s m e k 0
      ((f.round (if y = 0 then .zero s else .fin s y 0 false) rm false).1, 0)

/-- FSCALE (R99): a × 2^b with b as I32. -/
def Flt.fscale (f : Flt) (a : Nat) (b : Int) (rm : Nat) (satf : Bool) : Nat × Flags :=
  match f.val a with
  | .nan s => (f.qnan, if s then flagNV else 0)
  | .inf s => (f.inf s, 0)
  | .zero s => (f.sign s, 0)
  | .fin s m e k => f.round (.fin s m (e + b) k) rm satf

/-- FDOT2 (R102): two products and an FP32 addend, one rounding. -/
def fdot2 (f : Flt) (a b c rm : Nat) (satf : Bool) : Nat × Flags :=
  let w := f.bits
  let x0 := f.val (a % 2 ^ w)
  let x1 := f.val (a / 2 ^ w % 2 ^ w)
  let y0 := f.val (b % 2 ^ w)
  let y1 := f.val (b / 2 ^ w % 2 ^ w)
  let z := f32.val c
  let p0 := x0.mul y0
  let p1 := x1.mul y1
  let infs := [p0.1, p1.1, z].filterMap fun t => match t with | .inf s => some s | _ => none
  let clash := infs.contains true && infs.contains false
  let sn := snanFlag [x0, x1, y0, y1, z]
  if clash then (f32.qnan, flagNV)
  else
    let r1 := p0.1.add rm p1.1
    let r2 := r1.1.add rm z
    let (bits, fl) := f32.round r2.1 rm satf
    (bits, fl ||| p0.2 ||| p1.2 ||| sn)

/-! ## Conversions (R48) -/

/-- Signed integer types by code: I32 I64 I16 I8 I4 are the even ones (R33). -/
def intSigned (t : Nat) : Bool := t % 2 == 0
/-- The value of the low bits of a register in integer type `t` (R34). -/
def intVal (t x : Nat) : Int :=
  let n := intBits t
  if intSigned t then signedOf n x else ((x % 2 ^ n : Nat) : Int)
/-- The range of an integer type (R33). -/
def intMin (t : Nat) : Int := if intSigned t then -((2 ^ (intBits t - 1) : Nat) : Int) else 0
def intMax (t : Nat) : Int :=
  if intSigned t then ((2 ^ (intBits t - 1) : Nat) : Int) - 1 else ((2 ^ intBits t : Nat) : Int) - 1
/-- wrap(t, x), as the pattern written to a register: narrow results are extended to 32 bits (R34). -/
def wrapInt (t : Nat) (x : Int) : Nat :=
  let n := intBits t
  if n < 32 then wrapNat 32 (intVal t (wrapNat n x)) else wrapNat n x
/-- sat(t, x) with its SAT flag (R34, R43). -/
def satInt (t : Nat) (x : Int) : Nat × Flags :=
  let y := max (intMin t) (min x (intMax t))
  (wrapInt t y, if y = x then 0 else flagSAT)

/-- float → integer (R48). -/
def floatToInt (x : Exact) (dst rm : Nat) : Nat × Flags :=
  match x with
  | .nan _ => (0, flagNV)
  | .inf s => (wrapInt dst (if s then intMin dst else intMax dst), flagNV)
  | .zero _ => (0, 0)
  | .fin s m e k =>
    -- a value of magnitude 2^64 or more lies outside every range
    if 70 < e + m.log2 then (wrapInt dst (if s then intMin dst else intMax dst), flagNV)
    else
      let (y, inexact) := roundAt rm s m e k 0
      let v : Int := if s then -(y : Int) else y
      if v < intMin dst then (wrapInt dst (intMin dst), flagNV)
      else if intMax dst < v then (wrapInt dst (intMax dst), flagNV)
      else (wrapInt dst v, if inexact then flagNX else 0)

/-- One conversion of R48 between type codes. -/
def convert (src dst b rm : Nat) (satf : Bool) : Nat × Flags :=
  if src < 8 || src = 14 || src = 15 then
    let v := intVal src b
    if dst < 8 then
      if exactConv src dst then (wrapInt dst v, 0) else if satf then satInt dst v else (wrapInt dst v, 0)
    else (fltOf dst).round (.ofInt v 0) rm satf
  else
    let x := (fltOf src).val b
    if dst < 8 then floatToInt x dst rm
    else
      let (y, fl) := (fltOf dst).round x rm satf
      (y, fl ||| snanFlag [x])

/-- CVTXP (R106): x × 2^c, one rounding. -/
def convertScaled (src dst b : Nat) (c : Int) (rm : Nat) (satf : Bool) : Nat × Flags :=
  let x := (fltOf src).val b
  let y := match x with
    | .fin s m e k => .fin s m (e + c) k
    | y => y
  let (r, fl) := (fltOf dst).round y rm satf
  (r, fl ||| snanFlag [x])

/-! ## Error-feedback narrowing (R49) -/

/-- One row: the inputs as FP32 patterns, the residual, the target format. Off, each input is rounded alone. -/
def narrowRow (f : Flt) (satf ef : Bool) : List Nat → Nat → List Nat
  | [], _ => []
  | x :: xs, r =>
    let t := if ef then fl32add x r else x
    let (y, fl) := f.round (f32.val t) 0 satf
    let yv := f.val y
    let bad := match yv with | .nan _ => true | .inf _ => true | _ => false
    let tbad := match f32.val t with | .nan _ => true | .inf _ => true | _ => false
    let r' := if (fl &&& flagSAT) ≠ 0 || tbad || bad then 0
      else ((f32.round ((f32.val t).add 0 yv.negate).1 0 false).1)
    y :: narrowRow f satf ef xs r'

end Sys2Proof.Machine
end

