-- ==== Sys2Proof/Machine/Transcend.lean ====
section
/-! DEFINITION. The FP32 functions of R47. Results that are not rational are bracketed between two fixed-point numbers
with 400 fraction bits; both ends are rounded and agree (log 11). Exact results are handled exactly. -/
namespace Sys2Proof.Machine

/-- Fraction bits of the fixed point. -/
def fxBits : Nat := 400
/-- One, in fixed point. -/
def fxOne : Nat := 2 ^ fxBits
/-- Product in fixed point, rounded down. -/
def fxMul (a b : Nat) : Nat := a * b / fxOne

/-- Σ z^(2k+1)/(2k+1) for z = p/q: 2^400 atanh(p/q) or, with alternating signs, atan(p/q). -/
def arcSeries (alt : Bool) (p q : Nat) : Nat → Nat → Nat → Int → Int
  | 0, _, _, acc => acc
  | fuel + 1, k, term, acc =>
    let t : Int := ((term / (2 * k + 1) : Nat) : Int)
    arcSeries alt p q fuel (k + 1) (term * p * p / (q * q)) (if alt && k % 2 == 1 then acc - t else acc + t)
/-- atanh(p/q) in fixed point. -/
def fxAtanh (p q : Nat) : Nat := (arcSeries false p q 260 0 (fxOne * p / q) 0).toNat
/-- atan(1/q) in fixed point. -/
def fxAtan (q : Nat) : Nat := (arcSeries true 1 q 260 0 (fxOne / q) 0).toNat
/-- ln 2 = 2 atanh(1/3). -/
def fxLn2 : Nat := 2 * fxAtanh 1 3
/-- π = 16 atan(1/5) - 4 atan(1/239). -/
def fxPi : Nat := 16 * fxAtan 5 - 4 * fxAtan 239

/-- Σ z^n/n! from a running term. -/
def expSeries (z : Nat) : Nat → Nat → Nat → Nat → Nat
  | 0, _, _, acc => acc
  | fuel + 1, n, term, acc => expSeries z fuel (n + 1) (fxMul term z / (n + 1)) (acc + term)
/-- 2^f in fixed point for a fixed-point f below 1. -/
def fxExp2 (f : Nat) : Nat := expSeries (fxMul f fxLn2) 110 0 fxOne 0

/-- The alternating series of sine (start n = 1) and cosine (start n = 0). -/
def trigSeries (z2 : Nat) : Nat → Nat → Nat → Bool → Int → Int
  | 0, _, _, _, acc => acc
  | fuel + 1, n, term, neg, acc =>
    trigSeries z2 fuel (n + 2) (fxMul term z2 / ((n + 1) * (n + 2))) (!neg)
      (if neg then acc - (term : Int) else acc + (term : Int))
/-- sin(πr) for a fixed-point r in [0, 1/2]. -/
def fxSinPi (r : Nat) : Nat :=
  let z := fxMul fxPi r
  (trigSeries (fxMul z z) 60 1 z false 0).toNat
/-- cos(πr) for a fixed-point r in [0, 1/2]. -/
def fxCosPi (r : Nat) : Nat :=
  let z := fxMul fxPi r
  (trigSeries (fxMul z z) 60 0 fxOne false 0).toNat

/-- The bound on the error of a fixed-point result, in units of its last place. -/
def fxErr : Nat := 2 ^ 40

/-- Round an irrational value known in fixed point within `fxErr`, scaled by 2^e: the low end is rounded with a sticky
bit, and the high end agrees. -/
def roundBracket (neg : Bool) (v : Nat) (e : Int) (rm : Nat) : Nat × Flags :=
  let lo := f32.round (.fin neg (v - fxErr) (e - fxBits) true) rm false
  let hi := f32.round (.fin neg (v + fxErr) (e - fxBits) true) rm false
  if lo = hi then lo else f32.round (.fin neg v (e - fxBits) true) rm false

/-- m × 2^e in fixed point, for a value below 2^200; exact when e ≥ -400. -/
def fxOf (m : Nat) (e : Int) : Nat :=
  if 0 ≤ e + fxBits then m * 2 ^ (e + fxBits).toNat else m / 2 ^ (-(e + fxBits)).toNat

/-- FRCP (R47). -/
def fRcp (a rm : Nat) : Nat × Flags :=
  match f32.val a with
  | .nan s => (f32.qnan, if s then flagNV else 0)
  | .zero s => (f32.inf s, flagDZ)
  | .inf s => (f32.sign s, 0)
  | .fin s m e _ => f32.round (divFin s 1 0 m e) rm false

/-- FRSQ (R47). -/
def fRsq (a rm : Nat) : Nat × Flags :=
  match f32.val a with
  | .nan s => (f32.qnan, if s then flagNV else 0)
  | .zero s => (f32.inf s, flagDZ)
  | .inf false => (0, 0)
  | .inf true => (f32.qnan, flagNV)
  | .fin true _ _ _ => (f32.qnan, flagNV)
  | .fin false m e _ => f32.round (rsqrtFin m e) rm false

/-- FEX2 (R47): exact for integers; |x| ≥ 2^11 overflows or underflows whatever its fraction. -/
def fEx2 (a rm : Nat) : Nat × Flags :=
  match f32.val a with
  | .nan s => (f32.qnan, if s then flagNV else 0)
  | .zero _ => (0x3F800000, 0)
  | .inf false => (f32.inf false, 0)
  | .inf true => (0, 0)
  | .fin s m e _ =>
    if 11 < e + m.log2 then f32.round (.fin false 1 (if s then -100000 else 100000) true) rm false
    else
      -- x = n + f / 2^k with n the floor
      let x : Int := if s then -(m : Int) else m
      let k := (-e).toNat
      let y : Int := x * ((2 ^ e.toNat : Nat) : Int)
      let n := y / ((2 ^ k : Nat) : Int)
      let r := (y % ((2 ^ k : Nat) : Int)).toNat
      if r = 0 then f32.round (.fin false 1 n false) rm false
      else roundBracket false (fxExp2 (fxOf r (-(k : Int)))) n rm

/-- FLG2 (R47): exact for powers of two. -/
def fLg2 (a rm : Nat) : Nat × Flags :=
  match f32.val a with
  | .nan s => (f32.qnan, if s then flagNV else 0)
  | .zero _ => (f32.inf true, flagDZ)
  | .inf false => (f32.inf false, 0)
  | .inf true => (f32.qnan, flagNV)
  | .fin true _ _ _ => (f32.qnan, flagNV)
  | .fin false m e _ =>
    let l := m.log2
    let n : Int := e + l
    if m = 2 ^ l then f32.round (.ofInt n 0) rm false
    else
      -- log2 x = n + ln(m / 2^l) / ln 2
      let ln := 2 * fxAtanh (m - 2 ^ l) (m + 2 ^ l)
      let fr := ln * fxOne / fxLn2
      let v : Int := n * (fxOne : Int) + (fr : Int)
      roundBracket (v < 0) v.natAbs 0 rm

/-- x mod 2 as (integer part 0 or 1, fraction numerator, fraction bits), for x = m × 2^e with e < 0. -/
def halfTurns (m : Nat) (e : Int) : Nat × Nat × Nat :=
  let k := (-e).toNat
  (m / 2 ^ k % 2, m % 2 ^ k, k)

/-- FSINPI (R47). -/
def fSinPi (a rm : Nat) : Nat × Flags :=
  match f32.val a with
  | .nan s => (f32.qnan, if s then flagNV else 0)
  | .zero s => (f32.sign s, 0)
  | .inf _ => (f32.qnan, flagNV)
  | .fin s m e _ =>
    if 0 ≤ e then (f32.sign s, 0)
    else
      let (i, r, k) := halfTurns m e
      if r = 0 then (f32.sign s, 0)
      else
        let neg := s != (i == 1)
        if 2 * r = 2 ^ k then f32.round (.fin neg 1 0 false) rm false
        else
          let r' := if 2 ^ k < 2 * r then 2 ^ k - r else r
          roundBracket neg (fxSinPi (fxOf r' (-(k : Int)))) 0 rm

/-- FCOSPI (R47). -/
def fCosPi (a rm : Nat) : Nat × Flags :=
  match f32.val a with
  | .nan s => (f32.qnan, if s then flagNV else 0)
  | .zero _ => (0x3F800000, 0)
  | .inf _ => (f32.qnan, flagNV)
  | .fin _ m e _ =>
    let (i, r, k) := if 0 ≤ e then (m * 2 ^ (min e 1).toNat % 2, 0, 0) else halfTurns m e
    if r = 0 then f32.round (.fin (i == 1) 1 0 false) rm false
    else if 2 * r = 2 ^ k then (0, 0)
    else
      let big := 2 ^ k < 2 * r
      let neg := (i == 1) != big
      let r' := if big then 2 ^ k - r else r
      roundBracket neg (fxCosPi (fxOf r' (-(k : Int)))) 0 rm

/-- tanh of a fixed-point value below 128: (1 - u) / (1 + u) with u = 2^(-2x / ln 2). -/
def fxTanh (x : Nat) : Nat :=
  let y := 2 * x * fxOne / fxLn2
  let n := y / fxOne
  let f := y % fxOne
  -- 2^(-y) = 2^(-(n + 1)) × 2^(1 - f)
  let u := if f = 0 then fxOne / 2 ^ n else fxExp2 (fxOne - f) / 2 ^ (n + 1)
  (fxOne - u) * fxOne / (fxOne + u)

/-- FTANH (R47). From 64 on the result lies between 1 - 2^-180 and 1. -/
def fTanh (a rm : Nat) : Nat × Flags :=
  match f32.val a with
  | .nan s => (f32.qnan, if s then flagNV else 0)
  | .zero s => (f32.sign s, 0)
  | .inf s => f32.round (.fin s 1 0 false) rm false
  | .fin s m e _ =>
    if 6 ≤ e + m.log2 then f32.round (.fin s (2 ^ 180 - 1) (-180) true) rm false
    else if e + m.log2 < -40 then
      -- x - x³/3 < tanh x < x: below x by less than 2^-80 of it
      f32.round (.fin s (m * 2 ^ 80 - 1) (e - 80) true) rm false
    else roundBracket s (fxTanh (fxOf m e)) 0 rm

end Sys2Proof.Machine
end

