-- ==== Sys2Proof/Machine/Flags.lean ====
section
/-! DEFINITION. The strip-wide flag registers (R13-R15): raising sticky bits, and the access codes of SPRW. -/
namespace Sys2Proof.Machine

/-- Bits of STRIP_STATUS (R13). -/
def stUREAD : Word := 1
def stPOISON : Word := 2
def stSPILL : Word := 4
def stINTRAP : Word := 8

/-- The strip runs its trap handler. -/
def Strip.inTrap (p : Strip) : Bool := p.status.getLsbD 3

/-- Set sticky bits of STRIP_STATUS. -/
def Strip.setStatus (p : Strip) (bits : Word) : Strip := { p with status := p.status ||| bits }
/-- Raise floating-point flags (R15, R43). -/
def Strip.raise (p : Strip) (fl : Flags) : Strip := { p with fpflags := p.fpflags ||| fl.setWidth 32 }
/-- Set or clear INTRAP. -/
def Strip.setInTrap (p : Strip) (on : Bool) : Strip :=
  { p with status := if on then p.status ||| stINTRAP else p.status &&& ~~~stINTRAP }

/-- W1C write of STRIP_STATUS: bits [2:0] (R13). -/
def Strip.writeStatus (p : Strip) (w : Word) : Strip := { p with status := p.status &&& ~~~(w &&& 7) }
/-- W1C write of STRIP_FPFLAGS: bits [5:0] (R14). -/
def Strip.writeFpflags (p : Strip) (w : Word) : Strip := { p with fpflags := p.fpflags &&& ~~~(w &&& 63) }

/-- A poisoned value of a unit reaches a strip: POISON, PSNCNT and the error log, with the physical address or the
position in the array (R118, R423, R425; unit codes: log 17). -/
def notePoisonAt (s : State) (id : Nat) (p : Strip) (unit pos : Nat) : State :=
  let s := modStrip s id fun p => p.setStatus stPOISON
  logError (countPoison s p.coreId) p.die unit .poisoned pos
/-- A poisoned value of memory reaches a strip, at a physical address. -/
def notePoison (s : State) (id : Nat) (p : Strip) (pa : Nat) : State := notePoisonAt s id p 0 pa

end Sys2Proof.Machine
end

