-- ==== Sys2Proof/Machine/Posted.lean ====
section
/-! DEFINITION. Atomics (R261), the writes of a core on their way to their homes (R258, R263), the translation
invalidation log (R463, R464) and the duties of an acquire (R245, R457). -/
namespace Sys2Proof.Machine

/-! ## Atomics -/

/-- The new word of an atomic (R261), or none when a CAS fails. -/
def atomNew (fn : Nat) (w : Bool) (old a c : Nat) : Option Nat :=
  let n := if w then 64 else 32
  let f := if w then f64 else f32
  let lt := fun (x y : Nat) => signedOf n x < signedOf n y
  match fn with
  | 0 => some ((old + a) % 2 ^ n)
  | 1 => some (if lt a old then a else old)
  | 2 => some (if lt old a then a else old)
  | 3 => some (min old a)
  | 4 => some (max old a)
  | 5 => some (old &&& a)
  | 6 => some (old ||| a)
  | 7 => some (old ^^^ a)
  | 8 => some a
  | 9 => if old = c then some a else none
  | 10 => some (f.add old a 0 false).1
  | 11 => some (f.minmax false false old a).1
  | _ => some (f.minmax true false old a).1

/-! ## Posted writes -/

/-- A strip meets poison; its core counts it when the strip has gone. -/
def notePoisonOf (s : State) (strip core pa : Nat) : State :=
  match tableGet s.strips strip with
  | some p => notePoison s strip p pa
  | none => countPoison s core

/-- Perform an ordered store or a REDG at its home, write by write (R258, R263). A REDG on a poisoned word writes nothing:
it sets POISON and is counted, under the job's poison trap too, for it returns no value (DESIGN CHOICE, log 58); like every
atomic it drops the die's RDC line (R458). -/
def performPosted (s : State) (core : Nat) (q : Posted) : State :=
  let die := core / 96
  let ag : Agent := ⟨die, core, 0, 0, 0, q.launches, false, 0, 0⟩
  q.ops.foldl (fun s o => match o with
    | .write pa cp bytes =>
      if isDevice pa then
        (if bytes.length = 8 ∧ pa % 8 = 0 then deviceWrite s pa (BitVec.ofNat 64 (leNat bytes))
         else logError s die unitDevice .masked pa)
      else writeAt s ag true cp pa bytes
    | .red pa cp fn w pr a =>
      let n := if w then 8 else 4
      let (b, bad) := readHome s pa n
      if isDevice pa then logError s die unitDevice .masked pa
      else if bad || pr then
        notePoisonOf (dropRdcFor (l2Atomic (noteBeyond s die pa) (lineOf pa) cp) die pa) q.strip core pa
      else match atomNew fn w (leNat b) a 0 with
        | some v => writeAt s ag true cp pa (leBytes n v)
        | none => s) s

/-- The lines that a posted write names. -/
def postedLines (q : Posted) : List Nat := q.ops.map fun o => match o with
  | .write pa _ _ => lineOf pa
  | .red pa _ _ _ _ _ => lineOf pa

/-- A posted write names one of some lines. -/
def postedMeets (lines : List Nat) (q : Posted) : Bool := (postedLines q).any lines.contains

/-- The posted writes that a test picks, with the earlier ones of their lines, which go before them (R258); and the
others. -/
def takePosted (p : Posted → Bool) : List Posted → List Posted × List Posted
  | [] => ([], [])
  | q :: rest =>
    let r := takePosted p rest
    if p q || r.1.any (postedMeets (postedLines q)) then (q :: r.1, r.2) else (r.1, q :: r.2)

/-- No earlier posted write of the core names a line of the `k`-th (R258). -/
def postedFirst (c : Core) (k : Nat) : Bool := match c.posted[k]? with
  | some q => !(c.posted.take k).any (postedMeets (postedLines q))
  | none => false

/-- Perform the posted writes of a core that a test picks, in order. -/
def flushPosted (s : State) (core : Nat) (p : Posted → Bool) : State :=
  let r := takePosted p (coreOf s core).posted
  r.1.foldl (fun s q => performPosted s core q) (modCore s core fun c => { c with posted := r.2 })

/-- The drain of a release: the core's posted writes and every SCB entry (R245, R226 trigger 4). -/
def releaseCore (s : State) (core : Nat) : State := drainAll (flushPosted s core fun _ => true) core

/-! ## The translation invalidation log -/

/-- A log entry matches a held translation (R463). -/
def tiMatch (va asid kind pages : Nat) (t : TlbEntry) : Bool :=
  match kind with
  | 1 => t.asid == asid && t.page < va + 4096 * pages && va < t.page + t.bytes
  | 2 => t.asid == asid
  | 3 => true
  | _ => false

/-- Apply one entry of a die's log (R463, R464). -/
def tiEntry (s : State) (die at_ : Nat) : State :=
  let s := noteBeyond s die at_
  let b := (readHome s at_ 16).1
  let f := fun (o n : Nat) => leNat ((b.drop o).take n)
  let kind := f 10 1
  if kind = 0 ∨ 3 < kind then modDie s die fun d => { d with tiskip := d.tiskip + 1 }
  else
    let keep := fun (l : List TlbEntry) => l.filter fun t => !tiMatch (f 0 8) (f 8 2) kind (f 12 4) t
    let s := modDie s die fun d => { d with tlb := keep d.tlb }
    { s with cores := s.cores.map fun c => if c.1 / 96 = die then (c.1, { c.2 with tlb := keep c.2.tlb }) else c }

/-- Apply a die's invalidation log from CONS to PROD (R464): the entries, the
posted writes and a drain of every SCB of the die, then CONS. -/
def applyTi (s : State) (die : Nat) : State :=
  let d := dieOf s die
  let h := d.tilog.toNat
  let get := fun (s : State) (o n : Nat) => leNat (readHome s (h + o) n).1
  let prod := get s 0x10 8
  let cons := get s 0x18 8
  let base := get s 0 8
  let cap := get s 8 4
  let s := modDie s die fun d => { d with tiPending := false }
  let s := if h = 0 then s else noteBeyond s die h
  if h = 0 ∨ cap = 0 then s
  else
    -- no more entries than the ring holds
    let s := (List.range (min (prod - cons) cap)).foldl (fun s k => tiEntry s die (base + 16 * ((cons + k) % cap))) s
    -- every access translated before this point is performed
    let s := s.cores.foldl (fun s c => if c.1 / 96 = die then drainAll (flushPosted s c.1 fun _ => true) c.1 else s) s
    hardWrite s die (h + 0x18) (leBytes 8 prod)

/-- The acquire duties at a scope on a core's caches (R245, R457): 0 STRIP, 1 GROUP, 2 DIE, 3 PKG, 4 SYS. At PKG and SYS
a log doorbell that has rung is served first (R464). -/
def acquireScope (s : State) (ag : Agent) (scope : Nat) : State :=
  let s := if 3 ≤ scope && (dieOf s ag.die).tiPending then applyTi s ag.die else s
  let s := if 1 ≤ scope then acquireRc s ag.core else s
  if 3 ≤ scope then dropRdcJob s ag.die ag.asid fun _ => true else s

end Sys2Proof.Machine
end

