-- ==== Sys2Proof/Machine/Coffer.lean ====
section
/-! DEFINITION. The Coffer (spec 06): rows, floors and claims of a slice; spills and refills; reading, releasing and
writing v registers; and the s registers, whose writes re-evaluate the rejoins of the strip (R128). -/
namespace Sys2Proof.Machine

/-! ## Rows -/

/-- The v registers of a destination, in the order of the result's words. -/
def Dest.vRegs : Dest → List Nat
  | .v first n => (List.range n).map fun k => first + k
  | .march d p => [d, d + 1, p, p + 1, p + 2]
  | _ => []

/-- The destination registers of a flight whose result is not discarded for every strand (R138). -/
def Flight.keptRegs (f : Flight) : Nat :=
  ((List.range f.dest.vRegs.length).filter fun k => f.x &&& ~~~(f.lost.getD k 0) != 0).length
/-- The staging rows of a strip: a result discarded for every strand has freed its own (R153). -/
def Strip.staging (p : Strip) : Nat := p.flights.foldl (fun n f => if f.staged then n + f.keptRegs else n) 0
/-- Rows a strip holds: mapped registers and staging rows (R144). -/
def Strip.rows (p : Strip) : Nat := (p.v.filter fun r => !r.2.spilled).length + p.staging
/-- The slice of a core a strip runs on. -/
def Strip.sliceKey (p : Strip) : Nat := p.bay * 4 + p.slice
/-- Two strips share a slice. -/
def sameSlice (p q : Strip) : Bool := p.die == q.die && p.core == q.core && p.bay == q.bay && p.slice == q.slice

/-- The claimed rows of a strip's slice (R144). -/
def claimedRows (s : State) (p : Strip) : Nat :=
  s.strips.foldl (fun n q => if sameSlice p q.2 then n + max q.2.rows q.2.floor else n) 0
/-- The unreserved rows of a strip's slice. -/
def unreserved (s : State) (p : Strip) : Nat := 384 - claimedRows s p
/-- The claims waiting on a slice (R147). -/
def claimsOf (s : State) (core slice : Nat) : List Claim := (tableGet (coreOf s core).claims slice).getD []

/-- A row can be had without a spill (R146, cases 1 and 2). -/
def rowFree (s : State) (p : Strip) : Bool :=
  p.rows < p.floor || ((claimsOf s p.coreId p.sliceKey).isEmpty && 1 ≤ unreserved s p)

/-- The address of register n's spill slot (R150, R183). -/
def spillSlot (s : State) (p : Strip) (reg : Nat) : Nat :=
  let base := match launchOfStrip s p with
    | some (_, l) => l.lrec.spill.toNat
    | none => 0
  vaOf (base + 16384 * ((p.die * 96 + p.core) * 384 + p.bay * 32 + p.slice * 8 + p.slot) + 64 * reg)

/-- The register to spill (R149): the highest mapped one outside the instruction's, or, when that leaves none, outside
the current step's (R152). -/
def victim (p : Strip) (instr step : List Nat) : Option Nat :=
  let mapped := (p.v.filter fun r => !r.2.spilled).map fun r => r.1
  match (mapped.filter fun r => !instr.contains r).getLast? with
  | some r => some r
  | none => (mapped.filter fun r => !step.contains r).getLast?

/-- Spill one register to its slot through the SCB (R149, R151); a fault suspends the strip. -/
def spillReg (s : State) (id : Nat) (reg : Nat) : Bool × State :=
  match tableGet s.strips id with
  | none => (true, s)
  | some p =>
    match tableGet p.v reg with
    | none => (true, s)
    | some r =>
      let ag := stripAgent s p
      match xlateRange s ag (spillSlot s p reg) 64 .both with
      | (.error (va, k), s) => (false, suspendStrip s id p ag va k (accRead + accWrite))
      | (.ok ps, s) =>
        let s := storeAccess s ag [] 0 ps (wordsBytes r.vals)
        (true, modStrip s id fun p => { p.setStatus stSPILL with
          v := tablePut p.v reg { r with spilled := true, vals := List.replicate 16 0 } })

/-- Obtain a row (R146); false when a fault suspended the strip. Where a handler's SHRINK has left the staging rows of
suspended windows above the new floor less 8 (R402), R154's argument fails and no register may be there to spill: the
instruction then goes on, its register counted as mapped (DESIGN CHOICE, log 47). -/
def obtainRow (s : State) (id : Nat) (instr step : List Nat) : Bool × State :=
  match tableGet s.strips id with
  | none => (true, s)
  | some p =>
    if rowFree s p then (true, s)
    else
      match victim p instr step with
      | some reg => spillReg s id reg
      | none => (true, s)

/-- The poison that a strip's refills have met since an earlier state is noted: POISON, PSNCNT and the error log (R118,
R151). -/
def noteRefills (before s : State) (id : Nat) : State :=
  match tableGet before.strips id, tableGet s.strips id with
  | some q, some p =>
    let n := q.noted.length
    if p.noted.length ≤ n then s
    else (p.noted.drop n).foldl (fun s pa => notePoison s id p pa) (modStrip s id fun p => { p with noted := p.noted.take n })
  | _, _ => s

/-- Read a register's slot back (R150, R151): its entries, poison giving zero; it is noted once the issue, or the end of the
window, that needed the row takes effect. -/
def readSlot (s : State) (id : Nat) (p : Strip) (reg : Nat) : Option (List Word) × State :=
  let ag := stripAgent s p
  match xlateRange s ag (spillSlot s p reg) 64 .read with
  | (.error (va, k), s) => (none, suspendStrip s id p ag va k accRead)
  | (.ok ps, s) =>
    let (bytes, bad, s) := readAccess s ag .home true ps
    if bad then
      (some (List.replicate 16 0), modStrip s id fun p => { p with noted := p.noted ++ [firstPa ps] })
    else (some (bytesWords 16 bytes), s)

/-- Refill a spilled register (R150): a row, then the slot. -/
def refillReg (s : State) (id : Nat) (reg : Nat) (instr step : List Nat) : Bool × State :=
  match tableGet s.strips id with
  | none => (true, s)
  | some p =>
    match tableGet p.v reg with
    | none => (true, s)
    | some r =>
      if !r.spilled then (true, s)
      else
        match obtainRow s id instr step with
        | (false, s) => (false, s)
        | (true, s) =>
          match readSlot s id p reg with
          | (none, s) => (false, s)
          | (some vals, s) =>
            (true, modStrip s id fun p => { p with v := tablePut p.v reg { r with spilled := false, vals := vals } })

/-- Refill several registers in ascending order. -/
def refillRegs (s : State) (id : Nat) (instr step : List Nat) : List Nat → Bool × State
  | [] => (true, s)
  | r :: rs =>
    match refillReg s id r instr step with
    | (false, s) => (false, s)
    | (true, s) => refillRegs s id instr step rs

/-! ## Entries -/

/-- A strand's entry is valid (R142). -/
def Strip.validAt (p : Strip) (reg strand : Nat) : Bool :=
  match tableGet p.v reg with
  | some r => r.valid.getLsbD strand
  | none => false

/-- A strand's entry as an instruction reads it (R143, R423): 0 when invalid or poisoned. -/
def Strip.readV (p : Strip) (reg strand : Nat) : Word :=
  match tableGet p.v reg with
  | some r => if r.valid.getLsbD strand && !r.poison.getLsbD strand then r.vals.getD strand 0 else 0
  | none => 0

/-- A strand's entry is poisoned. -/
def Strip.poisonedV (p : Strip) (reg strand : Nat) : Bool :=
  match tableGet p.v reg with
  | some r => r.valid.getLsbD strand && r.poison.getLsbD strand
  | none => false

/-- Mark a register dead for some strands (R73, R142); with no valid bit left it becomes unmapped. -/
def Strip.killV (p : Strip) (reg : Nat) (x : Strands) : Strip :=
  match tableGet p.v reg with
  | none => p
  | some r =>
    let valid := r.valid &&& ~~~x
    if valid = 0 then { p with v := tableDel p.v reg }
    else { p with v := tablePut p.v reg { r with valid := valid, poison := r.poison &&& ~~~x } }

/-- Registers dead for strands that exit (R142). -/
def Strip.killAll (p : Strip) (x : Strands) : Strip := (p.v.map fun r => r.1).foldl (fun p r => p.killV r x) p

/-- Entries of a row after a write by strands `x`. -/
def mergeVals (old new : List Word) (x : Strands) : List Word :=
  strandIxs.map fun i => if x.getLsbD i then new.getD i 0 else old.getD i 0

/-- Put the entries of strands `x` into a register that has or gets a row (R72, R142). -/
def Strip.putV (p : Strip) (reg : Nat) (x : Strands) (vals : List Word) : Strip :=
  let r := (tableGet p.v reg).getD ⟨false, 0, 0, List.replicate 16 0⟩
  { p with v := tablePut p.v reg ⟨false, r.valid ||| x, r.poison &&& ~~~x,
      if r.spilled then mergeVals (List.replicate 16 0) vals x else mergeVals r.vals vals x⟩ }

/-- The window of a flight was open when the handler in progress began, and is suspended (R402). -/
def suspended (p : Strip) (f : Flight) : Bool := p.inTrap && !f.handler && f.left ≠ 0

/-- A write by the handler does not discard the result of a suspended window (R402). -/
def discards (p : Strip) (f : Flight) : Bool := f.long && !suspended p f

/-- SORT16's two registers are discarded together (R165). -/
def pairedDest : Instr → Bool
  | .sort16 _ => true
  | _ => false

/-- Mark results discarded for register `reg` and strands `x` (R138). -/
def Strip.discardV (p : Strip) (reg : Nat) (x : Strands) : Strip :=
  { p with flights := p.flights.map fun f =>
      if discards p f && f.dest.vRegs.contains reg then
        { f with lost :=
            if pairedDest f.instr then f.lost.map fun l => l ||| x
            else listMod f.lost (f.dest.vRegs.findIdx fun r => r == reg) fun l => l ||| x }
      else f }

/-- A write of an s register by an issue of `x` discards a pending result for it when the issue lies in its window: when
it shares a strand with the result's own issue (R137, R138). -/
def Strip.discardS (p : Strip) (reg : Nat) (x : Strands) : Strip :=
  { p with flights := p.flights.map fun f =>
      match f.dest with
      | .s first n =>
        if discards p f && first ≤ reg && reg < first + n && f.x &&& x ≠ 0 then
          { f with lost := f.lost.map fun _ => 0xFFFF }
        else f
      | _ => f }

/-- The row of a v register that is written for strands `x` (R142, R150): one for an unmapped register, and a refill for a
spilled one that keeps entries. False when a fault suspended the strip. -/
def rowFor (s : State) (id : Nat) (p : Strip) (reg : Nat) (x : Strands) (instr step : List Nat) : Bool × State :=
  match tableGet p.v reg with
  | none => obtainRow s id instr step
  | some r =>
    if !r.spilled then (true, s)
    else if r.valid &&& ~~~x = 0 then obtainRow s id instr step
    else refillReg s id reg instr step

/-- Write one v register for strands `x` (R72, R142, R150). False when a fault suspended the strip. -/
def writeReg (s : State) (id : Nat) (reg : Nat) (x : Strands) (vals : List Word) (instr step : List Nat)
    : Bool × State :=
  match tableGet s.strips id with
  | none => (true, s)
  | some p =>
    if x = 0 then (true, s)
    else
      match rowFor s id p reg x instr step with
      | (false, s) => (false, s)
      | (true, s) => (true, modStrip s id fun p => p.putV reg x vals)

/-- Write several v registers, from `first` on: one list of words per strand. -/
def writeRegs (s : State) (id : Nat) (first : Nat) (x : Strands) (vals : List (List Word)) (instr : List Nat)
    : Nat → Nat → Bool × State
  | 0, _ => (true, s)
  | n + 1, k =>
    let step := (List.range 8).map fun j => first + k / 8 * 8 + j
    match writeReg s id (first + k) x (vals.map fun l => l.getD k 0) instr step with
    | (false, s) => (false, s)
    | (true, s) => writeRegs s id first x vals instr n (k + 1)

/-! ## s registers -/

/-- An s register (R11, R183): registers never written hold what the start of the strip gave. -/
def Strip.readS (p : Strip) (reg : Nat) : Word := if p.sPoison.contains reg then 0 else cellGet (0 : Word) p.s reg

/-- Store an s register. -/
def Strip.putS (p : Strip) (reg : Nat) (w : Word) : Strip :=
  { p with s := cellPut (0 : Word) p.s reg w, sPoison := setDel p.sPoison reg }

/-- The strands that have exited. -/
def Strip.exited (p : Strip) : Strands := strandSet fun i => match p.strands[i]? with
  | some t => t.st == .exited
  | none => true
/-- The strands that have not exited. -/
def Strip.live (p : Strip) : Strands := ~~~p.exited

/-- The JWAIT condition of a rejoin register (R127). -/
def Strip.joinMet (p : Strip) (reg : Nat) : Bool :=
  let w := p.readS reg
  let part := lowMask w
  let arrived : Strands := (w >>> 16).setWidth 16
  part &&& ~~~(arrived ||| p.exited) = 0

/-- Release every strand blocked at a JWAIT whose condition is met (R128). -/
def Strip.rejoin (p : Strip) : Strip :=
  { p with strands := p.strands.map fun t =>
      match t.st with
      | .blocked (.join reg) => if p.joinMet reg then { t with st := .runnable, pc := t.pc + 8 } else t
      | _ => t }

/-- An issue of `x` writes s registers from `first` on, discarding pending results for them; rejoins are evaluated again. -/
def Strip.writeS (p : Strip) (x : Strands) (first : Nat) (ws : List Word) : Strip :=
  ((List.range ws.length).foldl (fun p k => (p.putS (first + k) (ws.getD k 0)).discardS (first + k) x) p).rejoin

end Sys2Proof.Machine
end

