-- ==== Sys2Proof/Machine/Operands.lean ====
section
/-! DEFINITION. What an issue reads: the executing set (R125, R176), constants (R21), specials (R23), every operand form
(R22, R52-R54, R74), the empty entries it meets (R143), the registers it releases (R53, R73) and its destination. -/
namespace Sys2Proof.Machine

/-! ## The executing set -/

/-- The runnable strands that a handler has not frozen (R124, R401). -/
def Strip.runnable (p : Strip) : Strands := strandSet fun i => match p.strands[i]? with
  | some t => t.st == .runnable && !t.frozen
  | none => false

/-- The PC of a strand. -/
def Strip.pcOf (p : Strip) (i : Nat) : VA := match p.strands[i]? with
  | some t => t.pc
  | none => 0

/-- The state of a strand (R124). -/
def Strip.stOf (p : Strip) (i : Nat) : StrandState := match p.strands[i]? with
  | some t => t.st
  | none => .exited

/-- The lowest PC of a list of strands, as an unsigned number. -/
def lowestPc (p : Strip) : List Nat → Option VA
  | [] => none
  | i :: l => match lowestPc p l with
    | none => some (p.pcOf i)
    | some q => if (p.pcOf i).toNat ≤ q.toNat then some (p.pcOf i) else some q

/-- The executing set of the next issue and its PC (R125, with the deferral of R176); none when nothing can issue. -/
def Strip.chooseX (p : Strip) : Option (VA × Strands) :=
  let r := strandsOf p.runnable
  let starved := r.filter fun i => (p.strands[i]?.map fun t => t.starve == 256).getD false
  let free := r.filter fun i => !(p.strands[i]?.map fun t => t.deferred).getD false
  let pc := match starved with
    | i :: _ => some (p.pcOf i)
    | [] => if free.isEmpty then lowestPc p r else lowestPc p free
  match pc with
  | none => none
  | some q => some (q, strandSet fun i => p.runnable.getLsbD i && p.pcOf i == q)

/-- The executing set that issues next: that of a fetch to be made again (R421), else the one R125 chooses. -/
def Strip.issueSet (p : Strip) : Option (VA × Strands) :=
  if p.fetchX = 0 then p.chooseX else some (p.pcOf (lowStrand p.fetchX), p.fetchX)

/-- Close an issue of `x` in the starvation counts (R125): 0 for the strands of `x`, one more for the others, up to 256;
frozen strands do not count (R401). -/
def countIssue (frozen x : Strands) (l : List Strand) : List Strand :=
  (strandIxs.zip l).map fun it =>
    if frozen.getLsbD it.1 then it.2
    else if x.getLsbD it.1 then { it.2 with starve := 0 }
    else { it.2 with starve := min 256 (it.2.starve + 1) }

/-- The strands a handler has frozen. -/
def Strip.frozen (p : Strip) : Strands := strandSet fun i => (p.strands[i]?.map fun t => t.frozen).getD false

/-- Change the strands of a set. -/
def Strip.onStrands (p : Strip) (x : Strands) (f : Strand → Strand) : Strip :=
  { p with strands := (strandIxs.zip p.strands).map fun it => if x.getLsbD it.1 then f it.2 else it.2 }

/-- Move the strands of a set to an address (R12). -/
def Strip.setPc (p : Strip) (x : Strands) (pc : VA) : Strip := p.onStrands x fun t => { t with pc := pc }
/-- Advance the strands of a set by one word (R12). -/
def Strip.advance (p : Strip) (x : Strands) : Strip := p.onStrands x fun t => { t with pc := t.pc + 8 }
/-- Block the strands of a set at their instruction (R124). -/
def Strip.block (p : Strip) (x : Strands) (b : Block) : Strip := p.onStrands x fun t => { t with st := .blocked b }

/-! ## Constants and specials -/

/-- The constant table k0-k63 (R21). -/
def constTable : List Nat :=
  [0x00000000, 0x00000001, 0x00000002, 0x00000003, 0x00000004, 0x00000008, 0x00000010, 0x00000020] ++
  [0x00000040, 0x00000080, 0x00000100, 0x00000200, 0xFFFFFFFF, 0x7FFFFFFF, 0x80000000, 0x000000FF] ++
  [0x0000FFFF, 0x0000000F, 0x3F800000, 0xBF800000, 0x3F000000, 0x40000000, 0x40800000, 0x3E800000] ++
  [0x40400000, 0x41200000, 0x7F800000, 0xFF800000, 0x7FC00000, 0x7F7FFFFF, 0x00800000, 0x3FB8AA3B] ++
  [0x3F317218, 0x40490FDB, 0x3EA2F983, 0x3FB504F3, 0x3F3504F3, 0x3B800000, 0x3F7F0000, 0x43E00000] ++
  [0x47600000, 0x477FE000, 0xBF000000, 0x3E000000, 0x3C003C00, 0x38003800, 0x3F803F80, 0x00003C00] ++
  [0x00000000, 0x3FF00000, 0x00000000, 0x3FE00000, 0x00000000, 0x40000000, 0x00000000, 0xBFF00000] ++
  [0x00000000, 0x7FF80000, 0x00000000, 0x7FF00000, 0x54442D18, 0x400921FB, 0xFEFA39EF, 0x3FE62E42]

/-- Constant k_n. -/
def constK (n : Nat) : Word := BitVec.ofNat 32 (constTable.getD n 0)

/-- The 4-bit field of a token (R282): BUSY in bit 3, the status in bits [2:0]. -/
def Token.field (t : Token) : Nat := (if t.count = 0 then 0 else 8) + t.code % 8

/-- %tstat (R23, R282). -/
def Strip.tstat (p : Strip) : Word :=
  BitVec.ofNat 32 ((List.range 8).foldl (fun n k => n + (p.tokens.getD k ⟨0, 0⟩).field * 16 ^ k) 0)

/-- The launch's command sequence number and phase count seen by a strip. -/
def launchWord (s : State) (p : Strip) (f : Launch → Word) : Word := match launchOfStrip s p with
  | some (_, l) => f l
  | none => 0

/-- A value of a strip's workgroup. -/
def wgWord (s : State) (p : Strip) (f : Wg → Word) : Word := match tableGet s.wgs p.wg with
  | some w => f w
  | none => 0

/-- A special by its selector (R23), for strand `i`; `mask` is %mask. -/
def special (s : State) (p : Strip) (mask : Strands) (i sel : Nat) : Word :=
  match sel with
  | 0x340 => BitVec.ofNat 32 i
  | 0x341 => BitVec.ofNat 32 (i % 4)
  | 0x342 => BitVec.ofNat 32 p.slice
  | 0x343 => BitVec.ofNat 32 p.bay
  | 0x344 => BitVec.ofNat 32 p.core
  | 0x345 => BitVec.ofNat 32 (p.core / 4)
  | 0x346 => BitVec.ofNat 32 (p.core / 24)
  | 0x347 => BitVec.ofNat 32 p.die
  | 0x348 => BitVec.ofNat 32 p.index
  | 0x349 => wgWord s p (·.wg0)
  | 0x34A => wgWord s p (·.wg1)
  | 0x34B => wgWord s p (·.wg2)
  | 0x34C => launchWord s p fun l => BitVec.ofNat 32 l.lrec.strands
  | 0x34D => BitVec.ofNat 32 (p.index * 16 + i)
  | 0x34E => wgWord s p (·.leaf)
  | 0x34F => launchWord s p fun l => lo32 l.seq
  | 0x350 => launchWord s p (·.phaseCount)
  | 0x351 => BitVec.ofNat 32 s.clk
  | 0x352 => BitVec.ofNat 32 (s.clk / 2 ^ 32)
  | 0x353 => mask.setWidth 32
  | 0x354 => p.tstat
  | _ => 0

/-! ## Source operands -/

/-- What a source field names for strand `i`: `n` words, lowest register first (R22, R52, R74). -/
def srcWords (s : State) (p : Strip) (mask : Strands) (i : Nat) (sel : BitVec 10) (n : Nat) : List Word :=
  let k := selNum sel
  match selClass sel with
  | .v => (List.range n).map fun j => p.readV (k + j) i
  | .s => (List.range n).map fun j => p.readS (k + j)
  | .k => (List.range n).map fun j => constK (k + j)
  | .special =>
    if n = 1 then [special s p mask i sel.toNat]
    else if sel = 0x351 then [BitVec.ofNat 32 s.clk, BitVec.ofNat 32 (s.clk / 2 ^ 32)]
    else [special s p mask i sel.toNat, 0]
  | .reserved => List.replicate n 0

/-- The registers a source field reads under its kind: how many from its selector on. -/
def srcCount (k : OpKind) : Nat := match k with
  | .unused => 0
  | .typeField => 0
  | .any n => n
  | .vs n => n
  | .s n => n
  | .sPart _ _ => 4
  | .v n _ => n

/-- One operand of an issue: for the lane pipe the words of each executing strand (none for the others), for the uniform
pipe the single value, a v register giving strand 0's entry (R54). -/
def operand (s : State) (p : Strip) (uniform : Bool) (x : Strands) (src : Src) (k : OpKind) : List (List Word) :=
  let n := srcCount k
  if n = 0 then []
  else if uniform then [srcWords s p p.live 0 src.sel n]
  else strandIxs.map fun i => if x.getLsbD i then srcWords s p x i src.sel n else []

/-- The operands of an issue. -/
def operandsOf (s : State) (p : Strip) (x : Strands) (sh : Shape) : Operands where
  a := operand s p sh.uniform x sh.a sh.ak
  b := operand s p sh.uniform x sh.b sh.bk
  c := operand s p sh.uniform x sh.c sh.ck

/-- The v registers a source field reads: the first and how many. -/
def vRange (src : Src) (k : OpKind) : List Nat :=
  match selClass src.sel with
  | .v => (List.range (srcCount k)).map fun j => selNum src.sel + j
  | _ => []

/-- The s registers a source field reads. -/
def sRange (src : Src) (k : OpKind) : List Nat :=
  match selClass src.sel with
  | .s => match k with
    | .sPart lo n => (List.range n).map fun j => selNum src.sel + lo + j
    | k => (List.range (srcCount k)).map fun j => selNum src.sel + j
  | _ => []

/-- The v registers that an instruction reads, ascending, without repeats (R152). -/
def readsV (sh : Shape) : List Nat := (vRange sh.a sh.ak ++ vRange sh.b sh.bk ++ vRange sh.c sh.ck).foldl setAdd []

/-- The destination of an instruction (R55). -/
def destOf (sh : Shape) : Dest := match sh.dk with
  | .none => .none
  | .reg n _ => if sh.uniform then .s sh.d.toNat n else .v sh.d.toNat n

/-- The v registers an instruction writes. -/
def writesV (sh : Shape) : List Nat := match destOf sh with
  | .v first n => (List.range n).map fun j => first + j
  | _ => []

/-- The registers a spill must leave alone (R149). -/
def instrRegs (sh : Shape) : List Nat := (readsV sh ++ writesV sh).foldl setAdd []

/-- The strands whose entries a field reads: the executing set, or strand 0 for the uniform pipe (R54). -/
def readersOf (sh : Shape) (x : Strands) : Strands := if sh.uniform then 1 else x

/-- The readers that find an empty entry through one field (R143). -/
def emptyIn (p : Strip) (sh : Shape) (x : Strands) (src : Src) (k : OpKind) : Strands :=
  let r := readersOf sh x
  strandSet fun i => r.getLsbD i && (vRange src k).any fun reg => !p.validAt reg i

/-- The strands that read an empty entry and the selector of the first field that does, in the order A, B, C (R143,
R399, R406). -/
def emptyReads (p : Strip) (sh : Shape) (x : Strands) : Strands × BitVec 10 :=
  let a := emptyIn p sh x sh.a sh.ak
  let b := emptyIn p sh x sh.b sh.bk
  let c := emptyIn p sh x sh.c sh.ck
  (a ||| b ||| c, if a ≠ 0 then sh.a.sel else if b ≠ 0 then sh.b.sel else sh.c.sel)

/-- The poisoned entries an issue reads (R423), each once: the unit code of its array and its position in a strip
(log 17). -/
def poisonReads (p : Strip) (sh : Shape) (x : Strands) : List (Nat × Nat) :=
  let v := (readsV sh).flatMap fun reg => (strandsOf (readersOf sh x)).filterMap fun i =>
    if p.poisonedV reg i then some (1, reg * 16 + i) else none
  let s := ((sRange sh.a sh.ak ++ sRange sh.b sh.bk ++ sRange sh.c sh.ck).foldl setAdd []).filter p.sPoison.contains
  v ++ s.map fun reg => (2, reg)

/-- Mark one field's registers dead when its last-use bit is set (R53, R73). -/
def releaseField (p : Strip) (x : Strands) (src : Src) (k : OpKind) : Strip :=
  if src.last then (vRange src k).foldl (fun p reg => p.killV reg x) p else p

/-- The releases of an issue, each register once (R53). -/
def releaseAll (p : Strip) (x : Strands) (sh : Shape) : Strip :=
  releaseField (releaseField (releaseField p x sh.a sh.ak) x sh.b sh.bk) x sh.c sh.ck

/-! ## Reading captured operands -/

/-- Operand words of strand `i`. -/
def Operands.aOf (o : Operands) (i : Nat) : List Word := o.a.getD i []
def Operands.bOf (o : Operands) (i : Nat) : List Word := o.b.getD i []
def Operands.cOf (o : Operands) (i : Nat) : List Word := o.c.getD i []
/-- The uniform pipe's operands. -/
def Operands.ua (o : Operands) : List Word := o.a.headD []
def Operands.ub (o : Operands) : List Word := o.b.headD []
def Operands.uc (o : Operands) : List Word := o.c.headD []

/-- The branch condition of R63 on a word. -/
def condition (fn : BitVec 4) (w : Word) : Bool :=
  match fn.toNat with
  | 0 => true
  | 1 => w != 0
  | 2 => w == 0
  | 3 => w.msb
  | _ => !w.msb

/-- The index of format M (R58): the low 32 or 16 bits, sign- or zero-extended. -/
def indexOf (iw isg : Bool) (w : Word) : Int :=
  let n := if iw then 16 else 32
  if isg then signedOf n w.toNat else (w.toNat % 2 ^ n : Nat)

/-- The global address of format M (R58). -/
def globalEa (f : FmtM) (index base : List Word) : Nat :=
  wrapNat 48 ((dword0 base).toNat + indexOf f.iw f.isg (word0 index) * 2 ^ f.sc.toNat)

/-- The window offset of LDL and STL (R259): an exact integer. -/
def scratchEa (f : FmtM) (index base : List Word) : Int :=
  (word0 base).toNat + indexOf f.iw f.isg (word0 index) * 2 ^ f.sc.toNat

/-- The global address of format MA (R59). -/
def pairEa (base : List Word) : Nat := vaOf (dword0 base).toNat

/-- Bytes of a size code (R64). -/
def sizeBytes (fn : BitVec 4) : Nat :=
  match fn.toNat % 8 with
  | 0 => 1
  | 1 => 2
  | 2 => 4
  | 3 => 8
  | 4 => 16
  | 5 => 1
  | _ => 2

/-- The words a load of a size code delivers from its bytes (R114): zero- or sign-extended. -/
def loadWords (fn : BitVec 4) (bytes : List Byte) : List Word :=
  match fn.toNat % 8 with
  | 5 => [BitVec.ofInt 32 (signedOf 8 (leNat bytes))]
  | 6 => [BitVec.ofInt 32 (signedOf 16 (leNat bytes))]
  | 3 => bytesWords 2 bytes
  | 4 => bytesWords 4 bytes
  | _ => [BitVec.ofNat 32 (leNat bytes)]

/-- Operand words of a command as numbers. -/
def Operands.na (o : Operands) : Nat := (word0 o.ua).toNat
def Operands.nb (o : Operands) : Nat := (word0 o.ub).toNat
def Operands.nc (o : Operands) : Nat := (word0 o.uc).toNat
def Operands.addrA (o : Operands) : Nat := vaOf (dword0 o.ua).toNat
def Operands.addrB (o : Operands) : Nat := vaOf (dword0 o.ub).toNat
def Operands.bAt (o : Operands) (k : Nat) : Nat := (wordAt o.ub k).toNat
def Operands.aAt (o : Operands) (k : Nat) : Nat := (wordAt o.ua k).toNat

end Sys2Proof.Machine
end

