-- ==== Sys2Proof/Machine/Integer.lean ====
section
/-! DEFINITION. What the integer, logic, shift, bit, move and dot-product instructions compute for one strand (R78-R92);
the scalar instructions compute the same once (R170). Operands and results are lists of words, lowest first. -/
namespace Sys2Proof.Machine

/-- A computed result: its words and the flags it raises. -/
abbrev Result := List Word × Flags

/-- The operand as a number. -/
def numOf (l : List Word) : Nat := wordsNat l
/-- An operand's value in the type of FN (R34). -/
def tyVal (fn : BitVec 4) (l : List Word) : Int := intVal fn.toNat (numOf l)

/-- An exact integer reduced into type t (R34, R78): wrapped, or saturated with SAT. -/
def intResult (fn : BitVec 4) (sat : Bool) (x : Int) : Result :=
  let r := if sat then satInt fn.toNat x else (wrapInt fn.toNat x, 0)
  (wordsOf (tyRegs fn) r.1, r.2)

/-- R78's binary and unary forms. -/
def intAdd (f : FmtR) (a b : List Word) : Result := intResult f.fn f.sat (tyVal f.fn a + tyVal f.fn b)
def intSub (f : FmtR) (a b : List Word) : Result := intResult f.fn f.sat (tyVal f.fn a - tyVal f.fn b)
def intMul (f : FmtR) (a b : List Word) : Result := intResult f.fn f.sat (tyVal f.fn a * tyVal f.fn b)
def intMad (f : FmtR) (a b c : List Word) : Result :=
  intResult f.fn f.sat (tyVal f.fn a * tyVal f.fn b + tyVal f.fn c)
def intMinOp (f : FmtR) (a b : List Word) : Result := intResult f.fn f.sat (min (tyVal f.fn a) (tyVal f.fn b))
def intMaxOp (f : FmtR) (a b : List Word) : Result := intResult f.fn f.sat (max (tyVal f.fn a) (tyVal f.fn b))
def intAbs (f : FmtR) (a : List Word) : Result := intResult f.fn f.sat (tyVal f.fn a).natAbs
def intNeg (f : FmtR) (a : List Word) : Result := intResult f.fn f.sat (-tyVal f.fn a)

/-- IMULH (R79): the upper half of the double-width product. -/
def intMulh (f : FmtR) (a b : List Word) : Result :=
  let n := intBits f.fn.toNat
  (wordsOf (tyRegs f.fn) (wrapNat (2 * n) (tyVal f.fn a * tyVal f.fn b) / 2 ^ n), 0)

/-- IDIV and IREM (R80): truncation towards zero; a zero divisor gives all ones and the dividend. -/
def intDiv (f : FmtR) (a b : List Word) : Result :=
  let x := tyVal f.fn a
  let y := tyVal f.fn b
  intResult f.fn false (if y = 0 then -1 else x.tdiv y)
def intRem (f : FmtR) (a b : List Word) : Result :=
  let x := tyVal f.fn a
  let y := tyVal f.fn b
  intResult f.fn false (if y = 0 then x else x - x.tdiv y * y)

/-- The predicate words of a compare (R62). -/
def predicate (b : Bool) : List Word := [if b then 0xFFFFFFFF else 0]

/-- ICMP (R81). -/
def intCmp (f : FmtR) (a b : List Word) : Result :=
  let x := tyVal f.fn a
  let y := tyVal f.fn b
  (predicate (match f.mod.toNat with
    | 0 => x == y
    | 1 => x != y
    | 2 => decide (x < y)
    | 3 => decide (x ≤ y)
    | 4 => decide (y < x)
    | _ => decide (y ≤ x)), 0)

/-- ISEL (R81). -/
def intSel (a b c : List Word) : Result := (if word0 a ≠ 0 then b else c, 0)

/-- IAND, IOR, IXOR, IANDN (R82), word by word. -/
def bitwise (g : Word → Word → Word) (a b : List Word) : Result := (a.zipWith g b, 0)

/-- Width of a shift or count form (R83, R86). -/
def fnWidth (f : FmtR) : Nat := if f.fn = 2 then 64 else 32

/-- ISHL, ISHR, ISAR (R83): n is the whole of B. -/
def intShl (f : FmtR) (a b : List Word) : Result :=
  let n := (word0 b).toNat
  (wordsOf (tyRegs f.fn) (if n < fnWidth f then numOf a * 2 ^ n else 0), 0)
def intShr (f : FmtR) (a b : List Word) : Result :=
  let n := (word0 b).toNat
  (wordsOf (tyRegs f.fn) (if n < fnWidth f then numOf a / 2 ^ n else 0), 0)
def intSar (f : FmtR) (a b : List Word) : Result :=
  let w := fnWidth f
  let n := min (word0 b).toNat (w - 1)
  (wordsOf (tyRegs f.fn) (wrapNat w (signedOf w (numOf a) / (2 ^ n : Nat))), 0)

/-- IFSHL and IFSHR (R84). -/
def funnel (a b : List Word) : Nat := (word0 a).toNat * 2 ^ 32 + (word0 b).toNat
def intFshl (a b c : List Word) : Result :=
  ([BitVec.ofNat 32 (funnel a b * 2 ^ ((word0 c).toNat % 32) / 2 ^ 32)], 0)
def intFshr (a b c : List Word) : Result := ([BitVec.ofNat 32 (funnel a b / 2 ^ ((word0 c).toNat % 32))], 0)

/-- The field position and clipped width of BFX and BFI (R85). -/
def fieldPos (w : Word) : Nat := w.toNat % 32
def fieldLen (w : Word) : Nat := min (w.toNat / 2 ^ 8 % 64) (32 - fieldPos w)

/-- BFX (R85). -/
def bfxOp (f : FmtR) (a b : List Word) : Result :=
  let p := fieldPos (word0 b)
  let w := fieldLen (word0 b)
  let x := (word0 a).toNat / 2 ^ p % 2 ^ w
  ([if w = 0 then 0 else if f.fn = 0 then BitVec.ofInt 32 (signedOf w x) else BitVec.ofNat 32 x], 0)

/-- BFI (R85). -/
def bfiOp (a b c : List Word) : Result :=
  let p := fieldPos (word0 c)
  let w := fieldLen (word0 c)
  let x := (word0 a).toNat
  let low := x % 2 ^ p
  let high := x / 2 ^ (p + w)
  ([BitVec.ofNat 32 (low + (word0 b).toNat % 2 ^ w * 2 ^ p + high * 2 ^ (p + w))], 0)

/-- Set bits among the low n. -/
def popCount (n x : Nat) : Nat := ((List.range n).filter fun i => x.testBit i).length
/-- Leading zero bits of an n-bit value. -/
def leadingZeros (n x : Nat) : Nat := if x = 0 then n else n - 1 - x.log2
/-- Trailing zero bits of an n-bit value. -/
def trailingZeros (n x : Nat) : Nat := ((List.range n).find? fun i => x.testBit i).getD n
/-- The low n bits in reverse order. -/
def reverseBits (n x : Nat) : Nat := (List.range n).foldl (fun r i => 2 * r + (if x.testBit i then 1 else 0)) 0

/-- POPC, CLZ, CTZ, BREV (R86). -/
def popcOp (f : FmtR) (a : List Word) : Result := ([BitVec.ofNat 32 (popCount (fnWidth f) (numOf a))], 0)
def clzOp (f : FmtR) (a : List Word) : Result := ([BitVec.ofNat 32 (leadingZeros (fnWidth f) (numOf a))], 0)
def ctzOp (f : FmtR) (a : List Word) : Result := ([BitVec.ofNat 32 (trailingZeros (fnWidth f) (numOf a))], 0)
def brevOp (f : FmtR) (a : List Word) : Result := (wordsOf (tyRegs f.fn) (reverseBits (fnWidth f) (numOf a)), 0)

/-- BPERM (R87): bytes of the pair B:A chosen by C. -/
def bpermOp (a b c : List Word) : Result :=
  let pool := leBytes 4 (word0 a).toNat ++ leBytes 4 (word0 b).toNat
  let pick := (List.range 4).map fun i =>
    let e := (word0 c).toNat / 16 ^ i % 16
    let x : Byte := pool.getD (e % 8) 0
    if e < 8 then x else if x.msb then 0xFF else 0
  ([BitVec.ofNat 32 (leNat pick)], 0)

/-- LEA (R88). -/
def leaOp (f : FmtR) (a b : List Word) : Result :=
  let ix : Int := if f.fn = 0 then signedOf 32 (word0 b).toNat else (word0 b).toNat
  (wordsOf 2 (wrapNat 48 ((numOf a : Int) + ix * (2 ^ (f.mod.toNat % 4) : Nat))), 0)

/-- Element i of a packed register in a narrow integer type (R39). -/
def packedVal (t : Nat) (w : Word) (i : Nat) : Int := intVal t (w.toNat / 2 ^ (i * intBits t))

/-- ISAD (R89). -/
def isadOp (f : FmtR) (a b c : List Word) : Result :=
  let n := if f.fn.toNat < 2 then 1 else 4
  let t := f.fn.toNat
  let sum := (List.range n).foldl (fun x i => x + (packedVal t (word0 a) i - packedVal t (word0 b) i).natAbs) 0
  intResult 1 f.sat ((word0 c).toNat + sum : Nat)

/-- DOT4 and DOT8 (R92): n elements, each side signed or not by MOD. -/
def dotOp (n signedTy unsignedTy : Nat) (f : FmtR) (a b c : List Word) : Result :=
  let ta := if f.mod.getLsbD 0 then signedTy else unsignedTy
  let tb := if f.mod.getLsbD 1 then signedTy else unsignedTy
  let sum := (List.range n).foldl (fun x i => x + packedVal ta (word0 a) i * packedVal tb (word0 b) i) (0 : Int)
  intResult 0 f.sat (signedOf 32 (word0 c).toNat + sum)

end Sys2Proof.Machine
end

