-- ==== Sys2Proof/Machine/FloatOps.lean ====
section
/-! DEFINITION. What the floating-point and conversion instructions compute for one strand (R94-R106), and the FP32
functions of R100. -/
namespace Sys2Proof.Machine

/-- The bits of an operand in the floating-point type of FN: narrow types take the low bits (R39). -/
def fpBits (fn : BitVec 4) (l : List Word) : Nat := numOf l % 2 ^ (fltOf fn.toNat).bits
/-- A pattern of the type as a result (R39): narrow patterns are zero-extended. -/
def fpResult (fn : BitVec 4) (r : Nat × Flags) : Result := (wordsOf (tyRegs fn) r.1, r.2)

/-- FADD, FSUB, FMUL, FFMA, FDIV, FSQRT (R94). -/
def fpAdd (f : FmtR) (a b : List Word) : Result :=
  fpResult f.fn ((fltOf f.fn.toNat).add (fpBits f.fn a) (fpBits f.fn b) f.rm.toNat f.sat)
def fpSub (f : FmtR) (a b : List Word) : Result :=
  fpResult f.fn ((fltOf f.fn.toNat).sub (fpBits f.fn a) (fpBits f.fn b) f.rm.toNat f.sat)
def fpMul (f : FmtR) (a b : List Word) : Result :=
  fpResult f.fn ((fltOf f.fn.toNat).mul (fpBits f.fn a) (fpBits f.fn b) f.rm.toNat f.sat)
def fpFma (f : FmtR) (a b c : List Word) : Result :=
  fpResult f.fn ((fltOf f.fn.toNat).fma (fpBits f.fn a) (fpBits f.fn b) (fpBits f.fn c) f.rm.toNat f.sat)
def fpDiv (f : FmtR) (a b : List Word) : Result :=
  fpResult f.fn ((fltOf f.fn.toNat).div (fpBits f.fn a) (fpBits f.fn b) f.rm.toNat f.sat)
def fpSqrt (f : FmtR) (a : List Word) : Result :=
  fpResult f.fn ((fltOf f.fn.toNat).sqrt (fpBits f.fn a) f.rm.toNat f.sat)

/-- FMIN and FMAX (R95). -/
def fpMinMax (isMax : Bool) (f : FmtR) (a b : List Word) : Result :=
  fpResult f.fn ((fltOf f.fn.toNat).minmax isMax (f.mod == 1) (fpBits f.fn a) (fpBits f.fn b))

/-- FCMP (R96). -/
def fpCmp (f : FmtR) (a b : List Word) : Result :=
  let t := fltOf f.fn.toNat
  let r := Machine.fcmp f.mod.toNat (t.val (fpBits f.fn a)) (t.val (fpBits f.fn b))
  (predicate r.1, r.2)

/-- FCLASS (R97). -/
def fpClass (f : FmtR) (a : List Word) : Result :=
  ([BitVec.ofNat 32 (2 ^ (fltOf f.fn.toNat).cls (fpBits f.fn a))], 0)

/-- FRND (R98). -/
def fpRnd (f : FmtR) (a : List Word) : Result :=
  fpResult f.fn ((fltOf f.fn.toNat).frnd (fpBits f.fn a) f.rm.toNat)

/-- FSCALE (R99). -/
def fpScale (f : FmtR) (a b : List Word) : Result :=
  fpResult f.fn ((fltOf f.fn.toNat).fscale (fpBits f.fn a) (signedOf 32 (word0 b).toNat) f.rm.toNat f.sat)

/-- The FP32 functions (R100). -/
def fpFun (g : Nat → Nat → Nat × Flags) (f : FmtR) (a : List Word) : Result :=
  let r := g (word0 a).toNat f.rm.toNat
  ([BitVec.ofNat 32 r.1], r.2)

/-- HFMA2 (R101): the two elements of packed pairs. -/
def hfma2Op (f : FmtR) (a b c : List Word) : Result :=
  let t := fltOf f.fn.toNat
  let half := fun (l : List Word) (i : Nat) => (word0 l).toNat / 2 ^ (16 * i) % 2 ^ 16
  let r := fun i => t.fma (half a i) (half b i) (half c i) f.rm.toNat f.sat
  ([BitVec.ofNat 32 ((r 0).1 + (r 1).1 * 2 ^ 16)], (r 0).2 ||| (r 1).2)

/-- FDOT2 (R102). -/
def fdot2Op (f : FmtR) (a b c : List Word) : Result :=
  let r := fdot2 (fltOf f.fn.toNat) (word0 a).toNat (word0 b).toNat (word0 c).toNat f.rm.toNat f.sat
  ([BitVec.ofNat 32 r.1], r.2)

/-- The low bits of a register as a value of a type code (R34, R39). -/
def codeBits (t x : Nat) : Nat := if t < 8 || t = 14 || t = 15 then x % 2 ^ intBits t else x % 2 ^ (fltOf t).bits

/-- CVT (R104). -/
def cvtOp (f : FmtR) (a : List Word) : Result :=
  let src := convSrc f
  let r := convert src f.fn.toNat (codeBits src (numOf a)) f.rm.toNat f.sat
  (wordsOf (tyRegs f.fn) r.1, r.2)

/-- CVTPK (R105): pack two values, or unpack element MOD. -/
def cvtpkOp (f : FmtR) (a c : List Word) : Result :=
  let src := convSrc f
  let dst := f.fn.toNat
  if unpacks src dst then
    let w := if src < 8 || src = 14 || src = 15 then intBits src else (fltOf src).bits
    let r := convert src dst ((word0 a).toNat / 2 ^ (w * f.mod.toNat) % 2 ^ w) 0 false
    ([BitVec.ofNat 32 r.1], r.2)
  else
    let w := if dst < 8 then intBits dst else (fltOf dst).bits
    let lo := convert src dst (word0 a).toNat f.rm.toNat f.sat
    let hi := convert src dst (word0 c).toNat f.rm.toNat f.sat
    ([BitVec.ofNat 32 (lo.1 % 2 ^ w + hi.1 % 2 ^ w * 2 ^ w)], lo.2 ||| hi.2)

/-- CVTXP (R106). -/
def cvtxpOp (f : FmtR) (a c : List Word) : Result :=
  let src := convSrc f
  let r := convertScaled src f.fn.toNat (codeBits src (numOf a)) (signedOf 32 (word0 c).toNat) f.rm.toNat f.sat
  ([BitVec.ofNat 32 r.1], r.2)

end Sys2Proof.Machine
end

