-- ==== Sys2Proof/Machine/Group.lean ====
section
/-! DEFINITION. What the cross-strand instructions compute (R156-R167): each takes the present strands and the operands of
all 16 strands, and gives the words of every strand. -/
namespace Sys2Proof.Machine

/-- The results of a cross-strand instruction: the words of each strand, and the flags of the issue. -/
abbrev Results := List (List Word) × Flags

/-- Append the present mask when PM is set (R157). -/
def withPm (f : FmtR) (x : Strands) (l : List Word) : List Word := if pmBit f then l ++ [maskWord 0 x] else l

/-- Zero words of an element of type FN. -/
def zeroWords (f : FmtR) : List Word := List.replicate (tyRegs f.fn) 0

/-- The source strand of SHFL (R160). -/
def shflSource (f : FmtR) (i b : Nat) : Option Nat :=
  match f.mod.toNat % 4 with
  | 0 => some (b % 16)
  | 1 => if b ≤ i then some (i - b) else none
  | 2 => if i + b ≤ 15 then some (i + b) else none
  | _ => some (i ^^^ b % 16)

/-- The source strand of GSHFL (R160). -/
def gshflSource (f : FmtR) (i b : Nat) : Option Nat :=
  let a := 2 ^ (f.mod.toNat % 4 + 1)
  some (i - i % a + b % a)

/-- SHFL and GSHFL (R160). -/
def shuffleOp (src : FmtR → Nat → Nat → Option Nat) (f : FmtR) (x : Strands) (o : Operands) : Results :=
  (strandIxs.map fun i =>
    let from_ := match src f i (word0 (o.bOf i)).toNat with
      | some j => if x.getLsbD j then o.aOf j else zeroWords f
      | none => zeroWords f
    withPm f x from_, 0)

/-- VOTE (R161). -/
def voteOp (f : FmtR) (x : Strands) (o : Operands) : Results :=
  let p := strandSet fun i => x.getLsbD i && word0 (o.aOf i) != 0
  let r : Word := match f.mod.toNat % 4 with
    | 0 => if p = 0 then 0 else 0xFFFFFFFF
    | 1 => if p = 0xFFFF then 0xFFFFFFFF else 0
    | _ => maskWord 0 p
  (strandIxs.map fun _ => withPm f x [r], 0)

/-- MATCH (R162). With FN = 2 the destination is a pair (R159) whose second word R162 does not name: D+1 receives 0 (DESIGN
CHOICE, log 60). -/
def matchOp (f : FmtR) (x : Strands) (o : Operands) : Results :=
  (strandIxs.map fun i =>
    withPm f x [maskWord 0 (strandSet fun j => x.getLsbD j && o.aOf j == o.aOf i)], 0)

/-- The combining operation of RED and SCAN (R163) on exact integers. -/
def redInt (f : FmtR) (a b : Int) : Int :=
  match f.mod.toNat % 4 with
  | 0 => a + b
  | 1 => min a b
  | _ => max a b

/-- The combining operation of RED and SCAN (R163) on patterns. -/
def redFloat (f : FmtR) (a b : Nat) : Nat × Flags :=
  let t := fltOf f.fn.toNat
  match f.mod.toNat % 4 with
  | 0 => t.add a b 0 false
  | 1 => t.minmax false false a b
  | _ => t.minmax true false a b

/-- One level of the balanced tree: pairs combined. -/
def redLevel {α : Type} (op : α → α → α × Flags) : List α → List α × Flags
  | a :: b :: l =>
    let r := op a b
    let t := redLevel op l
    (r.1 :: t.1, r.2 ||| t.2)
  | l => (l, 0)

/-- The balanced tree of RED over 16 values (R163). -/
def redTree {α : Type} (op : α → α → α × Flags) (l : List α) : List α × Flags :=
  (List.range 4).foldl (fun r _ => let t := redLevel op r.1; (t.1, r.2 ||| t.2)) (l, 0)

/-- One Kogge-Stone step at distance d (R163). -/
def scanStep {α : Type} (op : α → α → α × Flags) (dflt : α) (d : Nat) (l : List α) : List α × Flags :=
  let rs := (List.range l.length).map fun i =>
    if d ≤ i then op (l.getD (i - d) dflt) (l.getD i dflt) else (l.getD i dflt, (0 : Flags))
  (rs.map fun r => r.1, rs.foldl (fun fl r => fl ||| r.2) 0)

/-- The prefixes of SCAN (R163). -/
def scanAll {α : Type} (op : α → α → α × Flags) (dflt : α) (l : List α) : List α × Flags :=
  [1, 2, 4, 8].foldl (fun r d => let t := scanStep op dflt d r.1; (t.1, r.2 ||| t.2)) (l, 0)

/-- RED and SCAN (R163): `scan` chooses prefixes, absent strands contribute 0. -/
def reduceOp (scan : Bool) (f : FmtR) (x : Strands) (o : Operands) : Results :=
  let pick := fun {α : Type} (l : List α) (d : α) (i : Nat) => l.getD (if scan then i else 0) d
  if f.fn.toNat < 8 then
    let ys := strandIxs.map fun i => if x.getLsbD i then tyVal f.fn (o.aOf i) else 0
    let op := fun (a b : Int) => (redInt f a b, (0 : Flags))
    let r := if scan then scanAll op 0 ys else redTree op ys
    let outs := strandIxs.map fun i => intResult f.fn f.sat (pick r.1 0 i)
    (outs.map fun w => withPm f x w.1,
      (strandIxs.zip outs).foldl (fun fl w => if x.getLsbD w.1 then fl ||| w.2.2 else fl) 0)
  else
    let ys := strandIxs.map fun i => if x.getLsbD i then fpBits f.fn (o.aOf i) else 0
    let r := if scan then scanAll (redFloat f) 0 ys else redTree (redFloat f) ys
    -- strand 0 of SCAN is combined with nothing; its NaN is canonical all the same (R37)
    let canon := fun n => if ((fltOf f.fn.toNat).val n).isNan then (fltOf f.fn.toNat).qnan else n
    (strandIxs.map fun i => withPm f x (wordsOf (tyRegs f.fn) (canon (pick r.1 0 i))), r.2)

/-- The key value of R164. -/
def keyOf (f : FmtR) (a : Word) : Nat :=
  match f.fn.toNat with
  | 0 => (a ^^^ 0x80000000).toNat
  | 1 => a.toNat
  | _ => if a.msb then (~~~a).toNat else (a ^^^ 0x80000000).toNat

/-- A keyed entry: its key value, then its source and strand for ties, then what it carries. -/
structure KeyEntry where
  key : Nat
  tie : Nat
  a : Word
  b : Word
deriving DecidableEq, Repr

/-- Insert an entry in order of (key, tie). -/
def insertKey (e : KeyEntry) : List KeyEntry → List KeyEntry
  | [] => [e]
  | g :: l => if e.key < g.key ∨ (e.key = g.key ∧ e.tie < g.tie) then e :: g :: l else g :: insertKey e l

/-- Entries in order. -/
def sortKeys (l : List KeyEntry) : List KeyEntry := l.foldl (fun r e => insertKey e r) []

/-- The rank of a present strand among the present ones. -/
def rankIn (x : Strands) (i : Nat) : Nat := (strandsOf x).findIdx fun j => j == i

/-- SORT16 (R165). -/
def sort16Op (f : FmtR) (x : Strands) (o : Operands) : Results :=
  let e := sortKeys ((strandsOf x).map fun i => ⟨keyOf f (word0 (o.aOf i)), i, word0 (o.aOf i), word0 (o.bOf i)⟩)
  (strandIxs.map fun i => match e[rankIn x i]? with
    | some k => [k.a, k.b]
    | none => [0, 0], 0)

/-- SMERGE (R166). -/
def smergeOp (f : FmtR) (x : Strands) (o : Operands) : Results :=
  let ea := (strandsOf x).map fun i => (⟨keyOf f (word0 (o.aOf i)), i, word0 (o.aOf i), 0⟩ : KeyEntry)
  let eb := (strandsOf x).map fun i => (⟨keyOf f (word0 (o.bOf i)), 16 + i, word0 (o.bOf i), 0⟩ : KeyEntry)
  let e := sortKeys (ea ++ eb)
  let n := (strandsOf x).length
  let key := fun k => match e[k]? with
    | some g => g.a
    | none => 0
  (strandIxs.map fun i => [key (rankIn x i), key (n + rankIn x i)], 0)

/-- ISECT (R167). -/
def isectOp (f : FmtR) (x : Strands) (o : Operands) : Results :=
  let ks := (strandsOf x).map fun i => keyOf f (word0 (o.aOf i))
  let bs := (strandsOf x).map fun i => keyOf f (word0 (o.bOf i))
  let hit := fun i => bs.contains (keyOf f (word0 (o.aOf i)))
  let n := ((strandsOf x).filter hit).length
  let ma := ks.foldl max 0
  let mb := bs.foldl max 0
  let adv := (if ma ≤ mb then 1 else 0) + (if mb ≤ ma then 2 else 0) + n * 2 ^ 16
  (strandIxs.map fun i => predicate (hit i) ++ [BitVec.ofNat 32 adv], 0)

end Sys2Proof.Machine
end

