-- ==== Sys2Proof/Machine/Records.lean ====
section
/-! DEFINITION. What a die's own agents read and write: their translation faults (R421), counter records (R195), phase
count events on their way (R468), completion entries (R486) and tokens (R281, R282). -/
namespace Sys2Proof.Machine

/-! ## Reads and writes of the dispatcher, Mint and the halo engine -/

/-- A waiter as WAITERS counts it (R420), apart from strips. -/
def Waiter.code : Waiter → Nat
  | .launch id => 16 * id + 1
  | .node g n => 16 * (4096 * g + n) + 3
  | .copy id => 16 * id + 5
  | .queue q => 16 * q + 7
  | .nodeQueue id => 16 * id + 9
  | .mint strip => 16 * strip + 11
  | .phase r _ => 16 * r.toNat + 13

/-- An agent of a die waits on a fault (R421): the entry has ACCESS bit 4; it joins once. -/
def dieFault (s : State) (ag : Agent) (who : Waiter) (va kind access : Nat) : State :=
  if s.dieWaits.any fun w => w.who == who then s
  else
    let (seq, s) := reportFault s ag.die ag.asid va kind (access + accDie) (faultSource ag.die 0 0 0 0) who.code
    { s with dieWaits := s.dieWaits ++ [⟨ag.die, seq, who⟩] }

/-- The agent waits for an answer. -/
def dieWaiting (s : State) (who : Waiter) : Bool := s.dieWaits.any fun w => w.who == who

/-- A coherent read of a die's agent: the bytes, zero and logged when poisoned (R423, R425), and their poison; or none with
the fault reported. -/
def dieRead (s : State) (ag : Agent) (who : Waiter) (va n : Nat) : Option (List Byte × Bool) × State :=
  match xlateRange s ag va n .read with
  | (.error (fva, k), s) => (none, dieFault s ag who fva k accRead)
  | (.ok ps, s) =>
    let (b, bad, s) := readAccess s ag .home false ps
    if bad then (some (b.map fun _ => 0, true), logError s ag.die 0 .poisoned (firstPa ps)) else (some (b, false), s)

/-- The die that homes an address of a job; its owner where it does not translate. -/
def homeOf (s : State) (owner : Nat) (j : Job) (va : DWord) : Nat :=
  match (xlate s (dieAgent owner j) (vaOf va.toNat) .any).1 with
  | .ok lf => if onSdie lf.pa then owner else homeDie lf.pa
  | .error _ => owner

/-! ### Records reserved and not yet written in a node queue -/

/-- The positions that an ENQ has reserved and not yet written (R212). -/
def Flight.reserved (f : Flight) : List Nat := (strandsOf f.undone).filterMap fun i => match f.notes.getD i 0 with
  | 0 => none
  | n + 1 => some n

/-- The descriptor of an ENQ; none for another instruction. -/
def Flight.enqDesc (f : Flight) : Option Nat := match f.instr with
  | .enq _ => some (vaOf (dword0 (f.ops.b.getD (lowStrand f.x) [])).toNat)
  | _ => none

/-- Strips that are resident or saved, with their launches. -/
def allStrips (s : State) : List (Strip × Nat) :=
  (s.strips.filterMap fun p => (tableGet s.wgs p.2.wg).map fun w => (p.2, w.launch)) ++
    s.dies.flatMap fun d => d.images.flatMap fun m => m.strips.map fun p => (p.2, m.wg.launch)

/-- Positions reserved by ENQs on a descriptor and not yet written (R211, R212). -/
def enqPending (s : State) (asid desc : Nat) : List Nat :=
  (allStrips s).flatMap fun p => match tableGet s.launches p.2 with
    | some l => if l.job.asid = asid then (p.1.flights.filter fun f => f.enqDesc == some desc).flatMap Flight.reserved else []
    | none => []

/-- A phase's member completes with DONE: one count event on its way (R205, R468). A PHASE that is not a multiple of 64
is counted into the bytes at that address all the same: the spec names no outcome (DESIGN CHOICE, log 52). -/
def memberDone (s : State) (die : Nat) (j : Job) (phase : DWord) : State :=
  if phase = 0 then s else { s with phaseEvents := s.phaseEvents ++ [⟨phase, j, die, none, none⟩] }

/-! ### Queues and their completion entries -/

/-- The physical address of a queue's 64-byte entry (R485). -/
def queueAt (s : State) (q : Nat) : Nat := (dieOf s 0).qtab.toNat + 64 * q
/-- A field of a queue's entry, read at home. -/
def queueField (s : State) (q off n : Nat) : Nat := leNat (readHome s (queueAt s q + off) n).1
/-- The queue's owner die (R487): the die that homes its entry. -/
def queueOwner (s : State) (q : Nat) : Nat := homeDie (queueAt s q)
/-- Write a field of a queue's entry, as the owner die's dispatcher. -/
def putQueueField (s : State) (q off n value : Nat) : State :=
  hardWrite s (queueOwner s q) (queueAt s q + off) (leBytes n value)

/-- The queue's state of acceptance. -/
def queueOf (s : State) (q : Nat) : Queue := (tableGet s.queues q).getD ⟨[], false, false⟩
def modQueue (s : State) (q : Nat) (f : Queue → Queue) : State := { s with queues := tablePut s.queues q (f (queueOf s q)) }

/-- The number written for a status (R195). -/
def Status.code : Status → Nat
  | .pending => 0
  | .running => 1
  | .done => 2
  | .cancelled => 3
  | .watchdog => 4
  | .invalid => 5
  | .aborted => 6

/-- The 32 bytes of a completion entry (R484). -/
def completionBytes (count : Nat) (st : Status) (digest seq : DWord) : List Byte :=
  leBytes 8 count ++ leBytes 8 st.code ++ leBytes 8 digest.toNat ++ leBytes 8 seq.toNat

/-- Write a completion entry at CPROD mod CAP and advance CPROD (R486); rings are physical (log 18). -/
def completeEntry (s : State) (q count : Nat) (st : Status) (digest seq : DWord) : State :=
  let cprod := queueField s q 0x38 8
  let cap := queueField s q 0x08 4
  let s := hardWrite s (queueOwner s q) (queueField s q 0x30 8 + 32 * (cprod % cap)) (completionBytes count st digest seq)
  putQueueField s q 0x38 8 (cprod + 1)

/-- A command of a queue is complete: its completion entry, its phase (R205), and its place in the queue. -/
def commandOver (s : State) (q pos count : Nat) (st : Status) (digest : DWord) : State :=
  match (queueOf s q).accepted.find? fun c => c.pos == pos with
  | none => s
  | some c =>
    let s := completeEntry s q count st digest c.seq
    let s := if st = .done ∧ c.kind ≤ 3 then memberDone s (queueOwner s q) c.job c.phase else s
    modQueue s q fun u => { u with accepted := u.accepted.filter fun d => d.pos != pos }

/-- Mark a graph's node completed. -/
def nodeDone (s : State) (g n : Nat) : State :=
  { s with graphs := tableMod s.graphs g fun gr => { gr with
      nodes := listMod gr.nodes n fun nd => { nd with st := .completed } } }

/-! ### Operations on memory -/

/-- Read a little-endian number for an agent and go on with it; a fault ends the operation. -/
def readThen (s : State) (ag : Agent) (va n : Nat) (k : Nat → State → Except (Nat × Nat) Unit × State)
    : Except (Nat × Nat) Unit × State :=
  match readVirt s ag (vaOf va) n with
  | (.error e, s) => (.error e, s)
  | (.ok (b, _), s) => k (leNat b) s

/-- Positions of a node queue that are to become void records (R212). -/
def owedVoids (s : State) (asid desc : Nat) : List Nat := s.owed.filterMap fun o => match o.op with
  | .voidRecord pos => if o.job.asid = asid ∧ o.va = desc then some pos else none
  | _ => none

/-- Perform an operation of a die's agent (R195, R196, R211, R212, R486). -/
def agentWrite (s : State) (ag : Agent) (va : Nat) : AgentOp → Except (Nat × Nat) Unit × State
  | .bytes b => writeVirt s ag va b
  | .countLive => readThen s ag (va + 8) 4 fun st s =>
      if 2 ≤ st then (.ok (), s) else readThen s ag va 8 fun n s => writeVirt s ag va (leBytes 8 (n + 1))
  | .startPending => readThen s ag (va + 8) 4 fun st s =>
      if st = 0 then writeVirt s ag (vaOf (va + 8)) (leBytes 8 1) else (.ok (), s)
  | .statusLive code => readThen s ag (va + 8) 4 fun st s =>
      if 2 ≤ st then (.ok (), s) else writeVirt s ag (vaOf (va + 8)) (leBytes 8 code)
  | .publish => readThen s ag (va + 0x18) 8 fun resv s =>
      readThen s ag (va + 0x20) 8 fun old s =>
        let pub := (enqPending s ag.asid va ++ owedVoids s ag.asid va).foldl min resv
        if old < pub then writeVirt s ag (vaOf (va + 0x20)) (leBytes 8 pub) else (.ok (), s)
  | .voidRecord pos => readThen s ag va 8 fun ring s =>
      readThen s ag (va + 8) 4 fun cap s =>
        readThen s ag (va + 0xC) 1 fun words s =>
          readThen s ag (va + 0x3C) 4 fun n s =>
            match writeVirt s ag (vaOf (ring + pos % cap * (4 * words))) (leBytes (4 * words) 0) with
            | (.error e, s) => (.error e, s)
            | (.ok _, s) => writeVirt s ag (vaOf (va + 0x3C)) (leBytes 4 (n + 1))
  | .commandDone q pos count st digest _ => (.ok (), commandOver s q pos count st digest)
  | .nodeDone g n => (.ok (), nodeDone s g n)

/-- An operation waits behind one that waits on a fault: one of its job on its die, or on its record from another die; the
completion of a command that acted on other levels waits behind all of its job (R421, R486, R504). -/
def owedFirst (s : State) (o : Owed) : Bool := s.owed.any fun e =>
  e.job.index == o.job.index && (e.die == o.die || e.va / 32 == o.va / 32 || match o.op with
    | .commandDone _ _ _ _ _ all => all
    | _ => false)

/-- Perform an operation of a die's agent, with others of `rest` still to come after it. A fault makes it wait in order
until the entry is answered (R421). -/
def payOne (s : State) (rest : List Owed) (o : Owed) : State :=
  if owedFirst s o then { s with owed := s.owed ++ [o] }
  else
    let ag := dieAgent o.die o.job
    match agentWrite { s with owed := s.owed ++ rest } ag o.va o.op with
    | (.ok _, t) => { t with owed := s.owed }
    | (.error (fva, k), t) =>
      dieFault { t with owed := s.owed ++ [o] } ag (.phase (BitVec.ofNat 64 o.va) o.job.index) fva k accWrite

/-- An operation of a die's agent for a job, after those that wait before it. -/
def dieStore (s : State) (die : Nat) (j : Job) (va : Nat) (op : AgentOp) : State := payOne s [] ⟨die, j, va, op⟩
def dieWrite (s : State) (die : Nat) (j : Job) (va : Nat) (bytes : List Byte) : State := dieStore s die j va (.bytes bytes)

/-- Perform operations that waited, in order, as far as they go. -/
def payAll : List Owed → State → State
  | [], s => s
  | o :: rest, s => payAll rest (payOne s rest o)
def payOwed (s : State) : State := payAll s.owed { s with owed := [] }

/-! ## Counter records -/

/-- A status that is final. -/
def Status.final : Status → Bool
  | .pending => false
  | .running => false
  | _ => true

/-- The address names a counter record (R182): not 0 and a multiple of 32. -/
def recordOk (a : DWord) : Bool := a != 0 && a.toNat % 32 == 0

/-- Write a field of a counter record with one 8-byte store (R195); a record that does not exist takes nothing. -/
def putRecord (s : State) (die : Nat) (j : Job) (rec_ : DWord) (off value : Nat) : State :=
  if recordOk rec_ then dieWrite s die j (vaOf (rec_.toNat + off)) (leBytes 8 value) else s
def putCount (s : State) (die : Nat) (j : Job) (r : DWord) (n : Nat) : State := putRecord s die j r 0 n
def putStatus (s : State) (die : Nat) (j : Job) (r : DWord) (st : Status) : State := putRecord s die j r 8 st.code
def putDigest (s : State) (die : Nat) (j : Job) (r : DWord) (d : DWord) : State := putRecord s die j r 0x10 d.toNat
def putSeq (s : State) (die : Nat) (j : Job) (r : DWord) (q : DWord) : State := putRecord s die j r 0x18 q.toNat

/-- A record becomes RUNNING at its first start (R195), if it is PENDING. -/
def startRecord (s : State) (die : Nat) (j : Job) (r : DWord) : State :=
  if r ≠ 0 then dieStore s die j (vaOf r.toNat) .startPending else s

/-- A record that is not final takes a status (R196). -/
def endRecord (s : State) (die : Nat) (j : Job) (r : DWord) (st : Status) : State :=
  if recordOk r then dieStore s die j (vaOf r.toNat) (.statusLive st.code) else s

/-- A job's commands name a phase record (R196). -/
def notePhase (s : State) (j : Job) (phase : DWord) : State :=
  if phase = 0 ∨ s.phases.contains (j.index, phase) then s else { s with phases := s.phases ++ [(j.index, phase)] }

/-! ## Completions -/

/-- COUNT in the completion entry of a copy command, which has no counter record: the spec states no value (log 2). -/
def freeCount (s : State) : Nat × State :=
  ((pair64 (Config.freeWord s.free 0) (Config.freeWord s.free 1)).toNat, { s with free := s.free + 1 })

/-- A command of a queue completes once its record at `r` is final (R486, R487), and with `all` once the records of other
levels that it has acted on are (R504); the job counts it (R195). -/
def completeCommand (s : State) (q pos count : Nat) (st : Status) (digest : DWord) (r : DWord := 0) (all : Bool := false) :
    State :=
  match (queueOf s q).accepted.find? fun c => c.pos == pos with
  | none => s
  | some c =>
    let die := queueOwner s q
    let s := modQueue s q fun u => { u with accepted := u.accepted.map fun d =>
      if d.pos = pos then { d with started := true } else d }
    let s := dieStore s die c.job (vaOf r.toNat) (.commandDone q pos count st digest all)
    if recordOk c.job.jrec then dieStore s die c.job (vaOf c.job.jrec.toNat) .countLive else s

/-! ## Tokens -/

/-- Completion codes (R282). -/
def codeOK : Nat := 0
def codeDROPPED : Nat := 1
def codeTIMEOUT : Nat := 2
def codeFAULT : Nat := 3
def codeCANCELLED : Nat := 4

/-- A command issues on a token (R281). -/
def Token.issue (t : Token) : Token := if t.count = 0 then ⟨1, 0⟩ else ⟨t.count + 1, t.code⟩
/-- A command completes on a token with a code (R281). -/
def Token.finish (t : Token) (code : Nat) : Token := ⟨t.count - 1, max t.code code⟩

/-- Change a token of a strip. -/
def Strip.modToken (p : Strip) (k : Nat) (f : Token → Token) : Strip := { p with tokens := listMod p.tokens k f }

/-- Every token of a mask is FREE (R284). -/
def Strip.tokensFree (p : Strip) (m : BitVec 8) : Bool :=
  (List.range 8).all fun k => !m.getLsbD k || (p.tokens.getD k ⟨0, 0⟩).count == 0

/-- Release every strand blocked in WAIT whose tokens are FREE, PC past it (R284); says whether one was. -/
def Strip.releaseWait (p : Strip) : Bool × Strip :=
  let freed := fun t : Strand => match t.st with
    | .blocked (.wait m) => p.tokensFree m
    | _ => false
  let go := fun t : Strand => if freed t then { t with st := .runnable, pc := t.pc + 8 } else t
  (p.strands.any freed, { p with strands := p.strands.map go })

/-- A command of a strip completes with a code (R281, R282): on its token, or counted in ENGEVT when it has none and the
code is not OK. The release of WAIT is an acquire at GROUP scope (R284). -/
def finishToken (s : State) (strip core : Nat) (token : Option Nat) (code : Nat) : State :=
  match token with
  | none => if code = 0 then s else countEngine s core
  | some k =>
    match tableGet s.strips strip with
    | none => s
    | some p =>
      let (woke, p) := (p.modToken k fun t => t.finish code).releaseWait
      let s := putStrip s strip p
      if woke then acquireRc s p.coreId else s

end Sys2Proof.Machine
end

