-- ==== Sys2Proof/Machine/Levels.lean ====
section
/-! DEFINITION. Launches, graphs, copies and phases as live levels (spec 08, 25): reading a launch record, the end of a
level in each of its statuses, the nodes of a graph, cancellation (R196), and a launch's dispatch state. -/
namespace Sys2Proof.Machine

/-! ## Launch records -/

/-- A little-endian field of a byte list. -/
def field (l : List Byte) (off n : Nat) : Nat := leNat ((l.drop off).take n)
/-- All bytes of a range are 0. -/
def zeroBytes (l : List Byte) (off n : Nat) : Bool := ((l.drop off).take n).all (· == 0)

/-- The fields of a launch record (R180). -/
def parseLrec (l : List Byte) : Lrec where
  code := BitVec.ofNat 64 (field l 0x00 8)
  handler := BitVec.ofNat 64 (field l 0x08 8)
  param := BitVec.ofNat 64 (field l 0x10 8)
  spill := BitVec.ofNat 64 (field l 0x18 8)
  done := BitVec.ofNat 64 (field l 0x20 8)
  flags := BitVec.ofNat 32 (field l 0x28 4)
  strands := field l 0x2C 4
  sregs := field l 0x30 2
  floor := field l 0x32 2
  scratch := field l 0x34 4
  acc := field l 0x38 1
  lease := field l 0x39 1
  sweight := field l 0x3A 1
  span := field l 0x3B 1
  hbperiod := field l 0x3C 4
  g0 := field l 0x40 4
  g1 := field l 0x44 4
  g2 := field l 0x48 4
  escto := field l 0x4C 4
  walllim := field l 0x50 8
  vdesc := BitVec.ofNat 64 (field l 0x58 8)
  range := (List.range 4).map fun d => (field l (0x68 + 8 * d) 4, field l (0x6C + 8 * d) 4)

/-- Flags of a launch record (R181). -/
def Lrec.sparse (r : Lrec) : Bool := r.flags.getLsbD 0
def Lrec.overlap (r : Lrec) : Bool := r.flags.getLsbD 1
def Lrec.coop (r : Lrec) : Bool := r.flags.getLsbD 2
def Lrec.persistent (r : Lrec) : Bool := r.flags.getLsbD 3
def Lrec.staleTrap (r : Lrec) : Bool := r.flags.getLsbD 4
def Lrec.routeTrap (r : Lrec) : Bool := r.flags.getLsbD 5
def Lrec.digestOn (r : Lrec) : Bool := r.flags.getLsbD 6

/-- Strips of a workgroup and of its part j (R186). -/
def Lrec.strips (r : Lrec) : Nat := r.strands / 16
def partOfStrip (r : Lrec) (k : Nat) : Nat := k * r.span / r.strips
def Lrec.partStrips (r : Lrec) (j : Nat) : Nat :=
  ((List.range r.strips).filter fun k => partOfStrip r k == j).length

/-- The grid size T of a dense launch (R184). -/
def Lrec.total (r : Lrec) : Nat := r.g0 * r.g1 * r.g2

/-- A 64-bit address field with bits [2:0] and [63:48] at 0. -/
def codeAddr (a : DWord) : Bool := a.toNat % 8 == 0 && a.toNat < 2 ^ 48

/-- Pairs of a list of ranges that overlap. -/
def rangesClash : List (Nat × Nat) → Bool
  | [] => false
  | (lo, hi) :: l => l.any (fun r => lo < hi && r.1 < r.2 && lo < r.2 && r.1 < hi) || rangesClash l

/-- Every field of a record is inside the range of R180 and consistent (R182, R184, R185, R192). -/
def lrecFields (l : List Byte) (r : Lrec) : Bool :=
  codeAddr r.code && codeAddr r.handler && r.flags.toNat < 128 &&
  (16 ≤ r.strands && r.strands ≤ 65536 && r.strands % 16 == 0) &&
  (1 ≤ r.sregs && r.sregs ≤ 512) && (8 ≤ r.floor && r.floor ≤ 384) &&
  (r.scratch % 16 == 0 && r.scratch ≤ 524288) && r.acc ≤ 32 && 1 ≤ r.lease && 1 ≤ r.sweight &&
  (1 ≤ r.span && r.span ≤ 16 && r.span ≤ r.strips) &&
  (if r.persistent then 1 ≤ r.hbperiod && r.walllim == 0 else r.hbperiod == 0) &&
  zeroBytes l 0x60 8 && zeroBytes l 0x88 120 &&
  (if r.sparse then r.g0 == 0 && r.g1 == 0 && r.g2 == 0 && r.vdesc != 0
   else r.vdesc == 0 && r.total < 2 ^ 32 && r.range.all fun e => e.2 ≤ r.total) &&
  r.range.all (fun e => e.1 ≤ e.2) && !rangesClash r.range

/-- A part needs no more than 384 strips, 4,096 × 12 s-register entries and the rows of 48 slices (R182). -/
def partFits (r : Lrec) (n : Nat) : Bool := n ≤ 384 && n * r.sregs ≤ 49152 && n * r.floor ≤ 18432
def lrecFits (r : Lrec) : Bool := (List.range r.span).all fun j => partFits r (r.partStrips j)

/-- The partition holds a sector of a die (R462): sector number die × 4 + sector. -/
def holdsSector (s : State) (part die : Nat) : Bool :=
  (List.range 4).any fun k => s.parts.getD (die * 4 + k) 16 == part

/-- A non-empty range entry names only dies on which the partition holds a sector (R462). -/
def rangeHeld (s : State) (part : Nat) (r : Lrec) : Bool :=
  (List.range 4).all fun d =>
    let e := r.range.getD d (0, 0)
    !(e.1 < e.2) || holdsSector s part d

/-! ### Whether a COOP launch can be resident at once -/

/-- Cores of a cluster or of a sector of a die. -/
def clusterCores (die k : Nat) : List Nat := (List.range 4).map fun i => die * 96 + 4 * k + i
def sectorCores (die k : Nat) : List Nat := (List.range 24).map fun i => die * 96 + 24 * k + i

/-- A bay of a core is fenced off (R3). -/
def bayFenced (s : State) (core bay : Nat) : Bool := s.fenced.contains (core * 12 + bay)

/-- The scratch that a window of `n` bytes takes: whole KiB (R219). -/
def footprint (n : Nat) : Nat := (n + 1023) / 1024 * 1024

/-- Strips of a record that an empty core holds on its unfenced bays, by floors, strip slots and s registers (R121, R145). -/
def coreStrips (s : State) (r : Lrec) (core : Nat) : Nat :=
  ((List.range 12).filter fun b => !bayFenced s core b).length * min (4 * min 8 (384 / r.floor)) (4096 / r.sregs)

/-- Parts whose windows and slots an empty core holds. -/
def coreParts (r : Lrec) : Nat :=
  min (if r.scratch = 0 then 384 else 524288 / footprint r.scratch) (if r.acc = 0 then 384 else 32 / r.acc)

/-- The numbers of a list in rising order. -/
def sortUp (l : List Nat) : List Nat := l.foldr put []
where
  /-- Put a number into a rising list. -/
  put (x : Nat) : List Nat → List Nat
    | [] => [x]
    | y :: l => if x ≤ y then x :: y :: l else y :: put x l

/-- Add the first numbers of a rising list, each one beyond the list counting `beyond`. -/
def sumLeast (beyond : Nat) : Nat → List Nat → Nat
  | 0, _ => 0
  | n + 1, [] => (n + 1) * beyond
  | n + 1, x :: l => x + sumLeast beyond n l

/-- `w` workgroups of a record fit at once on cores that hold `caps` strips each, the parts of each on distinct cores
(R186). A workgroup has parts of `small` strips and `large` ones of one more. A core with room for k strips takes up to
`free` parts that may all be large; each part beyond costs the large ones a `loss`. -/
def unitHolds (r : Lrec) (caps : List Nat) (w : Nat) : Bool :=
  let small := r.strips / r.span
  let large := r.strips % r.span
  let top := fun k => min (min w (coreParts r)) (k / small)
  let free := fun k => min (top k) (k / (small + 1))
  let losses := (caps.filter fun k => free k < top k).map fun k => small - (k - free k * (small + 1))
  let anyFree := (caps.map free).foldl (· + ·) 0
  let loss := sumLeast small (w * r.span - anyFree) (sortUp losses)
  w * r.span ≤ (caps.map top).foldl (· + ·) 0 && w * large + loss ≤ anyFree

/-- The most workgroups, up to `need`, that the cores of a unit hold at once with nothing else resident. -/
def unitMost (s : State) (r : Lrec) (need : Nat) (cores : List Nat) : Nat :=
  let caps := cores.map (coreStrips s r)
  ((List.range need).takeWhile fun w => unitHolds r caps (w + 1)).length

/-- The units of a die on which a partition's workgroups are placed (R186, R187): clusters for SPAN ≤ 4, else sectors. -/
def unitsOf (s : State) (part d span : Nat) : List (List Nat) :=
  ((List.range 4).filter fun k => s.parts.getD (d * 4 + k) 16 == part).flatMap fun k =>
    if span ≤ 4 then (List.range 6).map fun c => clusterCores d (6 * k + c) else [sectorCores d k]

/-- `n` workgroups of a die could all be placed at once on the partition's sectors of it (R182). -/
def coopHolds (s : State) (part : Nat) (r : Lrec) (d n : Nat) : Bool :=
  n ≤ (unitsOf s part d r.span).foldl (fun m u => m + unitMost s r (n - m) u) 0

/-- The workgroups of every die of a dense COOP launch fit at once (R182). -/
def coopFits (s : State) (part : Nat) (r : Lrec) : Bool :=
  (List.range 4).all fun d =>
    let e := r.range.getD d (0, 0)
    coopHolds s part r d (e.2 - e.1)

/-- A record as bytes is valid (R182). -/
def lrecValid (s : State) (part : Nat) (l : List Byte) (bad : Bool) : Bool :=
  let r := parseLrec l
  !bad && lrecFields l r && lrecFits r && rangeHeld s part r && (!r.coop || r.sparse || coopFits s part r)

/-- A record with every field 0, for a launch whose record is not read. -/
def emptyLrec : Lrec := parseLrec []

/-! ## The end of a launch -/

/-- The launch has nothing unstarted and nothing resident or saved on a die. -/
def dieIdle (s : State) (id d : Nat) (l : Launch) : Bool :=
  match l.work[d]? with
  | none => true
  | some w => w.forwarded && w.todo.isEmpty && w.batches.isEmpty &&
      !(s.wgs.any fun g => g.2.launch == id && g.2.die == d) &&
      !((dieOf s d).images.any fun m => m.wg.launch == id)

/-- Every workgroup of a launch has retired (R194). -/
def launchIdle (s : State) (id : Nat) (l : Launch) : Bool := (List.range 4).all fun d => dieIdle s id d l

/-- Every workgroup of a launch has been dispatched (R189). -/
def allDispatched (l : Launch) : Bool := l.open_ && l.work.all fun w => w.forwarded && w.todo.isEmpty && w.batches.isEmpty

/-- Drop the admission claims that a test picks (R145). -/
def dropAdmissions (s : State) (p : Admission → Bool) : State :=
  mapCores s fun c => { c with claims := c.claims.map fun q => (q.1, q.2.filter fun k => match k with
    | .admission _ who _ _ => !p who
    | .grow _ _ _ _ _ => true) }

/-- Drop the claims for a launch's next workgroup, on one die or on all. -/
def dropClaims (s : State) (launch : Nat) (die : Option Nat) : State :=
  dropAdmissions s fun a => match a with
    | .launch d l _ => l == launch && die.getD d == d
    | _ => false

/-- Drop every claim of a launch: for its workgroups, its consumers and its saved workgroups. -/
def dropLaunchClaims (s : State) (launch : Nat) : State :=
  dropAdmissions s fun a => match a with
    | .launch _ l _ => l == launch
    | .consumer q _ => (tableGet s.nodeQueues q).any fun n => n.launch == launch + 1
    | .restore wg _ => s.dies.any fun d => d.images.any fun m => m.wgId == wg && m.wg.launch == launch

/-- A launch takes a final status (R195): its record, and what it served. Its entry is removed. -/
def closeLaunch (s : State) (id : Nat) (st : Status) : State :=
  match tableGet s.launches id with
  | none => s
  | some l =>
    let r := l.lrec.done
    let s := if l.status = .pending then putSeq s l.owner l.job r l.seq else s
    let s := if st = .invalid then putCount s l.owner l.job r 0 else s
    let dg : DWord := if st = .done && l.lrec.digestOn then l.digest else 0
    let s := if st = .done then putDigest s l.owner l.job r dg else s
    let s := putStatus s l.owner l.job r st
    let count := if st = .invalid then 0 else l.count
    let s := { s with
      launches := tableDel s.launches id
      nodeQueues := if l.consumerOf = 0 then s.nodeQueues else tableDel s.nodeQueues (l.consumerOf - 1) }
    match l.origin with
    | .command q pos => completeCommand s q pos count st dg r
    | .node g n => dieStore s l.owner l.job (vaOf r.toNat) (.nodeDone g n)

/-- The first start below a launch makes its record RUNNING, with its SEQ (R195, R200), and its phase and job too. -/
def runLaunch (s : State) (id : Nat) : State :=
  match tableGet s.launches id with
  | none => s
  | some l =>
    if l.status = .pending then
      let s := putSeq s l.owner l.job l.lrec.done l.seq
      let s := putStatus s l.owner l.job l.lrec.done .running
      modLaunch s id fun l => { l with status := .running, started := true, start := s.clk }
    else s

/-- A launch whose workgroups have all retired is DONE (R194); a consumer launch ends with its node (R204). -/
def checkLaunch (s : State) (id : Nat) : State :=
  match tableGet s.launches id with
  | none => s
  | some l => if l.open_ && !l.badRecord && l.consumerOf == 0 && launchIdle s id l then closeLaunch s id .done else s

/-! ## Work-graph queues -/

/-- The die that runs a work-graph queue (R204): the one that homes NQDESC, taken anew until a consumer launch exists. -/
def NodeQueue.home (nq : NodeQueue) (s : State) : Nat :=
  if nq.launch = 0 then homeOf s nq.die nq.job nq.desc else nq.die

/-- The bytes of a node-queue descriptor as its dispatcher reads them; none while the read waits on a fault. -/
def nqRead (s : State) (id : Nat) (nq : NodeQueue) : Option (List Byte) × State :=
  match dieRead s (dieAgent (nq.home s) nq.job) (.nodeQueue id) (vaOf nq.desc.toNat) 64 with
  | (some (b, _), s) => (some b, s)
  | (none, s) => (none, s)

/-- PUB advances past every record written behind no unwritten one (R211). -/
def publish (s : State) (die : Nat) (j : Job) (desc : Nat) : State := dieStore s die j (vaOf desc) .publish

/-- What a strip's ENQs have left unwritten, by descriptor and the die that homes it. -/
def enqsOf (s : State) (p : Strip) (j : Job) : List (Flight × Nat × Nat) :=
  p.flights.filterMap fun f => f.enqDesc.map fun desc => (f, desc, homeOf s p.die j (BitVec.ofNat 64 desc))

/-- The dispatcher that homes NQDESC writes the positions that a strip leaves behind as void records; they are published
once the strip is gone (R212). -/
def abandonEnq (s : State) (p : Strip) (launch : Nat) : State :=
  match tableGet s.launches launch with
  | none => s
  | some l => (enqsOf s p l.job).foldl (fun s e =>
      e.1.reserved.foldl (fun s pos => dieStore s e.2.2 l.job (vaOf e.2.1) (.voidRecord pos)) s) s

/-- Publish what a strip that is gone had left unwritten. -/
def publishLeft (s : State) (p : Strip) (launch : Nat) : State :=
  match tableGet s.launches launch with
  | none => s
  | some l => (enqsOf s p l.job).foldl (fun s e => publish s e.2.2 l.job e.2.1) s

/-! ## Graphs -/

/-- A graph takes a final status (R194, R195). -/
def closeGraph (s : State) (id : Nat) (st : Status) : State :=
  match tableGet s.graphs id with
  | none => s
  | some g =>
    let s := if g.status = .pending then putSeq s g.owner g.job g.record g.seq else s
    let s := if st = .done then putDigest s g.owner g.job g.record 0 else s
    let s := putStatus s g.owner g.job g.record st
    let s := { s with graphs := tableDel s.graphs id }
    match g.origin with
    | .command q pos => completeCommand s q pos g.count st 0 g.record
    | .node _ _ => s

/-- The job of a level, for LAUNCH nodes: a launch as created and not yet forwarded. -/
def newLaunch (address : DWord) (owner : Nat) (r : Lrec) (seq : DWord) (j : Job) (o : Origin) (phase : DWord)
    (prio : Nat) (bad open_ : Bool) : Launch where
  address := address
  owner := owner
  lrec := r
  seq := seq
  job := j
  origin := o
  phase := phase
  phaseCount := 0
  prio := prio
  status := .pending
  count := 0
  digest := 0
  work := r.range.map fun e => ⟨[], [], !(e.1 < e.2), 0, some 0⟩
  start := 0
  started := false
  badRecord := bad
  open_ := open_
  consumerOf := 0
  wrote := 0

/-! ## Tree descriptors -/

/-- A tree descriptor (R323), with the physical line it was read from. -/
structure Vdesc where
  line : Nat
  root : Nat
  rcap : Nat
  etype : Nat
  bg : Nat
  npool : Nat
  lhdr : Nat
  lmask : Nat
  ldata : Nat
  bitmap : Nat
  range : List (Nat × Nat)
  flist : Nat
  ncap : Nat
  lcap : Nat
deriving DecidableEq, Repr

/-- Bytes of an element type (R323); 0 for a code that is none. -/
def elemBytes (t : Nat) : Nat :=
  match t with
  | 6 => 1
  | 7 => 1
  | 4 => 2
  | 5 => 2
  | 10 => 2
  | 11 => 2
  | 0 => 4
  | 1 => 4
  | 8 => 4
  | _ => 0

/-- The fields of a descriptor's 128 bytes. -/
def parseVdesc (line : Nat) (b : List Byte) : Vdesc where
  line := line
  root := field b 0x00 8
  rcap := field b 0x08 4
  etype := field b 0x0C 1
  bg := field b 0x10 4
  npool := field b 0x18 8
  lhdr := field b 0x20 8
  lmask := field b 0x28 8
  ldata := field b 0x30 8
  bitmap := field b 0x38 8
  range := (List.range 4).map fun d => (field b (0x40 + 8 * d) 4, field b (0x44 + 8 * d) 4)
  flist := field b 0x60 8
  ncap := field b 0x68 4
  lcap := field b 0x6C 4

/-- The descriptor breaks none of R323 and R324. -/
def vdescOk (b : List Byte) (v : Vdesc) : Bool :=
  v.root % 16 == 0 && isPow2 v.rcap && v.rcap ≤ 2 ^ 24 && elemBytes v.etype != 0 &&
  v.bg < 2 ^ (8 * elemBytes v.etype) && v.npool % 16384 == 0 && v.lhdr % 64 == 0 && v.lmask % 64 == 0 &&
  v.ldata % 512 == 0 && v.bitmap % 8 == 0 && v.flist % 64 == 0 &&
  (2 ≤ v.ncap && v.ncap ≤ 2 ^ 20) && (2 ≤ v.lcap && v.lcap ≤ 2 ^ 28) &&
  zeroBytes b 0x0D 3 && zeroBytes b 0x14 4 && zeroBytes b 0x70 16 &&
  v.range.all (fun r => r.1 ≤ r.2 && (!(r.1 < r.2) || (r.1 != 0 && r.2 ≤ v.lcap))) && !rangesClash v.range

/-- The tree of a sparse launch has a valid descriptor (R182, R185, R324); none while the read waits on a fault. -/
def treeOk (s : State) (owner : Nat) (j : Job) (who : Waiter) (r : Lrec) : Option Bool × State :=
  if !r.sparse then (some true, s)
  else if r.vdesc.toNat % 128 ≠ 0 then (some false, s)
  else
    match dieRead s (dieAgent owner j) who (vaOf r.vdesc.toNat) 128 with
    | (none, s) => (none, s)
    | (some (b, bad), s) => (some (!bad && vdescOk b (parseVdesc 0 b)), s)

/-- DONE of a record of which some byte is poisoned: 0 when it is DONE's own word (R182, R423). -/
def soundDone (s : State) (ag : Agent) (lrec : DWord) : DWord × State :=
  match readVirt s ag (vaOf (lrec.toNat + 0x20)) 8 with
  | (.ok (b, false), s) => (BitVec.ofNat 64 (leNat b), s)
  | (_, s) => (0, s)

/-- Read a launch record for a level (R182): its fields and whether it is INVALID, or none while a read waits on a
fault. -/
def readLrec (s : State) (owner : Nat) (j : Job) (who : Waiter) (lrec : DWord) : Option (Lrec × Bool) × State :=
  if lrec.toNat % 256 ≠ 0 then (some (emptyLrec, true), s)
  else
    match dieRead s (dieAgent owner j) who (vaOf lrec.toNat) 256 with
    | (none, s) => (none, s)
    | (some (l, bad), s) =>
      let r := parseLrec l
      let ok := lrecValid s j.part l bad && recordOk r.done
      let (done, s) := if bad then soundDone s (dieAgent owner j) lrec else (r.done, s)
      let failed : Lrec := { emptyLrec with done := if recordOk done then done else 0 }
      if !ok then (some (failed, true), s)
      else
        match treeOk s owner j who r with
        | (none, s) => (none, s)
        | (some true, s) => (some (r, false), s)
        | (some false, s) => (some (failed, true), s)

/-- %phase of a launch's workgroups: COUNT of its phase record when it starts (R205); none while the read waits. -/
def phaseRead (s : State) (owner : Nat) (j : Job) (who : Waiter) (phase : DWord) : Option Word × State :=
  if phase = 0 then (some 0, s)
  else match dieRead s (dieAgent owner j) who (vaOf phase.toNat) 8 with
    | (some (b, _), s) => (some (BitVec.ofNat 32 (leNat b)), s)
    | (none, s) => (none, s)

/-- Add a launch to the live ones. -/
def addLaunch (s : State) (l : Launch) : Nat × State :=
  let id := s.nextId
  (id, { s with launches := tablePut s.launches id { l with wrote := s.wrote }, nextId := id + 1 })

/-! ## Work-graph queues and their consumer launches -/

/-- A CONS launch record (R203): its grid and range fields are ignored. -/
def consBytes (b : List Byte) : List Byte :=
  b.take 0x40 ++ List.replicate 12 0 ++ (b.drop 0x4C).take 28 ++ List.replicate 32 0 ++ b.drop 0x88

/-- Read the CONS record of a node's queue: its fields and whether it is INVALID; none while the read waits. -/
def readCons (s : State) (id : Nat) (nq : NodeQueue) (cons : DWord) : Option (Lrec × Bool) × State :=
  if cons.toNat % 256 ≠ 0 then (some (emptyLrec, true), s)
  else
    match dieRead s (dieAgent (nq.home s) nq.job) (.nodeQueue id) (vaOf cons.toNat) 256 with
    | (none, s) => (none, s)
    | (some (b, bad), s) =>
      let r := parseLrec (consBytes b)
      let ok := lrecValid s nq.job.part (consBytes b) bad && recordOk r.done && !r.sparse
      let (done, s) := if bad then soundDone s (dieAgent (nq.home s) nq.job) cons else (r.done, s)
      (some (if ok then r else { emptyLrec with done := if recordOk done then done else 0 }, !ok), s)

/-- The consumer launch of a queue, created at its first dispatch or at the node's completion (R200); none while a read
waits, or when it is INVALID and over. -/
def consumerLaunch (s : State) (id : Nat) (nq : NodeQueue) (cons : DWord) : Option Nat × State :=
  if nq.launch ≠ 0 then (some (nq.launch - 1), s)
  else
    match tableGet s.graphs nq.graph with
    | none => (none, s)
    | some g =>
      match phaseRead s (nq.home s) g.job (.nodeQueue id) g.phase with
      | (none, s) => (none, s)
      | (some now, s) =>
        match readCons s id nq cons with
        | (none, s) => (none, s)
        | (some (r, bad), s) =>
          let l := newLaunch cons g.owner r g.seq g.job (.node nq.graph nq.node) g.phase g.prio bad true
          let (n, s) := addLaunch s { l with
            phaseCount := now
            consumerOf := id + 1
            work := (List.range 4).map fun _ => ⟨[], [], true, s.clk, some s.clk⟩ }
          if bad then
            -- no consumer can run: the launch is INVALID, its node completed, its queue out of use
            (none, closeLaunch { s with nodeQueues := tableDel s.nodeQueues id } n .invalid)
          else (some n, { s with nodeQueues := tablePut s.nodeQueues id { nq with launch := n + 1, die := nq.home s } })

/-- A work-graph node completes when every predecessor has completed, PUB = DISP, and no consumer is resident or
unstarted (R204): the consumer launch becomes DONE (R200) and the node completed. A node that is skipped after consumers
were dispatched leaves its queue until the graph is over, and its consumer launch never becomes final: the spec does not
say what they become (DESIGN CHOICE, log 50). -/
def checkNodeQueue (s : State) (id : Nat) : State :=
  match tableGet s.nodeQueues id with
  | none => s
  | some nq =>
    match tableGet s.graphs nq.graph with
    | none => { s with nodeQueues := tableDel s.nodeQueues id }
    | some g =>
      let ready := match g.nodes[nq.node]? with
        | some n => n.st == .running
        | none => true
      if !ready || !(nq.consumers.all fun c => c.2.2) || dieWaiting s (.nodeQueue id) then s
      else
        match nqRead s id nq with
        | (none, s) => s
        | (some b, s) =>
          if field b 0x20 8 ≠ field b 0x28 8 then s
          else match consumerLaunch s id nq (BitVec.ofNat 64 (field b 0x10 8)) with
            | (none, s) => s
            | (some n, s) => closeLaunch s n .done

/-! ## The nodes of a graph -/

/-- Count an edge met by its successors: completed or skipped (R199). -/
def meetEdges (nodes : List Node) (succ : List Nat) (live : Bool) : List Node :=
  succ.foldl (fun ns k => listMod ns k fun n => { n with met := n.met + 1, live := n.live || live }) nodes

/-- A node reaches its end: skipped, or completed with a choice of lists (R199, R201). -/
def endNode (s : State) (gid n : Nat) (skipped : Bool) (first : Bool) : State :=
  match tableGet s.graphs gid with
  | none => s
  | some g =>
    match g.nodes[n]? with
    | none => s
    | some nd =>
      let ns := listMod g.nodes n fun nd => { nd with st := if skipped then .skipped else .completed, met := nd.npred + 1 }
      let ns := meetEdges ns nd.succ0 (!skipped && first)
      let ns := meetEdges ns nd.succ1 (!skipped && !first)
      let s := { s with graphs := tablePut s.graphs gid { g with nodes := ns, count := g.count + 1 } }
      putCount s g.owner g.job g.record (g.count + 1)

/-- Run a node whose predecessors have all resolved and one of which completed (R199-R202). -/
def runNode (s : State) (gid n : Nat) (g : Graph) (nd : Node) : State :=
  let running := fun s : State =>
    { s with graphs := tableMod s.graphs gid fun g => { g with
        nodes := listMod g.nodes n fun nd => { nd with st := .running } } }
  match nd.kind with
  | 0 =>
    match phaseRead s g.owner g.job (.node gid n) g.phase with
    | (none, s) => s
    | (some now, s) =>
    match readLrec s g.owner g.job (.node gid n) nd.arg with
    | (none, s) => s
    | (some (r, bad), s) =>
      let l := newLaunch nd.arg g.owner r g.seq g.job (.node gid n) g.phase g.prio bad true
      let (id, s) := addLaunch (running s) { l with phaseCount := now }
      if bad then closeLaunch s id .invalid
      else if r.range.all (fun e => !(e.1 < e.2)) then checkLaunch s id else s
  | 1 =>
    match dieRead s (dieAgent g.owner g.job) (.node gid n) (vaOf nd.arg.toNat) 32 with
    | (none, s) => s
    | (some (l, _), s) =>
      let dst := BitVec.ofNat 64 (field l 8 8)
      let die := homeOf s g.owner g.job dst
      let s := running s
      { s with
        copies := tablePut s.copies s.nextId
          ⟨.node gid n, g.job, BitVec.ofNat 64 (field l 0 8), dst, field l 16 8, die⟩
        nextId := s.nextId + 1 }
  | 2 =>
    match dieRead s (dieAgent g.owner g.job) (.node gid n) (vaOf nd.arg.toNat) 4 with
    | (none, s) => s
    | (some (l, _), s) => endNode (acquireScope s (dieAgent g.owner g.job) 3) gid n false (leNat l != 0)
  | 3 => running s
  | _ => endNode s gid n false true

/-- Advance one graph by one node: the first completed node whose edges are not yet met, or the first waiting node
whose predecessors have all resolved and none of whose reads waits on a fault; none when there is none. -/
def pumpOne (s : State) (gid : Nat) (g : Graph) : Option State :=
  match g.nodes.findIdx? fun n => n.st == .completed && n.met ≤ n.npred with
  | some n => some (endNode s gid n false true)
  | none =>
    match (List.range g.nodes.length).find? fun i => (g.nodes[i]?).any fun n =>
        n.st == .waiting && n.met == n.npred && !dieWaiting s (.node gid i) with
    | some n => (g.nodes[n]?).map fun nd =>
        if nd.live || nd.npred == 0 then runNode s gid n g nd else endNode s gid n true false
    | none => none

/-- Advance a graph until nothing more can run at once; DONE when every node has ended (R194, R199). -/
def pumpGraph (s : State) (gid : Nat) : Nat → State
  | 0 => s
  | fuel + 1 =>
    match tableGet s.graphs gid with
    | none => s
    | some g =>
      if g.nodes.all fun n => (n.st == .completed || n.st == .skipped) && n.npred < n.met then closeGraph s gid .done
      else match pumpOne s gid g with
        | none => s
        | some s => pumpGraph s gid fuel

/-- Advance every graph. -/
def pumpGraphs (s : State) : State := s.graphs.foldl (fun s g => pumpGraph s g.1 (3 * g.2.nodes.length + 3)) s
/-- Check every work-graph queue. -/
def checkQueues (s : State) : State := s.nodeQueues.foldl (fun s q => checkNodeQueue s q.1) s

/-- Advance every graph, and check every work-graph queue, until nothing more follows: a queue that ends lets nodes run,
and a node that runs lets its queue end (R199, R204). -/
def pumpAll (s : State) : State :=
  (List.range (s.nodeQueues.length + 1)).foldl (fun s _ => pumpGraphs (checkQueues s)) (pumpGraphs s)

/-! ## Stopping work -/

/-- The inbox of a workgroup on a core goes: its directory entry first, then a drop notice for every landed row not yet
claimed, positions CLM to ARR - 1 (R379). -/
def removeInbox (s : State) (core slot : Nat) : State :=
  match tableGet (coreOf s core).inboxes slot with
  | none => s
  | some b =>
    let s := mapDies s fun d => { d with directory := d.directory.filter fun e => e.ident != b.ident }
    let c := coreOf s core
    let base := match tableGet s.wgs b.wg with
      | some w => match w.parts.find? fun p => p.core == core with
        | some p => p.scratch
        | none => 0
      | none => 0
    let handles := (List.range (b.arr - b.clm)).map fun k =>
      BitVec.ofNat 64 (leNat (cellRange (0 : Byte) c.scratch (base + b.ring + b.cap * b.rb + 8 * ((b.clm + k) % b.cap)) 8))
    let s := { s with net := s.net ++ handles.map fun h => .drop h }
    modCore s core fun c => { c with inboxes := tableDel c.inboxes slot }

/-- Every inbox of a workgroup goes (R379). -/
def removeInboxes (s : State) (wg : Nat) (w : Wg) : State :=
  w.parts.foldl (fun s p =>
    (coreOf s p.core).inboxes.foldl (fun s b => if b.2.wg = wg then removeInbox s p.core b.1 else s) s) s

/-- LAUNCH and CANCEL are drained: they complete whatever becomes of their strip (R434). -/
def Cmd.drains (k : Cmd) : Bool := k.failed.isNone && match k.instr with
  | .launch _ => true
  | .cancel _ => true
  | _ => false

/-- The code with which a command of a stopped strip ends: its own where it is known, as for a matrix command that has been
performed (R320), else CANCELLED (R196). -/
def Cmd.endCode (k : Cmd) : Nat := k.failed.getD codeCANCELLED

/-- The commands of a strip that go with it. -/
def goingCmds (s : State) (id : Nat) (p : Strip) : List Cmd :=
  (coreOf s p.coreId).rsb.filter fun k => k.strip == id && !k.shadow && !k.drains

/-- A request that outlives its strip: a VFREE, and a VINS that has begun, which Mint completes (R339). -/
def MintReq.stays (m : MintReq) : Bool := m.flight.isNone || m.step != .fresh

/-- Release what a strip holds on its core: claims, engine commands, escrow entries, Mint requests with a result, the
matrix engine. A command on no token that ends with a code other than OK is counted (R282). A VFREE already sent to Mint
stays, a VINS that has begun is completed (R339), and so do halo entries under way (R469). -/
def detachStrip (s : State) (id : Nat) (p : Strip) : State :=
  let going := goingCmds s id p
  let gone := going.map fun k => k.id
  let s := going.foldl (fun s k => if k.token.isNone && k.endCode != codeOK then countEngine s p.coreId else s) s
  let s := modCore s p.coreId fun c => { c with
      claims := c.claims.map fun q => (q.1, q.2.filter fun k => match k with
        | .grow _ t _ _ _ => t != id
        | _ => true)
      escrow := c.escrow.map fun e => if gone.contains e.2.cmd && e.2.st != .free then
          (e.1, { e.2 with st := .free, slots := [], deadline := none, rowsDone := [] }) else e
      holder := if c.holder = id + 1 then 0 else c.holder }
  let s := mapCores s fun c => { c with rsb := c.rsb.filter fun k => !gone.contains k.id }
  let s := mapDies s fun d => { d with mint := d.mint.filter fun m => m.strip != id || m.stays }
  { s with strips := tableDel s.strips id }

/-- Remember a window and slots that an occupant leaves. -/
def leaveCore (s : State) (r : Lrec) (job : Nat) (p : Part) : State :=
  let put := fun (l : List (Nat × Nat × Nat)) (lo hi : Nat) =>
    if lo = hi then l else (lo, hi, job) :: l.filter fun x => !(lo ≤ x.1 && x.2.1 ≤ hi)
  modCore s p.core fun c => { c with
    scratchLeft := put c.scratchLeft p.scratch (p.scratch + r.scratch)
    accLeft := put c.accLeft p.slots (p.slots + r.acc) }

/-- Free a workgroup's scratch and slots, remembering their job (R183), and take it out of the residents. -/
def freeWg (s : State) (id : Nat) : State :=
  match tableGet s.wgs id with
  | none => s
  | some w =>
    let s := removeInboxes s id w
    let s := match tableGet s.launches w.launch with
      | some l => w.parts.foldl (fun s p => leaveCore s l.lrec l.job.index p) s
      | none => s
    { s with wgs := tableDel s.wgs id }

/-- Stop the resident strips of a launch at their boundary and free its workgroups, without counting them (R196 steps 2
and 3): stores already in the SCB stay, posted writes stay, everything else of the strips goes. -/
def stopStrips (s : State) (launch : Nat) : State :=
  let gone := s.wgs.filter fun w => w.2.launch == launch
  let mine := s.strips.filter fun p => gone.any fun w => w.1 == p.2.wg
  let s := mine.foldl (fun s p => detachStrip (abandonEnq s p.2 launch) p.1 p.2) s
  let s := mine.foldl (fun s p => publishLeft s p.2 launch) s
  gone.foldl (fun s w => freeWg s w.1) s

/-- Free the images of a launch (R441). -/
def dropImages (s : State) (launch : Nat) : State :=
  let mine := (s.dies.flatMap fun d => d.images).filter fun m => m.wg.launch == launch
  let strips := mine.flatMap fun m => m.strips.map fun p => p.2
  let s := mine.foldl removeImageInboxes s
  let s := strips.foldl (fun s p => abandonEnq s p launch) s
  let s := mapDies s fun d => { d with
    images := d.images.filter fun m => m.wg.launch != launch
    mint := d.mint.filter fun q => q.stays || !(mine.any fun m => (tableGet m.strips q.strip).isSome) }
  strips.foldl (fun s p => publishLeft s p launch) s
where
  /-- The inboxes of a saved workgroup go, with their drop notices (R379). -/
  removeImageInboxes (s : State) (m : Image) : State :=
    let handles := m.inboxes.flatMap fun b => (List.range (b.2.arr - b.2.clm)).map fun k =>
      let at_ := b.2.ring + b.2.cap * b.2.rb + 8 * ((b.2.clm + k) % b.2.cap)
      (BitVec.ofNat 64 (leNat (cellRange (0 : Byte) (m.scratch.getD b.2.part []) at_ 8)) : DWord)
    let s := { s with net := s.net ++ handles.map fun h => .drop h }
    mapDies s fun d => { d with
      directory := d.directory.filter fun e => !(m.inboxes.any fun b => b.2.ident == e.ident) }

/-- End a launch by cancellation, watchdog or abort (R196), its LAUNCH and CANCEL commands drained: unstarted work, strips,
commands and images go, then its record takes the status. -/
def haltLaunch (s : State) (id : Nat) (st : Status) : State :=
  match tableGet s.launches id with
  | none => s
  | some _ =>
    let s := modLaunch s id fun l => { l with work := l.work.map fun w => { w with todo := [], batches := [] } }
    let s := dropLaunchClaims s id
    let s := stopStrips s id
    let s := dropImages s id
    let s := { s with dieWaits := s.dieWaits.filter fun w => w.who != .launch id }
    closeLaunch s id st

/-- The die that performs a copy (R202): the one that homes its destination's first byte. -/
def Copy.home (c : Copy) (s : State) : Nat := homeOf s c.die c.job c.dst

/-- What a stopped copy has written (R196, R202): any of its bytes. -/
def copyPart (s : State) (c : Copy) : State :=
  let ag := dieAgent (c.home s) c.job
  match readVirt s ag (vaOf c.src.toNat) c.len with
  | (.ok (b, _), s) =>
    (List.range c.len).foldl (fun s i =>
      let (now, s) := s.choose
      if now then (writeVirt s ag (vaOf (c.dst.toNat + i)) [b.getD i 0]).2 else s) s
  | (.error _, s) => s

/-- A copy is a node's of a graph. -/
def Copy.ofGraph (id : Nat) (c : Copy) : Bool := match c.origin with
  | .node g _ => g == id
  | .command _ _ => false

/-- End a graph: its launches, copies and queues, then its own record (R196). -/
def haltGraph (s : State) (id : Nat) (st : Status) : State :=
  match tableGet s.graphs id with
  | none => s
  | some _ =>
    -- the nodes are gone first, so that nothing below starts another
    let s := s.launches.foldl (fun s l => match l.2.origin with
      | .node g _ => if g = id then haltLaunch s l.1 .cancelled else s
      | _ => s) s
    let s := (s.copies.filter fun c => c.2.ofGraph id).foldl (fun s c => copyPart s c.2) s
    let s := { s with
      copies := s.copies.filter fun c => !c.2.ofGraph id
      nodeQueues := s.nodeQueues.filter fun q => q.2.graph != id
      dieWaits := s.dieWaits.filter fun w => match w.who with
        | .node g _ => g != id
        | _ => true }
    closeGraph s id st

/-- End a copy command (R196): its completion entry reads the status. -/
def haltCopy (s : State) (id : Nat) (st : Status) : State :=
  match tableGet s.copies id with
  | none => s
  | some c =>
    let s := copyPart { s with copies := tableDel s.copies id } c
    match c.origin with
    | .command q pos =>
      let (n, s) := freeCount s
      completeCommand s q pos n st 0
    | .node g n => nodeDone s g n

/-- Stop every live launch, graph and copy that a test picks (R196 order: below first). -/
def haltAll (s : State) (st : Status) (pl : Launch → Bool) (pg : Graph → Bool) (pc : Copy → Bool) : State :=
  let s := s.graphs.foldl (fun s g => if pg g.2 then haltGraph s g.1 st else s) s
  let s := s.launches.foldl (fun s l => if pl l.2 then haltLaunch s l.1 st else s) s
  s.copies.foldl (fun s c => if pc c.2 then haltCopy s c.1 st else s) s

/-- A copy command serves a phase. -/
def copyPhase (s : State) (c : Copy) : DWord := match c.origin with
  | .command q pos => match (queueOf s q).accepted.find? fun a => a.pos == pos with
    | some a => a.phase
    | none => 0
  | .node g _ => match tableGet s.graphs g with
    | some gr => gr.phase
    | none => 0

/-- The counter record of a command that does not run (R503), or none while its read waits. -/
def commandRecord (s : State) (q : Nat) (who : Waiter) (c : Accepted) : Option DWord × State :=
  let die := queueOwner s q
  match c.kind with
  | 1 =>
    match readLrec s die c.job who c.arg with
    | (none, s) => (none, s)
    | (some (r, _), s) => (some r.done, s)
  | 2 =>
    match dieRead s (dieAgent die c.job) who (vaOf c.arg.toNat) 8 with
    | (none, s) => (none, s)
    | (some (b, _), s) => (some (BitVec.ofNat 64 (leNat b)), s)
  | _ => (some 0, s)

/-- An accepted command that does not run ends with CANCELLED (R196, R503): its counter record, then its completion entry. -/
def cancelCommand (s : State) (q : Nat) (c : Accepted) (r : DWord) : State :=
  let die := queueOwner s q
  let s := putCount (putSeq s die c.job r c.seq) die c.job r 0
  completeCommand (putStatus s die c.job r .cancelled) q c.pos 0 .cancelled 0 r

/-- The accepted commands that a level's end discards: those of a launch, graph or copy that have not started (R196). -/
def unstarted (s : State) (pick : Accepted → Bool) : List (Nat × Accepted) :=
  s.queues.flatMap fun q => (q.2.accepted.filter fun a => !a.started && a.kind ≤ 3 && a.ends.isNone && pick a).map fun a => (q.1, a)

/-- Accepted commands that have not started are discarded with the level they belong to (R196); true while the read of a
command's counter record waits on a fault. -/
def discardCommands (s : State) (who : Waiter) (pick : Accepted → Bool) : Bool × State :=
  (unstarted s pick).foldl (fun r c => match commandRecord r.2 c.1 who c.2 with
    | (none, s) => (true, s)
    | (some rec_, s) => (r.1, cancelCommand s c.1 c.2 rec_)) (false, s)

/-- Discard commands for a level whose end does not wait: one whose record cannot be read yet ends in its turn (R503). -/
def discardAll (s : State) (who : Waiter) (pick : Accepted → Bool) : State :=
  let s := (discardCommands s who pick).2
  let go := fun a : Accepted =>
    if !a.started && a.kind ≤ 3 && a.ends.isNone && pick a then { a with ends := some .cancelled } else a
  { s with queues := s.queues.map fun q => (q.1, { q.2 with accepted := q.2.accepted.map go }) }

/-- The address is another live level's record, so no phase's (R209, log 20). -/
def otherRecord (s : State) (j : Job) (r : DWord) : Bool :=
  s.launches.any (fun l => l.2.lrec.done == r && l.2.job.index == j.index) ||
    s.graphs.any (fun g => g.2.record == r && g.2.job.index == j.index) || j.jrec == r

/-- What runs below a job ends with CANCELLED (R196), its commands that had not started being gone: launches, graphs, copies
and phase records that are not final. -/
def haltJob (s : State) (die : Nat) (j : Job) : State :=
  let s := haltAll s .cancelled (fun l => l.job.index == j.index) (fun g => g.job.index == j.index) (fun c => c.job.index == j.index)
  let mine := s.phases.filter fun p => p.1 == j.index
  mine.foldl (fun s p => endRecord s die j p.2 .cancelled) { s with phases := s.phases.filter fun p => p.1 != j.index }

/-- STATUS of a phase's or job's record is final (R195); none while the read waits. -/
def recordFinal (s : State) (die : Nat) (j : Job) (who : Waiter) (r : DWord) : Option Bool × State :=
  match dieRead s (dieAgent die j) who (vaOf (r.toNat + 8)) 4 with
  | (some (b, _), s) => (some (decide (2 ≤ leNat b)), s)
  | (none, s) => (none, s)

/-- Act on the phase's or job's record at `r` when it is live: some false when it is not, none while a read waits. -/
def onLiveRecord (s : State) (die : Nat) (j : Job) (who : Waiter) (r : DWord) (act : State → Option Bool × State) :
    Option Bool × State :=
  match recordFinal s die j who r with
  | (none, s) => (none, s)
  | (some true, s) => (some false, s)
  | (some false, s) => act s

/-- The address is a phase's record, as far as its use goes (R209, log 20). -/
def phaseAddress (s : State) (j : Job) (r : DWord) : Bool := r != 0 && r.toNat % 64 == 0 && !otherRecord s j r

/-- Discard the commands of a phase or job, and then go on with its end; none while a record cannot be read. -/
def discardThen (s : State) (who : Waiter) (pick : Accepted → Bool) (act : State → State) : Option Bool × State :=
  match discardCommands s who pick with
  | (true, s) => (none, s)
  | (false, s) => (some true, pumpAll (act s))

/-- Cancel the live level of a kind with its record at `r`, of a job, the LAUNCH and CANCEL commands below it drained (R196,
R209, R504): some false when there is none; none while a read of a record waits. -/
def haltLevel (s : State) (die : Nat) (j : Job) (who : Waiter) (level : Nat) (r : DWord) : Option Bool × State :=
  match level with
  | 0 =>
    match s.launches.find? fun l => l.2.lrec.done == r && l.2.job.index == j.index && r != 0 with
    | some l => (some true, pumpAll (haltLaunch s l.1 .cancelled))
    | none => (some false, s)
  | 1 =>
    match s.graphs.find? fun g => g.2.record == r && g.2.job.index == j.index with
    | some g => (some true, pumpAll (haltGraph s g.1 .cancelled))
    | none => (some false, s)
  | 2 =>
    let mine := fun (k : Job) (ph : DWord) => k.index == j.index && ph == r
    if !phaseAddress s j r then (some false, s)
    else onLiveRecord s die j who r fun s => discardThen s who (fun a => mine a.job a.phase) fun s =>
      putStatus (haltAll s .cancelled (fun l => mine l.job l.phase) (fun g => mine g.job g.phase)
        fun c => mine c.job (copyPhase s c)) die j r .cancelled
  | _ =>
    if r = 0 ∨ j.jrec ≠ r then (some false, s)
    else onLiveRecord s die j who r fun s => discardThen s who (fun a => a.job.index == j.index) fun s =>
      putStatus (haltJob s die j) die j r .cancelled

/-- A close command (R504): DONE on the phase's or job's record that is not final. -/
def closeLevel (s : State) (die : Nat) (j : Job) (who : Waiter) (level : Nat) (r : DWord) : Option Bool × State :=
  let close := fun (named : Bool) =>
    if named then onLiveRecord s die j who r fun s => (some true, putStatus (putDigest s die j r 0) die j r .done)
    else (some false, s)
  match level with
  | 2 => close (phaseAddress s j r)
  | 3 => close (r != 0 && j.jrec == r)
  | _ => (some false, s)

end Sys2Proof.Machine
end

