-- ==== Sys2Proof/Machine/Retire.lean ====
section
/-! DEFINITION. The end of strips and workgroups (R193-R195, R204, R428, R431): what must have finished, what a retirement
releases and counts, the completions that come before a cancellation of their cycle (R197), and the LAUNCH and CANCEL
commands that a level's end drains (R196, R207-R209, R434). -/
namespace Sys2Proof.Machine

/-! ## Residency -/

/-- Some workgroup of a launch is resident on a die. -/
def residentOn (s : State) (launch die : Nat) : Bool := s.wgs.any fun w => w.2.launch == launch && w.2.die == die

/-- Some workgroup of a job is resident on a die. -/
def jobOn (s : State) (job die : Nat) : Bool := s.wgs.any fun w => w.2.die == die && match tableGet s.launches w.2.launch with
  | some l => l.job.index == job
  | none => false

/-- Note that a launch has left a die, and close the job's slice there (R428, R431). -/
def leaveDie (s : State) (launch die : Nat) : State :=
  let s := if residentOn s launch die then s
    else modLaunch s launch fun l => { l with work := listMod l.work die fun w => { w with away := some s.clk } }
  modDie s die fun d => { d with slices := d.slices.filter fun x => jobOn s x.job die }

/-! ## Retirement -/

/-- Strips of a workgroup. -/
def stripsOf (s : State) (wg : Nat) : List (Nat × Strip) := s.strips.filter fun p => p.2.wg == wg

/-- A strip can retire (R193): every strand has exited, its stores have entered the SCB and its commands are complete. -/
def stripDone (s : State) (id : Nat) (p : Strip) : Bool :=
  p.live == 0 && p.flights.isEmpty && !(s.cores.any fun c => c.2.rsb.any fun k => k.strip == id)

/-- A consumer has retired: FREED passes it once every earlier one has retired too (R204). -/
def consumerRetired (s : State) (id ordinal : Nat) : State :=
  match tableGet s.nodeQueues id with
  | none => s
  | some nq =>
    let cs := nq.consumers.map fun c => if c.1 = ordinal then (c.1, c.2.1, true) else c
    let gone := cs.takeWhile fun c => c.2.2
    let s := { s with nodeQueues := tablePut s.nodeQueues id { nq with consumers := cs.drop gone.length } }
    match gone.getLast? with
    | none => s
    | some c => dieWrite s nq.die nq.job (vaOf (nq.desc.toNat + 0x30)) (leBytes 8 c.2.1)

/-- A workgroup whose strips have all retired retires (R193-R195): a release at SYS scope, its windows and slots are free,
COUNT counts it, and what it completes completes. -/
def retireWg (s : State) (id : Nat) (w : Wg) : State :=
  match tableGet s.launches w.launch with
  | none => freeWg s id
  | some l =>
    let s := w.parts.foldl (fun s p => releaseCore s p.core) s
    let s := leaveDie (freeWg s id) w.launch w.die
    let s := modLaunch s w.launch fun l => { l with count := l.count + 1 }
    let s := putCount s w.die l.job l.lrec.done (l.count + 1)
    let s := if l.consumerOf = 0 then s else consumerRetired s (l.consumerOf - 1) w.ordinal
    pumpAll (checkLaunch s w.launch)

/-- A strip leaves its core; asynchronous traps still pending are lost, each counted (R400). -/
def leaveStrip (s : State) (id : Nat) (p : Strip) : State :=
  detachStrip (p.asyncs.foldl (fun s _ => countEngine s p.coreId) s) id p

/-- A strip that is done retires, and its workgroup with the last of its strips (R193). -/
def retireStrip (s : State) (id : Nat) : State :=
  match tableGet s.strips id with
  | none => s
  | some p =>
    if !stripDone s id p then s
    else
      let s := leaveStrip s id p
      match tableGet s.wgs p.wg with
      | none => s
      | some w => if (stripsOf s p.wg).isEmpty then retireWg s p.wg w else s

/-- The strips of the launches that a test picks retire as far as they are done: a completion comes before a cancellation of
its cycle (R197). Their retirement counts as falling in the cycle in which it has become possible (DEDUCED, log 55). -/
def completeFirst (s : State) (pick : Launch → Bool) : State :=
  let mine := s.strips.filter fun p => match launchOfStrip s p.2 with
    | some (_, l) => pick l
    | none => false
  mine.foldl (fun s p => retireStrip s p.1) s

/-- A launch stands below the level of a kind with its record at `r`, of a job, or is it. -/
def underLevel (s : State) (j : Job) (level : Nat) (r : DWord) (l : Launch) : Bool :=
  l.job.index == j.index && match level with
  | 0 => l.lrec.done == r
  | 1 => match l.origin with
    | .node g _ => match tableGet s.graphs g with
      | some gr => gr.record == r
      | none => false
    | .command _ _ => false
  | 2 => l.phase == r
  | _ => true

/-! ## LAUNCH and CANCEL -/

/-- Bits of a queue's FLAGS (R485). -/
def queueOpen (s : State) (q : Nat) : Bool := (queueField s q 0x0E 1).testBit 0
def queueDevlaunch (s : State) (q : Nat) : Bool := (queueField s q 0x0E 1).testBit 1
def queueHaltBit (s : State) (q : Nat) : Bool := (queueField s q 0x0E 1).testBit 2

/-- The 64 bytes of a launch command (R484). -/
def launchEntry (seq lrec : Nat) : List Byte :=
  leBytes 8 seq ++ leBytes 8 1 ++ leBytes 8 lrec ++ List.replicate 40 0

/-- Append a launch command to a package queue on a die (R486): DROPPED when it is full. The add to PROD and the command's
bytes join the digests of `launches` (R253). -/
def appendLaunch (s : State) (die : Nat) (launches : List Nat) (q lrec : Nat) : Nat × State :=
  let prod := queueField s q 0x20 8
  let cap := queueField s q 0x08 4
  if queueField s q 0x28 8 + cap ≤ prod then (codeDROPPED, s)
  else
    let at_ := queueField s q 0x00 8 + 64 * (prod % cap)
    let s := writeHome s launches (queueAt s q + 0x20) (leBytes 8 (prod + 1))
    let s := noteBeyond (writeHome s launches at_ (launchEntry (queueField s q 0x18 8 + prod) lrec)) die at_
    (codeOK, modQueue s q fun u => { u with bell := true })

/-- What a LAUNCH does, and its code: FAULT for a queue it may not use. -/
def performLaunch (s : State) (core : Nat) (k : Cmd) : Nat × State :=
  let q := 64 * k.job.part + k.ops.nb
  if 64 ≤ k.ops.nb then (codeFAULT, s)
  else
    let s := noteBeyond s (core / 96) (queueAt s q)
    if !queueOpen s q ∨ !queueDevlaunch s q ∨ queueField s q 0x10 2 ≠ k.job.index then (codeFAULT, s)
    else appendLaunch s (core / 96) [k.launch] q (dword0 k.ops.ua).toNat

/-- Change a command, wherever it stands. -/
def modCmdId (s : State) (id : Nat) (g : Cmd → Cmd) : State :=
  let one := fun k : Cmd => if k.id = id ∧ !k.shadow then g k else k
  let s := mapCores s fun c => { c with rsb := c.rsb.map one }
  mapDies s fun d => { d with images := d.images.map fun m => { m with cmds := m.cmds.map fun k => (k.1, one k.2) } }

/-- The code with which a command will complete is known. -/
def setCode (s : State) (id code : Nat) : State := modCmdId s id fun k => { k with failed := some code }

/-- Who reads the record of a CANCEL. -/
def Cmd.canceller (k : Cmd) : Waiter := .phase (dword0 k.ops.ua) k.job.index

/-- Cancel a level: what completes in its cycle first (R197), then the LAUNCH and CANCEL commands below it, then what is left
(R196). Nothing that follows falls in the cycle of the cancellation (log 55). -/
def cancelBy (drain : (Nat → Launch → Bool) → State → State) (s : State) (die : Nat) (j : Job) (who : Waiter) (level : Nat)
    (r : DWord) : Option Bool × State :=
  let s := completeFirst s (underLevel s j level r)
  match haltLevel s die j who level r with
  | (some true, _) =>
    match haltLevel (drain (fun _ l => underLevel s j level r l) s) die j who level r with
    | (none, s) => (none, s)
    | (some _, s) => (some true, { s with cycleOver := true })
  | other => other

/-- What a CANCEL does (R209), its code then being known: FAULT for a record that is no live level's of its job. One whose
read of a record waits on a fault stays unstarted. -/
def performCancel (drain : (Nat → Launch → Bool) → State → State) (s : State) (core : Nat) (k : Cmd) (level : Nat) : State :=
  match cancelBy drain s (core / 96) k.job k.canceller level (dword0 k.ops.ua) with
  | (some acted, s) => setCode s k.id (if acted then codeOK else codeFAULT)
  | (none, s) => modCmdId s k.id fun k => { k with started := false, failed := none }

/-- A LAUNCH or CANCEL that has not been performed, of a launch that a test picks; a CANCEL that waits on a fault is left. -/
def toDrain (s : State) (pick : Nat → Launch → Bool) : Option (Nat × Cmd) := s.cores.findSome? fun c =>
  (c.2.rsb.find? fun k => !k.shadow && k.drains && !dieWaiting s k.canceller &&
    (tableGet s.launches k.launch).any (pick k.launch)).map fun k => (c.1, k)

/-- LAUNCH and CANCEL commands of the launches that a test picks are performed, up to `n` of them (R196, R434). -/
def drainCmds : Nat → (Nat → Launch → Bool) → State → State
  | 0, _, s => s
  | n + 1, pick, s =>
    match toDrain s pick with
    | none => s
    | some (core, k) =>
      let s := setCode s k.id codeOK
      drainCmds n pick (match k.instr with
        | .launch _ =>
          let (code, s) := performLaunch s core k
          setCode s k.id code
        | .cancel f => performCancel (drainCmds n) s core k f.mod.toNat
        | _ => s)

/-- Drain the LAUNCH and CANCEL commands of the launches that a test picks. -/
def drainFor (pick : Nat → Launch → Bool) (s : State) : State :=
  drainCmds (s.cores.foldl (fun n c => n + c.2.rsb.length) 0) pick s

/-- Cancel a level (R196, R197). -/
def cancelAfter (s : State) (die : Nat) (j : Job) (who : Waiter) (level : Nat) (r : DWord) : Option Bool × State :=
  cancelBy drainFor s die j who level r

/-- A LAUNCH or CANCEL is performed (R208, R209, R434). -/
def performLevel (s : State) (core : Nat) (k : Cmd) : State :=
  match k.instr with
  | .launch _ =>
    let (code, s) := performLaunch s core k
    setCode s k.id code
  | .cancel f => performCancel drainFor (setCode s k.id codeOK) core k f.mod.toNat
  | _ => s

/-! ## Ending levels -/

/-- A launch is picked, or its graph is. -/
def below (s : State) (pl : Launch → Bool) (pg : Graph → Bool) (_ : Nat) (l : Launch) : Bool := pl l || match l.origin with
  | .node g _ => (tableGet s.graphs g).any pg
  | .command _ _ => false

/-- End a launch by watchdog or abort (R196). -/
def stopLaunch (s : State) (id : Nat) (st : Status) : State := haltLaunch (drainFor (fun n _ => n == id) s) id st

/-- End a graph (R196). -/
def stopGraph (s : State) (id : Nat) (st : Status) : State :=
  let mine := fun (_ : Nat) (l : Launch) => match l.origin with
    | .node g _ => g == id
    | .command _ _ => false
  haltGraph (drainFor mine s) id st

/-- End the launches, graphs and copies that a test picks (R196). -/
def stopAll (s : State) (st : Status) (pl : Launch → Bool) (pg : Graph → Bool) (pc : Copy → Bool) : State :=
  haltAll (drainFor (below s pl pg) s) st pl pg pc

/-- Everything below a job ends with CANCELLED (R196). -/
def stopJob (s : State) (die : Nat) (j : Job) : State :=
  let s := drainFor (fun _ l => l.job.index == j.index) s
  haltJob (discardAll s (.phase j.jrec j.index) fun a => a.job.index == j.index) die j

/-- A system-level event ends a launch with ABORTED (R398, R403). -/
def abortLaunch (s : State) (id : Nat) : State := pumpAll (stopLaunch s id .aborted)

end Sys2Proof.Machine
end

