-- ==== Sys2Proof/Machine/Ops.lean ====
section
/-! DEFINITION. The shared operations of a strip's control: taking a trap and returning from one (R397-R411), exits,
barriers (R177), claims for rows (R147), heartbeats (R179) and the special registers (R404). -/
namespace Sys2Proof.Machine

/-! ## Taking a trap -/

/-- Cause codes (R397). -/
def causeSOFTWARE : Nat := 1
def causeILLEGAL : Nat := 2
def causeSTALE : Nat := 3
def causeSCRATCH : Nat := 4
def causeMISALIGN : Nat := 5
def causeTIMEOUT : Nat := 6
def causeMISMATCH : Nat := 7

/-- What a trap writes into the trap registers (R404-R406), and the strands it vectors. -/
structure TrapEntry where
  cause : Nat
  detail : Nat
  v : Strands
  fail : Strands
  pc : VA
  word : DWord
  info0 : Word
  info1 : Word
deriving DecidableEq, Repr

/-- TRAP_CAUSE (R405). -/
def TrapEntry.causeWord (t : TrapEntry) : Word := BitVec.ofNat 32 (t.detail * 256 + t.cause)
/-- TRAP_MASK (R405). -/
def TrapEntry.maskWord (t : TrapEntry) : Word := Machine.maskWord t.fail t.v

/-- The trap handler's address of a strip's launch (R180); 0 for none. -/
def handlerOf (s : State) (p : Strip) : VA := match launchOfStrip s p with
  | some (_, l) => BitVec.ofNat 48 l.lrec.handler.toNat
  | none => 0

/-- Entry into the handler, at one instant (R401): the trap registers, INTRAP, the vectored strands at the handler and
every other strand frozen. -/
def Strip.enterHandler (p : Strip) (handler : VA) (t : TrapEntry) : Strip :=
  let go := fun it : Nat × Strand =>
    if t.v.getLsbD it.1 then { it.2 with pc := handler, st := .runnable, frozen := false }
    else { it.2 with frozen := true }
  { p.setInTrap true with
    zeroFetch := false
    fetchX := 0
    cause := t.causeWord
    mask := t.maskWord
    trapPc := t.pc
    trapWord := t.word
    info0 := t.info0
    info1 := t.info1
    strands := (strandIxs.zip p.strands).map go }

/-- A trap that cannot be vectored ends the launch with ABORTED; the registers it would have written are reported with
the launch's notification (R403). -/
def trapAborts (s : State) (p : Strip) (t : TrapEntry) : State :=
  match launchOfStrip s p with
  | none => s
  | some (id, l) =>
    let regs := [t.causeWord.setWidth 64, t.maskWord.setWidth 64, t.pc.setWidth 64, t.word, t.info0.setWidth 64,
      t.info1.setWidth 64]
    abortLaunch { s with notices := s.notices ++ [(l.seq, .aborted, regs)] } id

/-- Take a program-level trap (R399-R403). -/
def takeTrap (s : State) (id : Nat) (t : TrapEntry) : State :=
  match tableGet s.strips id with
  | none => s
  | some p =>
    let h := handlerOf s p
    if h = 0 ∨ p.inTrap then trapAborts s p t else putStrip s id (p.enterHandler h t)

/-- The strands an asynchronous trap vectors and the PC it saves (R400): the executing set R125 would choose, else the
blocked strands with the lowest PC. -/
def Strip.asyncSet (p : Strip) : Option (VA × Strands) :=
  match p.chooseX with
  | some r => some r
  | none =>
    let blocked := strandIxs.filter fun i => match p.stOf i with
      | .blocked _ => true
      | _ => false
    match lowestPc p blocked with
    | none => none
    | some q => some (q, strandSet fun i => blocked.contains i && p.pcOf i == q)

/-- GROW claims of strands that are withdrawn leave their queue (R400). -/
def withdrawClaims (s : State) (p : Strip) (v : Strands) : State :=
  let ids := (strandsOf v).filterMap fun i => match p.stOf i with
    | .blocked (.grow c) => some c
    | _ => none
  modCore s p.coreId fun c => { c with claims := c.claims.map fun q => (q.1, q.2.filter fun k => match k with
    | .grow i _ _ _ _ => !ids.contains i
    | _ => true) }

/-- An asynchronous trap is due at the strip's next boundary (R400, R403): in a handler none is, and none before a fetch that
an answer ZERO has completed is executed (R424). -/
def Strip.asyncDue (p : Strip) : Bool := !p.asyncs.isEmpty && !p.inTrap && !p.zeroFetch

/-- Take the oldest pending asynchronous trap at an instruction boundary (R400, R403). Nothing happens
while the strip waits on a fault. -/
def takeAsync (s : State) (id : Nat) : State :=
  match tableGet s.strips id with
  | none => s
  | some p =>
    match p.asyncs with
    | [] => s
    | a :: rest =>
      if !p.asyncDue ∨ !p.waits.isEmpty then s
      else
        let s := modStrip s id fun p => { p with asyncs := rest }
        match p.asyncSet with
        | none => countEngine s p.coreId
        | some (q, v) =>
          takeTrap (withdrawClaims s p v) id ⟨a.cause, 0, v, 0, q, a.word, a.info0, a.info1⟩

/-- An asynchronous trap becomes pending (R400); it is lost and counted when every strand has exited. -/
def raiseAsync (s : State) (id core : Nat) (a : AsyncTrap) : State :=
  match tableGet s.strips id with
  | none => countEngine s core
  | some p =>
    if p.live = 0 then countEngine s core
    else putStrip s id { p with asyncs := p.asyncs ++ [a] }

/-! ## Returning from a trap -/

/-- The vectored set of the handler in progress (R405). -/
def Strip.vec (p : Strip) : Strands := lowMask p.mask

/-- The strands of VEC that wait at an RTE. -/
def Strip.atRte (p : Strip) : Strands := strandSet fun i => match p.stOf i with
  | .blocked (.rte _) => true
  | _ => false

/-- The return (R409): each vectored strand that has not exited resumes at TRAP_PC, or at TRAP_PC + 8; INTRAP clears and
the frozen strands thaw. -/
def Strip.endHandler (p : Strip) (skip : Bool) : Strip :=
  let pc := if skip then p.trapPc + 8 else p.trapPc
  let go := fun it : Nat × Strand =>
    if p.vec.getLsbD it.1 && it.2.st != .exited then { it.2 with pc := pc, st := .runnable, frozen := false }
    else { it.2 with frozen := false }
  -- windows the handler opened stay open, now as the program's
  { p.setInTrap false with
    strands := (strandIxs.zip p.strands).map go
    flights := p.flights.map fun f => { f with handler := false } }

/-- Every vectored strand waits at an RTE or has exited (R409). -/
def Strip.rteReady (p : Strip) : Bool := p.inTrap && (p.vec &&& ~~~(p.atRte ||| p.exited) == 0)

/-- SKIP of the waiting RTE of the lowest strand. -/
def Strip.rteSkip (p : Strip) : Bool := match p.stOf (lowStrand p.atRte) with
  | .blocked (.rte skip) => skip
  | _ => false

/-! ## Barriers -/

/-- A strand is blocked at barrier n. -/
def atBar (n : Nat) (t : Strand) : Bool := match t.st with
  | .blocked (.bar m _) => m == n
  | _ => false
/-- A strand is blocked at barrier n with AR. -/
def atBarAr (n : Nat) (t : Strand) : Bool := match t.st with
  | .blocked (.bar m ar) => m == n && ar
  | _ => false

/-- Barrier n of a workgroup releases when every strand that has not exited has arrived (R177); each resumption with AR
is an acquire at GROUP scope. -/
def checkBar (s : State) (wg n : Nat) : State :=
  let ps := stripsOf s wg
  let all := ps.all fun p => p.2.strands.all fun t => atBar n t || t.st == .exited
  if all && ps.any fun p => p.2.strands.any (atBar n) then
    ps.foldl (fun s p =>
      let go := fun t : Strand => if atBar n t then { t with st := .runnable, pc := t.pc + 8 } else t
      let s := putStrip s p.1 { p.2 with strands := p.2.strands.map go }
      if p.2.strands.any (atBarAr n) then acquireRc s p.2.coreId else s) s
  else s

/-- Every barrier of a workgroup is evaluated again. -/
def checkBars (s : State) (wg : Nat) : State := (List.range 16).foldl (fun s n => checkBar s wg n) s

/-! ## Exits -/

/-- Strands exit (R111, R142, R128): their registers are dead, joins and barriers are evaluated again, and a handler
whose vectored strands have all exited ends (R409). -/
def exitStrands (s : State) (id : Nat) (x : Strands) : State :=
  match tableGet s.strips id with
  | none => s
  | some p =>
    let p := ((p.onStrands x fun t => { t with st := .exited }).killAll x).rejoin
    let p := if p.rteReady then p.endHandler p.rteSkip else p
    checkBars (putStrip s id p) p.wg

/-! ## Rows -/

/-- The cycle in which a claim was made, and its rank among those of one cycle: GROW claims by ascending strip slot, then
admissions (R147). -/
def Claim.made : Claim → Nat
  | .grow _ _ _ _ made => made
  | .admission _ _ _ made => made
def Claim.rank : Claim → Nat
  | .grow _ _ _ slot _ => slot
  | .admission _ _ _ _ => 8

/-- A claim joins a queue behind those that go before it. -/
def joinClaim (k : Claim) : List Claim → List Claim
  | [] => [k]
  | c :: l => if c.made = k.made ∧ k.rank < c.rank then k :: c :: l else c :: joinClaim k l

/-- Queue a claim on a slice (R147). -/
def placeClaim (s : State) (core slice : Nat) (k : Claim) : State :=
  modCore s core fun c => { c with claims := tablePut c.claims slice (joinClaim k ((tableGet c.claims slice).getD [])) }

/-- The claimed rows of a strip's slice with a floor in place of the strip's (R147). -/
def claimedWith (s : State) (p : Strip) (floor : Nat) : Nat :=
  claimedRows s p - max p.rows p.floor + max p.rows floor

/-- Grant the GROW claim at the head of a slice's queue when it fits (R147); says whether one was. -/
def grantGrow (s : State) (core slice : Nat) : Bool × State :=
  match claimsOf s core slice with
  | .grow c id floor _ _ :: rest =>
    match tableGet s.strips id with
    | none => (true, modCore s core fun k => { k with claims := tablePut k.claims slice rest })
    | some p =>
      if claimedWith s p floor ≤ 384 then
        let s := modCore s core fun k => { k with claims := tablePut k.claims slice rest }
        let go := fun t : Strand => if t.st = .blocked (.grow c) then { t with st := .runnable, pc := t.pc + 8 } else t
        (true, putStrip s id { p with floor := floor, strands := p.strands.map go })
      else (false, s)
  | _ => (false, s)

/-! ## Heartbeats -/

/-- A heartbeat of a persistent launch on a die (R179). -/
def heartbeat (s : State) (p : Strip) : State :=
  match launchOfStrip s p with
  | some (id, l) =>
    if l.lrec.persistent then
      modLaunch s id fun l => { l with work := listMod l.work p.die fun w => { w with beat := s.clk } }
    else s
  | none => s

/-! ## Special registers -/

/-- The register numbers of R404. -/
def sprKnown (n : Nat) : Bool :=
  [0x000, 0x001, 0x010, 0x011, 0x012, 0x013, 0x014, 0x015, 0x016, 0x017, 0x020, 0x021].contains n

/-- SPRR (R410): the register numbered n. -/
def sprRead (s : State) (p : Strip) (n : Nat) : Word :=
  match n with
  | 0x000 => p.status
  | 0x001 => p.fpflags
  | 0x010 => p.cause
  | 0x011 => p.mask
  | 0x012 => BitVec.ofNat 32 p.trapPc.toNat
  | 0x013 => BitVec.ofNat 32 (p.trapPc.toNat / 2 ^ 32)
  | 0x014 => lo32 p.trapWord
  | 0x015 => hi32 p.trapWord
  | 0x016 => p.info0
  | 0x017 => p.info1
  | 0x020 => (coreOf s p.coreId).engevt
  | 0x021 => (coreOf s p.coreId).psncnt
  | _ => 0

/-- SPRW (R410) by the register's access codes: W1C flags, TRAP_PC writable in a handler, the rest read-only. -/
def Strip.sprWrite (p : Strip) (n : Nat) (w : Word) : Strip :=
  match n with
  | 0x000 => p.writeStatus w
  | 0x001 => p.writeFpflags w
  | 0x012 =>
    if p.inTrap then
      { p with trapPc := BitVec.ofNat 48 (p.trapPc.toNat / 2 ^ 32 * 2 ^ 32 + w.toNat / 8 * 8) }
    else p
  | 0x013 =>
    if p.inTrap then
      { p with trapPc := BitVec.ofNat 48 (w.toNat % 2 ^ 16 * 2 ^ 32 + p.trapPc.toNat % 2 ^ 32) }
    else p
  | _ => p

end Sys2Proof.Machine
end

