-- ==== Sys2Proof/Machine/LoadStore.lean ====
section
/-! DEFINITION. The strand memory accesses (R113-R119, R171, R255-R265): addresses, checks, the access of one strand of
each kind, stores, atomics (R261), posted writes, and a strip's duties at a release (R245). -/
namespace Sys2Proof.Machine

/-! ## Outstanding instructions of a strip -/

/-- Change one flight of a strip. -/
def modFlight (s : State) (id fid : Nat) (g : Flight → Flight) : State :=
  modStrip s id fun p => { p with flights := p.flights.map fun f => if f.id = fid then g f else f }

/-- A flight of a strip. -/
def flightOf (s : State) (id fid : Nat) : Option Flight := match tableGet s.strips id with
  | some p => p.flights.find? fun f => f.id == fid
  | none => none

/-- Poison that an access met: the address it names, and the unit and position of the error record (R425). -/
structure Bad where
  va : Nat
  unit : Nat
  pos : Nat
deriving DecidableEq, Repr

/-- Poison of memory, and of a core's scratch. -/
def badMemory (va pa : Nat) : Bad := ⟨va, 0, pa⟩
def badScratch (core at_ : Nat) : Bad := ⟨at_, 3, core * 2 ^ 20 + at_ / 4⟩

/-- What an attempt to perform one strand of an access gives: its result words and each poison it read; a fault
at an address, with its kind and ACCESS bits; or nothing yet (a request waits elsewhere, or bytes are still to come). -/
inductive StrandOut where
  | done (words : List Word) (bad : List Bad)
  | fault (va kind access : Nat)
  | wait
deriving DecidableEq, Repr

/-- Put the result of one strand into its flight, and note each poison it met (R118, R333, R423). -/
def deliver (s : State) (id fid i : Nat) (words : List Word) (bad : List Bad) : State :=
  let s := modFlight s id fid fun f => { f with
    got := listPut f.got i words
    undone := f.undone &&& ~~~oneStrand i }
  match tableGet s.strips id with
  | some p => bad.foldl (fun s b => notePoisonAt s id p b.unit b.pos) s
  | none => s

/-- What a strand has read of its access so far is forgotten. -/
def forgetPart (s : State) (id fid i : Nat) : State :=
  modFlight s id fid fun f => { f with part := tableDel f.part i, partBad := f.partBad &&& ~~~oneStrand i }

/-- The record of a read beyond the populated window stays when the read is repeated after its poison fault (R230, R424). -/
def noteBad (s : State) (die : Nat) (b : Bad) : State := if b.unit = 0 then noteBeyond s die b.pos else s

/-- Perform strands of a flight, in ascending index. A strand that faults or waits stays unperformed; a fault suspends the
strip; with `stop` the strands above it stay unperformed too (R343, R418). Poison with the job's poison trap is a KIND 4
fault (R424). -/
def performList (one : State → Strip → Flight → Nat → StrandOut × State) (stop : Bool) (s : State) (id fid : Nat)
    : List Nat → State
  | [] => s
  | i :: rest =>
    match tableGet s.strips id, flightOf s id fid with
    | some p, some f =>
      match one s p f i with
      | (.wait, s) => if stop then s else performList one stop s id fid rest
      | (.fault va k acc, s) =>
        let s := suspendStrip s id p (stripAgent s p) va k acc
        if stop then s else performList one stop s id fid rest
      | (.done w bad, s') =>
        let ag := stripAgent s p
        match (if ag.poisonTrap && !f.zero then bad else []) with
        | b :: _ =>
          let s := forgetPart (suspendStrip (noteBad s p.die b) id p ag b.va kindPoison accRead) id fid i
          if stop then s else performList one stop s id fid rest
        | [] => performList one stop (deliver s' id fid i w bad) id fid rest
    | _, _ => s

/-- A read's words and poison: zero in the whole destination when poisoned (R118, R423). -/
def poisonOut (words : List Word) (bad : Bool) (b : Bad) : StrandOut :=
  if bad then .done (words.map fun _ => 0) [b] else .done words []

/-! ## Global accesses -/

/-- The bytes and address of one strand's global access. -/
def flightEa (f : Flight) (i : Nat) : Option (Nat × Nat) :=
  match f.instr with
  | .ldg m => some (globalEa m (f.ops.aOf i) (f.ops.bOf i), sizeBytes m.fn)
  | .ldc m => some (globalEa m (f.ops.aOf i) (f.ops.bOf i), sizeBytes m.fn)
  | .stg m => some (globalEa m (f.ops.aOf i) (f.ops.bOf i), sizeBytes m.fn)
  | .sld m => some (globalEa m f.ops.ua f.ops.ub, sizeBytes m.fn)
  | .sst m => some (globalEa m f.ops.ua f.ops.ub, sizeBytes m.fn)
  | .ldga m => some (pairEa (f.ops.bOf i), sizeBytes m.fn)
  | .stgr m => some (pairEa (f.ops.bOf i), sizeBytes m.fn)
  | .atomg m => some (pairEa (f.ops.bOf i), if m.w then 8 else 4)
  | .redg m => some (pairEa (f.ops.bOf i), if m.w then 8 else 4)
  | .ccnt _ => some (pairEa f.ops.ua, 32)
  | _ => none

/-- The read path of a load (R114, R117, R257, R454). -/
def flightPath (f : Flight) : ReadPath :=
  match f.instr with
  | .ldg m => if m.fn.getLsbD 3 then .fresh m.cp.toNat else .cached m.cp.toNat
  | .sld m => if m.fn.getLsbD 3 then .fresh m.cp.toNat else .cached m.cp.toNat
  | .ldc m => .constant m.cp.toNat
  | .ldga m => if m.scope.toNat < 3 then .fresh 0 else .home
  | _ => .home

/-- The CP of a store (R234). -/
def flightCp (f : Flight) : Nat :=
  match f.instr with
  | .stg m => m.cp.toNat
  | .sst m => m.cp.toNat
  | _ => 0

/-- The size code of a load. -/
def flightSize (f : Flight) : BitVec 4 :=
  match f.instr with
  | .ldg m => m.fn
  | .ldc m => m.fn
  | .sld m => m.fn
  | .ldga m => m.fn
  | _ => 2

/-- The acquire scope of an access, when it is an acquire (R244). -/
def acquireOf (i : Instr) : Option Nat :=
  match i with
  | .ldga m => if m.ord.getLsbD 0 then some m.scope.toNat else none
  | .atomg m => if m.ord.getLsbD 0 then some m.scope.toNat else none
  | .atoml m => if m.ord.getLsbD 0 then some m.scope.toNat else none
  | .vins m => if m.ord.getLsbD 0 then some m.scope.toNat else none
  | .vact m => if m.ord.getLsbD 0 then some m.scope.toNat else none
  | .ccnt _ => some 3
  | .valloc _ => some 2
  | _ => none

/-- All 16 strands access 8 bytes each of one aligned line, strand i at line + 8i (R241). -/
def fullLine (f : Flight) : Bool :=
  f.x == 0xFFFF && match flightEa f 0 with
    | some (a, n) => n == 8 && a % 128 == 0 && strandIxs.all fun i => flightEa f i == some (a + 8 * i, 8)
    | none => false

/-- A store to a register is on its way to its block: a load of a register waits behind it (R482). -/
def registerPending (s : State) : Bool := match s.inputs with
  | i :: _ => i.isRegister
  | [] => false

/-- The units of an access that are each performed at one instant (R240): offset and length. A naturally aligned access of
up to 8 bytes is one, a 128-bit access two halves; any other is single bytes. -/
def accessUnits (ea n : Nat) : List (Nat × Nat) :=
  if n ≤ 8 ∧ ea % n = 0 then [(0, n)]
  else if n = 16 ∧ ea % 8 = 0 then [(0, 8), (8, 8)]
  else (List.range n).map fun k => (k, 1)

/-- Read the units of an access that a mask of byte offsets picks and that have not been read, adding to what has been: the
bytes by offset, and whether one was poisoned. -/
def readUnits (s : State) (ag : Agent) (path : ReadPath) (ea : Nat) (mask : BitVec 16)
    : List (Nat × Nat) → Table Byte × Bool → Except (Nat × Nat) (Table Byte × Bool) × State
  | [], got => (.ok got, s)
  | (o, n) :: rest, got =>
    if (tableGet got.1 o).isSome || !((List.range n).any fun k => mask.getLsbD (o + k)) then
      readUnits s ag path ea mask rest got
    else
      match xlateRange s ag (vaOf (ea + o)) n .read with
      | (.error e, s) => (.error e, s)
      | (.ok ps, s) =>
        let (b, bad, s) := readAccess s ag path true ps
        readUnits s ag path ea mask rest (cellTable got.1 o b, got.2 || bad)
where
  /-- Enter bytes from an offset on. -/
  cellTable (t : Table Byte) (o : Nat) (b : List Byte) : Table Byte :=
    (List.range b.length).foldl (fun t k => tablePut t (o + k) (b.getD k 0)) t

/-- Perform one strand of a load (R114, R117, R171, R257), at least in the bytes that a mask picks where it is not
single-copy atomic (R240). A load of a register waits behind the register stores on their way (R17, R482). -/
def loadOne (mask : BitVec 16) (id : Nat) (s : State) (p : Strip) (f : Flight) (i : Nat) : StrandOut × State :=
  match flightEa f i with
  | none => (.wait, s)
  | some (ea, n) =>
    let ag := stripAgent s p
    match xlateRange s ag ea n .read with
    | (.error (va, k), s) => (.fault va k accRead, s)
    | (.ok ps, s) =>
      let whole := accessUnits ea n
      let bad := badMemory ea (firstPa ps)
      if ps.any (fun q => isDevice q.leaf.pa) && registerPending s then (.wait, s)
      else if whole.length = 1 ∨ ps.any (fun q => isDevice q.leaf.pa) then
        let (bytes, hit, s) := readAccess s ag (flightPath f) true ps
        (poisonOut (loadWords (flightSize f) bytes) hit bad, s)
      else
        match readUnits s ag (flightPath f) ea mask whole ((tableGet f.part i).getD [], f.partBad.getLsbD i) with
        | (.error (va, k), s) => (.fault va k accRead, s)
        | (.ok (t, hit), s) =>
          if t.length = n then (poisonOut (loadWords (flightSize f) (t.map fun b => b.2)) hit bad, s)
          else (.wait, modFlight s id f.id fun f => { f with
            part := tablePut f.part i t
            partBad := if hit then f.partBad ||| oneStrand i else f.partBad })

/-- One strand of a load of a full line, from the line's bytes as they stood at one instant (R241). -/
def fullOne (pc : Piece) (b : List (Byte × Bool)) (s : State) (_ : Strip) (f : Flight) (i : Nat) : StrandOut × State :=
  let mine := (b.drop (8 * i)).take 8
  (poisonOut (loadWords (flightSize f) (mine.map fun x => x.1)) (mine.any fun x => x.2)
    (badMemory (pc.va + 8 * i) (pc.leaf.pa + 8 * i)), s)

/-- Perform strands of a load (R114, R257): a full line whole, from one instant (R241); else the strands of `some_`. -/
def loadNow (mask : BitVec 16) (s : State) (id fid : Nat) (f : Flight) (todo some_ : List Nat) : State :=
  match tableGet s.strips id, flightEa f 0 with
  | some p, some (ea, _) =>
    if !fullLine f then performList (loadOne mask id) false s id fid some_
    else
      let ag := stripAgent s p
      match xlateRange s ag ea 128 .read with
      | (.error (va, k), s) => performList (fun s _ _ _ => (.fault va k accRead, s)) false s id fid todo
      | (.ok [pc], s) =>
        if isDevice pc.leaf.pa then performList (loadOne mask id) false s id fid some_
        else
          let (b, s) := readBytes s ag (flightPath f) true pc
          performList (fullOne pc b) false s id fid todo
      | (.ok _, s) => s
  | _, _ => s

/-! ## Bytes that an access names -/

/-- Every translation that a walk of an address may give: where CONT is set and its conditions fail, any well-formed entry
of the block (R415). -/
def walkAll (s : State) (root va : Nat) : List (DWord × Nat) :=
  match walkFrom s va 4 0 root with
  | .error _ => []
  | .ok (e, level, at_) =>
    if !e.getLsbD 8 then [(e, pageBytes level)]
    else if contOk s at_ then [(e, 65536)]
    else (e, 4096) :: (List.range 16).filterMap fun i =>
      let other := readEntry s (at_ / 128 * 128 + 8 * i)
      match entryTarget other.2 3 other.1 with
      | .ok none => some (other.1, 4096)
      | _ => none

/-- The physical addresses at which an access of an agent to an address may be performed: by a walk, or by a translation
that a TLB still holds (R417). -/
def physAll (s : State) (ag : Agent) (va : Nat) : List Nat :=
  let held := (tlbFind (coreOf s ag.core).tlb ag.asid va).toList ++ (tlbFind (dieOf s ag.die).tlb ag.asid va).toList
  ((walkAll s ag.root va).map (fun e => (leafOf e.1 e.2 va).pa) ++
    held.map fun t => (leafOf t.entry t.bytes va).pa).eraseDups

/-- Some physical bytes [lo, hi) that strands of a set access. -/
structure Span where
  x : Strands
  lo : Nat
  hi : Nat
deriving DecidableEq, Repr

/-- The physical bytes that an access of strands to [va, va + n) may name, by lines. -/
def spansOf (s : State) (ag : Agent) (x : Strands) (va n : Nat) : List Span :=
  (linePieces (n / 128 + 2) va n).flatMap fun q => (physAll s ag q.1).map fun pa => ⟨x, pa, pa + q.2⟩

/-- Two accesses name a common byte, of one strand (R239, R248). -/
def spansMeet (a b : List Span) : Bool :=
  a.any fun u => b.any fun v => u.x &&& v.x != 0 && u.lo < v.hi && v.lo < u.hi

/-! ## The stores of one issue -/

/-- The translations of some strands of an access, in order: the pieces, or the fault's address and kind. -/
abbrev Plans := List (Nat × Except (Nat × Nat) (List Piece))

/-- The pieces of `n` bytes from an offset of an access on. -/
def cutPieces : Nat → Nat → List Piece → List Piece
  | _, _, [] => []
  | off, n, p :: ps =>
    if n = 0 then []
    else if p.len ≤ off then cutPieces (off - p.len) n ps
    else
      let m := min n (p.len - off)
      ⟨vaOf (p.va + off), { p.leaf with pa := p.leaf.pa + off }, m⟩ :: cutPieces 0 (n - m) ps

/-- Translate a store for some of its strands; a full line is translated once. -/
def planStores (s : State) (ag : Agent) (f : Flight) (todo : List Nat) : Plans × State :=
  if fullLine f then
    let (r, s) := xlateRange s ag ((flightEa f 0).getD (0, 0)).1 128 .write
    (todo.map fun i => (i, match r with
      | .ok ps => .ok (cutPieces (8 * i) 8 ps)
      | .error e => .error e), s)
  else todo.foldl (fun (r : Plans × State) i => match flightEa f i with
    | none => r
    | some (ea, n) =>
      let (q, s) := xlateRange r.2 ag ea n .write
      (r.1 ++ [(i, q)], s)) ([], s)

/-- The plan of one strand. -/
def storePlanOf (plan : Plans) (i : Nat) : Option (Except (Nat × Nat) (List Piece)) := (plan.find? fun q => q.1 == i).map fun q => q.2

/-- The spans (strand, first byte, end) that a flight's notes hold. -/
def notedSpans : List Nat → List (Nat × Nat × Nat)
  | i :: lo :: hi :: rest => (i, lo, hi) :: notedSpans rest
  | _ => []

/-- The spans that strands above one write in the issue: as translated now, or as performed before (R116). -/
def higherSpans (plan : Plans) (f : Flight) (i : Nat) : List (Nat × Nat) :=
  (plan.flatMap fun q => match q.2 with
    | .ok ps => if i < q.1 then ps.map fun p => (p.leaf.pa, p.leaf.pa + p.len) else []
    | .error _ => []) ++
  (notedSpans f.notes).filterMap fun q => if i < q.1 then some q.2 else none

/-- The byte offsets of one strand's store to memory that a higher strand of its issue writes too, by its own address or
through an alias: those are not performed (R116, R258). -/
def coveredBytes (plan : Plans) (f : Flight) (i : Nat) (ps : List Piece) : List Nat :=
  match f.instr, flightEa f i with
  | .sst _, _ => []
  | _, none => []
  | _, some (ea, n) =>
    let virt := ((strandsOf f.x).filter fun j => decide (i < j)).filterMap (flightEa f)
    if virt.isEmpty then []
    else
      let high := higherSpans plan f i
      let pas := ps.flatMap fun p => (List.range p.len).map fun k => p.leaf.pa + k
      (List.range n).filter fun k =>
        virt.any (fun e => (ea + k + 2 ^ 48 - e.1) % 2 ^ 48 < e.2) ||
          match pas[k]? with
          | some a => high.any fun r => r.1 ≤ a && a < r.2
          | none => false

/-- A store to a register is not performed when a higher strand of its issue stores to the same register; a store that the
S-die refuses covers nothing (R116, R482). -/
def coveredRegister (plan : Plans) (f : Flight) (i : Nat) (ps : List Piece) : Bool :=
  match f.instr, devicePieces ps with
  | .sst _, _ => false
  | _, some pa => (higherSpans plan f i).contains (pa, pa + 8)
  | _, none => false

/-- A store's strand is performed: its spans are noted, for the strands below it that are still to come (R116). -/
def noteSpans (s : State) (id fid i : Nat) (ps : List Piece) : State :=
  modFlight s id fid fun f => { f with
    notes := f.notes ++ ps.flatMap fun p => [i, p.leaf.pa, p.leaf.pa + p.len] }

/-- The bytes of an access that are performed: none for the covered ones. -/
def keepBytes (covered : List Nat) (b : List Byte) : List (Option Byte) :=
  (List.range b.length).map fun k => if covered.contains k then none else b[k]?

/-! ## Atomics -/

/-- Perform one strand of ATOMG at its home (R262). Whether or not it writes, the issuing die's RDC copy goes (R458). -/
def atomOne (s : State) (p : Strip) (f : Flight) (i : Nat) : StrandOut × State :=
  match f.instr with
  | .atomg m =>
    let ag := stripAgent s p
    let n := if m.w then 8 else 4
    let ea := pairEa (f.ops.bOf i)
    let words := fun v => wordsOf (n / 4) v
    let taken := fun (s : State) (ps : List Piece) => l2Atomic s (lineOf (firstPa ps)) ((ps.map (piecePolicy 0)).headD 0)
    match xlateRange s ag ea n .both with
    | (.error (va, k), s) => (.fault va k (accRead + accWrite), s)
    | (.ok ps, s) =>
      let pa := firstPa ps
      let pr := ps.any fun q => q.leaf.pr
      if isDevice pa then (.done (words 0) [], logError s ag.die unitDevice .masked pa)
      else
        let s := dropRdcFor (flushPosted (drainLine s ag.core (lineOf pa)) ag.core (postedMeets [lineOf pa])) ag.die pa
        let (b, bad) := readHome s pa n
        if bad || pr then
          (.done (words 0) [badMemory ea pa], noteBeyond (taken s ps) ag.die pa)
        else
          let old := leNat b
          match atomNew m.fn.toNat m.w old (wordsNat (f.ops.aOf i)) (wordsNat (f.ops.cOf i)) with
          | some v => (.done (words old) [], writePieces s ag true ps (leBytes n v))
          | none => (.done (words old) [], taken s ps)
  | _ => (.wait, s)

/-! ## Scratch -/

/-- The part of a strip's workgroup on its own core. -/
def partOf (s : State) (p : Strip) : Part := match tableGet s.wgs p.wg with
  | some w => (w.parts.find? fun q => q.core == p.coreId).getD ⟨p.coreId, 0, 0⟩
  | none => ⟨p.coreId, 0, 0⟩

/-- SCRATCH of a strip's launch. -/
def scratchSize (s : State) (p : Strip) : Nat := match launchOfStrip s p with
  | some (_, l) => l.lrec.scratch
  | none => 0

/-- Bytes of a core's scratch, and whether a word of them is poisoned. -/
def readScratch (s : State) (core at_ n : Nat) : List Byte × Bool :=
  let c := coreOf s core
  (cellRange (0 : Byte) c.scratch at_ n, c.scratchPoison.any fun w => at_ / 4 ≤ w && w * 4 < at_ + n)

/-- Write bytes of a core's scratch; 32-bit words wholly covered lose their poison (R423). Strands of one access that cover a
word only together leave it poisoned: each strand's bytes are judged alone (DESIGN CHOICE, log 46). -/
def writeScratch (s : State) (core at_ : Nat) (bytes : List Byte) : State :=
  modCore s core fun c => { c with
    scratch := cellPutAll (0 : Byte) c.scratch at_ bytes
    scratchPoison := c.scratchPoison.filter fun w => !(at_ ≤ w * 4 && w * 4 + 4 ≤ at_ + bytes.length) }

/-- The window offset and size of one strand's scratch access. -/
def scratchAccess (i : Instr) (o : Operands) (k : Nat) : Option (Int × Nat) :=
  match i with
  | .ldl m => some (scratchEa m (o.aOf k) (o.bOf k), sizeBytes m.fn)
  | .stl m => some (scratchEa m (o.aOf k) (o.bOf k), sizeBytes m.fn)
  | .atoml m => some ((word0 (o.bOf k)).toNat, if m.w then 8 else 4)
  | _ => none

/-- The strands whose scratch access lies outside the window (R256 check 4). -/
def scratchFails (s : State) (p : Strip) (i : Instr) (x : Strands) (o : Operands) : Strands :=
  strandSet fun k => x.getLsbD k && match scratchAccess i o k with
    | some (a, n) => a < 0 || (scratchSize s p : Int) < a + n
    | none => false

/-- The strands whose global address is not a multiple of the access size (R256 check 3). -/
def alignFails (i : Instr) (x : Strands) (o : Operands) : Strands :=
  let bad := fun (n : Nat) => strandSet fun k => x.getLsbD k && pairEa (o.bOf k) % n != 0
  match i with
  | .ldga m => bad (sizeBytes m.fn)
  | .stgr m => bad (sizeBytes m.fn)
  | .atomg m => bad (if m.w then 8 else 4)
  | .redg m => bad (if m.w then 8 else 4)
  | _ => 0

/-- Perform one strand of LDL or ATOML on its core's scratch (R259, R264). ATOML on a poisoned word returns 0 and writes
nothing, as ATOMG does (DESIGN CHOICE, log 58). -/
def scratchOne (s : State) (p : Strip) (f : Flight) (i : Nat) : StrandOut × State :=
  let base := (partOf s p).scratch
  match f.instr with
  | .ldl m =>
    let a := (scratchEa m (f.ops.aOf i) (f.ops.bOf i)).toNat
    let (b, bad) := readScratch s p.coreId (base + a) (sizeBytes m.fn)
    (poisonOut (loadWords m.fn b) bad (badScratch p.coreId (base + a)), s)
  | .atoml m =>
    let n := if m.w then 8 else 4
    let at_ := base + (word0 (f.ops.bOf i)).toNat
    let (b, bad) := readScratch s p.coreId at_ n
    if bad then (.done (wordsOf (n / 4) 0) [badScratch p.coreId at_], s)
    else
      let old := leNat b
      match atomNew m.fn.toNat m.w old (wordsNat (f.ops.aOf i)) (wordsNat (f.ops.cOf i)) with
      | some v => (.done (wordsOf (n / 4) old) [], writeScratch s p.coreId at_ (leBytes n v))
      | none => (.done (wordsOf (n / 4) old) [], s)
  | _ => (.wait, s)

/-- STL for the strands of a set, in ascending index, so the highest strand's byte stands (R222, R259). -/
def storeScratch (s : State) (p : Strip) (m : FmtM) (x : Strands) (o : Operands) : State :=
  let base := (partOf s p).scratch
  (strandsOf x).foldl (fun s i =>
    let bytes := (wordsBytes (o.cOf i)).take (sizeBytes m.fn)
    writeScratch s p.coreId (base + (scratchEa m (o.aOf i) (o.bOf i)).toNat) bytes) s

/-! ## The region scoreboard, as strand accesses meet it -/

/-- A scratch interval meets a region. -/
def meetsRegion (lo hi : Nat) (r : Region) : Bool := !r.slot && lo < r.hi && r.lo < hi

/-- A strand's scratch access must wait for an uncompleted command of its core (R278): a load for an overlapping write, a
store or atomic for any overlap. -/
def scratchStalls (s : State) (p : Strip) (i : Instr) (x : Strands) (o : Operands) : Bool :=
  let base := (partOf s p).scratch
  let isLoad := match i with
    | .ldl _ => true
    | _ => false
  (coreOf s p.coreId).rsb.any fun k =>
    let rs := if isLoad then k.writes else k.reads ++ k.writes
    (strandsOf x).any fun j => match scratchAccess i o j with
      | some (a, n) => rs.any (meetsRegion (base + a.toNat) (base + a.toNat + n))
      | none => false

/-! ## Stores -/

/-- The bytes a store of one strand writes. -/
def storeBytes (i : Instr) (o : Operands) (k : Nat) : List Byte :=
  match i with
  | .stg m => (wordsBytes (o.cOf k)).take (sizeBytes m.fn)
  | .stgr m => (wordsBytes (o.cOf k)).take (sizeBytes m.fn)
  | .sst m => (wordsBytes o.uc).take (sizeBytes m.fn)
  | _ => []

/-- Store the bytes present of translated pieces through the SCB. -/
def storeKept (s : State) (ag : Agent) (cp : Nat) : List Piece → List (Option Byte) → State
  | [], _ => s
  | p :: ps, b =>
    let cells := (List.range p.len).filterMap fun k => (b.getD k none).map fun x => (p.leaf.pa % 128 + k, x)
    let s := if cells.isEmpty then s else scbStore s ag.core ag.launches (piecePolicy cp p) (lineOf p.leaf.pa) cells
    storeKept s ag cp ps (b.drop p.len)

/-- Store one strand's bytes through the SCB as planned (R115, R224), after the posted writes of its lines (R258), but for
those a higher strand writes (R116). -/
def storeOne (plan : Plans) (id : Nat) (s : State) (p : Strip) (f : Flight) (i : Nat) : StrandOut × State :=
  match storePlanOf plan i with
  | none => (.wait, s)
  | some (.error (va, k)) => (.fault va k accWrite, s)
  | some (.ok ps) =>
    let ag := stripAgent s p
    let s := noteSpans s id f.id i ps
    let s := flushPosted s ag.core (postedMeets (ps.map fun q => lineOf q.leaf.pa))
    let bytes := storeBytes f.instr f.ops i
    (.done [] [],
      if ps.any fun q => isDevice q.leaf.pa then (if coveredRegister plan f i ps then s else storeDevice s ag ps bytes)
      else
        let covered := coveredBytes plan f i ps
        if covered.isEmpty then storeAccess s ag ag.launches (flightCp f) ps bytes
        else storeKept s ag (flightCp f) ps (keepBytes covered bytes))

/-- A strand of a store that has been performed with its whole line. -/
def storedOne (s : State) (_ : Strip) (_ : Flight) (_ : Nat) : StrandOut × State := (.done [] [], s)

/-- The memory line that a full-line store of all 16 strands writes, with the policy of its page; none for another
store (R241). -/
def planLine (f : Flight) (todo : List Nat) (plan : Plans) : Option (Piece × List Byte) :=
  if fullLine f && todo.length == 16 then
    match storePlanOf plan 0 with
    | some (.ok [pc]) =>
      if isDevice pc.leaf.pa then none else some (pc, strandIxs.flatMap fun i => storeBytes f.instr f.ops i)
    | _ => none
  else none

/-- Perform strands of a store through the SCB: a full line enters whole (R241). -/
def storeNow (s : State) (id fid : Nat) (f : Flight) (todo : List Nat) : State :=
  match tableGet s.strips id with
  | none => s
  | some p =>
    let ag := stripAgent s p
    let (plan, s) := planStores s ag f todo
    match planLine f todo plan with
    | some (pc, bytes) =>
      let s := flushPosted s ag.core (postedMeets [lineOf pc.leaf.pa])
      let s := scbStorePiece s ag.core ag.launches (piecePolicy (flightCp f) pc) pc.leaf.pa bytes
      performList storedOne false s id fid todo
    | none => performList (storeOne plan id) false s id fid todo

/-- The posted writes of translated pieces: one for each piece, or single bytes where some are covered. -/
def postedWrites : List Piece → List (Option Byte) → List PostedOp
  | [], _ => []
  | p :: ps, b =>
    let mine := b.take p.len
    let ops := if mine.all (·.isSome) then [PostedOp.write p.leaf.pa (piecePolicy 0 p) (mine.filterMap id)]
      else (List.range mine.length).filterMap fun k => (mine.getD k none).map fun x =>
        PostedOp.write (p.leaf.pa + k) (piecePolicy 0 p) [x]
    ops ++ postedWrites ps (b.drop p.len)

/-- Writes of some strands of a strip are on their way from their core (R258, R263). -/
def post (s : State) (ag : Agent) (id : Nat) (x : Strands) (ops : List PostedOp) : State :=
  if ops.isEmpty then s else modCore s ag.core fun c => { c with posted := c.posted ++ [⟨id, x, ag.launches, ops⟩] }

/-- Post one strand of a wide STGR as planned, behind the SCB entries of its lines (R258); a store to a register goes whole,
or not at all (R482). -/
def postOne (plan : Plans) (id : Nat) (s : State) (p : Strip) (f : Flight) (i : Nat) : StrandOut × State :=
  match storePlanOf plan i with
  | none => (.wait, s)
  | some (.error (va, k)) => (.fault va k accWrite, s)
  | some (.ok ps) =>
    let ag := stripAgent s p
    let s := noteSpans s id f.id i ps
    let s := ps.foldl (fun s q => drainLine s ag.core (lineOf q.leaf.pa)) s
    let bytes := storeBytes f.instr f.ops i
    let ops := if ps.any fun q => isDevice q.leaf.pa then
        (if coveredRegister plan f i ps then [] else [PostedOp.write (firstPa ps) 0 bytes])
      else postedWrites ps (keepBytes (coveredBytes plan f i ps) bytes)
    (.done [] [], post s ag id (oneStrand i) ops)

/-- Post strands of a wide STGR: a full line as one write (R241, R258). -/
def postNow (s : State) (id fid : Nat) (f : Flight) (todo : List Nat) : State :=
  match tableGet s.strips id with
  | none => s
  | some p =>
    let ag := stripAgent s p
    let (plan, s) := planStores s ag f todo
    match planLine f todo plan with
    | some (pc, bytes) =>
      let s := drainLine s ag.core (lineOf pc.leaf.pa)
      performList storedOne false (post s ag id 0xFFFF [.write pc.leaf.pa (piecePolicy 0 pc) bytes]) id fid todo
    | none => performList (postOne plan id) false s id fid todo

/-- Post one strand of a REDG, behind the SCB entry of its line (R263). -/
def redOne (id : Nat) (s : State) (p : Strip) (f : Flight) (i : Nat) : StrandOut × State :=
  match f.instr, flightEa f i with
  | .redg m, some (ea, n) =>
    let ag := stripAgent s p
    match xlateRange s ag ea n .both with
    | (.error (va, k), s) => (.fault va k (accRead + accWrite), s)
    | (.ok ps, s) =>
      let s := ps.foldl (fun s q => drainLine s ag.core (lineOf q.leaf.pa)) s
      let ops := (ps.map fun (q : Piece) =>
        PostedOp.red q.leaf.pa (piecePolicy 0 q) m.fn.toNat m.w q.leaf.pr (wordsNat (f.ops.aOf i))).take 1
      (.done [] [], post s ag id (oneStrand i) ops)
  | _, _ => (.wait, s)

/-- STGR enters the SCB (R258): STRIP scope, or GROUP scope in a workgroup of SPAN 1. -/
def spanOf (s : State) (p : Strip) : Nat := match launchOfStrip s p with
  | some (_, l) => l.lrec.span
  | none => 1
def narrowScope (s : State) (p : Strip) (scope : Nat) : Bool := scope == 0 || (scope == 1 && spanOf s p == 1)

/-! ## Releases -/

/-- Scopes at which a release drains the core's SCB (R245, R457). -/
def drains (s : State) (p : Strip) (scope : Nat) : Bool := !narrowScope s p scope

end Sys2Proof.Machine
end

