-- ==== Sys2Proof/Machine/Walker.lean ====
section
/-! DEFINITION. Voxel trees (R322-R329), the tree walker's caches (R330, R331) and its four instructions (R333-R338). A
cached line or leaf pointer that differs from what its home holds now may have been evicted: a free choice (log 8). -/
namespace Sys2Proof.Machine

/-! ## Reads of a walk -/

/-- A walk in progress: the state, each poison it met, the first translation fault (address, kind), and whether it read
a page that no cache may hold (R416). After a fault every read gives 0. -/
structure Walk where
  s : State
  bad : List Bad
  fault : Option (Nat × Nat)
  uncached : Bool
deriving DecidableEq, Repr

/-- A walk that begins. -/
def Walk.start (s : State) : Walk := ⟨s, [], none, false⟩

/-- Who walks: through the walker's caches (R330), coherently as a strand that sees its core's SCB (VACT), or coherently as
Mint, with or without the invalidations that VINS makes on the issuing core (R343). -/
inductive WalkMode where
  | cached | strand | mint | insert
deriving DecidableEq, Repr
structure Walker where
  ag : Agent
  mode : WalkMode
deriving DecidableEq, Repr

/-- Entries of the walker's caches (R330). -/
def leafEntries : Nat := 2048
def nodeLines : Nat := 512
def dataLines : Nat := 1024

/-- A core's walker line, from the data cache or the node cache. -/
def walkLine (s : State) (core : Nat) (data : Bool) (line : Nat) : Option CacheLine :=
  let c := coreOf s core
  tableGet (if data then c.wdata else c.wnode) line

/-- Install a walker line (R330). -/
def fillLine (s : State) (core : Nat) (data : Bool) (line : Nat) (d : LineData) : State :=
  let l : CacheLine := ⟨d.bytes, d.poison, false⟩
  let c := coreOf s core
  if data then
    let (t, s) := cacheHold s dataLines (fun _ => true) c.wdata line l
    modCore s core fun c => { c with wdata := t }
  else
    let (t, s) := cacheHold s nodeLines (fun _ => true) c.wnode line l
    modCore s core fun c => { c with wnode := t }

/-- Count an event of the walk in ENGEVT of the core (R325, R326). -/
def Walk.count (k : Walk) (w : Walker) : Walk := { k with s := countEngine k.s w.ag.core }

/-- Note poison at an address. -/
def Walk.poison (k : Walk) (va pa : Nat) : Walk := { k with bad := k.bad ++ [badMemory va pa] }

/-- The bytes of [pa, pa + n), inside one line, as the walker's caches give them: the cached copy as it was filled, or the
home slice, from which the line is filled (R330, R331); with their poison. -/
def walkBytes (s : State) (w : Walker) (data : Bool) (lf : Leaf) (n : Nat) : List Byte × Bool × State :=
  let line := lineOf lf.pa
  let off := lf.pa % 128
  let cut := fun (d : LineData) (s : State) =>
    ((d.bytes.drop off).take n, d.poison.any (fun q => off / 8 ≤ q && q * 8 < off + n), s)
  let hold := lf.cls != 2 && !onSdie lf.pa
  let fresh := fun s : State =>
    let (d, s) := homeLine s line (if lf.cls = 1 then 1 else 0)
    cut d (if hold then fillLine s w.ag.core data line d else s)
  match (if hold then walkLine s w.ag.core data line else none) with
  | none => fresh s
  | some l =>
    let d : LineData := ⟨l.bytes, l.poison⟩
    if d = lineData s line then cut d s
    else
      let (c, s) := s.choose
      if c then cut d s else fresh s

/-- The bytes as a walk of some mode reads them. -/
def walkPiece (s : State) (w : Walker) (data : Bool) (va : Nat) (lf : Leaf) (n : Nat) : List Byte × Bool × State :=
  if w.mode = .cached then
    let (b, bad, s) := walkBytes s w data lf n
    (b, bad || lf.pr, if populated lf.pa then s else logError s w.ag.die unitBeyond .poisoned lf.pa)
  else readPiece s w.ag .home (w.mode == .strand) ⟨va, lf, n⟩

/-- Read n bytes, inside one line, at a virtual address: zeros after a fault, and for a device register. -/
def walkRead (w : Walker) (data : Bool) (va n : Nat) (k : Walk) : List Byte × Bool × Walk :=
  match k.fault with
  | some _ => (List.replicate n 0, false, k)
  | none =>
    match xlate k.s w.ag va .read with
    | (.error kind, s) => (List.replicate n 0, false, { k with s := s, fault := some (va, kind) })
    | (.ok lf, s) =>
      if isDevice lf.pa then
        (List.replicate n 0, false, { k with s := logError s w.ag.die unitDevice .masked lf.pa })
      else
        let (b, bad, s) := walkPiece s w data va lf n
        let k := { k with s := s, uncached := k.uncached || lf.cls == 2 }
        (if bad then List.replicate n 0 else b, bad, if bad then k.poison va lf.pa else k)

/-- A little-endian number of a walk: 0 (empty) when poisoned (R333). -/
def walkNum (w : Walker) (data : Bool) (va n : Nat) (k : Walk) : Nat × Walk :=
  let (b, _, k) := walkRead w data (vaOf va) n k
  (leNat b, k)

/-! ## Reading a descriptor -/

/-- The physical address that an agent's tables give an address. -/
def physOf (s : State) (ag : Agent) (va : Nat) : Nat := match walk s ag.root (vaOf va) with
  | .ok (e, b) => (leafOf e b (vaOf va)).pa
  | .error _ => 0

/-- Read a descriptor (R324): none when it is invalid. -/
def readVdesc (w : Walker) (va : Nat) (k : Walk) : Option Vdesc × Walk :=
  if va % 128 ≠ 0 then (none, k)
  else
    let (b, bad, k) := walkRead w false (vaOf va) 128 k
    let v := parseVdesc (lineOf (physOf k.s w.ag va)) b
    (if bad || k.fault.isSome || !vdescOk b v then none else some v, k)

/-! ## Finding a voxel -/

/-- A child's word within its node (R326). -/
def childSlot (sh : Nat) (x y z : Int) : Nat :=
  let f := fun (a : Int) => (a / (2 ^ sh : Nat) % 16).toNat
  f z * 256 + f y * 16 + f x

/-- The N32 pattern of a coordinate or key. -/
def pat32 (x : Int) : Nat := wrapNat 32 x

/-- The home entry of a key (R325). -/
def keyHash (kx ky kz : Int) : Nat :=
  let m := fun (a : Int) (c : Nat) => pat32 a * c % 2 ^ 32
  m kx 0x9E3779B1 ^^^ m ky 0x85EBCA77 ^^^ m kz 0xC2B2AE3D

/-- BUSY (R325). -/
def rootBusy : Nat := 0xFFFFFFFF

/-- What a walk reaches: a leaf, or nothing below the root table, a trunk node or a branch node, given as the side of the
empty box around the voxel (R338). -/
inductive Found where
  | leaf (n : Nat)
  | empty (side : Nat)
deriving DecidableEq, Repr

/-- The leaf index of find (R329). -/
def Found.index : Found → Nat
  | .leaf n => n
  | .empty _ => 0

/-- The search of the root table (R325): the trunk node of a key, or 0. -/
def findTrunk (w : Walker) (v : Vdesc) (kx ky kz : Int) : Nat → Nat → Walk → Nat × Walk
  | 0, _, k => (0, k)
  | fuel + 1, j, k =>
    let at_ := v.root + 16 * (j % v.rcap)
    let (e, _, k) := walkRead w false (vaOf at_) 16 k
    let t := field e 12 4
    if t = 0 then (0, k)
    else if t ≠ rootBusy ∧ v.ncap ≤ t then findTrunk w v kx ky kz fuel (j + 1) (k.count w)
    else if t ≠ rootBusy ∧ field e 0 4 = pat32 kx ∧ field e 4 4 = pat32 ky ∧ field e 8 4 = pat32 kz then (t, k)
    else findTrunk w v kx ky kz fuel (j + 1) k

/-- A child word (R326): 0 when empty or beyond the capacity. -/
def childOf (w : Walker) (v : Vdesc) (node slot cap : Nat) (k : Walk) : Nat × Walk :=
  let (c, k) := walkNum w false (v.npool + 16384 * node + 4 * slot) 4 k
  if cap ≤ c then (0, k.count w) else (c, k)

/-- A shifted key (R322). -/
def keyPart (x : Int) : Int := x / 2048

/-- find with the place where it stopped (R329). -/
def findVoxel (w : Walker) (v : Vdesc) (x y z : Int) (k : Walk) : Found × Walk :=
  let kx := keyPart x
  let ky := keyPart y
  let kz := keyPart z
  match findTrunk w v kx ky kz v.rcap (keyHash kx ky kz % v.rcap) k with
  | (0, k) => (.empty 2048, k)
  | (t, k) =>
    match childOf w v t (childSlot 7 x y z) v.ncap k with
    | (0, k) => (.empty 128, k)
    | (b, k) =>
      match childOf w v b (childSlot 3 x y z) v.lcap k with
      | (0, k) => (.empty 8, k)
      | (l, k) => (.leaf l, k)

/-! ## Leaf pointers -/

/-- The leaf position of a voxel. -/
def leafPos (x y z : Int) : Int × Int × Int := (x / 8, y / 8, z / 8)
/-- The offset number of a neighbouring leaf, 13 for the leaf itself. -/
def nearIx (dx dy dz : Int) : Nat := ((dz + 1) * 9 + (dy + 1) * 3 + (dx + 1)).toNat
/-- The offset of a number. -/
def nearOff (n : Nat) : Int × Int × Int := ((n % 3 : Nat) - 1, (n / 3 % 3 : Nat) - 1, (n / 9 : Nat) - 1)

/-- The walker's entry of a leaf position. -/
def leafEntry (s : State) (core vdesc : Nat) (pos : Int × Int × Int) : Option LeafEntry :=
  (coreOf s core).wleaf.find? fun e => e.vdesc == vdesc && e.position == pos

/-- A coordinate reduced to I32. -/
def i32 (x : Int) : Int := signedOf 32 (pat32 x)

/-- Fill the entry of a leaf position with the leaf and its 26 neighbours (R330); the events of their walks are counted. A
fill that meets a fault or poison, or reads a page of CLASS 2, leaves no entry. -/
def fillLeaf (w : Walker) (v : Vdesc) (x y z : Int) (center : Nat) (k : Walk) : Walk :=
  let step := fun (r : List Nat × Walk) (n : Nat) =>
    if n = 13 then (r.1 ++ [center], r.2)
    else
      let o := nearOff n
      let (f, k) := findVoxel w v (i32 (x + 8 * o.1)) (i32 (y + 8 * o.2.1)) (i32 (z + 8 * o.2.2)) r.2
      (r.1 ++ [f.index], k)
  let (leaves, k') := (List.range 27).foldl step ([], { k with bad := [] })
  let s := k'.s
  if k'.fault.isSome || !k'.bad.isEmpty || k'.uncached then { k with s := s }
  else
    let others := (coreOf s w.ag.core).wleaf.filter fun e => !(e.vdesc == v.line && e.position == leafPos x y z)
    let (others, s) := dropFull leafEntries s others
    { k with s := modCore s w.ag.core fun c => { c with wleaf := ⟨v.line, leafPos x y z, leaves⟩ :: others } }

/-- find through the leaf-pointer cache (R330, R331): the leaf, and where the walk stopped if one was made. -/
def leafAt (w : Walker) (v : Vdesc) (x y z : Int) (k : Walk) : Nat × Option Found × Walk :=
  let (f, k') := findVoxel w v x y z k
  let l := f.index
  let fresh := fun (k' : Walk) => (l, some f, if k'.fault.isSome then k' else fillLeaf w v x y z l k')
  match leafEntry k.s w.ag.core v.line (leafPos x y z) with
  | none => fresh k'
  | some e =>
    let old := e.leaves.getD 13 0
    if old = l && k'.fault.isNone && k'.bad.isEmpty then (l, none, k)
    else
      let (c, s) := k.s.choose
      if c then (old, none, { k with s := s }) else fresh { k' with s := { k'.s with free := max k'.s.free s.free } }

/-- The leaf of a voxel near (x, y, z), through the neighbours of that voxel's entry (R335). -/
def leafNear (w : Walker) (v : Vdesc) (x y z x' y' z' : Int) (k : Walk) : Nat × Walk :=
  let own := fun k : Walk =>
    let (l, _, k) := leafAt w v x' y' z' k
    (l, k)
  let o := (x' / 8 - x / 8, y' / 8 - y / 8, z' / 8 - z / 8)
  let near := fun (d : Int) => -1 ≤ d && d ≤ 1
  match leafEntry k.s w.ag.core v.line (leafPos x y z) with
  | some e =>
    if near o.1 && near o.2.1 && near o.2.2 then
      let old := e.leaves.getD (nearIx o.1 o.2.1 o.2.2) 0
      let (f, k') := findVoxel w v x' y' z' k
      if old = f.index && k'.fault.isNone && k'.bad.isEmpty then (old, k)
      else
        let (c, s) := k.s.choose
        if c then (old, { k with s := s }) else own { k with s := s }
    else own k
  | none => own k

/-! ## Values -/

/-- The voxel number within its leaf (R328). -/
def voxelIx (x y z : Int) : Nat := (z % 8 * 64 + y % 8 * 8 + x % 8).toNat

/-- The delivered pattern of an element (R329). -/
def elemWord (t n : Nat) : Word :=
  if t = 4 then BitVec.ofInt 32 (signedOf 16 n) else if t = 6 then BitVec.ofInt 32 (signedOf 8 n) else BitVec.ofNat 32 n

/-- value of a voxel of leaf L (R329). -/
def voxelValue (w : Walker) (v : Vdesc) (l : Nat) (x y z : Int) (k : Walk) : Word × Walk :=
  let e := elemBytes v.etype
  if l = 0 then (elemWord v.etype (v.bg % 2 ^ (8 * e)), k)
  else
    let (n, k) := walkNum w true (v.ldata + (512 * l + voxelIx x y z) * e) e k
    (elemWord v.etype n, k)

/-- ACT of VLOOK (R334). -/
def voxelActive (w : Walker) (v : Vdesc) (l : Nat) (x y z : Int) (k : Walk) : Word × Walk :=
  if l = 0 then (2, k)
  else
    let n := voxelIx x y z
    let (b, k) := walkNum w true (v.lmask + 64 * l + n / 8) 1 k
    (BitVec.ofNat 32 (b / 2 ^ (n % 8) % 2), k)

/-- The offsets of VSTEN (R335). -/
def stencil : List (Int × Int × Int) :=
  [(0, 0, 0), (-1, 0, 0), (1, 0, 0), (0, -1, 0), (0, 1, 0), (0, 0, -1), (0, 0, 1), (0, -1, -1), (-1, 0, -1)] ++
  [(1, 0, -1), (0, 1, -1), (-1, -1, 0), (1, -1, 0), (-1, 1, 0), (1, 1, 0), (0, -1, 1), (-1, 0, 1), (1, 0, 1)] ++
  [(0, 1, 1), (-1, -1, -1), (1, -1, -1), (-1, 1, -1), (1, 1, -1), (-1, -1, 1), (1, -1, 1), (-1, 1, 1), (1, 1, 1)]

/-- The values of a stencil around a voxel. -/
def stencilWalk (w : Walker) (v : Vdesc) (x y z : Int) (k : Walk) : List (Int × Int × Int) → List Word × Walk
  | [] => ([], k)
  | o :: rest =>
    let x' := i32 (x + o.1)
    let y' := i32 (y + o.2.1)
    let z' := i32 (z + o.2.2)
    let (l, k) := leafNear w v x y z x' y' z' k
    let (u, k) := voxelValue w v l x' y' z' k
    let (us, k) := stencilWalk w v x y z k rest
    (u :: us, k)

/-! ## Ray-march steps -/

/-- A finite FP32 pattern as an integer multiple of 2^-149. -/
def marchInt (b : Nat) : Int := (f32.val b).at (-149)
/-- The unit of `marchInt`. -/
def marchOne : Int := 2 ^ 149
/-- A component is NaN or infinite. -/
def marchBad (b : Nat) : Bool := match f32.val b with
  | .nan _ => true
  | .inf _ => true
  | _ => false

/-- n / d × 2^e rounded to FP32 in direction rm, d > 0; +0 for 0. -/
def ratio32 (n : Int) (d : Nat) (e : Int) (rm : Nat) : Word :=
  if n = 0 then 0
  else BitVec.ofNat 32 (f32.round (divFin (n < 0) n.natAbs e d 0) rm false).1

/-- The distance to the box's far side along one axis, as a fraction (numerator, positive denominator) (R338). -/
def marchTau (lo s : Int) (p d : Int) : Option (Int × Nat) :=
  if 0 < d then some ((lo + s) * marchOne - p, d.natAbs)
  else if d < 0 then some (p - lo * marchOne, d.natAbs)
  else none

/-- The least distance and the lowest axis that attains it. -/
def marchExit (ts : List (Option (Int × Nat))) : Option (Nat × Int × Nat) :=
  (List.range 3).foldl (fun b a => match ts.getD a none, b with
    | some t, none => some (a, t.1, t.2)
    | some t, some u => if t.1 * u.2.2 < u.2.1 * t.2 then some (a, t.1, t.2) else some u
    | none, b => b) none

/-- One component of p after a step of length n / m along an axis that does not leave the box (R338). -/
def marchMove (pb db : Nat) (n : Int) (m : Nat) : Word :=
  let p := marchInt pb
  let d := marchInt db
  let sum := p * m + n * d
  if p = 0 ∧ n * d = 0 then
    -- a sum of zeros is −0 only when both are (R42)
    if pb / 2 ^ 31 = 1 ∧ db / 2 ^ 31 = 1 then BitVec.ofNat 32 pb else 0
  else if d = 0 then BitVec.ofNat 32 pb
  else ratio32 sum m (-149) 0

/-- The exit component (R338): the least FP32 value ≥ lo + s, or the greatest below lo. -/
def marchLeave (lo s : Int) (up : Bool) : Word :=
  if up then ratio32 (lo + s) 1 0 2
  else ratio32 (lo * 2 ^ 200 - 1) 1 (-200) 3

/-- VMARCH for one strand (R338): the step length, the status word and the new position. -/
def marchStep (w : Walker) (v : Vdesc) (cross : Bool) (pw dw : List Word) (k : Walk) : List Word × Walk :=
  let pb := (List.range 3).map fun a => (wordAt pw a).toNat
  let db := (List.range 3).map fun a => (wordAt dw a).toNat
  let p := pb.map marchInt
  let d := db.map marchInt
  let c := p.map fun x => x / marchOne
  let at_ := fun (l : List Int) (a : Nat) => l.getD a 0
  let stop := fun (status : Word) (k : Walk) => ([0, status] ++ pw.take 3, k)
  if (pb ++ db).any marchBad || d.all (· == 0) || c.any (fun x => decide (x < -2 ^ 31) || decide (2 ^ 31 ≤ x)) then
    stop 0xFFFFFFFF k
  else
    let (l, walked, k) := leafAt w v (at_ c 0) (at_ c 1) (at_ c 2) k
    if !cross && l ≠ 0 then stop (BitVec.ofNat 32 l) k
    else
      let (found, k) := match walked with
        | some f => (f, k)
        | none => if cross then (Found.leaf 0, k) else findVoxel w v (at_ c 0) (at_ c 1) (at_ c 2) k
      let side := match found with
        | .empty s => if cross then 8 else s
        | .leaf _ => 8
      let s : Int := (side : Nat)
      let lo := c.map fun x => x / s * s
      let ts := (List.range 3).map fun a => marchTau (at_ lo a) s (at_ p a) (at_ d a)
      match marchExit ts with
      | none => stop 0xFFFFFFFF k
      | some (a, n, m) =>
        let np := (List.range 3).map fun b =>
          if b = a then marchLeave (at_ lo b) s (decide (0 < at_ d b))
          else marchMove (pb.getD b 0) (db.getD b 0) n m
        ([ratio32 n m 0 0, if cross then BitVec.ofNat 32 l else 0] ++ np, k)

/-! ## The walker's instructions -/

/-- The coordinates of a triple (R334). -/
def coordOf (l : List Word) (a : Nat) : Int := signedOf 32 (wordAt l a).toNat

/-- Perform one strand of VLOOK, VSTEN, VMARCH or VPROBE (R333-R338). -/
def walkerOne (s : State) (p : Strip) (f : Flight) (i : Nat) : StrandOut × State :=
  let w : Walker := ⟨stripAgent s p, .cached⟩
  let a := f.ops.aOf i
  let x := coordOf a 0
  let y := coordOf a 1
  let z := coordOf a 2
  let (v, k) := readVdesc w (dword0 (f.ops.bOf i)).toNat (Walk.start s)
  let out := fun (ws : List Word) (k : Walk) => match k.fault with
    | some (va, kind) => (StrandOut.fault va kind accRead, k.s)
    | none => (StrandOut.done ws k.bad, k.s)
  -- an invalid descriptor is counted once for the issue (R333)
  let invalid := fun (ws : List Word) =>
    out ws (if k.fault.isNone && i == lowStrand f.x then k.count w else k)
  match f.instr with
  | .vlook m =>
    match v with
    | none => invalid (if m.mod.getLsbD 0 then [0, 0] else [0])
    | some v =>
      let (l, _, k) := leafAt w v x y z k
      let (u, k) := voxelValue w v l x y z k
      if m.mod.getLsbD 0 then
        let (b, k) := voxelActive w v l x y z k
        out [u, b] k
      else out [u] k
  | .vsten m =>
    let n := stencilCount m
    match v with
    | none => invalid (List.replicate n 0)
    | some v =>
      let (ws, k) := stencilWalk w v x y z k (stencil.take n)
      out ws k
  | .vprobe _ =>
    match v with
    | none => invalid [0]
    | some v =>
      let (l, _, k) := leafAt w v x y z k
      out [BitVec.ofNat 32 l] k
  | .vmarch m =>
    match v with
    | none => invalid ([0, 0xFFFFFFFF] ++ a.take 3)
    | some v =>
      let (ws, k) := marchStep w v (m.mod.getLsbD 0) a (f.ops.cOf i) k
      out ws k
  | _ => (.wait, s)

end Sys2Proof.Machine
end

