-- ==== Sys2Proof/Machine/Mint.lean ====
section
/-! DEFINITION. Mint, the node allocator of each C-die (R339-R345, R502): the free-list records, VALLOC, VFREE, VINS, and
VACT's atomics. A VINS strand goes step by step: each read of a word, each allocation and each CAS is an event of its own
(log 21). -/
namespace Sys2Proof.Machine

/-! ## Writes at the home slices -/

/-- Drop one line of a core's walker caches. -/
def dropWalkerLine (s : State) (core line : Nat) : State :=
  modCore s core fun c => { c with wnode := tableDel c.wnode line, wdata := tableDel c.wdata line }

/-- On the issuing core of a VINS, the read-cache line and the walker entries of a line it wrote go (R228, R343). -/
def insertDrops (w : Walker) (s : State) (line : Nat) : State :=
  if w.mode = .insert then dropRc (dropWalkerLine s w.ag.core line) w.ag.core line else s

/-- Write [va, va + bytes) at its home for Mint. -/
def walkWrite (w : Walker) (va : Nat) (bytes : List Byte) (k : Walk) : Walk :=
  match k.fault with
  | some _ => k
  | none =>
    match xlateRange k.s w.ag (vaOf va) bytes.length .write with
    | (.error e, s) => { k with s := s, fault := some e }
    | (.ok ps, s) =>
      let s := writePieces s { w.ag with launches := [] } false ps bytes
      { k with s := ps.foldl (fun s q => insertDrops w s (lineOf q.leaf.pa)) s }

/-- Write a number of n bytes. -/
def walkPut (w : Walker) (va n x : Nat) (k : Walk) : Walk := walkWrite w va (leBytes n x) k

/-- Zero the 4 KiB page at an address for an agent; beyond the populated window only the error log shows it (R230). -/
def zeroPage (s : State) (die pa : Nat) : State :=
  if populated pa then
    let s := (List.range 32).foldl (fun s i => l2Write s (lineOf pa + i) 0) s
    let s := notePast s pa 4096
    { s with
      mem := s.mem.filter fun c => c.1 < pa || pa + 4096 ≤ c.1
      poison := poisonAfter s.poison pa 4096 }
  else logError s die unitBeyond .poisoned pa

/-- Zero [va, va + 4096 × pages) page by page: a new node's words (R343). -/
def walkZero (w : Walker) (va : Nat) : Nat → Walk → Walk
  | 0, k => k
  | pages + 1, k =>
    match k.fault with
    | some _ => k
    | none =>
      match xlate k.s w.ag (vaOf va) .write with
      | (.error kind, s) => { k with s := s, fault := some (vaOf va, kind) }
      | (.ok lf, s) =>
        let lines := (List.range 32).map fun i => lineOf lf.pa + i
        let s := zeroPage s w.ag.die lf.pa
        let s := lines.foldl (fun s l => insertDrops w (dropRdcFor s w.ag.die (l * 128)) l) s
        walkZero w (va + 4096) pages { k with s := s }

/-! ## Free-list records -/

/-- One ring of a record: ring address, entries, HEAD, TAIL, and where the two counters lie. -/
structure MintRing where
  ring : Nat
  cap : Nat
  head : Nat
  tail : Nat
  headAt : Nat
  tailAt : Nat
deriving DecidableEq, Repr

/-- A ring keeps R340's bounds. -/
def MintRing.ok (r : MintRing) : Bool :=
  isPow2 r.cap && r.ring % 4 == 0 && r.head ≤ r.tail && r.tail ≤ r.head + r.cap

/-- The node and leaf rings of a record's bytes at an address. -/
def nodeRing (rec_ : Nat) (b : List Byte) : MintRing :=
  ⟨field b 0x00 8, field b 0x08 4, field b 0x18 8, field b 0x20 8, rec_ + 0x18, rec_ + 0x20⟩
def leafRing (rec_ : Nat) (b : List Byte) : MintRing :=
  ⟨field b 0x10 8, field b 0x0C 4, field b 0x28 8, field b 0x30 8, rec_ + 0x28, rec_ + 0x30⟩

/-- The ring of a kind (leaf or node) of a die's record; none for a malformed record (R502). -/
def mintRing (w : Walker) (v : Vdesc) (leaf : Bool) (k : Walk) : Option MintRing × Walk :=
  let rec_ := v.flist + 64 * w.ag.die
  let (b, _, k) := walkRead w false (vaOf rec_) 64 k
  let ok := (nodeRing rec_ b).ok && (leafRing rec_ b).ok && zeroBytes b 0x38 8
  (if ok then some (if leaf then leafRing rec_ b else nodeRing rec_ b) else none, k)

/-- Take an index (R341): 0 from an empty ring or a malformed record, which is counted. -/
def takeIndex (w : Walker) (v : Vdesc) (leaf : Bool) (k : Walk) : Nat × Walk :=
  match mintRing w v leaf k with
  | (none, k) => (0, if k.fault.isSome then k else k.count w)
  | (some r, k) =>
    if r.head = r.tail then (0, k)
    else
      let (n, k) := walkNum w false (r.ring + 4 * (r.head % r.cap)) 4 k
      let k := walkPut w r.headAt 8 (r.head + 1) k
      (if k.fault.isSome then 0 else n, k)

/-- Return an index (R342): discarded and counted when it is out of range, or the ring is full or malformed. -/
def giveIndex (w : Walker) (v : Vdesc) (leaf : Bool) (b : Nat) (k : Walk) : Walk :=
  match mintRing w v leaf k with
  | (none, k) => if k.fault.isSome then k else k.count w
  | (some r, k) =>
    if b = 0 ∨ (if leaf then v.lcap else v.ncap) ≤ b ∨ r.tail = r.head + r.cap then k.count w
    else walkPut w r.tailAt 8 (r.tail + 1) (walkPut w (r.ring + 4 * (r.tail % r.cap)) 4 b k)

/-- Return an index that was taken and not published before a fault (R343). -/
def giveBack (w : Walker) (v : Vdesc) (leaf : Bool) (b : Nat) (k : Walk) : Walk :=
  let k' := giveIndex w v leaf b { k with fault := none }
  { k' with fault := k.fault }

/-! ## VINS -/

/-- node_new (R343). -/
def nodeNew (w : Walker) (v : Vdesc) (k : Walk) : Nat × Walk :=
  match takeIndex w v false k with
  | (0, k) => (0, k)
  | (n, k) => (n, walkZero w (v.npool + 16384 * n) 4 k)

/-- The initial bytes of a leaf's header (R327). -/
def leafHeader (die parent : Nat) (x y z : Int) : List Byte :=
  leBytes 4 (pat32 (x / 8 * 8)) ++ leBytes 4 (pat32 (y / 8 * 8)) ++ leBytes 4 (pat32 (z / 8 * 8)) ++ leBytes 4 0 ++
    leBytes 1 die ++ leBytes 3 0 ++ leBytes 4 parent ++ List.replicate 40 0

/-- leaf_new (R343). -/
def leafNew (w : Walker) (v : Vdesc) (parent : Nat) (x y z : Int) (k : Walk) : Nat × Walk :=
  match takeIndex w v true k with
  | (0, k) => (0, k)
  | (n, k) =>
    let e := elemBytes v.etype
    let k := walkWrite w (v.lhdr + 64 * n) (leafHeader w.ag.die parent x y z) k
    let k := walkWrite w (v.lmask + 64 * n) (List.replicate 64 0) k
    (n, walkWrite w (v.ldata + 512 * e * n) ((List.replicate 512 (leBytes e v.bg)).flatten) k)

/-- CAS(word, 0, m) at its home slice, an atomic of the launch (R253, R262, R343): what it returns; a poisoned word gives 0
and is not written. The issuing core's SCB entry of the line drains first, and the die's RDC line goes whether or not the
CAS writes (R458). -/
def mintCas (w : Walker) (va m : Nat) (k : Walk) : Nat × Walk :=
  match k.fault with
  | some _ => (0, k)
  | none =>
    match xlateRange k.s w.ag (vaOf va) 4 .both with
    | (.error e, s) => (0, { k with s := s, fault := some e })
    | (.ok ps, s) =>
      let pa := firstPa ps
      let line := lineOf pa
      let pol := (ps.map (piecePolicy 0)).headD 0
      if isDevice pa then (0, { k with s := logError s w.ag.die unitDevice .masked pa })
      else
        let s := dropRdcFor (flushPosted (drainLine s w.ag.core line) w.ag.core (postedMeets [line])) w.ag.die pa
        let (b, bad) := readHome s pa 4
        if bad || ps.any fun q => q.leaf.pr then
          (0, ({ k with s := noteBeyond (l2Atomic s line pol) w.ag.die pa } : Walk).poison (vaOf va) pa)
        else if leNat b ≠ 0 then (leNat b, { k with s := l2Atomic s line pol })
        else (0, { k with s := insertDrops w (writePieces s w.ag true ps (leBytes 4 m)) line })

/-- The walker's leaf pointers that name a new leaf or have it as a neighbour go (R343). -/
def dropNear (s : State) (core vdesc : Nat) (x y z : Int) : State :=
  let q := leafPos x y z
  let near := fun (a b : Int) => decide (-1 ≤ a - b) && decide (a - b ≤ 1)
  modCore s core fun c => { c with wleaf := c.wleaf.filter fun e =>
    !(e.vdesc == vdesc && near e.position.1 q.1 && near e.position.2.1 q.2.1 && near e.position.2.2 q.2.2) }

/-- How an event of a VINS leaves it: at its next step, waiting for a BUSY entry, repeating a claim that failed, or over, with
the leaf and the code. -/
inductive Inserted where
  | step (t : InsertStep)
  | again (t : InsertStep)
  | ended (leaf code : Nat)
deriving DecidableEq, Repr

/-- A root entry by its number in the probe (R325). -/
def rootEntry (v : Vdesc) (j : Nat) : Nat := v.root + 16 * (j % v.rcap)

/-- Read one root entry of the probe (R343). -/
def insertProbe (w : Walker) (v : Vdesc) (x y z : Int) (j : Nat) : Nat → Walk → Inserted × Walk
  | 0, k => (.ended 0 3, k)
  | left + 1, k =>
    let (e, _, k) := walkRead w false (vaOf (rootEntry v j)) 16 k
    let t := field e 12 4
    if t = rootBusy then (.again (.probe j (left + 1)), k)
    else if v.ncap ≤ t then (.step (.probe (j + 1) left), if k.fault.isSome then k else k.count w)
    else if t = 0 then (.step (.claim j (left + 1)), k)
    else if field e 0 4 = pat32 (keyPart x) ∧ field e 4 4 = pat32 (keyPart y) ∧ field e 8 4 = pat32 (keyPart z) then
      (.step (.link false t), k)
    else (.step (.probe (j + 1) left), k)

/-- A claimed root entry is let go (R343). -/
def dropClaim (w : Walker) (v : Vdesc) (j : Nat) (k : Walk) : Walk :=
  let k' := walkPut w (rootEntry v j + 12) 4 0 { k with fault := none }
  { k' with fault := k.fault }

/-- One event of a VINS (R343). -/
def insertEvent (w : Walker) (v : Vdesc) (x y z : Int) (k : Walk) : InsertStep → Inserted × Walk
  | .fresh => (.step (.probe (keyHash (keyPart x) (keyPart y) (keyPart z) % v.rcap) v.rcap), k)
  | .probe j left => insertProbe w v x y z j left k
  | .claim j left =>
    let (old, k) := mintCas w (rootEntry v j + 12) rootBusy k
    (if old = 0 then .step (.root j left) else .again (.probe j left), k)
  | .root j left => match nodeNew w v k with
    | (0, k) => (.ended 0 2, dropClaim w v j k)
    | (n, k) =>
      if k.fault.isSome then (.step .fresh, dropClaim w v j (giveBack w v false n k)) else (.step (.publish j left n), k)
  | .publish j _ n =>
    let key := leBytes 4 (pat32 (keyPart x)) ++ leBytes 4 (pat32 (keyPart y)) ++ leBytes 4 (pat32 (keyPart z))
    let k := walkPut w (rootEntry v j + 12) 4 n (walkWrite w (rootEntry v j) key k)
    if k.fault.isSome then (.step .fresh, dropClaim w v j (giveBack w v false n k)) else (.step (.link false n), k)
  | .link leaf parent =>
    match walkNum w false (v.npool + 16384 * parent + 4 * childSlot (if leaf then 3 else 7) x y z) 4 k with
    | (0, k) => (.step (.alloc leaf parent), k)
    | (c, k) => (if leaf then .ended c 0 else .step (.link true c), k)
  | .alloc leaf parent => match (if leaf then leafNew w v parent x y z k else nodeNew w v k) with
    | (0, k) => (.ended 0 2, k)
    | (m, k) => if k.fault.isSome then (.step .fresh, giveBack w v leaf m k) else (.step (.cas leaf parent m), k)
  | .cas leaf parent m =>
    let (old, k) := mintCas w (v.npool + 16384 * parent + 4 * childSlot (if leaf then 3 else 7) x y z) m k
    if k.fault.isSome then (.step .fresh, giveBack w v leaf m k)
    else if old ≠ 0 then (.step (.spare leaf m old), k)
    else if leaf then (.ended m 1, { k with s := dropNear k.s w.ag.core v.line x y z })
    else (.step (.link true m), k)
  | .spare leaf m old => (if leaf then .ended old 0 else .step (.link true old), giveIndex w v leaf m k)

/-- What a VINS's request does next after a fault (R343): indices not published have been returned, and the strand begins
anew; a spare index whose return faulted is returned again. -/
def stepAfterFault : InsertStep → InsertStep
  | .spare leaf m old => .spare leaf m old
  | _ => .fresh

/-- Events of a VINS, up to `fuel` of them: until it is over, must wait, or met a fault. -/
def insertRun (w : Walker) (v : Vdesc) (x y z : Int) : Nat → InsertStep → Walk → Inserted × Walk
  | 0, t, k => (.again t, k)
  | fuel + 1, t, k =>
    let (r, k) := insertEvent w v x y z k t
    if k.fault.isSome then (.step (stepAfterFault t), k)
    else match r with
      | .step u => insertRun w v x y z fuel u k
      | r => (r, k)

/-- A strand's request leaves Mint's queue. -/
def doneMint (s : State) (die strip fid strand : Nat) : State :=
  modDie s die fun d => { d with
    mint := d.mint.filter fun m => !(m.strip == strip && m.flight == some fid && m.strand == strand) }

/-- The request of one strand of a flight. -/
def isMint (strip fid strand : Nat) (m : MintReq) : Bool := m.strip == strip && m.flight == some fid && m.strand == strand

/-- The progress of a strand's VINS; one whose request is gone begins. -/
def mintStep (s : State) (die strip fid strand : Nat) : InsertStep :=
  match (dieOf s die).mint.find? (isMint strip fid strand) with
  | some m => m.step
  | none => .fresh

/-- Note the progress of a strand's VINS. -/
def putMintStep (s : State) (die strip fid strand : Nat) (t : InsertStep) : State :=
  modDie s die fun d => { d with mint := d.mint.map fun m => if isMint strip fid strand m then { m with step := t } else m }

/-- The code of a VINS that ends, with its index (R343). -/
def insertWords (leaf code : Nat) : List Word := [BitVec.ofNat 32 leaf, BitVec.ofNat 32 code]

/-- Perform one strand of VINS (R343, R502): `n` events of it, or fewer when it is over, must wait or faults. Poison of a
step that is not the last is noted as it is met; with the job's poison trap the step is repeated (R424). -/
def vinsOne (id n : Nat) (s : State) (p : Strip) (f : Flight) (i : Nat) : StrandOut × State :=
  let w : Walker := ⟨stripAgent s p, .insert⟩
  let a := f.ops.aOf i
  let both := accRead + accWrite
  let t := mintStep s p.die id f.id i
  match readVdesc w (dword0 (f.ops.bOf i)).toNat (Walk.start s) with
  | (none, k) => match k.fault with
    | some (va, kind) => (.fault va kind both, k.s)
    | none => (.done [0, 4] k.bad, doneMint (if i == lowStrand f.x then (k.count w).s else k.s) p.die id f.id i)
  | (some v, k) =>
    let (r, k) := insertRun w v (coordOf a 0) (coordOf a 1) (coordOf a 2) n t k
    match k.fault, r, k.bad with
    | some (va, kind), r, _ => (.fault va kind both, putMintStep k.s p.die id f.id i (match r with
        | .step u => u
        | _ => .fresh))
    | none, .ended l code, bad => (.done (insertWords l code) bad, doneMint k.s p.die id f.id i)
    | none, .step u, bad => going w k s u bad
    | none, .again u, bad => going w k s u bad
where
  /-- A VINS that goes on. -/
  going (w : Walker) (k : Walk) (s : State) (u : InsertStep) (bad : List Bad) : StrandOut × State :=
    match (if w.ag.poisonTrap && !f.zero then bad else []) with
    | b :: _ => (.fault b.va kindPoison accRead, noteBad s p.die b)
    | [] => (.wait, bad.foldl (fun s b => notePoisonAt s id p b.unit b.pos) (putMintStep k.s p.die id f.id i u))

/-! ## VACT -/

/-- The aligned word and the bit of a voxel or leaf that VACT updates (R345); none where nothing is written. -/
def vactPlace (w : Walker) (v : Vdesc) (fn : Nat) (a : List Word) (k : Walk) : Option (Nat × Nat) × Walk :=
  let place := fun (byte_ bit : Nat) => (byte_ / 4 * 4, 8 * (byte_ % 4) + bit)
  if fn < 2 then
    let x := coordOf a 0
    let y := coordOf a 1
    let z := coordOf a 2
    match findVoxel w v x y z k with
    | (.leaf l, k) =>
      let n := voxelIx x y z
      (some (place (v.lmask + 64 * l + n / 8) (n % 8)), k)
    | (.empty _, k) => (none, k)
  else
    let l := (word0 a).toNat
    (if l = 0 ∨ v.lcap ≤ l then none else some (place (v.bitmap + l / 8) (l % 8)), k)

/-- What VACT's strand walks to (R345): the word and the bit; none where nothing is written; an invalid descriptor is said
apart. -/
def vactWalk (s : State) (p : Strip) (m : FmtMA) (f : Flight) (i : Nat) : Bool × Option (Nat × Nat) × Walk :=
  let w : Walker := ⟨stripAgent s p, .strand⟩
  match readVdesc w (dword0 (f.ops.bOf i)).toNat (Walk.start s) with
  | (none, k) => (false, none, k)
  | (some v, k) =>
    let (at_, k) := vactPlace w v m.fn.toNat (f.ops.aOf i) k
    (true, at_, k)

/-- Perform one strand of VACT (R345): an atomic of R262 on one bit. -/
def vactOne (s : State) (p : Strip) (f : Flight) (i : Nat) : StrandOut × State :=
  match f.instr with
  | .vact m =>
    let ag := stripAgent s p
    let both := accRead + accWrite
    let (valid, place, k) := vactWalk s p m f i
    match k.fault, place with
    | some (va, kind), _ => (.fault va kind both, k.s)
    | none, none => (.done [2] k.bad, if !valid && i == lowStrand f.x then countEngine k.s ag.core else k.s)
    | none, some (at_, bit) =>
      match xlateRange k.s ag (vaOf at_) 4 .both with
      | (.error (va, kind), s) => (.fault va kind both, s)
      | (.ok ps, s) =>
        let pa := firstPa ps
        let taken := fun s : State => l2Atomic s (lineOf pa) ((ps.map (piecePolicy 0)).headD 0)
        if isDevice pa then (.done [0] [], logError s ag.die unitDevice .masked pa)
        else
          let s := dropRdcFor (flushPosted (drainLine s ag.core (lineOf pa)) ag.core (postedMeets [lineOf pa])) ag.die pa
          let (b, bad) := readHome s pa 4
          if bad || ps.any fun q => q.leaf.pr then
            (.done [0] (k.bad ++ [badMemory (vaOf at_) pa]), noteBeyond (taken s) ag.die pa)
          else
            let old := leNat b
            let new := if m.fn.getLsbD 0 then old &&& (2 ^ 32 - 1 - 2 ^ bit) else old ||| 2 ^ bit
            let s := writePieces s ag true ps (leBytes 4 new)
            (.done [BitVec.ofNat 32 (old / 2 ^ bit % 2)] k.bad,
              modCore s ag.core fun c => { c with wdata := tableDel c.wdata (lineOf pa) })
  | _ => (.wait, s)

/-! ## VALLOC and VFREE -/

/-- Perform a VALLOC (R341): one event of the die's Mint; a fault makes Mint wait on its entry (R421). -/
def vallocOne (id : Nat) (s : State) (p : Strip) (f : Flight) (i : Nat) : StrandOut × State :=
  if dieWaiting s (.mint id) then (.wait, s)
  else
    match f.instr with
    | .valloc m =>
      let ag := stripAgent s p
      let w : Walker := ⟨ag, .mint⟩
      let end_ := fun (n : Nat) (k : Walk) => match k.fault with
        | some (va, kind) => (StrandOut.wait, dieFault k.s ag (.mint id) va kind (accRead + accWrite))
        | none => (StrandOut.done [BitVec.ofNat 32 n] k.bad, doneMint k.s p.die id f.id i)
      match readVdesc w (dword0 f.ops.ua).toNat (Walk.start s) with
      | (none, k) => end_ 0 (if k.fault.isNone then k.count w else k)
      | (some v, k) =>
        let (n, k) := takeIndex w v (m.mod.getLsbD 0) k
        end_ n k
    | _ => (.wait, s)

/-- The agent of a Mint request. -/
def mintAgent (m : MintReq) : Agent := ⟨m.core / 96, m.core, m.job.asid, m.job.root, m.job.index, [], m.job.poisonTrap, 0, 0⟩

/-- One event of a VINS whose strip is gone: Mint completes it (R339). After a fault nothing is left to do. -/
def vinsOrphan (s : State) (m : MintReq) : State :=
  let die := m.core / 96
  let w : Walker := ⟨mintAgent m, .insert⟩
  let a := m.ops.aOf m.strand
  let gone := fun (s : State) => modDie s die fun d => { d with mint := d.mint.erase m }
  match readVdesc w (dword0 (m.ops.bOf m.strand)).toNat (Walk.start s) with
  | (none, k) => gone k.s
  | (some v, k) =>
    match insertEvent w v (coordOf a 0) (coordOf a 1) (coordOf a 2) k m.step with
    | (r, k) =>
      let s := k.bad.foldl (fun s _ => countPoison s m.core) k.s
      match k.fault, r with
      | none, .step u => modDie s die fun d => { d with mint := d.mint.map fun q => if q = m then { q with step := u } else q }
      | none, .again u => modDie s die fun d => { d with mint := d.mint.map fun q => if q = m then { q with step := u } else q }
      | _, _ => gone s

/-- A VFREE leaves Mint's queue. -/
def endVfree (s : State) (m : MintReq) : State := modDie s (m.core / 96) fun d => { d with mint := d.mint.erase m }

/-- Perform a VFREE at its die's Mint (R342, R502). A fault makes it wait (R421), and so does poison with the job's poison
trap (R424); poison answered ZERO, or met without the trap, reaches its strip (R324). -/
def vfreeOne (s : State) (m : MintReq) : State :=
  if dieWaiting s (.mint m.strip) then s
  else
    match m.instr with
    | .vfree g =>
      let ag := mintAgent m
      let w : Walker := ⟨ag, .mint⟩
      let k := match readVdesc w (dword0 m.ops.ua).toNat (Walk.start s) with
        | (none, k) => if k.fault.isNone then k.count w else k
        | (some v, k) => giveIndex w v (g.mod.getLsbD 0) (word0 m.ops.ub).toNat k
      match k.fault, k.bad with
      | some (va, kind), _ => dieFault k.s ag (.mint m.strip) va kind (accRead + accWrite)
      | none, b :: l =>
        if ag.poisonTrap && !m.zero then dieFault (noteBad s ag.die b) ag (.mint m.strip) b.va kindPoison accRead
        else endVfree ((b :: l).foldl (fun s b => notePoisonOf s m.strip m.core b.pos) k.s) m
      | none, [] => endVfree k.s m
    | _ => s

end Sys2Proof.Machine
end

