-- ==== Sys2Proof/Machine/WorkOps.lean ====
section
/-! DEFINITION. How the work instructions with results are performed: CCNT (R210) and ENQ (R211, R212). -/
namespace Sys2Proof.Machine

/-- Perform CCNT (R210): one coherent read of the record. -/
def ccntOne (s : State) (p : Strip) (f : Flight) (_ : Nat) : StrandOut × State :=
  let ag := stripAgent s p
  let ea := pairEa f.ops.ua
  match xlateRange s ag ea 32 .read with
  | (.error (va, k), s) => (.fault va k accRead, s)
  | (.ok ps, s) =>
    let (b, bad, s) := readAccess s ag .home true ps
    (poisonOut (bytesWords 3 b ++ [BitVec.ofNat 32 (field b 0x18 4)]) bad (badMemory ea (firstPa ps)), s)

/-! ## ENQ -/

/-- The descriptor an ENQ names. -/
def enqDesc (f : Flight) : Nat := vaOf (dword0 (f.ops.bOf (lowStrand f.x))).toNat

/-- The record of one strand. -/
def enqRecord (f : Flight) (i : Nat) : List Byte := wordsBytes (f.ops.aOf i)

/-- Deliver one word to several strands. -/
def deliverAll (s : State) (id fid : Nat) (w : Word) (l : List Nat) : State :=
  l.foldl (fun s i => deliver s id fid i [w] []) s

/-- Reserve positions for an ENQ in one step at the home slice (R211): a size mismatch gives 2, a strand without a free
slot 1; a fault on the descriptor leaves every strand unperformed (R212). The notes of the flight hold each strand's
position, plus 1, and then RING and CAP. -/
def enqReserve (s : State) (id fid : Nat) (p : Strip) (f : Flight) (n : Nat) : State :=
  let ag := stripAgent s p
  let desc := enqDesc f
  match xlateRange s ag desc 64 .both with
  | (.error (va, k), s) => suspendStrip s id p ag va k (accRead + accWrite)
  | (.ok ps, s) =>
    let (b, bad, s) := readAccess s ag .home false ps
    let b := if bad then List.replicate 64 0 else b
    let s := if bad then notePoison s id p (firstPa ps) else s
    let all := strandsOf f.x
    if field b 0xC 1 ≠ n then deliverAll s id fid 2 all
    else
      let resv := field b 0x18 8
      let k := min all.length (field b 0x30 8 + field b 0x08 4 - resv)
      let s := if k = 0 then s else writePieces s ag true (cutPieces 0x18 8 ps) (leBytes 8 (resv + k))
      let notes := (strandIxs.map fun i => if i ∈ all.take k then resv + rankIn f.x i + 1 else 0) ++
        [field b 0 8, field b 8 4]
      let s := modFlight s id fid fun f => { f with notes := notes }
      deliverAll s id fid 1 (all.drop k)

/-- Write one strand's record to its slot (R211). -/
def enqOne (s : State) (p : Strip) (f : Flight) (i : Nat) : StrandOut × State :=
  let ag := stripAgent s p
  let size := (enqRecord f i).length
  let pos := f.notes.getD i 0 - 1
  match xlateRange s ag (vaOf (f.notes.getD 16 0 + pos % f.notes.getD 17 0 * size)) size .write with
  | (.error (va, k), s) => (.fault va k accWrite, s)
  | (.ok ps, s) => (.done [0] [], writePieces s ag true ps (enqRecord f i))

/-- Perform strands of an ENQ: the reservation first, then the records of the strands of a set, then publication (R211,
R212). -/
def enqPerform (s : State) (id fid : Nat) (set : BitVec 16) (n : Nat) : State :=
  match tableGet s.strips id, flightOf s id fid with
  | some p, some f =>
    let s := if f.notes.isEmpty then enqReserve s id fid p f n else s
    match flightOf s id fid with
    | some g =>
      if g.notes.isEmpty then s
      else
        let s := performList enqOne false s id fid (strandsOf (g.undone &&& set))
        publish s p.die (stripJob s p) (enqDesc f)
    | none => s
  | _, _ => s

end Sys2Proof.Machine
end

