-- ==== Sys2Proof/Machine/Results.lean ====
section
/-! DEFINITION. Outstanding instructions of a strip (R137-R140, R153, R418, R419, R501): performing an access, the arrival of
a result, the end of its window, and what a later issue waits for. -/
namespace Sys2Proof.Machine

/-! ## Performing an access -/

/-- The release scope of an access, when it is a release (R244). -/
def releaseOf (i : Instr) : Option Nat :=
  match i with
  | .stgr m => if m.ord.getLsbD 1 then some m.scope.toNat else none
  | .atomg m => if m.ord.getLsbD 1 then some m.scope.toNat else none
  | .atoml m => if m.ord.getLsbD 1 then some m.scope.toNat else none
  | .redg m => if m.ord.getLsbD 1 then some m.scope.toNat else none
  | .vins m => if m.ord.getLsbD 1 then some m.scope.toNat else none
  | .vact m => if m.ord.getLsbD 1 then some m.scope.toNat else none
  | .enq _ => some 3
  | .fence m => if m.ord.getLsbD 1 then some m.scope.toNat else none
  | .vfree _ => some 2
  | _ => none

/-- The Assay digest of a strip's launch (R268); 0 when DIGEST is clear. -/
def digestOf (s : State) (p : Strip) : DWord := match launchOfStrip s p with
  | some (_, l) => if l.lrec.digestOn then l.digest else 0
  | none => 0

/-- Perform DGST (R268): the sum of the events performed so far (log 15). -/
def digestOne (s : State) (p : Strip) (_ : Flight) (_ : Nat) : StrandOut × State :=
  (.done (wordsOf 2 (digestOf s p).toNat) [], s)

/-- The virtual lines of DISCARD's range (R267). -/
def discardRange (f : Flight) : Nat × Nat :=
  let a := (dword0 f.ops.ua).toNat
  let n := (word0 f.ops.ub).toNat
  (a / 128 * 128, if n = 0 then 0 else (a % 128 + n + 127) / 128)

/-- Drop one line (R235, R455): the read cache's copy, the die's RDC copy, then the line at its home. The SCB keeps its. -/
def dropLine (s : State) (core line : Nat) : State :=
  let s := dropRdc (dropRc s core line) (core / 96) line
  if onSdie (line * 128) || !populated (line * 128) then s else l2Drop s line

/-- Drop the lines of a DISCARD from number `k` on, up to the first that faults. -/
def discardFrom (s : State) (ag : Agent) (first : Nat) : Nat → Nat → (Option (Nat × Nat) × Nat) × State
  | 0, k => ((none, k), s)
  | left + 1, k =>
    let va := vaOf (first + 128 * k)
    match xlate s ag va .write with
    | (.error kind, s) => ((some (va, kind), k), s)
    | (.ok lf, s) => discardFrom (dropLine s ag.core (lineOf lf.pa)) ag first left (k + 1)

/-- Perform DISCARD (R267): lines dropped before a fault stay dropped. -/
def discardPerform (s : State) (id fid : Nat) : State :=
  match tableGet s.strips id, flightOf s id fid with
  | some p, some f =>
    let r := discardRange f
    let k := f.notes.headD 0
    match discardFrom s (stripAgent s p) r.1 (r.2 - k) k with
    | ((some (va, kind), k), s) =>
      suspendStrip (modFlight s id fid fun f => { f with notes := [k] }) id p (stripAgent s p) va kind accWrite
    | ((none, _), s) => deliver s id fid 0 [] []
  | _, _ => s

/-- Bytes in memory that nothing waits to write, read as a number; 0 where they do not translate. -/
def peekNum (s : State) (ag : Agent) (va n : Nat) : Nat := match (readVirt s ag (vaOf va) n).1 with
  | .ok (b, _) => leNat b
  | .error _ => 0

/-- The accesses (set, address, bytes) of an ENQ's strands still to come (R211): RESV, and each strand's record, which is
any of the ring until a position is reserved. -/
def enqAccesses (s : State) (ag : Agent) (f : Flight) (x : Strands) : List (Strands × Nat × Nat) :=
  let desc := enqDesc f
  let size := (enqRecord f (lowStrand f.x)).length
  let ring := peekNum s ag desc 8
  if f.notes.isEmpty then
    [(x, vaOf (desc + 0x18), 8), (x, vaOf ring, peekNum s ag (desc + 8) 4 * size)]
  else (strandsOf x).map fun i =>
    (oneStrand i, vaOf (f.notes.getD 16 0 + (f.notes.getD i 0 - 1) % f.notes.getD 17 0 * size), size)

/-- The root entry whose TRUNK a VINS is to read next, and TRUNK, by what stands in memory (R343). -/
def vinsEntry (s : State) (ag : Agent) (v : Vdesc) (key : Nat × Nat × Nat) : Nat → Nat → Option (Nat × Nat)
  | 0, _ => none
  | fuel + 1, j =>
    let at_ := v.root + 16 * (j % v.rcap)
    let t := peekNum s ag (at_ + 12) 4
    if t = 0 ∨ t = rootBusy ∨ (peekNum s ag at_ 4, peekNum s ag (at_ + 4) 4, peekNum s ag (at_ + 8) 4) = key then some (at_, t)
    else vinsEntry s ag v key fuel (j + 1)

/-- The words (address, bytes) on which one strand's VINS has its CAS steps, by what stands in memory (R343). -/
def vinsWords (s : State) (ag : Agent) (f : Flight) (i : Nat) : List (Nat × Nat) :=
  match (readVdesc ⟨ag, .insert⟩ (dword0 (f.ops.bOf i)).toNat (Walk.start s)).1 with
  | none => []
  | some v =>
    let a := f.ops.aOf i
    let x := coordOf a 0
    let y := coordOf a 1
    let z := coordOf a 2
    let key := (pat32 (keyPart x), pat32 (keyPart y), pat32 (keyPart z))
    match vinsEntry s ag v key v.rcap (keyHash (keyPart x) (keyPart y) (keyPart z) % v.rcap) with
    | none => []
    | some (at_, t) =>
      let trunk := v.npool + 16384 * t + 4 * childSlot 7 x y z
      let b := peekNum s ag trunk 4
      (at_, 16) :: (if t = 0 ∨ v.ncap ≤ t then [] else
        (trunk, 4) :: if b = 0 ∨ v.ncap ≤ b then [] else [(v.npool + 16384 * b + 4 * childSlot 3 x y z, 4)])

/-- The strands for which an instruction accesses memory: its executing set, or every strand of the strip for the uniform
pipe (R172). -/
def accessSet (i : Instr) (x : Strands) : Strands := match i with
  | .sld _ => 0xFFFF
  | .sst _ => 0xFFFF
  | _ => x

/-- The accesses (set, address, bytes) of some strands of a flight. -/
def flightAccesses (s : State) (p : Strip) (f : Flight) (x : Strands) : List (Strands × Nat × Nat) :=
  let ag := stripAgent s p
  let one := fun (g : Nat → Option (Nat × Nat)) => (strandsOf x).filterMap fun i =>
    (g i).map fun q => (accessSet f.instr (oneStrand i), q.1, q.2)
  match f.instr with
  | .vact m => one fun i => (vactWalk s p m f i).2.1.map fun (w : Nat × Nat) => (vaOf w.1, 4)
  | .enq _ => enqAccesses s ag f x
  | .vins _ => (strandsOf x).flatMap fun i => (vinsWords s ag f i).map fun w => (oneStrand i, vaOf w.1, w.2)
  | _ => one (flightEa f)

/-- The physical bytes that strands of a flight may access. -/
def flightSpans (s : State) (p : Strip) (f : Flight) (x : Strands) : List Span :=
  (flightAccesses s p f x).flatMap fun a => spansOf s (stripAgent s p) a.1 a.2.1 a.2.2

/-- The physical lines that strands of a flight may access. -/
def flightLines (s : State) (p : Strip) (f : Flight) (x : Strands) : List Nat := (flightSpans s p f x).map fun u => lineOf u.lo

/-- Before the first event of an atomic, the SCB entry of every line that its issue names drains (R262, R263, R345). -/
def drainNamed (s : State) (id : Nat) (f : Flight) : State :=
  match tableGet s.strips id with
  | none => s
  | some p => if f.undone = f.x then (flightLines s p f f.x).foldl (fun s l => drainLine s p.coreId l) s else s

/-- A VFREE's request goes to Mint (R342). -/
def freeNow (s : State) (id fid : Nat) : State :=
  match tableGet s.strips id, flightOf s id fid with
  | some p, some f =>
    let req : MintReq := ⟨id, p.coreId, stripJob s p, none, 0, f.instr, f.ops, false, .fresh⟩
    deliver (modDie s p.die fun d => { d with mint := d.mint ++ [req] }) id fid 0 [] []
  | _, _ => s

/-- Events of a VINS that one event of the model may perform at most: a probe of the root table's 2^24 entries is longer. -/
def insertFuel : Nat := 4096

/-- Perform the unperformed strands of a flight that a set picks; atomics go in ascending index, as many of them as the set
picks. Of an access that is not single-copy atomic, the mask picks the bytes (R240); of a VINS, an empty mask is one
event. -/
def performNow (s : State) (id fid : Nat) (set mask : BitVec 16) : State :=
  match flightOf s id fid with
  | none => s
  | some f =>
    let todo := strandsOf f.undone
    let some_ := strandsOf (f.undone &&& set)
    let first := todo.take some_.length
    match f.instr with
    | .ldg _ => loadNow mask s id fid f todo some_
    | .ldga _ => loadNow mask s id fid f todo some_
    | .ldc _ => performList (loadOne mask id) false s id fid some_
    | .sld _ => performList (loadOne mask id) false s id fid some_
    | .ldl _ => performList scratchOne false s id fid todo
    | .atoml _ => performList scratchOne true s id fid todo
    | .dgst _ => performList digestOne false s id fid todo
    | .discard _ => discardPerform s id fid
    | .stg _ => storeNow s id fid f todo
    | .sst _ => storeNow s id fid f todo
    | .stgr m =>
      match tableGet s.strips id with
      | none => s
      | some p =>
        if narrowScope s p m.scope.toNat then storeNow s id fid f todo else postNow s id fid f todo
    | .redg _ => performList (redOne id) true (drainNamed s id f) id fid todo
    | .fence _ => deliver s id fid 0 [] []
    | .vfree _ => freeNow s id fid
    | .atomg _ => performList atomOne true (drainNamed s id f) id fid first
    | .vact _ => performList vactOne true (drainNamed s id f) id fid first
    | .vins _ => performList (vinsOne id (if mask = 0 then 1 else insertFuel)) true s id fid first
    | .valloc _ => performList (vallocOne id) true s id fid first
    | .vlook _ => performList walkerOne false s id fid some_
    | .vsten _ => performList walkerOne false s id fid some_
    | .vmarch _ => performList walkerOne false s id fid some_
    | .vprobe _ => performList walkerOne false s id fid some_
    | .ccnt _ => performList ccntOne false s id fid some_
    | .enq m => enqPerform s id fid set (m.fn.toNat + 1)
    | _ => s

/-- Once its reads are performed, an acquire's duties (R245, R457). -/
def acquireDuty (s : State) (id fid : Nat) : State :=
  match tableGet s.strips id, flightOf s id fid with
  | some p, some f =>
    if f.undone ≠ 0 then s
    else match acquireOf f.instr with
      | some sc => acquireScope s (stripAgent s p) sc
      | none => s
  | _, _ => s

/-- The strip waits for an answer to a fault (R418). -/
def stripWaits (s : State) (id : Nat) : Bool := match tableGet s.strips id with
  | some p => !p.waits.isEmpty
  | none => true

/-! ## The end of a window -/

/-- The strands a destination register is written for at the end of the window (R138). -/
def keptStrands (p : Strip) (f : Flight) (k : Nat) : Strands := f.x &&& ~~~(f.lost.getD k 0) &&& p.live

/-- The values of destination register k. -/
def gotWords (f : Flight) (k : Nat) : List Word := f.got.map fun l => l.getD k 0

/-- Remove a flight. -/
def dropFlight (s : State) (id fid : Nat) : State :=
  modStrip s id fun p => { p with flights := p.flights.filter fun f => f.id != fid }

/-- Read the slots of the spilled registers that a staged result must carry over (R153); false at a fault. -/
def carrySlots (s : State) (id : Nat) (f : Flight) : List (Nat × Nat) → Bool × State
  | [] => (true, s)
  | (reg, k) :: rest =>
    match tableGet s.strips id with
    | none => (true, s)
    | some p =>
      match tableGet p.v reg with
      | some r =>
        if r.spilled && keptStrands p f k ≠ 0 && r.valid &&& ~~~(keptStrands p f k) ≠ 0 then
          match readSlot s id p reg with
          | (none, s) => (false, s)
          | (some vals, s) =>
            carrySlots (modStrip s id fun p => { p with
              v := tablePut p.v reg { r with spilled := false, vals := vals } }) id f rest
        else carrySlots s id f rest
      | none => carrySlots s id f rest

/-- The destination registers of a flight in ascending order, each with its place in the result. -/
def Dest.ascending (d : Dest) : List (Nat × Nat) :=
  (d.vRegs.foldl setAdd []).map fun r => (r, d.vRegs.findIdx fun q => q == r)

/-- Write destination registers from the return buffer, in ascending order and in steps of 8 (R146, R152, R153), `n` of them
done; a spill leaves out every register that the instruction reads or writes (R149). False at a fault. -/
def commitRegs (s : State) (id : Nat) (f : Flight) : Nat → List (Nat × Nat) → Bool × State
  | _, [] => (true, s)
  | n, (reg, k) :: rest =>
    match tableGet s.strips id with
    | none => (true, s)
    | some p =>
      let step := ((f.dest.ascending.map fun r => r.1).drop (n / 8 * 8)).take 8
      let used := f.dest.vRegs ++ instrRegs (shape f.instr)
      match writeReg s id reg (keptStrands p f k) (gotWords f k) used step with
      | (false, s) => (false, s)
      | (true, s) => commitRegs s id f (n + 1) rest

/-- An attempt that a fault stopped: the strip is as it was before, and waits. -/
def keepWaits (before after : State) (id : Nat) : State :=
  let waits := match tableGet after.strips id with
    | some p => p.waits
    | none => []
  { after with strips := tableMod before.strips id fun p => { p with waits := waits } }

/-- An attempt as it stands: whole, with the poison its refills met noted, or undone in the strip, which waits. -/
def wholeOr (before : State) (id : Nat) : Bool × State → Bool × State
  | (true, s) => (true, noteRefills before s id)
  | (false, s) => (false, keepWaits before s id)

/-- Entries that a flight has written are poisoned where its result words came back poisoned from a restore (R435); `p` is
the strip as it was. -/
def Strip.spoil (q p : Strip) (f : Flight) : Strip :=
  if f.spoilt.isEmpty then q
  else f.dest.ascending.foldl (fun q r => { q with
    v := tableMod q.v r.1 fun v => { v with poison := v.poison ||| (keptStrands p f r.2 &&& f.spoilt.getD r.2 0) } }) q

/-- The end of a window whose result has arrived: the destination takes its final value (R138, R153), whole or, when a
translation fault on a spill slot suspends the strip, not at all (R151): then false. -/
def commitFlight (s : State) (id fid : Nat) : Bool × State :=
  match tableGet s.strips id, flightOf s id fid with
  | some p, some f =>
    match f.dest with
    | .s first _ =>
      let ws := f.got.headD []
      let put := fun p : Strip =>
        ((List.range ws.length).foldl (fun p k => p.putS (first + k) (ws.getD k 0)) p).rejoin
      let s := dropFlight s id fid
      (true, if f.lost.headD 0 = 0 then modStrip s id put else s)
    | _ =>
      let regs := f.dest.ascending
      if f.staged then
        match wholeOr s id (carrySlots s id f regs) with
        | (false, s) => (false, s)
        | (true, s) =>
          (true, modStrip (dropFlight s id fid) id fun q => (regs.foldl (fun q r =>
            let m := keptStrands p f r.2
            if m = 0 then q else q.putV r.1 m (gotWords f r.2)) q).spoil p f)
      else
        match wholeOr s id (commitRegs s id f 0 regs) with
        | (false, s) => (false, s)
        | (true, s) => (true, modStrip (dropFlight s id fid) id fun q => q.spoil p f)
  | _, _ => (true, s)

/-- The strip can take k staging rows (R153). -/
def canStage (s : State) (p : Strip) (k : Nat) : Bool :=
  p.staging + k + 8 ≤ p.floor &&
    (p.rows + k ≤ max p.rows p.floor ||
      ((claimsOf s p.coreId p.sliceKey).isEmpty && p.rows + k - max p.rows p.floor ≤ unreserved s p))

/-- A result whose access is performed arrives (R153, R501): flags, staging rows, and the end of a window that is over. -/
def arriveFlight (s : State) (id fid : Nat) : State :=
  match tableGet s.strips id, flightOf s id fid with
  | some p, some f =>
    if f.undone ≠ 0 then s
    else if !f.long then dropFlight s id fid
    else if f.arrived then s
    else
      let k := f.dest.vRegs.length
      let stage := f.left ≠ 0 && k ≠ 0 && canStage s p k
      let s := modStrip s id fun p => p.raise f.flags
      let s := modFlight s id fid fun f => { f with arrived := true, staged := stage }
      if f.left = 0 then (commitFlight s id fid).2 else s
  | _, _ => s

/-! ## Forcing results -/

/-- Every strand, and every byte of an access. -/
def wholeSet : BitVec 16 := 0xFFFF

/-- A posted write's physical bytes. -/
def postedSpans (q : Posted) : List Span := q.ops.map fun o => match o with
  | .write pa _ b => ⟨q.x, pa, pa + b.length⟩
  | .red pa _ _ w _ _ => ⟨q.x, pa, pa + (if w then 8 else 4)⟩

/-- A strand's own posted writes are performed before its later accesses to their bytes (R239, R258). -/
def flushOwn (s : State) (id : Nat) (p : Strip) (spans : List Span) : State :=
  if spans.isEmpty then s else flushPosted s p.coreId fun q => q.strip == id && spansMeet spans (postedSpans q)

/-- A release's duties: the strip's posted writes, and at a wide scope the core's (R245). -/
def releaseDuty (s : State) (id : Nat) (p : Strip) (scope : Nat) : State :=
  if drains s p scope then releaseCore s p.coreId else flushPosted s p.coreId fun q => q.strip == id

/-- What an access of a flight waits for at its core before it is performed: a release's duties (R245), or the strands' own
posted writes to its bytes (R239). -/
def accessDuty (s : State) (id : Nat) (f : Flight) : State :=
  match tableGet s.strips id with
  | none => s
  | some p => match releaseOf f.instr with
    | some sc => releaseDuty s id p sc
    | none => flushOwn s id p (flightSpans s p f f.undone)

/-- Perform strands of a flight whose earlier accesses are performed: its duties first, then an acquire's, and the arrival
of a result that is complete. -/
def performDue (s : State) (id fid : Nat) (set mask : BitVec 16) : State :=
  match flightOf s id fid with
  | none => s
  | some f => arriveFlight (acquireDuty (performNow (accessDuty s id f) id fid set mask) id fid) id fid

/-- Perform the unperformed flights of a list whole, in order. -/
def forceList (s : State) (id : Nat) (l : List Flight) : State :=
  l.foldl (fun s g => if g.undone = 0 ∨ stripWaits s id then s else performDue s id g.id wholeSet wholeSet) s

/-- The instruction writes memory (R246). -/
def writesMemory : Instr → Bool
  | .stg _ => true
  | .sst _ => true
  | .stgr _ => true
  | .redg _ => true
  | .atomg _ => true
  | .vact _ => true
  | .vins _ => true
  | .enq _ => true
  | .discard _ => true
  | _ => false

/-- A fence, or a VFREE's release, that waits for earlier accesses. -/
def isFence : Instr → Bool
  | .fence _ => true
  | .vfree _ => true
  | _ => false

/-- An earlier access `g` of a strip must be performed before a later one `f` (R248): `f` is a release, `g` an acquire, `g` a
fence with REL and `f` a write, each for a strand of both; or they name a common byte of a strand (R239). -/
def ordersAfter (s : State) (p : Strip) (g f : Flight) : Bool :=
  let both := accessSet g.instr g.x &&& accessSet f.instr f.x != 0
  g.undone != 0 &&
    (both && ((releaseOf f.instr).isSome || (acquireOf g.instr).isSome || (isFence g.instr && writesMemory f.instr)) ||
      spansMeet (flightSpans s p g g.undone) (flightSpans s p f f.undone))

/-- The flights of a list that must be performed before one that follows them all, with those they themselves follow, in
order. -/
def mustPrecede (s : State) (p : Strip) (f : Flight) : List Flight → List Flight
  | [] => []
  | g :: rest =>
    let r := mustPrecede s p f rest
    if (r ++ [f]).any (ordersAfter s p g) then g :: r else r

/-- Earlier accesses of the strip that must be performed before one that follows them are performed (R239, R245, R248);
false when one of them still waits. -/
def forceEarlier (s : State) (id : Nat) (before : List Flight) (f : Flight) : Bool × State :=
  match tableGet s.strips id with
  | none => (true, s)
  | some p =>
    let l := mustPrecede s p f before
    let s := forceList s id l
    (!stripWaits s id && l.all fun g => match flightOf s id g.id with
      | some h => h.undone == 0
      | none => true, s)

/-- Perform strands of a flight, after what must come before them, and let a complete result arrive. -/
def performSome (s : State) (id fid : Nat) (set mask : BitVec 16) : State :=
  if stripWaits s id then s
  else
    match tableGet s.strips id, flightOf s id fid with
    | some p, some f =>
      if f.undone = 0 then arriveFlight s id fid
      else
        match forceEarlier s id (p.flights.takeWhile fun g => g.id != fid) f with
        | (false, s) => s
        | (true, s) => performDue s id fid set mask
    | _, _ => s

/-- Perform a flight whole. -/
def performFlight (s : State) (id fid : Nat) : State := performSome s id fid wholeSet wholeSet

/-- Bring in the results of the flights that a test picks; a window that is over ends. -/
def settle (s : State) (id : Nat) (pick : Strip → Flight → Bool) : Bool × State :=
  match tableGet s.strips id with
  | none => (true, s)
  | some p =>
    let one := fun (s : State) (f : Flight) =>
      if pick p f then
        let s := performFlight s id f.id
        match flightOf s id f.id with
        | some g => if g.arrived && g.left = 0 then (commitFlight s id f.id).2 else s
        | none => s
      else s
    let s := p.flights.foldl one s
    match tableGet s.strips id with
    | none => (true, s)
    | some q => (q.waits.isEmpty && !(q.flights.any fun f => pick p f), s)

/-- What an issue of `x` waits for (R137): every result whose window is over and whose set it touches. An issue disjoint from
the set does not wait: until the result has arrived it reads the old value of a uniform destination, though the window is
over (DESIGN CHOICE, log 59: R138 does not say when such an issue sees the result). -/
def settleTouching (s : State) (id : Nat) (x : Strands) : Bool × State :=
  settle s id fun p f => f.long && f.left = 0 && !suspended p f && f.x &&& x ≠ 0

/-- A window that an instruction of R139 closes: all, but the suspended ones. -/
def closable (p : Strip) (f : Flight) : Bool := f.long && !suspended p f

/-- Bring in every result whose window is to be closed (R139); the windows stay as they are. False when one is missing. -/
def arriveAll (s : State) (id : Nat) : Bool × State :=
  match tableGet s.strips id with
  | none => (true, s)
  | some p =>
    let s := (p.flights.filter (closable p)).foldl (fun s f => performFlight s id f.id) s
    match tableGet s.strips id with
    | none => (true, s)
    | some q => (q.waits.isEmpty && q.flights.all fun f => !closable q f || f.arrived, s)

/-- Close the strip's windows, whose results have arrived (R139): every destination takes its final value. False when a
spill slot's fault stopped it; the windows are then as before. -/
def closeWindows (s : State) (id : Nat) : Bool × State :=
  let z := modStrip s id fun p => { p with flights := p.flights.map fun f => if closable p f then { f with left := 0 } else f }
  match tableGet z.strips id with
  | none => (true, z)
  | some p =>
    let s' := (p.flights.filter (closable p)).foldl (fun s f => (commitFlight s id f.id).2) z
    match tableGet s'.strips id with
    | none => (true, s')
    | some q => if q.flights.any (closable q) then (false, keepWaits s s' id) else (true, s')

/-- RTE waits for the results issued in the handler (R409). -/
def settleHandler (s : State) (id : Nat) : Bool × State :=
  match tableGet s.strips id with
  | none => (true, s)
  | some p =>
    let s := (p.flights.filter fun f => f.handler && f.long).foldl (fun s f => performFlight s id f.id) s
    (!(stripWaits s id) && match tableGet s.strips id with
      | some q => q.flights.all fun f => !f.handler || !f.long || f.arrived
      | none => true, s)

/-- Re-issue the stores recorded at a fault, and what stands before them, in issue order (R419). -/
def reissue (s : State) (id : Nat) : Bool × State :=
  match tableGet s.strips id with
  | none => (true, s)
  | some p =>
    let upto := (List.range p.flights.length).foldl (fun n k => match p.flights[k]? with
      | some g => if g.long || g.later then n else k + 1
      | none => n) 0
    let s := forceList s id (p.flights.take upto)
    match tableGet s.strips id with
    | none => (true, s)
    | some q => (q.waits.isEmpty && q.flights.all (fun f => f.long || f.later), s)

/-- At most 16 results are outstanding (R138): a further one makes the oldest arrive. -/
def makeRoom (s : State) (id : Nat) : Bool × State :=
  match tableGet s.strips id with
  | none => (true, s)
  | some p =>
    let out := p.flights.filter fun f => f.long && !f.arrived
    if out.length < 16 then (true, s)
    else match out with
      | [] => (true, s)
      | f :: _ =>
        let s := performFlight s id f.id
        match tableGet s.strips id with
        | none => (true, s)
        | some q => (((q.flights.filter fun f => f.long && !f.arrived).length < 16) && q.waits.isEmpty, s)

/-- Results that have arrived and whose windows are over take their places. -/
def commitReady (s : State) (id : Nat) : State :=
  match tableGet s.strips id with
  | none => s
  | some p => p.flights.foldl (fun s f =>
      if f.long && f.arrived && f.left = 0 then (commitFlight s id f.id).2 else s) s

/-- Count an issue of `x` in the windows it belongs to (R137, R402). -/
def Strip.countWindows (p : Strip) (x : Strands) : Strip :=
  { p with flights := p.flights.map fun f =>
      if f.long && f.left ≠ 0 && !suspended p f && f.x &&& x ≠ 0 then { f with left := f.left - 1 } else f }

/-! ## New flights -/

/-- Earlier results for the registers of a destination are discarded for strands `x` (R138). -/
def Strip.discardDest (p : Strip) (d : Dest) (x : Strands) : Strip :=
  match d with
  | .s first n => (List.range n).foldl (fun (p : Strip) k => p.discardS (first + k) x) p
  | d => d.vRegs.foldl (fun (p : Strip) r => p.discardV r x) p

/-- Add a flight to a strip. -/
def Strip.addFlight (p : Strip) (f : Flight) : Strip :=
  let q := p.discardDest f.dest f.x
  { q with flights := q.flights ++ [{ f with handler := q.inTrap }] }

/-- An identifier is used. -/
def State.bumpId (s : State) : State := { s with nextId := s.nextId + 1 }

/-- Add a flight to a strip of the machine; the earlier results for its destination are discarded (R138). -/
def pushFlight (s : State) (id : Nat) (f : Flight) : State := (modStrip s id fun p => p.addFlight f).bumpId

end Sys2Proof.Machine
end

