-- ==== Sys2Proof/Machine/Issue.lean ====
section
/-! DEFINITION. One issue of a strip (R124, R125, R130-R132, R137-R139, R256): what must be ready, the traps of legality,
empty entries and addresses, the reads and releases, and the shapes of result that the instruction families share. An
issue that is not ready changes nothing but what made it wait. -/
namespace Sys2Proof.Machine

/-- An issue: the strip, its instruction, the executing set with its PC, the shape, the operands read and the poisoned
entries among them. -/
structure Ctx where
  id : Nat
  instr : Instr
  pc : VA
  x : Strands
  sh : Shape
  ops : Operands
  bad : List (Nat × Nat)
deriving DecidableEq, Repr

/-- An issue that cannot be made now: the machine's own progress comes first. -/
def State.pass (s : State) : State := { s with turn := true }

/-- How far an issue has come. -/
inductive Prep where
  | hold (s : State)
  | go (s : State) (c : Ctx)

/-! ## Legality -/

/-- s registers of a strip. -/
def sregsOf (s : State) (p : Strip) : Nat := match launchOfStrip s p with
  | some (_, l) => l.lrec.sregs
  | none => maxSregs

/-- The detail code of an illegal issue (R69, R411): the codes of the word, then RTE outside a handler and special
registers that do not exist. -/
def issueCode (i : Instr) (s : State) (p : Strip) : Option Nat :=
  match illegalCode i (sregsOf s p) with
  | some c => some c
  | none => match i with
    | .rte _ => if p.inTrap then none else some 11
    | .sprr f => if sprKnown f.imm.toNat then none else some 12
    | .sprw f => if sprKnown f.imm.toNat then none else some 12
    | _ => none

/-- The instruction's word. -/
def wordOf (i : Instr) : DWord := (encode i).getD 0

/-- Instructions that close windows (R139). -/
def closesWindows : Instr → Bool
  | .jwait _ => true
  | .bar _ => true
  | .exit _ => true
  | .wait _ => true
  | .grow _ => true
  | .shrink _ => true
  | _ => false

/-! ## Closing an issue -/

/-- The marks of YIELD that this choice clears, the starvation counts and the windows (R125, R137, R176). -/
def Strip.countIssueOf (p : Strip) (x : Strands) : Strip :=
  let clear := fun t : Strand => { t with deferred := false }
  ({ p with fetchX := 0, strands := countIssue p.frozen x (p.strands.map clear) } : Strip).countWindows x

/-- An issue that traps (R399): it counts as an issue (log 19), has no other effect, and its set enters the handler. -/
def issueTrap (s : State) (id : Nat) (x : Strands) (t : TrapEntry) : State :=
  takeTrap (commitReady (modStrip s id fun p => p.countIssueOf x) id) id t

/-- The trap of an illegal issue (R399, R405). -/
def illegalTrap (s : State) (id : Nat) (pc : VA) (x : Strands) (word : DWord) (code : Nat) : State :=
  issueTrap s id x ⟨causeILLEGAL, code, x, x, pc, word, 0, 0⟩

/-! ## Readiness -/

/-- The workgroup of a strip is being saved (R433, step 1). -/
def savingStrip (s : State) (p : Strip) : Bool := match tableGet s.wgs p.wg with
  | some w => w.saving.isSome
  | none => false

/-- A strip can issue: no fault to wait for, not held back by its die, by YIELD or by a save. -/
def canIssue (s : State) (p : Strip) : Bool :=
  p.waits.isEmpty && !(dieOf s p.die).held && p.yieldUntil ≤ s.clk && !savingStrip s p

/-- Up to the choice of X and the windows that hold the issue back (R132). -/
def chooseIssue (s : State) : Except State (Nat × VA × Strands × State) :=
  match tableGet s.strips s.cur with
  | none => .error s
  | some p =>
    if !canIssue s p then .error s.pass
    else if p.asyncDue then .error (takeAsync s s.cur)
    else
      match p.issueSet with
      | none => .error s.pass
      | some (pc, x) =>
        match reissue s s.cur with
        | (false, s) => .error s.pass
        | (true, s) =>
          match settleTouching s s.cur x with
          | (false, s) => .error s.pass
          | (true, s) => .ok (s.cur, pc, x, s)

/-- Registers cut into steps of 8 (R152). -/
def stepsOf : Nat → List Nat → List (List Nat)
  | 0, _ => []
  | n + 1, l => if l.isEmpty then [] else l.take 8 :: stepsOf n (l.drop 8)

/-- The read steps of an instruction (R152): refill and capture, step by step. False at a fault. -/
def readSteps (s : State) (id : Nat) (instr : List Nat) : List (List Nat) → Table VReg → Bool × Table VReg × State
  | [], cap => (true, cap, s)
  | step :: rest, cap =>
    match refillRegs s id instr step step with
    | (false, s) => (false, cap, s)
    | (true, s) =>
      let cap := match tableGet s.strips id with
        | some p => step.foldl (fun c r => match tableGet p.v r with
          | some v => tablePut c r v
          | none => c) cap
        | none => cap
      readSteps s id instr rest cap

/-- A strip as an instruction sees it: the captured registers in place of spilled ones. -/
def Strip.captured (p : Strip) (cap : Table VReg) : Strip := { p with v := cap.foldl (fun v c => tablePut v c.1 c.2) p.v }

/-- STALE_TRAP of a strip's launch (R181): reading an empty entry traps. -/
def staleTraps (s : State) (p : Strip) : Bool := match launchOfStrip s p with
  | some (_, l) => l.lrec.staleTrap
  | none => false

/-- The instruction is legal and its operands are read (R132, R150, R256 checks 1 and 2). -/
def prepare (i : Instr) (s : State) : Prep :=
  match chooseIssue s with
  | .error s => .hold s
  | .ok (id, pc, x, s) =>
    match tableGet s.strips id with
    | none => .hold s
    | some p =>
      match issueCode i s p with
      | some code => .hold (illegalTrap s id pc x (wordOf i) code)
      | none =>
        let closes := closesWindows i
        match (if closes then arriveAll s id else (true, s)) with
        | (false, s) => .hold s.pass
        | (true, s0) =>
        match (if closes then closeWindows s0 id else (true, s0)) with
        | (false, s) => .hold s.pass
        | (true, s) =>
          let sh := shape i
          match readSteps s id (instrRegs sh) (stepsOf 4 (readsV sh)) [] with
          | (false, _, s') => .hold (if closes then keepWaits s0 s' id else noteRefills s s' id).pass
          | (true, cap, s') =>
            let s := noteRefills s s' id
            match tableGet s.strips id with
            | none => .hold s
            | some p =>
              let p := p.captured cap
              let e := emptyReads p sh x
              if e.1 ≠ 0 && staleTraps s p then
                let s := modStrip s id fun p => p.setStatus stUREAD
                .hold (issueTrap s id x ⟨causeSTALE, 0, x, e.1, pc, wordOf i, e.2.setWidth 32, 0⟩)
              else .go s ⟨id, i, pc, x, sh, operandsOf s p x sh, poisonReads p sh x⟩

/-! ## The issue -/

/-- The sticky bits, the counts and the releases of an issue that is made (R53, R125, R137, R143). -/
def commence (s : State) (c : Ctx) : State :=
  match tableGet s.strips c.id with
  | none => s
  | some p =>
    let bits := if (emptyReads p c.sh c.x).1 ≠ 0 then stUREAD else 0
    modStrip s c.id fun p => releaseAll ((p.setStatus bits).countIssueOf c.x) c.x c.sh

/-- The position of a poisoned register entry in an error record: the strip's number above the entry's (log 17). -/
def entryPos (id : Nat) (b : Nat × Nat) : Nat := id * 2 ^ 16 + b.2

/-- Each poisoned entry that the issue read sets POISON and is counted and logged (R423). -/
def notePoisons (s : State) (id : Nat) (p : Strip) (l : List (Nat × Nat)) : State :=
  l.foldl (fun s b => notePoisonAt s id p b.1 (entryPos id b)) s

/-- One issue of an instruction: its checks (a trap), what it must wait for, and its effect. `act` says whether the effect
took place; when a spill slot's fault stopped it, the issue is undone. -/
def issue (i : Instr) (check : State → Ctx → Option TrapEntry) (hold : State → Ctx → Bool × State)
    (act : State → Ctx → Bool × State) (s : State) : State :=
  match prepare i s with
  | .hold s => s
  | .go s c =>
    match check s c with
    | some t => issueTrap s c.id c.x t
    | none =>
      match hold s c with
      | (false, s) => s.pass
      | (true, s) =>
        match act (commence s c) c with
        | (true, s') =>
          let s' := noteRefills s s' c.id
          let s' := match tableGet s.strips c.id with
            | some p => notePoisons s' c.id p c.bad
            | none => s'
          commitReady s' c.id
        | (false, s') => keepWaits s s' c.id

/-- No check, nothing to wait for. -/
def noCheck (_ : State) (_ : Ctx) : Option TrapEntry := none
def noHold (s : State) (_ : Ctx) : Bool × State := (true, s)

/-- An issue without checks or waits. -/
def issueSimple (i : Instr) (act : State → Ctx → Bool × State) (s : State) : State := issue i noCheck noHold act s

/-! ## Results -/

/-- Advance the executing set. -/
def advanceX (s : State) (c : Ctx) : State := modStrip s c.id fun p => p.advance c.x

/-- Write a lane destination for the executing set (R72), discarding pending results (R138). -/
def writeLane (s : State) (c : Ctx) (vals : List (List Word)) : Bool × State :=
  match destOf c.sh with
  | .v first n =>
    let s := modStrip s c.id fun p => (List.range n).foldl (fun (p : Strip) k => p.discardV (first + k) c.x) p
    writeRegs s c.id first c.x vals (instrRegs c.sh) n 0
  | _ => (true, s)

/-- Finish a lane instruction: flags, destination, PC. -/
def laneResult (s : State) (c : Ctx) (vals : List (List Word)) (fl : Flags) : Bool × State :=
  match writeLane (modStrip s c.id fun p => p.raise fl) c vals with
  | (false, s) => (false, s)
  | (true, s) => (true, advanceX s c)

/-- The results of a computation of each strand by itself: words for each executing strand, and the flags of all. -/
def each (g : Operands → Nat → Result) (x : Strands) (o : Operands) : Results :=
  let r := strandIxs.map fun i => if x.getLsbD i then g o i else ([], 0)
  (r.map fun w => w.1, r.foldl (fun fl w => fl ||| w.2) 0)

/-- A lane instruction that computes one result for each strand, by itself or across strands (R72, R156). -/
def laneOp (i : Instr) (g : Strands → Operands → Results) (s : State) : Host.Outcome State Fault Refusal :=
  .next (issueSimple i (fun s c =>
    let r := g c.x c.ops
    laneResult s c r.1 r.2) s)

/-- A uniform instruction that computes one result (R130, R170). -/
def uniformOp (i : Instr) (g : Operands → Result) (s : State) : Host.Outcome State Fault Refusal :=
  .next (issueSimple i (fun s c =>
    let r := g c.ops
    (true, modStrip s c.id fun p => ((p.raise r.2).writeS c.x c.sh.d.toNat r.1).advance c.x)) s)

/-! ## Long-latency results -/

/-- A new flight of an issue: `undone` strands still to perform, `got` the results known already. -/
def newFlight (s : State) (c : Ctx) (dest : Dest) (undone : Strands) (got : List (List Word)) (fl : Flags) (long : Bool)
    : Flight where
  id := s.nextId
  instr := c.instr
  pc := c.pc
  x := c.x
  undone := undone
  left := c.sh.la.toNat
  dest := dest
  lost := match dest with
    | .s _ n => List.replicate n 0
    | d => List.replicate d.vRegs.length 0
  ops := c.ops
  got := got
  flags := fl
  arrived := false
  staged := false
  handler := false
  long := long
  zero := false
  later := false
  notes := []
  part := []
  partBad := 0
  spoilt := []

/-- Results with nothing in them yet. -/
def noResults : List (List Word) := List.replicate 16 []

/-- A long-latency instruction waits until fewer than 16 results are outstanding (R138). -/
def holdRoom (s : State) (c : Ctx) : Bool × State := makeRoom s c.id

/-- Put a long-latency instruction in flight and advance. -/
def launchFlight (s : State) (c : Ctx) (dest : Dest) (undone : Strands) (got : List (List Word)) (fl : Flags)
    : Bool × State :=
  (true, advanceX (pushFlight s c.id (newFlight s c dest undone got fl true)) c)

/-- A long-latency lane computation: known at issue, raised and delivered at its arrival (R136, R501). -/
def laneLong (i : Instr) (g : Strands → Operands → Results) (s : State) : Host.Outcome State Fault Refusal :=
  .next (issue i noCheck holdRoom (fun s c =>
    let r := g c.x c.ops
    launchFlight s c (destOf c.sh) 0 r.1 r.2) s)

end Sys2Proof.Machine
end

