-- ==== Sys2Proof/Machine/MemoryInstr.lean ====
section
/-! DEFINITION. The meanings of the memory, atomic, fence, walker and allocator instructions (R113-R119, R171, R255-R268,
R332-R346, R459, R460), of ENQ (R211) and of CCNT (R210). -/
namespace Sys2Proof.Machine

/-! ## Checks -/

/-- A MISALIGN trap for failing strands, with the lowest one's address (R399, R406). -/
def misalignTrap (c : Ctx) (fails : Strands) (ea : Nat) : TrapEntry :=
  ⟨causeMISALIGN, 0, c.x, fails, c.pc, wordOf c.instr, BitVec.ofNat 32 ea, BitVec.ofNat 32 (ea / 2 ^ 32)⟩

/-- Alignment (R256 check 3). -/
def checkAlign (_ : State) (c : Ctx) : Option TrapEntry :=
  let fails := alignFails c.instr c.x c.ops
  if fails = 0 then none else some (misalignTrap c fails (pairEa (c.ops.bOf (lowStrand fails))))

/-- The scratch window (R256 check 4). -/
def checkScratch (s : State) (c : Ctx) : Option TrapEntry :=
  match tableGet s.strips c.id with
  | none => none
  | some p =>
    let fails := scratchFails s p c.instr c.x c.ops
    if fails = 0 then none
    else
      let a := match scratchAccess c.instr c.ops (lowStrand fails) with
        | some (a, _) => a
        | none => 0
      some ⟨causeSCRATCH, 0, c.x, fails, c.pc, wordOf c.instr, BitVec.ofInt 32 a, BitVec.ofNat 32 (scratchSize s p)⟩

/-- CCNT's and PHWAIT's record address (R210, R470). -/
def checkRecord (align : Nat) (_ : State) (c : Ctx) : Option TrapEntry :=
  let a := pairEa c.ops.ua
  if a % align = 0 then none else some (misalignTrap c c.x a)

/-! ## Waits -/

/-- Perform the strip's earlier accesses that a test picks. -/
def forceFor (s : State) (c : Ctx) (pick : Flight → Bool) : Bool × State :=
  match tableGet s.strips c.id with
  | none => (true, s)
  | some p =>
    let s := (p.flights.filter fun f => pick f && f.undone ≠ 0).foldl (fun s f => performFlight s c.id f.id) s
    match tableGet s.strips c.id with
    | none => (true, s)
    | some q => (q.waits.isEmpty && q.flights.all (fun f => !pick f || f.undone == 0), s)

/-- Earlier acquires, and before a write earlier fences with REL, come first (R245, R246). -/
def holdAcquires (s : State) (c : Ctx) : Bool × State :=
  forceFor s c fun f => f.x &&& c.x != 0 && ((acquireOf f.instr).isSome || isFence f.instr)

/-- An access of the uniform pipe (R266). -/
def uniformAccess : Instr → Bool
  | .sld _ => true
  | .sst _ => true
  | _ => false

/-- Every earlier access of the executing set, and of the strip's uniform pipe, comes first (R245, R266). -/
def holdAll (s : State) (c : Ctx) : Bool × State := forceFor s c fun f => f.x &&& c.x ≠ 0 || uniformAccess f.instr

/-- A scratch access waits for overlapping engine commands (R278), and for room if it is long-latency. -/
def holdScratch (long release : Bool) (s : State) (c : Ctx) : Bool × State :=
  match tableGet s.strips c.id with
  | none => (true, s)
  | some p =>
    if scratchStalls s p c.instr c.x c.ops then (false, s)
    else
      match (if release then holdAll s c else holdAcquires s c) with
      | (false, s) => (false, s)
      | (true, s) => if long then makeRoom s c.id else (true, s)

/-! ## Shapes of access -/

/-- A long-latency access, performed later (R137, R242). -/
def memoryLoad (i : Instr) (check : State → Ctx → Option TrapEntry) (s : State) : Host.Outcome State Fault Refusal :=
  .next (issue i check holdRoom (fun s c => launchFlight s c (destOf c.sh) c.x noResults 0) s)

/-- A long-latency access of the uniform pipe. -/
def uniformLoad (i : Instr) (check : State → Ctx → Option TrapEntry) (s : State) : Host.Outcome State Fault Refusal :=
  .next (issue i check holdRoom (fun s c => launchFlight s c (destOf c.sh) 1 [[]] 0) s)

/-- An earlier access of the executing set, or of the uniform pipe, is still to be performed. -/
def earlierPending (s : State) (c : Ctx) : Bool := match tableGet s.strips c.id with
  | none => false
  | some p => p.flights.any fun f => f.undone != 0 && accessSet f.instr f.x &&& c.x != 0

/-- A release that waits for its strands' earlier accesses lets the strip go on (R245, R258, R266): its drain begins at the
issue, and its write, or its part as a fence, is performed after those accesses. -/
def leaveRelease (s : State) (c : Ctx) (undone : Strands) : State :=
  let s := match tableGet s.strips c.id, releaseOf c.instr with
    | some p, some sc => releaseDuty s c.id p sc
    | _, _ => s
  pushFlight s c.id { newFlight s c .none undone noResults 0 false with later := true }

/-- An access without a result, performed at its issue; what faults is recorded for re-issue (R418). A release behind an
unperformed access is performed later. -/
def memoryStore (i : Instr) (check : State → Ctx → Option TrapEntry) (uniform : Bool) (s : State)
    : Host.Outcome State Fault Refusal :=
  .next (issue i check noHold (fun s c =>
    let undone := if uniform then 1 else c.x
    if (releaseOf i).isSome && earlierPending s c then (true, advanceX (leaveRelease s c undone) c)
    else
      let fid := s.nextId
      let s := pushFlight s c.id (newFlight s c .none undone noResults 0 false)
      (true, advanceX (performFlight s c.id fid) c)) s)

/-- LDL and ATOML: on the core's scratch at the issue, delivered as a long-latency result (R259, R264). -/
def scratchLoad (i : Instr) (check : State → Ctx → Option TrapEntry) (s : State) : Host.Outcome State Fault Refusal :=
  .next (issue i check (holdScratch true (releaseOf i).isSome) (fun s c =>
    let fid := s.nextId
    let s := match tableGet s.strips c.id, releaseOf i with
      | some p, some sc => releaseDuty s c.id p sc
      | _, _ => s
    let s := (launchFlight s c (destOf c.sh) c.x noResults 0).2
    (true, acquireDuty (performNow s c.id fid wholeSet wholeSet) c.id fid)) s)

/-! ## Loads and stores -/

/-- LDG (R114). -/
def execLdg (f : FmtM) (s : State) : Host.Outcome State Fault Refusal := memoryLoad (.ldg f) noCheck s

/-- LDC (R117). -/
def execLdc (f : FmtM) (s : State) : Host.Outcome State Fault Refusal := memoryLoad (.ldc f) noCheck s

/-- LDGA (R257). -/
def execLdga (f : FmtMA) (s : State) : Host.Outcome State Fault Refusal := memoryLoad (.ldga f) checkAlign s

/-- STG (R115). -/
def execStg (f : FmtM) (s : State) : Host.Outcome State Fault Refusal := memoryStore (.stg f) noCheck false s

/-- STGR (R258). -/
def execStgr (f : FmtMA) (s : State) : Host.Outcome State Fault Refusal := memoryStore (.stgr f) checkAlign false s

/-- REDG (R263). -/
def execRedg (f : FmtMA) (s : State) : Host.Outcome State Fault Refusal := memoryStore (.redg f) checkAlign false s

/-- ATOMG (R262). -/
def execAtomg (f : FmtMA) (s : State) : Host.Outcome State Fault Refusal := memoryLoad (.atomg f) checkAlign s

/-- LDL (R259). -/
def execLdl (f : FmtM) (s : State) : Host.Outcome State Fault Refusal := scratchLoad (.ldl f) checkScratch s

/-- ATOML (R264): alignment first, then the window. -/
def execAtoml (f : FmtMA) (s : State) : Host.Outcome State Fault Refusal :=
  scratchLoad (.atoml f) (fun s c =>
    let n := if f.w then 8 else 4
    let fails := strandSet fun k => c.x.getLsbD k && (word0 (c.ops.bOf k)).toNat % n != 0
    if fails = 0 then checkScratch s c
    else some (misalignTrap c fails (word0 (c.ops.bOf (lowStrand fails))).toNat)) s

/-- STL (R259). -/
def execStl (f : FmtM) (s : State) : Host.Outcome State Fault Refusal :=
  .next (issue (.stl f) checkScratch (holdScratch false false) (fun s c =>
    match tableGet s.strips c.id with
    | none => (true, s)
    | some p => (true, advanceX (storeScratch s p f c.x c.ops) c)) s)

/-- SLD (R171). -/
def execSld (f : FmtM) (s : State) : Host.Outcome State Fault Refusal := uniformLoad (.sld f) noCheck s

/-- SST (R171). -/
def execSst (f : FmtM) (s : State) : Host.Outcome State Fault Refusal := memoryStore (.sst f) noCheck true s

/-- PREF (R265): it may be dropped, and changes no value. -/
def execPref (f : FmtM) (s : State) : Host.Outcome State Fault Refusal :=
  .next (issueSimple (.pref f) (fun s c => (true, advanceX s c)) s)

/-! ## Fences -/

/-- The duties of a fence (R246): the release's drain, then the acquire's invalidations. -/
def fenceDuty (s : State) (c : Ctx) (ord : BitVec 2) (scope : Nat) : State :=
  match tableGet s.strips c.id with
  | none => s
  | some p =>
    let s := if ord.getLsbD 1 then releaseDuty s c.id p scope else s
    if ord.getLsbD 0 then acquireScope s (stripAgent s p) scope else s

/-- FENCE (R246, R266). With REL alone it waits for no load: earlier accesses are performed before later writes. -/
def execFence (f : FmtMA) (s : State) : Host.Outcome State Fault Refusal :=
  .next (issue (.fence f) noCheck (if f.ord = 2 then noHold else holdAll) (fun s c =>
    if f.ord = 2 && earlierPending s c then (true, advanceX (leaveRelease s c 1) c)
    else (true, advanceX (fenceDuty s c f.ord f.scope.toNat) c)) s)

/-- Drain the SCBs of a partition's cores on a die (R460). -/
def drainPartition (s : State) (part die : Nat) : State :=
  s.cores.foldl (fun s c =>
    if c.1 / 96 = die ∧ s.parts.getD (die * 4 + c.1 % 96 / 24) 16 = part then drainAll s c.1 else s) s

/-- FENCE.PROMOTE (R459, R460). -/
def execFencePromote (f : FmtMA) (s : State) : Host.Outcome State Fault Refusal :=
  .next (issue (.fencePromote f) noCheck holdAll (fun s c =>
    let s := fenceDuty s c f.ord 2
    match tableGet s.strips c.id with
    | none => (true, s)
    | some p =>
      let d := (word0 c.ops.ua).toNat % 4
      let j := stripJob s p
      if d ≠ p.die ∧ holdsSector s j.part d then
        let s := drainPartition s j.part d
        (true, advanceX (dropRdcJob s p.die j.asid fun line => homeDie (line * 128) == d) c)
      else (true, advanceX s c)) s)

/-- DISCARD (R267). -/
def execDiscard (f : FmtR) (s : State) : Host.Outcome State Fault Refusal := memoryStore (.discard f) noCheck true s

/-- DGST (R268). -/
def execDgst (f : FmtR) (s : State) : Host.Outcome State Fault Refusal := uniformLoad (.dgst f) noCheck s

/-! ## The walker and Mint -/

/-- VLOOK (R334). -/
def execVlook (f : FmtR) (s : State) : Host.Outcome State Fault Refusal := memoryLoad (.vlook f) noCheck s

/-- VSTEN (R335). -/
def execVsten (f : FmtR) (s : State) : Host.Outcome State Fault Refusal := memoryLoad (.vsten f) noCheck s

/-- VMARCH (R338): it writes its D pair and its position triple. -/
def execVmarch (f : FmtR) (s : State) : Host.Outcome State Fault Refusal :=
  .next (issue (.vmarch f) noCheck holdRoom (fun s c =>
    launchFlight s c (.march f.d.toNat (selNum f.a.sel)) c.x noResults 0) s)

/-- VPROBE (R336). -/
def execVprobe (f : FmtR) (s : State) : Host.Outcome State Fault Refusal := memoryLoad (.vprobe f) noCheck s

/-- Requests to the die's Mint for strands of a flight (R339). -/
def sendMint (s : State) (c : Ctx) (flight : Option Nat) (strands : List Nat) : State :=
  match tableGet s.strips c.id with
  | none => s
  | some p =>
    let reqs := strands.map fun i => (⟨c.id, p.coreId, stripJob s p, flight, i, c.instr, c.ops, false, .fresh⟩ : MintReq)
    modDie s p.die fun d => { d with mint := d.mint ++ reqs }

/-- VINS (R343). -/
def execVins (f : FmtMA) (s : State) : Host.Outcome State Fault Refusal :=
  .next (issue (.vins f) noCheck holdRoom (fun s c =>
    let s := sendMint s c (some s.nextId) (strandsOf c.x)
    launchFlight s c (destOf c.sh) c.x noResults 0) s)

/-- VACT (R345). -/
def execVact (f : FmtMA) (s : State) : Host.Outcome State Fault Refusal := memoryLoad (.vact f) noCheck s

/-- VALLOC (R341). -/
def execValloc (f : FmtR) (s : State) : Host.Outcome State Fault Refusal :=
  .next (issue (.valloc f) noCheck holdRoom (fun s c =>
    let s := sendMint s c (some s.nextId) [0]
    launchFlight s c (destOf c.sh) 1 [[]] 0) s)

/-- VFREE (R342): a release at DIE scope, then a request to Mint. -/
def execVfree (f : FmtR) (s : State) : Host.Outcome State Fault Refusal :=
  .next (issue (.vfree f) noCheck noHold (fun s c =>
    match tableGet s.strips c.id with
    | none => (true, s)
    | some p =>
      if earlierPending s c then (true, advanceX (leaveRelease s c 1) c)
      else (true, advanceX (sendMint (releaseDuty s c.id p 2) c none [0]) c)) s)

/-- WFENCE (R346). -/
def execWfence (f : FmtMA) (s : State) : Host.Outcome State Fault Refusal :=
  .next (issue (.wfence f) noCheck holdAll (fun s c =>
    match tableGet s.strips c.id with
    | none => (true, s)
    | some p =>
      let s := dropWalker (releaseCore s p.coreId) p.coreId
      (true, advanceX (fenceDuty s c f.ord f.scope.toNat) c)) s)

/-! ## Work -/

/-- ENQ (R211). -/
def execEnq (f : FmtR) (s : State) : Host.Outcome State Fault Refusal := memoryLoad (.enq f) noCheck s

/-- CCNT (R210). -/
def execCcnt (f : FmtE) (s : State) : Host.Outcome State Fault Refusal := uniformLoad (.ccnt f) (checkRecord 32) s

end Sys2Proof.Machine
end

