-- ==== Sys2Proof/Machine/Control.lean ====
section
/-! DEFINITION. The meanings of branches, calls and exits (R107-R112, R173, R174), rejoin registers (R127-R129, R168,
R169), strip control (R175-R179), WAIT (R284) and the trap instructions (R408-R410). -/
namespace Sys2Proof.Machine

/-! ## Branches -/

/-- The target of a format B branch (R107). -/
def branchTarget (pc : VA) (off : Word) : VA := pc + 8 + BitVec.ofInt 48 (8 * off.toInt)
/-- An indirect target (R12): bits [2:0] and [63:48] are ignored. -/
def indirectTarget (l : List Word) : VA := BitVec.ofNat 48 ((dword0 l).toNat / 8 * 8)

/-- The executing strands whose condition holds on one of their operands. -/
def takenSet (c : Ctx) (fn : BitVec 4) (o : Nat → List Word) : Strands :=
  strandSet fun i => c.x.getLsbD i && condition fn (word0 (o i))

/-- Send strands of the executing set to addresses of their own, the rest to the next word. -/
def branchTo (s : State) (c : Ctx) (taken : Strands) (target : Nat → VA) : State :=
  let go := fun it : Nat × Strand =>
    if !c.x.getLsbD it.1 then it.2
    else if taken.getLsbD it.1 then { it.2 with pc := target it.1 }
    else { it.2 with pc := it.2.pc + 8 }
  modStrip s c.id fun p => { p with strands := (strandIxs.zip p.strands).map go }

/-- BRA (R107). -/
def execBra (f : FmtB) (s : State) : Host.Outcome State Fault Refusal :=
  .next (issueSimple (.bra f) (fun s c =>
    (true, branchTo s c (takenSet c f.fn c.ops.aOf) fun _ => branchTarget c.pc f.off)) s)

/-- BRX (R108). -/
def execBrx (f : FmtR) (s : State) : Host.Outcome State Fault Refusal :=
  .next (issueSimple (.brx f) (fun s c =>
    (true, branchTo s c (takenSet c f.fn c.ops.bOf) fun i => indirectTarget (c.ops.aOf i))) s)

/-- CALL (R109): the strands that branch write their link. -/
def execCall (f : FmtB) (s : State) : Host.Outcome State Fault Refusal :=
  .next (issueSimple (.call f) (fun s c =>
    let taken := takenSet c f.fn c.ops.aOf
    let link := wordsOf 2 (c.pc + 8).toNat
    match writeLane s { c with x := taken } (strandIxs.map fun _ => link) with
    | (false, s) => (false, s)
    | (true, s) => (true, branchTo s c taken fun _ => branchTarget c.pc f.off)) s)

/-- RET (R110). -/
def execRet (f : FmtR) (s : State) : Host.Outcome State Fault Refusal :=
  .next (issueSimple (.ret f) (fun s c => (true, branchTo s c c.x fun i => indirectTarget (c.ops.aOf i))) s)

/-- SBRA (R173). -/
def execSbra (f : FmtB) (s : State) : Host.Outcome State Fault Refusal :=
  .next (issueSimple (.sbra f) (fun s c =>
    let taken := if condition f.fn (word0 c.ops.ua) then c.x else 0
    (true, branchTo s c taken fun _ => branchTarget c.pc f.off)) s)

/-- SBRX (R174). -/
def execSbrx (f : FmtR) (s : State) : Host.Outcome State Fault Refusal :=
  .next (issueSimple (.sbrx f) (fun s c =>
    let taken := if condition f.fn (word0 c.ops.ub) then c.x else 0
    (true, branchTo s c taken fun _ => indirectTarget c.ops.ua)) s)

/-- EXIT (R111). -/
def execExit (f : FmtR) (s : State) : Host.Outcome State Fault Refusal :=
  .next (issueSimple (.exit f) (fun s c => (true, exitStrands s c.id c.x)) s)

/-- NOP (R112). -/
def execNop (f : FmtR) (s : State) : Host.Outcome State Fault Refusal :=
  .next (issueSimple (.nop f) (fun s c => (true, advanceX s c)) s)

/-! ## Rejoin registers -/

/-- A rejoin register with the executing set ORed into ARRIVED (R127). -/
def arriveJoin (w : Word) (x : Strands) : Word := w ||| maskWord x 0

/-- JINIT (R168). -/
def execJinit (f : FmtR) (s : State) : Host.Outcome State Fault Refusal :=
  .next (issueSimple (.jinit f) (fun s c =>
    (true, advanceX (modStrip s c.id fun p => p.writeS c.x f.d.toNat [maskWord 0 c.x]) c)) s)

/-- JARV (R127, R169). -/
def execJarv (f : FmtR) (s : State) : Host.Outcome State Fault Refusal :=
  .next (issueSimple (.jarv f) (fun s c =>
    let reg := selNum f.a.sel
    (true, advanceX (modStrip s c.id fun p => p.writeS c.x reg [arriveJoin (p.readS reg) c.x]) c)) s)

/-- JWAIT (R127-R129): its set arrives, and blocks unless the condition is met. -/
def execJwait (f : FmtR) (s : State) : Host.Outcome State Fault Refusal :=
  .next (issueSimple (.jwait f) (fun s c =>
    let reg := selNum f.a.sel
    (true, modStrip s c.id fun p => (p.block c.x (.join reg)).writeS c.x reg [arriveJoin (p.readS reg) c.x])) s)

/-! ## Strip control -/

/-- The blocked strands (R124). -/
def Strip.blockedSet (p : Strip) : Strands := strandSet fun i => match p.stOf i with
  | .blocked _ => true
  | _ => false
/-- The strands in state RUNNABLE (R124), frozen or not. -/
def Strip.runnableSet (p : Strip) : Strands := strandSet fun i => p.stOf i == .runnable

/-- SGETM (R175). -/
def execSgetm (f : FmtR) (s : State) : Host.Outcome State Fault Refusal :=
  .next (issueSimple (.sgetm f) (fun s c =>
    let get := fun p : Strip => match f.mod.toNat with
      | 0 => c.x
      | 1 => p.live
      | 2 => p.runnableSet
      | _ => p.blockedSet
    (true, modStrip s c.id fun p => (p.writeS c.x f.d.toNat [maskWord 0 (get p)]).advance c.x)) s)

/-- YIELD (R176). -/
def execYield (f : FmtR) (s : State) : Host.Outcome State Fault Refusal :=
  .next (issueSimple (.yield f) (fun s c =>
    let n := min (word0 c.ops.ua).toNat 1023
    let mark := fun t : Strand => { t with deferred := true }
    (true, modStrip s c.id fun p => ({ p.onStrands c.x mark with yieldUntil := s.clk + n + 1 } : Strip).advance c.x)) s)

/-- BAR (R177): the set arrives and blocks; with AR the arrival is a release at GROUP scope, behind the earlier releases of
its strands. -/
def execBar (f : FmtR) (s : State) : Host.Outcome State Fault Refusal :=
  .next (issue (.bar f) noCheck (if f.mod == 1 then fun s c => forceFor s c fun g => g.later && g.x &&& c.x != 0 else noHold)
    (fun s c =>
    match tableGet s.strips c.id with
    | none => (true, s)
    | some p =>
      let ar := f.mod == 1
      let s := if ar then releaseDuty s c.id p 1 else s
      let s := modStrip s c.id fun p => p.block c.x (.bar f.fn.toNat ar)
      (true, checkBar s p.wg f.fn.toNat)) s)

/-- GROW (R147, R178): a claim on the slice, granted by its queue. -/
def execGrow (f : FmtR) (s : State) : Host.Outcome State Fault Refusal :=
  .next (issueSimple (.grow f) (fun s c =>
    match tableGet s.strips c.id with
    | none => (true, s)
    | some p =>
      let k := s.nextId
      let floor := min 384 (p.floor + (word0 c.ops.ua).toNat)
      let s := modStrip { s with nextId := k + 1 } c.id fun p => p.block c.x (.grow k)
      (true, placeClaim s p.coreId p.sliceKey (.grow k c.id floor p.slot s.clk))) s)

/-- SHRINK (R148, R178). -/
def execShrink (f : FmtR) (s : State) : Host.Outcome State Fault Refusal :=
  .next (issueSimple (.shrink f) (fun s c =>
    (true, modStrip s c.id fun p =>
      ({ p with floor := max 8 (p.floor - (word0 c.ops.ua).toNat) } : Strip).advance c.x)) s)

/-- HBEAT (R179). -/
def execHbeat (f : FmtR) (s : State) : Host.Outcome State Fault Refusal :=
  .next (issueSimple (.hbeat f) (fun s c =>
    match tableGet s.strips c.id with
    | none => (true, s)
    | some p => (true, advanceX (heartbeat s p) c)) s)

/-- WAIT (R283, R284): an acquire at GROUP scope when its mask is not 0. -/
def execWait (f : FmtR) (s : State) : Host.Outcome State Fault Refusal :=
  .next (issueSimple (.wait f) (fun s c =>
    match tableGet s.strips c.id with
    | none => (true, s)
    | some p =>
      let m : BitVec 8 := (word0 c.ops.ua).setWidth 8
      if p.tokensFree m then
        let s := advanceX s c
        (true, if m = 0 then s else acquireScope s (stripAgent s p) 1)
      else (true, modStrip s c.id fun p => p.block c.x (.wait m))) s)

/-! ## Traps -/

/-- TRAP (R399, R408): the SOFTWARE trap; the instruction completes. -/
def execTrap (f : FmtI) (s : State) : Host.Outcome State Fault Refusal :=
  .next (issueSimple (.trap f) (fun s c =>
    (true, takeTrap s c.id ⟨causeSOFTWARE, 0, c.x, c.x, c.pc + 8, wordOf (.trap f), f.imm, 0⟩)) s)

/-- RTE with the set `x` added leaves no vectored strand missing (R409). -/
def rteComplete (p : Strip) (x : Strands) : Bool := p.vec &&& ~~~(p.atRte ||| x ||| p.exited) == 0

/-- RTE (R409): it waits for the rest of VEC, then for the handler's results; the RTE that completes the set chooses
SKIP (log 22). -/
def execRte (f : FmtR) (s : State) : Host.Outcome State Fault Refusal :=
  .next (issue (.rte f) noCheck
    (fun s c => match tableGet s.strips c.id with
      | some p => if rteComplete p c.x then settleHandler s c.id else (true, s)
      | none => (true, s))
    (fun s c =>
      let skip := f.mod == 1
      (true, modStrip s c.id fun p =>
        let p := p.block c.x (.rte skip)
        if p.rteReady then p.endHandler skip else p)) s)

/-- SPRR (R410). -/
def execSprr (f : FmtI) (s : State) : Host.Outcome State Fault Refusal :=
  .next (issueSimple (.sprr f) (fun s c =>
    (true, modStrip s c.id fun p => (p.writeS c.x f.d.toNat [sprRead s p f.imm.toNat]).advance c.x)) s)

/-- SPRW (R410). -/
def execSprw (f : FmtI) (s : State) : Host.Outcome State Fault Refusal :=
  .next (issueSimple (.sprw f) (fun s c =>
    (true, modStrip s c.id fun p => (p.sprWrite f.imm.toNat (word0 c.ops.ua)).advance c.x)) s)

end Sys2Proof.Machine
end

