-- ==== Sys2Proof/Machine/LaneFloat.lean ====
section
/-! DEFINITION. The meanings of the lane pipe's floating-point and conversion instructions (R93-R106). -/
namespace Sys2Proof.Machine

/-- FADD (R94). -/
def execFadd (f : FmtR) (s : State) : Host.Outcome State Fault Refusal :=
  laneOp (.fadd f) (each fun o i => fpAdd f (o.aOf i) (o.bOf i)) s

/-- FSUB (R94). -/
def execFsub (f : FmtR) (s : State) : Host.Outcome State Fault Refusal :=
  laneOp (.fsub f) (each fun o i => fpSub f (o.aOf i) (o.bOf i)) s

/-- FMUL (R94). -/
def execFmul (f : FmtR) (s : State) : Host.Outcome State Fault Refusal :=
  laneOp (.fmul f) (each fun o i => fpMul f (o.aOf i) (o.bOf i)) s

/-- FFMA (R94). -/
def execFfma (f : FmtR) (s : State) : Host.Outcome State Fault Refusal :=
  laneOp (.ffma f) (each fun o i => fpFma f (o.aOf i) (o.bOf i) (o.cOf i)) s

/-- FMIN (R95). -/
def execFmin (f : FmtR) (s : State) : Host.Outcome State Fault Refusal :=
  laneOp (.fmin f) (each fun o i => fpMinMax false f (o.aOf i) (o.bOf i)) s

/-- FMAX (R95). -/
def execFmax (f : FmtR) (s : State) : Host.Outcome State Fault Refusal :=
  laneOp (.fmax f) (each fun o i => fpMinMax true f (o.aOf i) (o.bOf i)) s

/-- FCMP (R96). -/
def execFcmp (f : FmtR) (s : State) : Host.Outcome State Fault Refusal :=
  laneOp (.fcmp f) (each fun o i => fpCmp f (o.aOf i) (o.bOf i)) s

/-- FCLASS (R97). -/
def execFclass (f : FmtR) (s : State) : Host.Outcome State Fault Refusal :=
  laneOp (.fclass f) (each fun o i => fpClass f (o.aOf i)) s

/-- FRND (R98). -/
def execFrnd (f : FmtR) (s : State) : Host.Outcome State Fault Refusal :=
  laneOp (.frnd f) (each fun o i => fpRnd f (o.aOf i)) s

/-- FSCALE (R99). -/
def execFscale (f : FmtR) (s : State) : Host.Outcome State Fault Refusal :=
  laneOp (.fscale f) (each fun o i => fpScale f (o.aOf i) (o.bOf i)) s

/-- FRCP (R100). -/
def execFrcp (f : FmtR) (s : State) : Host.Outcome State Fault Refusal :=
  laneLong (.frcp f) (each fun o i => fpFun fRcp f (o.aOf i)) s

/-- FRSQ (R100). -/
def execFrsq (f : FmtR) (s : State) : Host.Outcome State Fault Refusal :=
  laneLong (.frsq f) (each fun o i => fpFun fRsq f (o.aOf i)) s

/-- FSQRT (R94). -/
def execFsqrt (f : FmtR) (s : State) : Host.Outcome State Fault Refusal :=
  laneLong (.fsqrt f) (each fun o i => fpSqrt f (o.aOf i)) s

/-- FDIV (R94). -/
def execFdiv (f : FmtR) (s : State) : Host.Outcome State Fault Refusal :=
  laneLong (.fdiv f) (each fun o i => fpDiv f (o.aOf i) (o.bOf i)) s

/-- FEX2 (R100). -/
def execFex2 (f : FmtR) (s : State) : Host.Outcome State Fault Refusal :=
  laneLong (.fex2 f) (each fun o i => fpFun fEx2 f (o.aOf i)) s

/-- FLG2 (R100). -/
def execFlg2 (f : FmtR) (s : State) : Host.Outcome State Fault Refusal :=
  laneLong (.flg2 f) (each fun o i => fpFun fLg2 f (o.aOf i)) s

/-- FSINPI (R100). -/
def execFsinpi (f : FmtR) (s : State) : Host.Outcome State Fault Refusal :=
  laneLong (.fsinpi f) (each fun o i => fpFun fSinPi f (o.aOf i)) s

/-- FCOSPI (R100). -/
def execFcospi (f : FmtR) (s : State) : Host.Outcome State Fault Refusal :=
  laneLong (.fcospi f) (each fun o i => fpFun fCosPi f (o.aOf i)) s

/-- FTANH (R100). -/
def execFtanh (f : FmtR) (s : State) : Host.Outcome State Fault Refusal :=
  laneLong (.ftanh f) (each fun o i => fpFun fTanh f (o.aOf i)) s

/-- HFMA2 (R101). -/
def execHfma2 (f : FmtR) (s : State) : Host.Outcome State Fault Refusal :=
  laneOp (.hfma2 f) (each fun o i => hfma2Op f (o.aOf i) (o.bOf i) (o.cOf i)) s

/-- FDOT2 (R102). -/
def execFdot2 (f : FmtR) (s : State) : Host.Outcome State Fault Refusal :=
  laneOp (.fdot2 f) (each fun o i => fdot2Op f (o.aOf i) (o.bOf i) (o.cOf i)) s

/-- CVT (R104). -/
def execCvt (f : FmtR) (s : State) : Host.Outcome State Fault Refusal :=
  laneOp (.cvt f) (each fun o i => cvtOp f (o.aOf i)) s

/-- CVTPK (R105). -/
def execCvtpk (f : FmtR) (s : State) : Host.Outcome State Fault Refusal :=
  laneOp (.cvtpk f) (each fun o i => cvtpkOp f (o.aOf i) (o.cOf i)) s

/-- CVTXP (R106). -/
def execCvtxp (f : FmtR) (s : State) : Host.Outcome State Fault Refusal :=
  laneOp (.cvtxp f) (each fun o i => cvtxpOp f (o.aOf i) (o.cOf i)) s

end Sys2Proof.Machine
end

