-- ==== Sys2Proof/Machine/LaneGroup.lean ====
section
/-! DEFINITION. The meanings of the cross-strand instructions (R156-R167). -/
namespace Sys2Proof.Machine

/-- SHFL (R160). -/
def execShfl (f : FmtR) (s : State) : Host.Outcome State Fault Refusal :=
  laneOp (.shfl f) (fun x o => shuffleOp shflSource f x o) s

/-- GSHFL (R160). -/
def execGshfl (f : FmtR) (s : State) : Host.Outcome State Fault Refusal :=
  laneOp (.gshfl f) (fun x o => shuffleOp gshflSource f x o) s

/-- VOTE (R161). -/
def execVote (f : FmtR) (s : State) : Host.Outcome State Fault Refusal :=
  laneOp (.vote f) (fun x o => voteOp f x o) s

/-- RED (R163). -/
def execRed (f : FmtR) (s : State) : Host.Outcome State Fault Refusal :=
  laneOp (.red f) (fun x o => reduceOp false f x o) s

/-- SCAN (R163). -/
def execScan (f : FmtR) (s : State) : Host.Outcome State Fault Refusal :=
  laneOp (.scan f) (fun x o => reduceOp true f x o) s

/-- ISECT (R167). -/
def execIsect (f : FmtR) (s : State) : Host.Outcome State Fault Refusal :=
  laneOp (.isect f) (fun x o => isectOp f x o) s

/-- SMERGE (R166). -/
def execSmerge (f : FmtR) (s : State) : Host.Outcome State Fault Refusal :=
  laneOp (.smerge f) (fun x o => smergeOp f x o) s

/-- SORT16 (R165). -/
def execSort16 (f : FmtR) (s : State) : Host.Outcome State Fault Refusal :=
  laneLong (.sort16 f) (fun x o => sort16Op f x o) s

/-- MATCH (R162). -/
def execMatchKeys (f : FmtR) (s : State) : Host.Outcome State Fault Refusal :=
  laneOp (.matchKeys f) (fun x o => matchOp f x o) s

end Sys2Proof.Machine
end

