-- ==== Sys2Proof/Machine/LaneInteger.lean ====
section
/-! DEFINITION. The meanings of the lane pipe's integer, logic, shift, bit, move and dot-product instructions (R77-R92). -/
namespace Sys2Proof.Machine

/-- IADD (R78). -/
def execIadd (f : FmtR) (s : State) : Host.Outcome State Fault Refusal :=
  laneOp (.iadd f) (each fun o i => intAdd f (o.aOf i) (o.bOf i)) s

/-- ISUB (R78). -/
def execIsub (f : FmtR) (s : State) : Host.Outcome State Fault Refusal :=
  laneOp (.isub f) (each fun o i => intSub f (o.aOf i) (o.bOf i)) s

/-- IMUL (R78). -/
def execImul (f : FmtR) (s : State) : Host.Outcome State Fault Refusal :=
  laneOp (.imul f) (each fun o i => intMul f (o.aOf i) (o.bOf i)) s

/-- IMULH (R79). -/
def execImulh (f : FmtR) (s : State) : Host.Outcome State Fault Refusal :=
  laneOp (.imulh f) (each fun o i => intMulh f (o.aOf i) (o.bOf i)) s

/-- IMAD (R78). -/
def execImad (f : FmtR) (s : State) : Host.Outcome State Fault Refusal :=
  laneOp (.imad f) (each fun o i => intMad f (o.aOf i) (o.bOf i) (o.cOf i)) s

/-- IDIV (R80). -/
def execIdiv (f : FmtR) (s : State) : Host.Outcome State Fault Refusal :=
  laneLong (.idiv f) (each fun o i => intDiv f (o.aOf i) (o.bOf i)) s

/-- IREM (R80). -/
def execIrem (f : FmtR) (s : State) : Host.Outcome State Fault Refusal :=
  laneLong (.irem f) (each fun o i => intRem f (o.aOf i) (o.bOf i)) s

/-- IMIN (R78). -/
def execImin (f : FmtR) (s : State) : Host.Outcome State Fault Refusal :=
  laneOp (.imin f) (each fun o i => intMinOp f (o.aOf i) (o.bOf i)) s

/-- IMAX (R78). -/
def execImax (f : FmtR) (s : State) : Host.Outcome State Fault Refusal :=
  laneOp (.imax f) (each fun o i => intMaxOp f (o.aOf i) (o.bOf i)) s

/-- IABS (R78). -/
def execIabs (f : FmtR) (s : State) : Host.Outcome State Fault Refusal :=
  laneOp (.iabs f) (each fun o i => intAbs f (o.aOf i)) s

/-- INEG (R78). -/
def execIneg (f : FmtR) (s : State) : Host.Outcome State Fault Refusal :=
  laneOp (.ineg f) (each fun o i => intNeg f (o.aOf i)) s

/-- ICMP (R81). -/
def execIcmp (f : FmtR) (s : State) : Host.Outcome State Fault Refusal :=
  laneOp (.icmp f) (each fun o i => intCmp f (o.aOf i) (o.bOf i)) s

/-- ISEL (R81). -/
def execIsel (f : FmtR) (s : State) : Host.Outcome State Fault Refusal :=
  laneOp (.isel f) (each fun o i => intSel (o.aOf i) (o.bOf i) (o.cOf i)) s

/-- IAND (R82). -/
def execIand (f : FmtR) (s : State) : Host.Outcome State Fault Refusal :=
  laneOp (.iand f) (each fun o i => bitwise (· &&& ·) (o.aOf i) (o.bOf i)) s

/-- IOR (R82). -/
def execIor (f : FmtR) (s : State) : Host.Outcome State Fault Refusal :=
  laneOp (.ior f) (each fun o i => bitwise (· ||| ·) (o.aOf i) (o.bOf i)) s

/-- IXOR (R82). -/
def execIxor (f : FmtR) (s : State) : Host.Outcome State Fault Refusal :=
  laneOp (.ixor f) (each fun o i => bitwise (· ^^^ ·) (o.aOf i) (o.bOf i)) s

/-- IANDN (R82). -/
def execIandn (f : FmtR) (s : State) : Host.Outcome State Fault Refusal :=
  laneOp (.iandn f) (each fun o i => bitwise (fun x y => x &&& ~~~y) (o.aOf i) (o.bOf i)) s

/-- ISHL (R83). -/
def execIshl (f : FmtR) (s : State) : Host.Outcome State Fault Refusal :=
  laneOp (.ishl f) (each fun o i => intShl f (o.aOf i) (o.bOf i)) s

/-- ISHR (R83). -/
def execIshr (f : FmtR) (s : State) : Host.Outcome State Fault Refusal :=
  laneOp (.ishr f) (each fun o i => intShr f (o.aOf i) (o.bOf i)) s

/-- ISAR (R83). -/
def execIsar (f : FmtR) (s : State) : Host.Outcome State Fault Refusal :=
  laneOp (.isar f) (each fun o i => intSar f (o.aOf i) (o.bOf i)) s

/-- IFSHL (R84). -/
def execIfshl (f : FmtR) (s : State) : Host.Outcome State Fault Refusal :=
  laneOp (.ifshl f) (each fun o i => intFshl (o.aOf i) (o.bOf i) (o.cOf i)) s

/-- IFSHR (R84). -/
def execIfshr (f : FmtR) (s : State) : Host.Outcome State Fault Refusal :=
  laneOp (.ifshr f) (each fun o i => intFshr (o.aOf i) (o.bOf i) (o.cOf i)) s

/-- BFX (R85). -/
def execBfx (f : FmtR) (s : State) : Host.Outcome State Fault Refusal :=
  laneOp (.bfx f) (each fun o i => bfxOp f (o.aOf i) (o.bOf i)) s

/-- BFI (R85). -/
def execBfi (f : FmtR) (s : State) : Host.Outcome State Fault Refusal :=
  laneOp (.bfi f) (each fun o i => bfiOp (o.aOf i) (o.bOf i) (o.cOf i)) s

/-- POPC (R86). -/
def execPopc (f : FmtR) (s : State) : Host.Outcome State Fault Refusal :=
  laneOp (.popc f) (each fun o i => popcOp f (o.aOf i)) s

/-- CLZ (R86). -/
def execClz (f : FmtR) (s : State) : Host.Outcome State Fault Refusal :=
  laneOp (.clz f) (each fun o i => clzOp f (o.aOf i)) s

/-- CTZ (R86). -/
def execCtz (f : FmtR) (s : State) : Host.Outcome State Fault Refusal :=
  laneOp (.ctz f) (each fun o i => ctzOp f (o.aOf i)) s

/-- BREV (R86). -/
def execBrev (f : FmtR) (s : State) : Host.Outcome State Fault Refusal :=
  laneOp (.brev f) (each fun o i => brevOp f (o.aOf i)) s

/-- BPERM (R87). -/
def execBperm (f : FmtR) (s : State) : Host.Outcome State Fault Refusal :=
  laneOp (.bperm f) (each fun o i => bpermOp (o.aOf i) (o.bOf i) (o.cOf i)) s

/-- LEA (R88). -/
def execLea (f : FmtR) (s : State) : Host.Outcome State Fault Refusal :=
  laneOp (.lea f) (each fun o i => leaOp f (o.aOf i) (o.bOf i)) s

/-- ISAD (R89). -/
def execIsad (f : FmtR) (s : State) : Host.Outcome State Fault Refusal :=
  laneOp (.isad f) (each fun o i => isadOp f (o.aOf i) (o.bOf i) (o.cOf i)) s

/-- MOV (R90). -/
def execMov (f : FmtR) (s : State) : Host.Outcome State Fault Refusal :=
  laneOp (.mov f) (each fun o i => (o.aOf i, 0)) s

/-- MOVI (R91). -/
def execMovi (f : FmtI) (s : State) : Host.Outcome State Fault Refusal :=
  laneOp (.movi f) (each fun _ _ => ([f.imm], 0)) s

/-- DOT4 (R92). -/
def execDot4 (f : FmtR) (s : State) : Host.Outcome State Fault Refusal :=
  laneOp (.dot4 f) (each fun o i => dotOp 4 6 7 f (o.aOf i) (o.bOf i) (o.cOf i)) s

/-- DOT8 (R92). -/
def execDot8 (f : FmtR) (s : State) : Host.Outcome State Fault Refusal :=
  laneOp (.dot8 f) (each fun o i => dotOp 8 14 15 f (o.aOf i) (o.bOf i) (o.cOf i)) s

end Sys2Proof.Machine
end

