-- ==== Sys2Proof/Machine/EngineOps.lean ====
section
/-! DEFINITION. Engine commands (R275-R282): regions, the region scoreboard, issue, the order of starts, tokens; and how a
command reads and writes global memory and scratch, with the partial effects of a command that ends with FAULT (R296). -/
namespace Sys2Proof.Machine

/-- A free number below `n`. -/
def State.below (s : State) (n : Nat) : Nat × State := ((Config.freeWord s.free 0).toNat % n, { s with free := s.free + 1 })

/-! ## Regions -/

/-- Two regions share a scratch byte or a slot. -/
def regionsMeet (a b : Region) : Bool := a.slot == b.slot && a.lo < b.hi && b.lo < a.hi
/-- Some region of one list meets one of the other. -/
def anyMeet (a b : List Region) : Bool := a.any fun r => b.any (regionsMeet r)

/-- A command that accumulates into a slot (R311). -/
def accumulates : Instr → Bool
  | .mma _ => true
  | .mmasp _ => true
  | _ => false

/-- A later command depends on an earlier one: read after write, write after read, write after write (R277). Two
accumulating commands do not meet in a slot (R311). -/
def conflicts (earlier later : Cmd) : Bool :=
  let cut := fun (l : List Region) =>
    if accumulates earlier.instr && accumulates later.instr then l.filter fun r => !r.slot else l
  anyMeet earlier.writes (cut later.reads) || anyMeet earlier.reads (cut later.writes) ||
    anyMeet earlier.writes (cut later.writes)

/-- A non-empty window range of a part, as a region of its core. -/
def windowRange (base off n : Nat) : List Region := if n = 0 then [] else [⟨false, base + off, base + off + n⟩]
/-- A range of the part's accumulator slots. -/
def slotRange (base slot n : Nat) : List Region := if n = 0 then [] else [⟨true, base + slot, base + slot + n⟩]

/-! ## Issue -/

/-- A workgroup is being saved (R433). -/
def wgSaving (s : State) (wg : Nat) : Bool := match tableGet s.wgs wg with
  | some w => w.saving.isSome
  | none => false

/-- What a command needs at its issue: its ranges, whether it names global memory (R279), a code with which a check made
at issue ends it, its entries on other cores (CPYMC), and whether it completes at once with OK (R288). -/
structure Plan where
  reads : List Region
  writes : List Region
  global : Bool
  failed : Option Nat
  others : List (Nat × List Region)
  empty : Bool
deriving DecidableEq, Repr

/-- A command without ranges. -/
def planGlobal : Plan := ⟨[], [], true, none, [], false⟩
def planNone : Plan := ⟨[], [], false, none, [], false⟩
/-- A copy of no bytes. -/
def planEmpty : Plan := ⟨[], [], false, none, [], true⟩

/-- A core has a free scoreboard entry (R276). -/
def rsbRoom (s : State) (core : Nat) : Bool := (coreOf s core).rsb.length < 64

/-- A command is ready when the entries it needs can be taken, and its strip's global accesses are performed if it names global
memory (R276, R279). -/
def holdEngine (plan : State → Strip → Ctx → Plan) (s : State) (c : Ctx) : Bool × State :=
  match tableGet s.strips c.id with
  | none => (true, s)
  | some p =>
    let pl := plan s p c
    if pl.empty then (true, s)
    else if rsbRoom s p.coreId && pl.others.all fun o => rsbRoom s o.1 then
      if pl.global then forceFor s c fun _ => true else (true, s)
    else (false, s)

/-- The token of a format E command (R61). -/
def tokenOf (f : FmtE) : Option Nat := if f.tv then some f.tok.toNat else none

/-- A command counts on its token (R281). -/
def countToken (s : State) (id : Nat) (f : FmtE) : State := match tokenOf f with
  | some k => modStrip s id fun p => p.modToken k Token.issue
  | none => s

/-- A command enters its core's scoreboard and counts on its token (R276, R281). -/
def enterCmd (s : State) (c : Ctx) (p : Strip) (f : FmtE) (pl : Plan) : State :=
  let id := s.nextId
  let launch := match tableGet s.wgs p.wg with
    | some w => w.launch
    | none => 0
  let cmd : Cmd := ⟨id, c.id, p.wg, c.instr, c.pc, c.x, c.ops, tokenOf f, pl.reads, pl.writes, false, false, pl.failed,
    launch, stripJob s p, 0, []⟩
  let push := fun (s : State) (core : Nat) (k : Cmd) => modCore s core fun q => { q with rsb := q.rsb ++ [k] }
  let s := push { s with nextId := id + 1 } p.coreId cmd
  let s := pl.others.foldl (fun s o =>
    push s o.1 { cmd with reads := [], writes := o.2, shadow := true, failed := none }) s
  countToken s c.id f

/-- The issue of an engine command. -/
def engineOp (i : Instr) (f : FmtE) (check : State → Ctx → Option TrapEntry) (plan : State → Strip → Ctx → Plan)
    (s : State) : Host.Outcome State Fault Refusal :=
  .next (issue i check (holdEngine plan) (fun s c =>
    match tableGet s.strips c.id with
    | none => (true, s)
    | some p =>
      let pl := plan s p c
      let s := if pl.global then releaseCore s p.coreId else s
      let s := if pl.empty then finishToken (countToken s c.id f) c.id p.coreId (tokenOf f) codeOK
        else enterCmd s c p f pl
      (true, advanceX s c)) s)

/-! ## Starts and completions -/

/-- A command of a core's scoreboard. -/
def cmdOf (s : State) (core id : Nat) : Option Cmd := (coreOf s core).rsb.find? fun k => k.id == id && !k.shadow

/-- Change a command. -/
def modCmd (s : State) (core id : Nat) (g : Cmd → Cmd) : State :=
  modCore s core fun c => { c with rsb := c.rsb.map fun k => if k.id = id ∧ !k.shadow then g k else k }

/-- No earlier command of one scoreboard holds the command back (R277). -/
def clearIn (rsb : List Cmd) (id : Nat) : Bool :=
  match rsb.find? fun k => k.id == id with
  | none => true
  | some k => (rsb.takeWhile fun e => e.id != id).all fun e => !conflicts e k

/-- The scratch bytes of its core that an outstanding scratch access has still to perform. -/
def pendingScratch (s : State) (p : Strip) (f : Flight) : List Region :=
  (strandsOf f.undone).flatMap fun i => match scratchAccess f.instr f.ops i with
    | some (off, n) => windowRange (partOf s p).scratch off.toNat n
    | none => []

/-- Every scratch access of a core's strands that issued before a command and overlaps its ranges has been performed
(R277). -/
def scratchClear (s : State) (core id : Nat) : Bool :=
  match (coreOf s core).rsb.find? fun k => k.id == id with
  | none => true
  | some k => s.strips.all fun p => p.2.coreId != core ||
      p.2.flights.all fun f => id ≤ f.id || !anyMeet (pendingScratch s p.2 f) (k.reads ++ k.writes)

/-- A command may start (R277): on its core and on every core where it has an entry. -/
def cmdClear (s : State) (core id : Nat) : Bool :=
  (core :: s.cores.map fun c => c.1).all fun c => clearIn (coreOf s c).rsb id && scratchClear s c id

/-- A command completes with a code: its entries are free, its token counts (R276, R281). -/
def finishCmd (s : State) (core : Nat) (k : Cmd) (code : Nat) : State :=
  let s := mapCores s fun c => { c with rsb := c.rsb.filter fun e => e.id != k.id }
  finishToken s k.strip core k.token code

/-! ## Global memory, as a command reads and writes it -/

/-- The CP of a copy command (R287). -/
def copyPolicy : Instr → Nat
  | .cpyin f => f.mod.toNat
  | .cpyout f => f.mod.toNat
  | .cpygg f => f.mod.toNat
  | .cpymc f => f.mod.toNat
  | .cpyt f => f.mod.toNat
  | _ => 0

/-- The agent of a command: its writes join its launch's digest (R253). -/
def cmdAgent (core : Nat) (k : Cmd) : Agent :=
  ⟨core / 96, core, k.job.asid, k.job.root, k.job.index, [k.launch], k.job.poisonTrap, 16 * k.id + 15, copyPolicy k.instr⟩

/-- Report a command's translation fault (R421): ACCESS bit 3, no answer needed. -/
def engineFault (s : State) (ag : Agent) (va kind access : Nat) : State :=
  (reportFault s ag.die ag.asid va kind (access + accEngine) (faultSource ag.die (ag.core % 96) 0 0 0) ag.who).2

/-- Bytes a command has read: those it has, and whether every read went well. -/
abbrev Bytes := List (Option Byte)

/-- Count poison met by a command in an array, at a physical address or a position (R296, R425; unit codes: log 17). -/
def enginePoisonAt (s : State) (ag : Agent) (unit pos : Nat) : State :=
  logError (countPoison s ag.core) ag.die unit .poisoned pos
def enginePoison (s : State) (ag : Agent) (pa : Nat) : State := enginePoisonAt s ag 0 pa
/-- Count the poisoned words of a core's scratch that a command met, by word index. -/
def scratchMet (s : State) (ag : Agent) (core : Nat) (words : List Nat) : State :=
  words.foldl (fun s w => enginePoisonAt s { ag with core := core } 3 (core * 2 ^ 20 + w)) s

/-- A memory line that a piece names holds a poisoned word: the whole line then reads as poisoned to a command (R296). -/
def lineBad (s : State) (p : Piece) : Bool := !isDevice p.leaf.pa && anyPoison s (lineOf p.leaf.pa * 128) 128

/-- Read pieces line by line: a fault or trapped poison gives no bytes for the line; another poisoned line reads zero
(R296). -/
def engPieces (s : State) (ag : Agent) : List (Nat × Nat) → Bytes × Bool × State
  | [] => ([], true, s)
  | (va, n) :: rest =>
    match xlateRange s ag va n .read with
    | (.error (fva, kind), s) =>
      let (b, _, s) := engPieces (engineFault s ag fva kind accRead) ag rest
      (List.replicate n none ++ b, false, s)
    | (.ok ps, s) =>
      let (b, bad, s) := readAccess s ag .home false ps
      let bad := bad || ps.any (lineBad s)
      let s := if bad then enginePoison s ag (firstPa ps) else s
      let stop := bad && ag.poisonTrap
      let (bs, ok, s) := engPieces s ag rest
      let b := b.map fun x => if stop then none else if bad then some 0 else some x
      (b ++ bs, ok && !stop, s)

/-- Read [va, va + n) for a command. -/
def engRead (s : State) (ag : Agent) (va n : Nat) : Bytes × Bool × State :=
  engPieces s ag (linePieces (n / 128 + 2) (vaOf va) n)

/-- The bytes that a command ending with FAULT writes: each it has is written or not (R296). -/
def chooseBytes (s : State) (b : Bytes) : Bytes × State :=
  ((List.range b.length).map fun i => if Config.choice (s.free + i) then b.getD i none else none,
    { s with free := s.free + b.length })

/-- Write the bytes present of one piece as one event (R236, R288). -/
def engWritePiece (s : State) (ag : Agent) (p : Piece) (b : Bytes) : State :=
  if b.all (·.isNone) then s
  else if isDevice p.leaf.pa then
    if b.all (·.isSome) then storeDevice s ag [p] (b.filterMap id) else s
  else
    let line := lineOf p.leaf.pa
    let cells := (List.range b.length).filterMap fun i => (b.getD i none).map fun x => (p.leaf.pa % 128 + i, x)
    let s := writeLine s (piecePolicy ag.cp p) ag.launches line cells
    let s := if populated p.leaf.pa then s else logError s ag.die unitBeyond .poisoned p.leaf.pa
    dropRdcFor s ag.die p.leaf.pa

/-- Write pieces in order. -/
def engWritePieces (s : State) (ag : Agent) : List Piece → Bytes → State
  | [], _ => s
  | p :: ps, b => engWritePieces (engWritePiece s ag p (b.take p.len)) ag ps (b.drop p.len)

/-- Translate the pieces of a write one by one: those that succeed, with their bytes, and whether all did. -/
def engXlate (s : State) (ag : Agent) : List (Nat × Nat) → Bytes → List (Piece × Bytes) × Bool × State
  | [], _ => ([], true, s)
  | (va, n) :: rest, b =>
    match xlate s ag va .write with
    | (.error kind, s) =>
      let (ps, _, s) := engXlate (engineFault s ag va kind accWrite) ag rest (b.drop n)
      (ps, false, s)
    | (.ok l, s) =>
      let (ps, ok, s) := engXlate s ag rest (b.drop n)
      ((⟨va, l, n⟩, b.take n) :: ps, ok, s)

/-- Write translated pieces for a command that is well or not. -/
def engPut (s : State) (ag : Agent) (ok : Bool) (ps : List (Piece × Bytes)) : State :=
  ps.foldl (fun s p =>
    if ok then engWritePiece s ag p.1 p.2
    else
      let (b, s) := chooseBytes s p.2
      engWritePiece s ag p.1 b) s

/-- Write bytes at [va, …) for a command whose reads went well or not; says whether the command is well. -/
def engWrite (s : State) (ag : Agent) (ok : Bool) (va : Nat) (b : Bytes) : Bool × State :=
  let (ps, ok', s) := engXlate s ag (linePieces (b.length / 128 + 2) (vaOf va) b.length) b
  (ok && ok', engPut s ag (ok && ok') ps)

/-- Write lines or parts of them, each as one event, as `engWrite` does. -/
def engWriteLines (s : State) (ag : Agent) (ok : Bool) (lines : List (Nat × Bytes)) : Bool × State :=
  let (ps, ok', s) := engXlate s ag (lines.map fun l => (128 * l.1, 128)) (lines.flatMap fun l => l.2)
  (ok && ok', engPut s ag (ok && ok') ps)

/-- Present bytes as a command's bytes. -/
def allBytes (l : List Byte) : Bytes := l.map some

/-! ## Scratch, as a command reads and writes it -/

/-- The poisoned words of a scratch range of a core, by word index. -/
def scratchBad (s : State) (core at_ n : Nat) : List Nat :=
  (coreOf s core).scratchPoison.filter fun w => at_ < 4 * w + 4 && 4 * w < at_ + n

/-- Read scratch bytes for a command: a poisoned word reads zero and is counted; with the job's poison trap it gives no
bytes and spoils the command (R296, R423, R424). -/
def engScratch (s : State) (ag : Agent) (core at_ n : Nat) : Bytes × Bool × State :=
  let (b, _) := readScratch s core at_ n
  let bad := scratchBad s core at_ n
  let s := scratchMet s ag core bad
  let one := fun i => if bad.contains ((at_ + i) / 4) then (if ag.poisonTrap then none else some 0) else some (b.getD i 0)
  ((List.range n).map one, bad.isEmpty || !ag.poisonTrap, s)

/-- Write the bytes present to scratch. -/
def putScratch (s : State) (core at_ : Nat) (b : Bytes) : State :=
  if b.all (·.isSome) then writeScratch s core at_ (b.filterMap id)
  else (List.range b.length).foldl (fun s i => match b.getD i none with
    | some x => writeScratch s core (at_ + i) [x]
    | none => s) s

/-- Write a command's bytes to scratch: all of them, or, when it ends with FAULT, each or not (R296). -/
def engScratchWrite (s : State) (core at_ : Nat) (ok : Bool) (b : Bytes) : State :=
  if ok then putScratch s core at_ b
  else
    let (b, s) := chooseBytes s b
    putScratch s core at_ b

/-- FAULT or OK. -/
def codeOf (ok : Bool) : Nat := if ok then codeOK else codeFAULT

end Sys2Proof.Machine
end

