-- ==== Sys2Proof/Machine/Copy.lean ====
section
/-! DEFINITION. The copy commands (R287-R296): their checks and ranges at issue, and what each does when it is performed.
A copy performs a freely chosen part of its work, up to a line boundary, at its start and the rest at its completion;
between the two a cancellation stops it and a save keeps its restart offset (R296, R434, log 7). -/
namespace Sys2Proof.Machine

/-- The scratch-out-of-range trap of an offset range at issue (R288, R289). -/
def rangeTrap (s : State) (c : Ctx) (off n : Nat) : Option TrapEntry :=
  match tableGet s.strips c.id with
  | none => none
  | some p =>
    if n = 0 ∨ off + n ≤ scratchSize s p then none
    else some ⟨causeSCRATCH, 0, c.x, c.x, c.pc, wordOf c.instr, BitVec.ofNat 32 off, BitVec.ofNat 32 (scratchSize s p)⟩

/-- The scratch base of a command's workgroup on a core; none where no part of it is. -/
def cmdBase (s : State) (wg core : Nat) : Option Nat := match tableGet s.wgs wg with
  | some w => (w.parts.find? fun q => q.core == core).map fun q => q.scratch
  | none => none

/-- The bytes of [a, a + n) that lie below the k-th line boundary above a (R296). -/
def lineCut (a n k : Nat) : Nat := if k = 0 then 0 else min n (128 * k - a % 128)
/-- Lines that [a, a + n) meets. -/
def lineCount (a n : Nat) : Nat := if n = 0 then 0 else (a % 128 + n + 127) / 128

/-- SCRATCH of a command's launch. -/
def cmdScratch (s : State) (k : Cmd) : Nat := match tableGet s.launches k.launch with
  | some l => l.lrec.scratch
  | none => 0

/-! ## Plain copies -/

/-! Each copy is cut at the lines of its global operand A: `lo` and `hi` are offsets in the copied bytes, `ok` says whether
the command is well so far. -/

/-- CPYIN (R288). -/
def planCpyin (s : State) (p : Strip) (c : Ctx) : Plan :=
  if c.ops.nc = 0 then planEmpty
  else ⟨[], windowRange (partOf s p).scratch c.ops.nb c.ops.nc, true, none, [], false⟩
def execCpyin (f : FmtE) (s : State) : Host.Outcome State Fault Refusal :=
  engineOp (.cpyin f) f (fun s c => rangeTrap s c c.ops.nb c.ops.nc) planCpyin s
def runCpyin (s : State) (core : Nat) (k : Cmd) (ok : Bool) (lo hi : Nat) : Bool × State :=
  let (b, ok', s) := engRead s (cmdAgent core k) (k.ops.addrA + lo) (hi - lo)
  let base := (cmdBase s k.wg core).getD 0
  (ok && ok', engScratchWrite s core (base + k.ops.nb + lo) (ok && ok') b)

/-- CPYOUT (R288). -/
def planCpyout (s : State) (p : Strip) (c : Ctx) : Plan :=
  if c.ops.nc = 0 then planEmpty
  else ⟨windowRange (partOf s p).scratch c.ops.nb c.ops.nc, [], true, none, [], false⟩
def execCpyout (f : FmtE) (s : State) : Host.Outcome State Fault Refusal :=
  engineOp (.cpyout f) f (fun s c => rangeTrap s c c.ops.nb c.ops.nc) planCpyout s
def runCpyout (s : State) (core : Nat) (k : Cmd) (ok : Bool) (lo hi : Nat) : Bool × State :=
  let ag := cmdAgent core k
  let base := (cmdBase s k.wg core).getD 0
  let (b, ok', s) := engScratch s ag core (base + k.ops.nb + lo) (hi - lo)
  engWrite s ag (ok && ok') (k.ops.addrA + lo) b

/-- The bytes of an overlapping global copy (R288): for each byte the source's byte as it was, or as the copy overwrote
it; `d` is destination − source, positive when the destination lies above. -/
def overlapBytes (s : State) (d : Int) (b : Bytes) : Bytes × State :=
  let n := b.length
  let order : List Nat := if 0 < d then List.range n else (List.range n).reverse
  let out := order.foldl (fun (r : List (Option Byte)) (i : Nat) =>
    let j : Int := (i : Int) - d
    let laid := if 0 ≤ j ∧ j < n then r.getD j.toNat none else b.getD i none
    listPut r i (if Config.choice (s.free + i) then laid else b.getD i none)) b
  (out, { s with free := s.free + n })

/-- CPYGG (R288). -/
def execCpygg (f : FmtE) (s : State) : Host.Outcome State Fault Refusal :=
  engineOp (.cpygg f) f noCheck (fun _ _ c => if c.ops.nc = 0 then planEmpty else planGlobal) s
def runCpygg (s : State) (core : Nat) (k : Cmd) (ok : Bool) (lo hi : Nat) : Bool × State :=
  let ag := cmdAgent core k
  let dst := k.ops.addrA
  let src := k.ops.addrB
  let n := hi - lo
  let (b, ok', s) := engRead s ag (src + lo) n
  let d : Int := (dst : Int) - src
  let (b, s) := if d ≠ 0 ∧ -(n : Int) < d ∧ d < n then overlapBytes s d b else (b, s)
  engWrite s ag (ok && ok') (dst + lo) b

/-! ## The multicast copy -/

/-- The cores a mask names (R289). -/
def maskCores (core : Nat) (m : Nat) : List Nat :=
  (List.range 24).filterMap fun k => if m.testBit k then some (core / 24 * 24 + k) else none

/-- CPYMC (R289). -/
def planCpymc (s : State) (p : Strip) (c : Ctx) : Plan :=
  let n := c.ops.bAt 1
  let legs := (maskCores p.coreId c.ops.nc).filterMap fun core =>
    (cmdBase s p.wg core).map fun base => (core, windowRange base (c.ops.bAt 0) n)
  ⟨[], (legs.filter fun l => l.1 == p.coreId).flatMap fun l => l.2, 0 < n, none,
    if n = 0 then [] else legs.filter fun l => l.1 != p.coreId, false⟩
def execCpymc (f : FmtE) (s : State) : Host.Outcome State Fault Refusal :=
  engineOp (.cpymc f) f (fun s c => rangeTrap s c (c.ops.bAt 0) (c.ops.bAt 1)) planCpymc s
def runCpymc (s : State) (core : Nat) (k : Cmd) (ok : Bool) (lo hi : Nat) : Bool × State :=
  let (b, ok', s) := engRead s (cmdAgent core k) (k.ops.addrA + lo) (hi - lo)
  (ok && ok', (maskCores core k.ops.nc).foldl (fun s l => match cmdBase s k.wg l with
    | some base => engScratchWrite s l (base + k.ops.bAt 0 + lo) (ok && ok') b
    | none => s) s)

/-- The legs of a CPYMC that name a core without a part: those that stand in its mask, and those that a restore took
out of it, which `data` counts (R289, R441). -/
def lostLegs (s : State) (core : Nat) (k : Cmd) : Nat :=
  k.data.headD 0 + ((maskCores core k.ops.nc).filter fun l => (cmdBase s k.wg l).isNone).length

/-- The legs that drop are each counted in ENGEVT, and the command ends with DROPPED (R289, R441, log 40). -/
def dropLegs (s : State) (core : Nat) (k : Cmd) (code : Nat) : Nat × State :=
  let n := lostLegs s core k
  (if n = 0 then code else max code codeDROPPED, (List.range n).foldl (fun s _ => countEngine s core) s)

/-! ## Tensor copies -/

/-- A tensor descriptor (R290). -/
structure Tdesc where
  base : Nat
  sbase : Nat
  rows : Nat
  cols : Nat
  ty : Nat
  smode : Nat
  t0r : Nat
  t0c : Nat
  t1r : Nat
  t1c : Nat
  ssr : Nat
  ssc : Nat
deriving DecidableEq, Repr

/-- The fields of a descriptor's 64 bytes. -/
def parseTdesc (b : List Byte) : Tdesc where
  base := field b 0x00 8
  sbase := field b 0x08 8
  rows := field b 0x10 4
  cols := field b 0x14 4
  ty := field b 0x18 1
  smode := field b 0x19 1
  t0r := field b 0x1C 2
  t0c := field b 0x1E 2
  t1r := field b 0x20 2
  t1c := field b 0x22 2
  ssr := field b 0x28 8
  ssc := field b 0x30 8

/-- Storage types of R291. -/
def storageTypes : List Nat := [6, 7, 14, 15, 12, 13, 10, 11, 8]
/-- Bits of a stored element. -/
def storedBits (t : Nat) : Nat :=
  if t = 14 ∨ t = 15 then 4 else if t = 8 then 32 else if t = 10 ∨ t = 11 then 16 else 8
/-- Bytes of a canonical element, and elements of a tile row (R291). -/
def canonBytes (t : Nat) : Nat := if t = 8 then 4 else if t = 10 ∨ t = 11 then 2 else 1
def panelCols (t : Nat) : Nat := 128 / canonBytes t

/-- The reserved fields are 0 and the others inside the ranges of R290 (log 23). R290 gives T1R and T1C no range; a
descriptor with either 0 ends the command with FAULT all the same (DESIGN CHOICE, log 53). -/
def tdescOk (b : List Byte) (t : Tdesc) : Bool :=
  zeroBytes b 0x1A 2 && zeroBytes b 0x24 4 && zeroBytes b 0x38 8 &&
  (1 ≤ t.rows && t.rows ≤ 2 ^ 31) && (1 ≤ t.cols && t.cols ≤ 2 ^ 31) && t.smode ≤ 3 &&
  1 ≤ t.t0r && 1 ≤ t.t0c && 1 ≤ t.t1r && 1 ≤ t.t1c && (storedBits t.ty != 4 || t.t0c % 2 == 0)

/-- The address of an element in units of 4 bits (R290). -/
def elemNibble (t : Tdesc) (r c : Nat) : Nat :=
  let tile := t.t0r * t.t0c * storedBits t.ty / 4
  let inner := ((r % t.t0r) * t.t0c + c % t.t0c) * storedBits t.ty / 4
  2 * (t.base + r / (t.t0r * t.t1r) * t.ssr + c / (t.t0c * t.t1c) * t.ssc) +
    (r / t.t0r % t.t1r * t.t1c + c / t.t0c % t.t1c) * tile + inner

/-- The canonical offset of an extent's element (R292). -/
def canonOff (rows p e i j : Nat) : Nat := (j / p * rows + i) * 128 + j % p * e

/-- Rows and columns of an extent operand (R287). -/
def extRows (o : Operands) : Nat := o.nc % 2 ^ 16
def extCols (o : Operands) : Nat := o.nc / 2 ^ 16
/-- No scales or multipliers. -/
def noOffset : Nat := 0xFFFFFFFF

/-- The ranges that the scoreboard records for CPYT and CPYTN (R293, R294). -/
def tensorData (base off rows cols : Nat) : List Region := windowRange base off (rows * ((cols + 31) / 32) * 128)
def tensorScales (base off rows cols : Nat) : List Region :=
  if off = noOffset then []
  else windowRange base off (4 * max (rows * ((cols + 127) / 128)) ((rows + 127) / 128 * cols))
def tensorMults (base off rows cols : Nat) : List Region :=
  if off = noOffset then [] else windowRange base off (4 * rows * ((cols + 127) / 128))

/-- CPYT and CPYTN at issue. -/
def planCpyt (s : State) (p : Strip) (c : Ctx) : Plan :=
  let b := (partOf s p).scratch
  let r := extRows c.ops
  let k := extCols c.ops
  ⟨[], tensorData b (c.ops.bAt 0) r k ++ tensorScales b (c.ops.bAt 1) r k, true, none, [], false⟩
def execCpyt (f : FmtE) (s : State) : Host.Outcome State Fault Refusal := engineOp (.cpyt f) f noCheck planCpyt s
def planCpytn (s : State) (p : Strip) (c : Ctx) : Plan :=
  let b := (partOf s p).scratch
  let r := extRows c.ops
  let k := extCols c.ops
  ⟨tensorData b (c.ops.bAt 0) r k ++ tensorMults b (c.ops.bAt 1) r k, [], true, none, [], false⟩
def execCpytn (f : FmtE) (s : State) : Host.Outcome State Fault Refusal := engineOp (.cpytn f) f noCheck planCpytn s

/-- Scale entries of an extent in scratch (R293). -/
def scaleCount (smode rows cols : Nat) : Nat :=
  match smode with
  | 1 => rows * ((cols + 127) / 128)
  | 2 => (rows + 127) / 128 * ((cols + 127) / 128)
  | 3 => (rows + 127) / 128 * cols
  | _ => 0

/-- The conditions of R295 shared by CPYT and CPYTN. A scale array address other than 0 with SMODE = 0, to which R290 and
R295 give no outcome, is ignored (DESIGN CHOICE, log 65). -/
def tensorOk (b : List Byte) (t : Tdesc) (o : Operands) : Bool :=
  let rows := extRows o
  let cols := extCols o
  tdescOk b t && (1 ≤ rows && rows ≤ 4096) && (1 ≤ cols && cols ≤ 4096) &&
  (t.smode == 0 || (o.bAt 2 % 128 == 0 && o.bAt 3 % 128 == 0 && t.sbase != 0)) &&
  o.bAt 0 % 128 == 0 && (o.bAt 1 == noOffset || o.bAt 1 % 4 == 0)

/-- Read the descriptor of a tensor command: none on a fault or trapped poison. An address that is not a multiple of 64 is
read from where it stands (DESIGN CHOICE, log 53). -/
def readTdesc (s : State) (ag : Agent) (a : Nat) : Option (List Byte) × State :=
  let (b, ok, s) := engRead s ag a 64
  (if ok then some (b.filterMap id) else none, s)

/-- The descriptor as the command read it at its start. -/
def Cmd.tdesc (k : Cmd) : Tdesc := parseTdesc (k.data.map fun n => BitVec.ofNat 8 n)

/-! ### Lines that a part of a tensor command reads, each once -/

/-- The lines that hold some bytes. -/
def linesOf (l : List (Nat × Nat)) : List Nat :=
  (l.flatMap fun q => (List.range (lineCount q.1 q.2)).map fun k => vaOf (q.1 + 128 * k) / 128).foldl setAdd []

/-- Read lines, each once (R296). -/
def engLines (s : State) (ag : Agent) : List Nat → List (Nat × Bytes) × Bool × State
  | [] => ([], true, s)
  | l :: rest =>
    let (b, ok, s) := engPieces s ag [(128 * l, 128)]
    let (t, ok', s) := engLines s ag rest
    ((l, b) :: t, ok && ok', s)

/-- Bytes out of lines read: none when one of them is missing. -/
def lineBytes (t : List (Nat × Bytes)) (va n : Nat) : Option (List Byte) :=
  let one := fun i => match t.find? fun l => l.1 == vaOf (va + i) / 128 with
    | some l => l.2.getD (vaOf (va + i) % 128) none
    | none => none
  let b := (List.range n).map one
  if b.all (·.isSome) then some (b.filterMap id) else none

/-- The bytes that hold a stored element (R290). -/
def elemSpan (t : Tdesc) (r c : Nat) : Nat × Nat := (vaOf (elemNibble t r c / 2), (storedBits t.ty + 7) / 8)
/-- An element lies inside the tensor. -/
def inTensor (t : Tdesc) (q : Nat × Nat) : Bool := q.1 < t.rows && q.2 < t.cols

/-- A stored element (R290): its bits, or none when a byte is missing. -/
def storedElem (t : Tdesc) (m : List (Nat × Bytes)) (r c : Nat) : Option Nat :=
  (lineBytes m (elemSpan t r c).1 (elemSpan t r c).2).map fun b =>
    if storedBits t.ty = 4 then leNat b / 16 ^ (elemNibble t r c % 2) % 16 else leNat b

/-- A stored element in its canonical type (R291). -/
def canonElem (t x : Nat) : Nat := if t = 14 then wrapNat 8 (signedOf 4 x) else x

/-- The memory position of a scale entry (R293): row and column of the grid, and its width. -/
def scalePlace (t : Tdesc) (o : Operands) (k : Nat) : Option Nat :=
  let rows := extRows o
  let cols := extCols o
  let gr := (t.rows + 127) / 128
  let gc := (t.cols + 127) / 128
  let (r, c, nr, nc) := match t.smode with
    | 1 => (o.bAt 2 + k % rows, o.bAt 3 / 128 + k / rows, t.rows, gc)
    | 2 => (o.bAt 2 / 128 + k % ((rows + 127) / 128), o.bAt 3 / 128 + k / ((rows + 127) / 128), gr, gc)
    | _ => (o.bAt 2 / 128 + k / cols, o.bAt 3 + k % cols, gr, t.cols)
  if r < nr ∧ c < nc then some (t.sbase + 4 * (r * nc + c)) else none

/-- The tile rows of an extent in the canonical layout (R292), and its scale entries in scratch. -/
def tileRows (t : Tdesc) (o : Operands) : Nat := extRows o * ((extCols o + panelCols t.ty - 1) / panelCols t.ty)
def scaleRows (t : Tdesc) (o : Operands) : Nat :=
  if t.smode ≠ 0 ∧ o.bAt 1 ≠ noOffset then scaleCount t.smode (extRows o) (extCols o) else 0
def multRows (o : Operands) : Nat := if o.bAt 1 ≠ noOffset then extRows o * ((extCols o + 127) / 128) else 0

/-- A command on a descriptor is one that R295 lets run. -/
def cpytOk (b : List Byte) (o : Operands) (room : Nat) : Bool :=
  let t := parseTdesc b
  tensorOk b t o && storageTypes.contains t.ty && decide (o.bAt 0 + 128 * tileRows t o ≤ room) &&
    (scaleRows t o == 0 || decide (o.bAt 1 + 4 * scaleRows t o ≤ room))
def cpytnOk (b : List Byte) (f : FmtE) (o : Operands) (room : Nat) : Bool :=
  let t := parseTdesc b
  tensorOk b t o && [12, 13, 10, 11, 8].contains t.ty && (t.ty != 8 || f.mod == 0) &&
    decide (o.bAt 0 + 128 * (extRows o * ((extCols o + 31) / 32)) ≤ room) &&
    (multRows o == 0 || decide (o.bAt 1 + 4 * multRows o ≤ room))

/-- The tensor positions of the elements of one tile row (R292, R293); none for the padding of the last panel. -/
def tilePlaces (t : Tdesc) (o : Operands) (u : Nat) : List (Option (Nat × Nat)) :=
  (List.range (panelCols t.ty)).map fun j =>
    let c := u / extRows o * panelCols t.ty + j
    if c < extCols o then some (o.bAt 2 + u % extRows o, o.bAt 3 + c) else none

/-- One tile row of CPYT, from lines read. -/
def tileBytes (t : Tdesc) (o : Operands) (m : List (Nat × Bytes)) (u : Nat) : Bytes :=
  let e := canonBytes t.ty
  (tilePlaces t o u).flatMap fun q => match q with
    | none => allBytes (leBytes e 0)
    | some q =>
      if !inTensor t q then allBytes (leBytes e 0)
      else match storedElem t m q.1 q.2 with
        | some x => allBytes (leBytes e (canonElem t.ty x))
        | none => List.replicate e none

/-- One scale entry of CPYT: 1.0 outside the tensor. -/
def scaleBytes (t : Tdesc) (o : Operands) (m : List (Nat × Bytes)) (u : Nat) : Bytes := match scalePlace t o u with
  | none => allBytes (leBytes 4 0x3F800000)
  | some a => match lineBytes m (vaOf a) 4 with
    | some b => allBytes b
    | none => List.replicate 4 none

/-- CPYT (R293): its tile rows and then its scale entries, a unit being one line in scratch (R296), from unit `lo` to
unit `hi`. -/
def runCpyt (s : State) (core : Nat) (k : Cmd) (ok : Bool) (lo hi : Nat) : Bool × State :=
  let o := k.ops
  let t := k.tdesc
  let n := tileRows t o
  let rows := (List.range (min hi n - lo)).map fun i => lo + i
  let entry := fun u => lineCut (o.bAt 1) (4 * scaleRows t o) (u - n) / 4
  let scales := (List.range (entry hi - entry lo)).map fun i => entry lo + i
  let elems := (rows.flatMap fun u => (tilePlaces t o u).filterMap id).filter (inTensor t)
  let spans := (elems.map fun q => elemSpan t q.1 q.2) ++ scales.filterMap fun u => (scalePlace t o u).map fun a => (vaOf a, 4)
  let (m, ok', s) := engLines s (cmdAgent core k) (linesOf spans)
  let ok := ok && ok'
  let base := (cmdBase s k.wg core).getD 0
  let s := rows.foldl (fun s u => engScratchWrite s core (base + o.bAt 0 + 128 * u) ok (tileBytes t o m u)) s
  (ok, scales.foldl (fun s u => engScratchWrite s core (base + o.bAt 1 + 4 * u) ok (scaleBytes t o m u)) s)

/-- The runs of 128 columns of a row (R294). -/
def narrowRuns (f : Flt) (satf ef : Bool) : Nat → List Nat → List Nat
  | 0, _ => []
  | n + 1, l => if l.isEmpty then [] else narrowRow f satf ef (l.take 128) 0 ++ narrowRuns f satf ef n (l.drop 128)

/-- An element of the extent in the row's input (R294): missing when a byte of it or of its multiplier is. -/
def narrowInput (data mul : Bytes) (mults : Bool) (j : Nat) : Option Nat :=
  let word := fun (b : Bytes) (at_ : Nat) =>
    let l := (b.drop at_).take 4
    if l.all (·.isSome) then some (leNat (l.filterMap id)) else none
  match word data (j / 32 * 128 + j % 32 * 4) with
  | none => none
  | some x => if mults then (word mul (4 * (j / 128))).map fun y => fl32mul x y else some (fl32canon x)

/-- The row of the tensor's elements that CPYTN writes for one row of the extent: an element is missing when its input
is, and under feedback when an earlier input of its run is (R296). -/
def narrowElems (t : Tdesc) (f : FmtE) (xs : List (Option Nat)) : List (Option Nat) :=
  let ef := f.mod.getLsbD 0
  let l := xs.map fun x => x.getD 0
  let ys := if t.ty = 8 then l else narrowRuns (fltOf t.ty) (f.mod.getLsbD 1) ef (xs.length / 128 + 1) l
  (List.range xs.length).map fun j =>
    let needs := if ef then (xs.drop (j / 128 * 128)).take (j % 128 + 1) else (xs.drop j).take 1
    if needs.all (·.isSome) then some (ys.getD j 0) else none

/-- The bytes of a line that a list of (address, byte) pairs gives, a later one over an earlier. -/
def lineOver (l : Nat) (cells : List (Nat × Option Byte)) : Bytes :=
  cells.foldl (fun b c => if c.1 / 128 = l then listPut b (c.1 % 128) c.2 else b) (List.replicate 128 none)

/-- The bytes of the tensor that one row of the extent covers (R294), each with the column of its element and its place in
it, and the lines of the tensor that the extent covers. -/
def narrowCells (t : Tdesc) (o : Operands) (i : Nat) : List (Nat × Nat × Nat) :=
  (List.range (extCols o)).flatMap fun j =>
    let q := (o.bAt 2 + i, o.bAt 3 + j)
    if !inTensor t q then []
    else (List.range (elemSpan t q.1 q.2).2).map fun b => (vaOf ((elemSpan t q.1 q.2).1 + b), j, b)
def narrowLines (t : Tdesc) (o : Operands) : List Nat :=
  ((List.range (extRows o)).flatMap fun i => (narrowCells t o i).map fun c => c.1 / 128).foldl setAdd []

/-- CPYTN (R294): lines `lo` to `hi` of those that it writes, from the rows of the extent that have an element there. The
bytes of one line are written as one event, so a command that ends early has whole lines written (R296). -/
def runCpytn (s : State) (core : Nat) (k : Cmd) (f : FmtE) (ok : Bool) (lo hi : Nat) : Bool × State :=
  let ag := cmdAgent core k
  let o := k.ops
  let t := k.tdesc
  let rows := extRows o
  let base := (cmdBase s k.wg core).getD 0
  let mults := decide (o.bAt 1 ≠ noOffset)
  let lines := ((narrowLines t o).take hi).drop lo
  let cellsOf := fun i => (narrowCells t o i).filter fun c => lines.contains (c.1 / 128)
  let row := fun (r : Bool × List (Nat × Option Byte) × State) (i : Nat) =>
    let (ok, cells, s) := r
    -- the row's tile rows, and its multipliers
    let tiles := (List.range ((extCols o + 31) / 32)).foldl (fun (r : Bytes × Bool × State) q =>
      let (b, ok, s) := engScratch r.2.2 ag core (base + o.bAt 0 + 128 * (q * rows + i)) 128
      (r.1 ++ b, r.2.1 && ok, s)) ([], true, s)
    let muls := (List.range (if mults then (extCols o + 127) / 128 else 0)).foldl (fun (r : Bytes × Bool × State) q =>
      let (b, ok, s) := engScratch r.2.2 ag core (base + o.bAt 1 + 4 * (q * rows + i)) 4
      (r.1 ++ b, r.2.1 && ok, s)) ([], true, tiles.2.2)
    let ys := narrowElems t f ((List.range (extCols o)).map (narrowInput tiles.1 muls.1 mults))
    let out := (cellsOf i).map fun c => (c.1, (ys.getD c.2.1 none).map fun y => BitVec.ofNat 8 (y / 256 ^ c.2.2))
    (ok && tiles.2.1 && muls.2.1, cells ++ out, muls.2.2)
  let (ok, cells, s) := ((List.range rows).filter fun i => !(cellsOf i).isEmpty).foldl row (ok, [], s)
  engWriteLines s ag ok (lines.map fun l => (l, lineOver l cells))

/-! ## Progress -/

/-- Units of a copy: the lines of its global operand, for CPYT the lines of scratch and for CPYTN the lines of the tensor
that it writes. -/
def copyUnits (k : Cmd) : Nat :=
  let o := k.ops
  match k.instr with
  | .cpymc _ => lineCount o.addrA (o.bAt 1)
  | .cpyt _ => tileRows k.tdesc o + (if scaleRows k.tdesc o = 0 then 0 else lineCount (o.bAt 1) (4 * scaleRows k.tdesc o))
  | .cpytn _ => (narrowLines k.tdesc o).length
  | _ => lineCount o.addrA o.nc

/-- Perform units `lo` to `hi` of a copy. -/
def runCopy (s : State) (core : Nat) (k : Cmd) (ok : Bool) (lo hi : Nat) : Bool × State :=
  let o := k.ops
  let cut := fun n (run : State → Nat → Cmd → Bool → Nat → Nat → Bool × State) =>
    run s core k ok (lineCut o.addrA n lo) (lineCut o.addrA n hi)
  match k.instr with
  | .cpyin _ => cut o.nc runCpyin
  | .cpyout _ => cut o.nc runCpyout
  | .cpygg _ => cut o.nc runCpygg
  | .cpymc _ => cut (o.bAt 1) runCpymc
  | .cpyt _ => runCpyt s core k ok lo hi
  | .cpytn f => runCpytn s core k f ok lo hi
  | _ => (ok, s)

/-- A copy command. -/
def isCopy : Instr → Bool
  | .cpyin _ => true
  | .cpyout _ => true
  | .cpygg _ => true
  | .cpymc _ => true
  | .cpyt _ => true
  | .cpytn _ => true
  | _ => false

/-- The code of a command is known. -/
def failCmd (s : State) (core id code : Nat) : State := modCmd s core id fun k => { k with failed := some code }

/-- A tensor command reads its descriptor at its start (R293) and is checked (R295); another copy has nothing to read. None
when the command ends with FAULT and writes nothing. -/
def openCopy (s : State) (core : Nat) (k : Cmd) : Option Cmd × State :=
  let tensor := fun (good : List Byte → Bool) =>
    if !k.data.isEmpty then (some k, s)
    else match readTdesc s (cmdAgent core k) k.ops.addrA with
      | (none, s) => (none, s)
      | (some b, s) => (if good b then some { k with data := b.map fun x => x.toNat } else none, s)
  match k.instr with
  | .cpyt _ => tensor fun b => cpytOk b k.ops (cmdScratch s k)
  | .cpytn f => tensor fun b => cpytnOk b f k.ops (cmdScratch s k)
  | _ => (some k, s)

/-- A copy starts: a freely chosen part of its remaining units is performed, and `stage` is its restart offset (R296,
R434). A fault there ends it, with any of the other bytes written too. -/
def startCopy (s : State) (core : Nat) (k : Cmd) : State :=
  match openCopy s core k with
  | (none, s) => failCmd s core k.id codeFAULT
  | (some k, s) =>
    let n := copyUnits k
    let (d, s) := s.below (n - k.stage + 1)
    let (ok, s) := runCopy s core k true k.stage (k.stage + d)
    if ok then modCmd s core k.id fun c => { c with data := k.data, stage := k.stage + d }
    else failCmd (runCopy s core k false (k.stage + d) n).2 core k.id codeFAULT

/-- A copy performs the rest of its units: its code. -/
def performCopy (s : State) (core : Nat) (k : Cmd) : Nat × State :=
  let (ok, s) := runCopy s core k true k.stage (copyUnits k)
  (codeOf ok, s)

end Sys2Proof.Machine
end

