-- ==== Sys2Proof/Machine/Matrix.lean ====
section
/-! DEFINITION. The matrix engine (spec 15): its six instructions, the arithmetic of an accumulation, sparsity, draining,
the lease and fusion, and redundant mode. The engine performs a command as a whole when it begins it, and its completion reports the code (log 7). -/
namespace Sys2Proof.Machine

/-! ## Accumulations as commands -/

/-- An MMA, MMASP or MLOADB with its operands (R298, R299). -/
structure Mac where
  fn : Nat
  sparse : Bool
  dual : Bool
  sat : Bool
  /-- MCTL. -/
  ctl : Nat
  a : Nat
  aScale : Nat
  b : Nat
  bScale : Nat
  meta_ : Nat
deriving DecidableEq, Repr

/-- The accumulation a command names. -/
def macOf (i : Instr) (o : Operands) : Option Mac :=
  let mk := fun (f : FmtE) (sp dual sat : Bool) (m : Nat) =>
    some ⟨f.fn.toNat, sp, dual, sat, o.nb, o.aAt 0, o.aAt 1, o.aAt 2, o.aAt 3, m⟩
  match i with
  | .mma f => mk f false (f.mod.getLsbD 0) (f.mod.getLsbD 1) 0
  | .mmasp f => mk f true (f.mod.getLsbD 0) (f.mod.getLsbD 1) o.nc
  | .mloadb f => mk f (f.mod.getLsbD 0) false false 0
  | _ => none

/-- Fields of MCTL (R299). -/
def Mac.slot (m : Mac) : Nat := m.ctl % 32
def Mac.at_ (m : Mac) : Bool := m.ctl.testBit 5
def Mac.bt (m : Mac) : Bool := m.ctl.testBit 6
def Mac.bcol (m : Mac) : Bool := m.ctl.testBit 7
def Mac.btype (m : Mac) : Nat := m.ctl / 256 % 4

/-- Element bytes and the logical and stored K (R298). -/
def Mac.bytes (m : Mac) : Nat := canonBytes m.fn
def Mac.kc (m : Mac) : Nat := 128 / m.bytes * (if m.sparse then 2 else 1)
def Mac.ks (m : Mac) : Nat := 128 / m.bytes
/-- The type's scales are FP32 values (FP8). -/
def Mac.fp8 (m : Mac) : Bool := m.fn == 12 || m.fn == 13
def Mac.int (m : Mac) : Bool := m.fn == 6 || m.fn == 7
def Mac.blocks (m : Mac) : Nat := (m.kc + 127) / 128

/-- Footprints of R300 and R306. -/
def Mac.aBytes (m : Mac) : Nat := if m.at_ then m.ks * 128 else 2048
def Mac.bBytes (m : Mac) : Nat := m.kc * 128 * m.bytes
def Mac.aScaleBytes (m : Mac) : Nat := if m.aScale = noOffset then 0 else 64 * m.blocks
def Mac.bScaleBytes (m : Mac) : Nat := if m.bScale = noOffset then 0 else (if m.bcol then 512 else 4) * m.blocks
def Mac.metaBytes (m : Mac) : Nat := if m.sparse then (if m.bytes = 1 then 512 else 256) else 0

/-- MCTL is valid for the type (R299, R318). -/
def Mac.ctlOk (m : Mac) : Bool := m.ctl < 1024 && m.btype ≤ 1 && (m.bytes == 1 || m.btype == 0)

/-- A range is aligned and inside the window. -/
def inWindow (scratch off n align : Nat) : Bool := off % align == 0 && off + n ≤ scratch

/-- An accumulation passes the checks made at issue (R318). -/
def Mac.ok (m : Mac) (scratch acc : Nat) : Bool :=
  m.ctlOk && m.slot < acc && (!m.dual || (m.slot % 2 == 0 && m.slot + 1 < acc)) &&
  inWindow scratch m.a m.aBytes 128 && inWindow scratch m.b m.bBytes 128 &&
  (m.aScale == noOffset || inWindow scratch m.aScale m.aScaleBytes 4) &&
  (m.bScale == noOffset || inWindow scratch m.bScale m.bScaleBytes 4) &&
  (!m.sparse || (inWindow scratch m.meta_ m.metaBytes 16 && !m.at_)) &&
  (m.fp8 || (m.aScale == noOffset && m.bScale == noOffset)) &&
  !(m.bcol && m.bScale == noOffset)

/-- MLOADB's checks (R308, R318): it reads B alone. -/
def Mac.okLoad (m : Mac) (scratch : Nat) : Bool := m.ctlOk && inWindow scratch m.b m.bBytes 128

/-- The slots a command writes. -/
def Mac.slots (m : Mac) : List Nat := if m.dual then [m.slot, m.slot + 1] else [m.slot]

/-! ## The arithmetic -/

/-- Scratch bytes of a command as an array, poisoned words 0 (R319). -/
def scratchArray (s : State) (core at_ n : Nat) : Array Byte :=
  let c := coreOf s core
  let b := cellRange (0 : Byte) c.scratch at_ n
  (((List.range n).zip b).map fun q => if c.scratchPoison.contains ((at_ + q.1) / 4) then 0 else q.2).toArray

/-- An element of an array of bytes. -/
def elemAt (b : Array Byte) (off n : Nat) : Nat := leNat ((List.range n).map fun k => b.getD (off + k) 0)

/-- The operands of an accumulation as read from scratch. -/
structure MacData where
  a : Array Byte
  b : Array Byte
  aScale : Array Byte
  bScale : Array Byte
  meta_ : Array Byte

/-- Read an accumulation's operands. -/
def macData (s : State) (core base : Nat) (m : Mac) : MacData :=
  ⟨scratchArray s core (base + m.a) m.aBytes, scratchArray s core (base + m.b) m.bBytes,
    scratchArray s core (base + m.aScale) m.aScaleBytes, scratchArray s core (base + m.bScale) m.bScaleBytes,
    scratchArray s core (base + m.meta_) m.metaBytes⟩

/-- The nibble of row i's group g (R306). -/
def nibbleAt (m : Mac) (d : MacData) (i g : Nat) : Nat :=
  elemAt d.meta_ ((if m.bytes = 1 then 32 else 16) * i + g / 2) 1 / 16 ^ (g % 2) % 16

/-- The metadata of a row is in order (R306). -/
def rowOk (m : Mac) (d : MacData) (i : Nat) : Bool :=
  !m.sparse || (List.range (m.kc / 4)).all fun g => nibbleAt m d i g % 4 < nibbleAt m d i g / 4

/-- Logical element (i, k) of A (R300, R306); none where a sparse row skips it. -/
def aElem (m : Mac) (d : MacData) (i k : Nat) : Option Nat :=
  let get := fun c => elemAt d.a (canonOff 16 (128 / m.bytes) m.bytes i c) m.bytes
  if m.sparse then
    let n := nibbleAt m d i (k / 4)
    if k % 4 = n % 4 then some (get (k / 4 * 2)) else if k % 4 = n / 4 then some (get (k / 4 * 2 + 1)) else none
  else if m.at_ then some (elemAt d.a (canonOff m.ks (128 / m.bytes) m.bytes k i) m.bytes)
  else some (get k)

/-- Logical element (k, j) of B (R300). -/
def bElem (m : Mac) (d : MacData) (k j : Nat) : Nat :=
  if m.bt then elemAt d.b (canonOff 128 (128 / m.bytes) m.bytes j k) m.bytes
  else elemAt d.b (canonOff m.kc (128 / m.bytes) m.bytes k j) m.bytes

/-- Scales (R300); 1.0 where there is no array. -/
def aScaleAt (m : Mac) (d : MacData) (i b : Nat) : Nat :=
  if m.aScale = noOffset then 0x3F800000 else elemAt d.aScale (4 * (b * 16 + i)) 4
def bScaleAt (m : Mac) (d : MacData) (b j : Nat) : Nat :=
  if m.bScale = noOffset then 0x3F800000
  else elemAt d.bScale (4 * (if m.bcol then b * 128 + j else b)) 4

/-- The type of B (R299): an FP8 or integer type of its own, or A's. -/
def Mac.bType (m : Mac) : Nat := if m.fp8 then 12 + m.btype else if m.int then 6 + m.btype else m.fn

/-- The exact sum of the products of a block (R302); an exactly zero sum is +0. -/
def blockSum (m : Mac) (d : MacData) (i j b : Nat) : Exact :=
  (List.range 128).foldl (fun p k => match aElem m d i (b * 128 + k) with
    | none => p
    | some x =>
      let y := bElem m d (b * 128 + k) j
      (p.add 0 (((fltOf m.fn).val x).mul ((fltOf m.bType).val y)).1).1) (.zero false)

/-- The exact integer sum of a block (R304). -/
def blockInt (m : Mac) (d : MacData) (i j b : Nat) : Int :=
  (List.range 128).foldl (fun p k => match aElem m d i (b * 128 + k) with
    | none => p
    | some x => p + intVal m.fn x * intVal m.bType (bElem m d (b * 128 + k) j)) 0

/-- One level of the tree of R303. -/
def treeLevel : List Exact → List Exact
  | x :: y :: l => f32.val (fl32of (x.add 0 y).1) :: treeLevel l
  | l => l

/-- A group of 16 products and its tree (R303). -/
def groupSum (m : Mac) (d : MacData) (i j g : Nat) : Exact :=
  let t := fltOf m.fn
  let y := (List.range 16).map fun k => match aElem m d i (16 * g + k) with
    | none => .zero false
    | some x => ((t.val x).mul (t.val (bElem m d (16 * g + k) j))).1
  (treeLevel (treeLevel (treeLevel (treeLevel y)))).headD (.zero false)

/-- What one row and column adds to an accumulator entry, step by step (R302, R303, R304). -/
def macEntry (m : Mac) (d : MacData) (i j : Nat) (acc : Nat) : Nat :=
  if m.fp8 then
    (List.range m.blocks).foldl (fun acc b =>
      let s := fl32mul (aScaleAt m d i b) (bScaleAt m d b j)
      let q := fl32of ((blockSum m d i j b).mul (f32.val s)).1
      fl32add acc q) acc
  else if m.int then
    (List.range m.blocks).foldl (fun acc b =>
      let x := signedOf 32 acc + blockInt m d i j b
      if m.sat then (satInt 0 x).1 else wrapInt 0 x) acc
  else
    (List.range (m.kc / 16)).foldl (fun acc g => fl32of ((f32.val acc).add 0 (groupSum m d i j g)).1) acc

/-! ## Slots -/

/-- The first accumulator slot of a workgroup on a core, and its part's number. -/
def cmdSlots (s : State) (wg core : Nat) : Nat × Nat := match tableGet s.wgs wg with
  | some w => match w.parts.findIdx? fun q => q.core == core with
    | some j => ((w.parts[j]?.map fun q => q.slots).getD 0, j)
    | none => (0, 0)
  | none => (0, 0)

/-- ACC of a command's launch. -/
def cmdAcc (s : State) (k : Cmd) : Nat := match tableGet s.launches k.launch with
  | some l => l.lrec.acc
  | none => 0

/-- The entry (row, column) of a core's slot; poisoned entries read 0 (R319). -/
def slotKey (slot i j : Nat) : Nat := slot * 2048 + i * 128 + j
def slotRead (c : Core) (slot i j : Nat) : Nat :=
  if c.accPoison.contains (slotKey slot i j) then 0 else (cellGet (0 : Word) c.acc (slotKey slot i j)).toNat
def slotWrite (c : Core) (slot i j x : Nat) : Core :=
  { c with
    acc := cellPut (0 : Word) c.acc (slotKey slot i j) (BitVec.ofNat 32 x)
    accPoison := setDel c.accPoison (slotKey slot i j) }

/-- Clear every entry of a slot. -/
def slotClear (c : Core) (slot : Nat) : Core :=
  { c with
    acc := c.acc.filter fun e => e.1 / 2048 != slot
    accPoison := c.accPoison.filter fun e => e / 2048 != slot }

/-- The check state of a pair (R316). -/
def checkOf (s : State) (wg part pair : Nat) : PairCheck := match tableGet s.wgs wg with
  | some w => (tableGet w.checks (part * 16 + pair)).getD .off
  | none => .off
/-- Set the check state of a pair. -/
def setCheck (s : State) (wg part pair : Nat) (c : PairCheck) : State :=
  modWg s wg fun w => { w with
    checks := if c = .off then tableDel w.checks (part * 16 + pair) else tablePut w.checks (part * 16 + pair) c }

/-! ## Poison -/

/-- Poisoned words among ranges of scratch that a command reads. -/
def poisonIn (c : Core) (l : List (Nat × Nat)) : List Nat :=
  c.scratchPoison.filter fun w => l.any fun r => r.1 < 4 * w + 4 && 4 * w < r.1 + r.2
/-- Poisoned entries among the rows of a slot. -/
def poisonSlot (c : Core) (slot : Nat) (rows : Nat → Bool) : List Nat :=
  c.accPoison.filter fun e => e / 2048 == slot && rows (e % 2048 / 128)

/-- Count each poisoned value read (R319); false when the job's poison trap turns it into FAULT. Units: log 17. -/
def matrixPoison (s : State) (ag : Agent) (core : Nat) (words entries : List Nat) : Bool × State :=
  let ag := { ag with core := core }
  let s := scratchMet s ag core words
  let s := entries.foldl (fun s e => enginePoisonAt s ag 4 (core * 2 ^ 20 + e)) s
  (!ag.poisonTrap || (words.isEmpty && entries.isEmpty), s)

/-- The metadata ranges of an accumulation's present rows. -/
def metaReads (m : Mac) (base : Nat) (rows : List Nat) : List (Nat × Nat) :=
  if m.sparse then rows.map fun i => (base + m.meta_ + m.metaBytes / 16 * i, m.metaBytes / 16) else []

/-- The scratch ranges an accumulation reads for its present rows. -/
def macReads (m : Mac) (base : Nat) (rows : List Nat) : List (Nat × Nat) :=
  let a := if m.at_ then rows.flatMap fun i => (List.range m.ks).map fun k => (base + m.a + 128 * k + m.bytes * i, m.bytes)
    else rows.map fun i => (base + m.a + 128 * i, 128)
  let sc := if m.aScale = noOffset then []
    else rows.flatMap fun i => (List.range m.blocks).map fun b => (base + m.aScale + 4 * (b * 16 + i), 4)
  if rows.isEmpty then []
  else a ++ sc ++ metaReads m base rows ++ [(base + m.b, m.bBytes)] ++
    (if m.bScale = noOffset then [] else [(base + m.bScale, m.bScaleBytes)])

/-! ## Performing -/

/-- The outcome of a matrix command: its code, and whether it was performed and counts in the lease. -/
structure MatrixEnd where
  code : Nat
  performed : Bool
deriving DecidableEq, Repr

/-- An accumulation's effect on its slots. -/
def macSlots (m : Mac) (d : MacData) (slot0 : Nat) (rows : List Nat) (c : Core) : Core :=
  m.slots.foldl (fun c slot => rows.foldl (fun c i => (List.range 128).foldl (fun c j =>
    slotWrite c (slot0 + slot) i j (macEntry m d i j (slotRead c (slot0 + slot) i j))) c) c) c

/-- The check state after an accumulation (R316). -/
def macCheck (dual : Bool) (c : PairCheck) : PairCheck :=
  if !dual then .off
  else match c with
    | .off => .off
    | .clean => .twin 1
    | .twin n => .twin (min (n + 1) (2 ^ 32 - 1))

/-- Perform MMA or MMASP (R302-R306, R316, R318, R319). One that the job's poison trap ends with FAULT counts in its strip's
lease and leaves the slots' check state as it was: no rule says (DESIGN CHOICE, log 66). -/
def performMac (s : State) (core : Nat) (k : Cmd) (m : Mac) : MatrixEnd × State :=
  let base := (cmdBase s k.wg core).getD 0
  let (slot0, part) := cmdSlots s k.wg core
  let d := macData s core base m
  let rows := strandsOf k.x
  let c := coreOf s core
  -- metadata is read first; a poisoned nibble reads 0, which is out of order
  if !(rows.all (rowOk m d)) then
    (⟨codeFAULT, false⟩, (matrixPoison s (cmdAgent core k) core (poisonIn c (metaReads m base rows)) []).2)
  else
    let entries := m.slots.flatMap fun slot => poisonSlot c (slot0 + slot) fun i => rows.contains i
    let (ok, s) := matrixPoison s (cmdAgent core k) core (poisonIn c (macReads m base rows)) entries
    if !ok then (⟨codeFAULT, true⟩, s)
    else
      let s := modCore s core (macSlots m d slot0 rows)
      (⟨codeOK, true⟩, setCheck s k.wg part (m.slot / 2) (macCheck m.dual (checkOf s k.wg part (m.slot / 2))))

/-- Perform MZERO (R307, R316). -/
def performMzero (s : State) (core : Nat) (k : Cmd) : MatrixEnd × State :=
  let (slot0, part) := cmdSlots s k.wg core
  let mask := k.ops.na
  let slots := (List.range 32).filter fun n => mask.testBit n
  let s := modCore s core fun c => slots.foldl (fun c n => slotClear c (slot0 + n)) c
  let s := (List.range 16).foldl (fun s q =>
    match mask.testBit (2 * q), mask.testBit (2 * q + 1) with
    | true, true => setCheck s k.wg part q .clean
    | false, false => s
    | _, _ => setCheck s k.wg part q .off) s
  (⟨codeOK, true⟩, s)

/-- Perform MLOADB (R308, R319): it reads B and changes only what the array has loaded. -/
def performMloadb (s : State) (core : Nat) (k : Cmd) (m : Mac) : MatrixEnd × State :=
  let base := (cmdBase s k.wg core).getD 0
  let (ok, s) := matrixPoison s (cmdAgent core k) core (poisonIn (coreOf s core) [(base + m.b, m.bBytes)]) []
  (⟨codeOf ok, true⟩, s)

/-- Fields of DCTL (R309). -/
def drainSlot (o : Operands) : Nat := o.nb % 32
def drainOscol (o : Operands) : Bool := o.nb.testBit 8
def drainIsrc (o : Operands) : Bool := o.nb.testBit 9
/-- Bytes of a drained element (R310). -/
def drainBytes (fn : Nat) : Nat := if fn = 0 ∨ fn = 8 then 4 else if fn = 10 ∨ fn = 11 then 2 else 1

/-- MDRAIN passes the checks made at issue (R318). -/
def drainOk (f : FmtE) (o : Operands) (scratch acc : Nat) : Bool :=
  let n := 2048 * drainBytes f.fn.toNat
  o.nb &&& 0xFFFFFCE0 == 0 && drainSlot o < acc && inWindow scratch (o.aAt 0) n 128 &&
  (o.aAt 1 == noOffset || inWindow scratch (o.aAt 1) (if drainOscol o then 512 else 64) 4) &&
  (o.aAt 2 == noOffset || inWindow scratch (o.aAt 2) 64 4) &&
  !(drainOscol o && o.aAt 1 == noOffset) &&
  (f.fn != 0 || (drainIsrc o && o.aAt 1 == noOffset && o.aAt 2 == noOffset))

/-- Two slots of a core hold the same entries. -/
def slotsEqual (c : Core) (a b : Nat) : Bool :=
  (List.range 16).all fun i => (List.range 128).all fun j => slotRead c a i j == slotRead c b i j

/-- The values of a slot's row after conversion and output scale (R310). -/
def drainRow (o : Operands) (c : Core) (scales : Array Byte) (slot i : Nat) : List Nat :=
  (List.range 128).map fun j =>
    let e := slotRead c slot i j
    let x := if drainIsrc o then (f32.round (.ofInt (signedOf 32 e) 0) 0 false).1 else fl32canon e
    if o.aAt 1 = noOffset then x else fl32mul x (elemAt scales (4 * (if drainOscol o then j else i)) 4)

/-- The row maximum (R310, R45). -/
def rowMax (xs : List Nat) : Nat := match xs.map fun x => x % 2 ^ 31 with
  | [] => 0
  | x :: l => l.foldl (fun m y => (f32.minmax true false m y).1) x

/-- Scratch ranges that row i of a drain reads. -/
def drainReads (o : Operands) (base i : Nat) : List (Nat × Nat) :=
  if o.aAt 1 = noOffset then []
  else if drainOscol o then [(base + o.aAt 1, 512)]
  else [(base + o.aAt 1 + 4 * i, 4)]

/-- MDRAIN converts and writes one row (R310); with the poisoned scale words met so far. -/
def drainOne (f : FmtE) (o : Operands) (core base slot : Nat) (r : List Nat × State) (i : Nat) : List Nat × State :=
  let s := r.2
  let fn := f.fn.toNat
  let e := drainBytes fn
  let c := coreOf s core
  let nsc := if o.aAt 1 = noOffset then 0 else if drainOscol o then 512 else 64
  let xs := if fn = 0 then (List.range 128).map fun j => slotRead c slot i j
    else drainRow o c (scratchArray s core (base + o.aAt 1) nsc) slot i
  let ys := if fn = 0 ∨ fn = 8 then xs else narrowRow (fltOf fn) (f.mod.getLsbD 1) (f.mod.getLsbD 0) xs 0
  let s := if o.aAt 2 = noOffset then s else writeScratch s core (base + o.aAt 2 + 4 * i) (leBytes 4 (rowMax xs))
  let cols := 128 / e
  ((poisonIn c (drainReads o base i)).foldl setAdd r.1, (List.range e).foldl (fun s q =>
    writeScratch s core (base + o.aAt 0 + (q * 16 + i) * 128) (((ys.drop (q * cols)).take cols).flatMap fun v => leBytes e v)) s)

/-- The token as trap state names it (R406). -/
def tokenInfo (k : Cmd) : Nat := match k.token with
  | some t => t * 256
  | none => 2048

/-- An asynchronous trap is raised by a completion (R400): a strip with nothing runnable stands at a boundary and takes it
at once, before the completion can release a WAIT (R317); a strip whose workgroup is being saved keeps it (R434). -/
def raiseNow (s : State) (id core : Nat) (a : AsyncTrap) : State :=
  let s := raiseAsync s id core a
  match tableGet s.strips id with
  | some p =>
    if p.chooseX.isNone && !wgSaving s p.wg then takeAsync s id else s
  | none => s

/-- The mismatch trap of an MDRAIN (R317, R406), by the count of redundant operations. -/
def mismatchTrap (k : Cmd) (n : Nat) : AsyncTrap :=
  ⟨causeMISMATCH, k.pc.setWidth 64, BitVec.ofNat 32 (drainSlot k.ops + tokenInfo k), BitVec.ofNat 32 n⟩

/-- Perform MDRAIN (R310, R317, R319), row by row. A mismatch is noted in `data`, and its completion raises the trap. -/
def performMdrain (s : State) (core : Nat) (k : Cmd) (f : FmtE) : MatrixEnd × State :=
  let o := k.ops
  let ag := cmdAgent core k
  let base := (cmdBase s k.wg core).getD 0
  let (slot0, part) := cmdSlots s k.wg core
  let slot := slot0 + drainSlot o
  let c := coreOf s core
  let twin := match checkOf s k.wg part (drainSlot o / 2) with
    | .twin n => if drainSlot o % 2 = 0 then some n else none
    | _ => none
  let entries := poisonSlot c slot (fun _ => true) ++ if twin.isSome then poisonSlot c (slot + 1) fun _ => true else []
  let (sound, s) := matrixPoison s ag core [] entries
  match twin, twin.isSome && !slotsEqual c slot (slot + 1) with
  | some n, true => (⟨codeFAULT, true⟩, modCmd s core k.id fun k => { k with data := [n] })
  | _, _ =>
    let (words, s') := (List.range 16).foldl (drainOne f o core base slot) ([], s)
    let (ok, s') := matrixPoison s' ag core words []
    if sound && ok then (⟨codeOK, true⟩, s') else (⟨codeFAULT, true⟩, (matrixPoison s ag core words []).2)

/-- Perform a matrix command. -/
def performMatrix (s : State) (core : Nat) (k : Cmd) : MatrixEnd × State :=
  match k.instr with
  | .mzero _ => performMzero s core k
  | .mdrain f => performMdrain s core k f
  | i => match macOf i k.ops with
    | some m => if accumulates i then performMac s core k m else performMloadb s core k m
    | none => (⟨codeFAULT, false⟩, s)

/-! ## The lease -/

/-- A command of the matrix engine's five kinds. -/
def isMatrix : Instr → Bool
  | .mma _ => true
  | .mmasp _ => true
  | .mzero _ => true
  | .mloadb _ => true
  | .mdrain _ => true
  | _ => false

/-- A strip's oldest unperformed matrix command on a core (R312). -/
def nextMatrix (s : State) (core strip : Nat) : Option Cmd :=
  (coreOf s core).rsb.find? fun k => k.strip == strip && isMatrix k.instr && k.failed.isNone && !k.shadow

/-- A strip's workgroup is being saved: the engine begins none of its commands (R434). -/
def stripSaving (s : State) (id : Nat) : Bool := match tableGet s.strips id with
  | some p => wgSaving s p.wg
  | none => false

/-- A strip's place in the round robin (R313). -/
def stripPlace (p : Strip) : Nat := p.sliceKey * 8 + p.slot

/-- The candidates of a core, with their commands, in round-robin order from a place (R313): the strips whose next
command has started. -/
def candidates (s : State) (core from_ : Nat) : List (Nat × Cmd) :=
  let key := fun (p : Strip) => (stripPlace p + 384 - from_ % 384) % 384
  let all := s.strips.filterMap fun q =>
    if q.2.coreId = core && !wgSaving s q.2.wg then
      match nextMatrix s core q.1 with
      | some k => if k.started then some (key q.2, q.1, k) else none
      | none => none
    else none
  let sorted := (List.range 384).flatMap fun n => all.filter fun e => e.1 == n
  sorted.map fun e => e.2

/-- The marks in `stage` of a matrix command: 1 when a yield mark follows it (R315), and 2 more once the engine has begun
it, or 4 where it then failed and counts in no lease (R313, R318). -/
def Cmd.marked (k : Cmd) : Bool := k.stage % 2 == 1
def Cmd.begun (k : Cmd) : Bool := isMatrix k.instr && 2 ≤ k.stage

/-- The holder's tenure ends (R313). -/
def endTenure (s : State) (core : Nat) : State := match (coreOf s core).holder with
  | 0 => s
  | h + 1 => modStrip (modCore s core fun c => { c with holder := 0 }) h fun p => { p with lease := 0 }

/-- The holder has a started command. -/
def holderReady (s : State) (core : Nat) : Bool := match (coreOf s core).holder with
  | 0 => false
  | h + 1 => (nextMatrix s core h).any fun k => k.started

/-- Choose a holder when there is none; one with nothing started has lost its tenure (R313). -/
def electHolder (s : State) (core : Nat) : State :=
  if holderReady s core then s
  else
    let s := endTenure s core
    match candidates s core (coreOf s core).holderPlace with
    | (id, _) :: _ =>
      let place := match tableGet s.strips id with
        | some p => stripPlace p + 1
        | none => 0
      modCore s core fun c => { c with holder := id + 1, holderPlace := place }
    | [] => s

/-- LEASE of a strip's launch. -/
def leaseOf (s : State) (id : Nat) : Nat := match tableGet s.strips id with
  | some p => match launchOfStrip s p with
    | some (_, l) => l.lrec.lease
    | none => 1
  | none => 1

/-- A strip's count has reached LEASE (R313). -/
def leaseFull (s : State) (id : Nat) : Bool := match tableGet s.strips id with
  | some p => leaseOf s id ≤ p.lease
  | none => true

/-- The engine begins a command: it is performed, its code is known, and it counts in its strip's lease (R313, R320). -/
def runMatrix (s : State) (core : Nat) (k : Cmd) : State :=
  let (e, s) := performMatrix s core k
  let s := if e.performed then modStrip s k.strip fun p => { p with lease := p.lease + 1 } else s
  modCmd s core k.id fun k => { k with failed := some e.code, stage := k.stage + if e.performed then 2 else 4 }

/-- The B key of an accumulation on a core (R308). -/
def bKey (s : State) (core : Nat) (k : Cmd) (m : Mac) : Nat × Bool × Nat × Bool :=
  ((cmdBase s k.wg core).getD 0 + m.b, m.bt, m.bytes, m.sparse)

/-- Two accumulations may share a pass, but for their slots (R314). -/
def fusable (s : State) (core : Nat) (k l : Cmd) : Bool :=
  match macOf k.instr k.ops, macOf l.instr l.ops with
  | some m, some n =>
    accumulates k.instr && accumulates l.instr && m.sparse == n.sparse && m.fn == n.fn && m.dual == n.dual &&
      bKey s core k m == bKey s core l n && m.bScale == n.bScale && m.bcol == n.bcol && m.btype == n.btype
  | _, _ => false

/-- The physical slots of an accumulation. -/
def passSlots (s : State) (core : Nat) (k : Cmd) : List Nat := match macOf k.instr k.ops with
  | some m => m.slots.map fun n => (cmdSlots s k.wg core).1 + n
  | none => []

/-- The commands fused with the holder's (R314): up to 7, slots all different. -/
def fusedWith (s : State) (core : Nat) (k : Cmd) : List Cmd :=
  let l := (candidates s core (coreOf s core).holderPlace).filter fun e => e.1 != k.strip
  (l.foldl (fun (r : List Cmd × List Nat) e =>
    let sl := passSlots s core e.2
    if r.1.length < 7 && fusable s core k e.2 && !(sl.any r.2.contains) then (r.1 ++ [e.2], r.2 ++ sl) else r)
    ([], passSlots s core k)).1

/-- The engine, idle, begins the holder's next command, with the commands fused into its pass (R313, R314). A holder that is
being saved keeps its tenure until it leaves (R434). -/
def beginMatrix (s : State) (core : Nat) : State :=
  let h := (coreOf s core).holder
  if (coreOf s core).rsb.any Cmd.begun || (h != 0 && stripSaving s (h - 1)) then s
  else
    let s := electHolder s core
    match (coreOf s core).holder with
    | 0 => s
    | h + 1 => match nextMatrix s core h with
      | none => s
      | some k =>
        let fused := fusedWith s core k
        fused.foldl (fun s l => runMatrix s core l) (runMatrix s core k)

/-- A matrix command that has been performed completes: a mismatch raises its trap first, and a mark or a full count ends
the holder's tenure (R313, R315, R317). -/
def endMatrix (s : State) (core : Nat) (k : Cmd) (code : Nat) : State :=
  let s := match k.instr, k.data with
    | .mdrain _, n :: _ => raiseNow s k.strip core (mismatchTrap k n)
    | _, _ => s
  let s := finishCmd s core k code
  if (coreOf s core).holder = k.strip + 1 && (k.marked || (k.stage < 4 && leaseFull s k.strip)) then endTenure s core else s

/-- The completion of a matrix command that has begun; the engine goes on (R312, R313). -/
def matrixComplete (s : State) (core : Nat) (k : Cmd) : State :=
  match k.failed with
  | some code => beginMatrix (if k.begun then endMatrix s core k code else finishCmd s core k code) core
  | none => beginMatrix s core

/-! ## The instructions -/

/-- Slot ranges of a part. -/
def slotRanges (slot0 : Nat) (l : List Nat) : List Region := l.flatMap fun n => slotRange slot0 n 1

/-- MMA and MMASP at issue (R311, R318). -/
def planMac (s : State) (p : Strip) (c : Ctx) : Plan :=
  match macOf c.instr c.ops with
  | none => planNone
  | some m =>
    let q := partOf s p
    let acc := match launchOfStrip s p with
      | some (_, l) => l.lrec.acc
      | none => 0
    if m.ok (scratchSize s p) acc then
      let slots := slotRanges q.slots m.slots
      ⟨windowRange q.scratch m.a m.aBytes ++ windowRange q.scratch m.aScale m.aScaleBytes ++
        windowRange q.scratch m.b m.bBytes ++ windowRange q.scratch m.bScale m.bScaleBytes ++
        windowRange q.scratch m.meta_ m.metaBytes ++ slots, slots, false, none, [], false⟩
    else { planNone with failed := some codeFAULT }
def execMma (f : FmtE) (s : State) : Host.Outcome State Fault Refusal := engineOp (.mma f) f noCheck planMac s
def execMmasp (f : FmtE) (s : State) : Host.Outcome State Fault Refusal := engineOp (.mmasp f) f noCheck planMac s

/-- MZERO at issue (R307): a mask of 0 completes with OK, a slot beyond ACC with FAULT. -/
def planMzero (s : State) (p : Strip) (c : Ctx) : Plan :=
  let acc := match launchOfStrip s p with
    | some (_, l) => l.lrec.acc
    | none => 0
  let mask := c.ops.na
  if mask = 0 then planEmpty
  else if 2 ^ acc ≤ mask then { planNone with failed := some codeFAULT }
  else ⟨[], slotRanges (partOf s p).slots ((List.range 32).filter fun n => mask.testBit n), false, none, [], false⟩
def execMzero (f : FmtE) (s : State) : Host.Outcome State Fault Refusal := engineOp (.mzero f) f noCheck planMzero s

/-- MLOADB (R308): it changes only what the array has loaded, which only timing shows. -/
def planMloadb (s : State) (p : Strip) (c : Ctx) : Plan :=
  match macOf c.instr c.ops with
  | none => planNone
  | some m =>
    if m.okLoad (scratchSize s p) then ⟨windowRange (partOf s p).scratch m.b m.bBytes, [], false, none, [], false⟩
    else { planNone with failed := some codeFAULT }
def execMloadb (f : FmtE) (s : State) : Host.Outcome State Fault Refusal := engineOp (.mloadb f) f noCheck planMloadb s

/-- MDRAIN (R309-R311). -/
def planMdrain (f : FmtE) (s : State) (p : Strip) (c : Ctx) : Plan :=
  let q := partOf s p
  let acc := match launchOfStrip s p with
    | some (_, l) => l.lrec.acc
    | none => 0
  let o := c.ops
  if drainOk f o (scratchSize s p) acc then
    let n := drainSlot o
    let slots := if n % 2 = 0 ∧ n + 1 < acc then [n, n + 1] else [n]
    let scales := if o.aAt 1 = noOffset then [] else windowRange q.scratch (o.aAt 1) (if drainOscol o then 512 else 64)
    let maxima := if o.aAt 2 = noOffset then [] else windowRange q.scratch (o.aAt 2) 64
    ⟨slotRanges q.slots slots ++ scales,
      windowRange q.scratch (o.aAt 0) (2048 * drainBytes f.fn.toNat) ++ maxima, false, none, [], false⟩
  else { planNone with failed := some codeFAULT }
def execMdrain (f : FmtE) (s : State) : Host.Outcome State Fault Refusal :=
  engineOp (.mdrain f) f noCheck (planMdrain f) s

/-- A yield mark after the strip's last matrix command not yet performed, or, with none, at once (R315). -/
def placeMark (s : State) (core strip : Nat) : State :=
  let mine := (coreOf s core).rsb.filter fun k => k.strip == strip && isMatrix k.instr && k.failed.isNone && !k.shadow
  match mine.getLast? with
  | some k => modCmd s core k.id fun k => { k with stage := k.stage / 2 * 2 + 1 }
  | none => if (coreOf s core).holder = strip + 1 then beginMatrix (endTenure s core) core else s

/-- MLEASE (R315). -/
def execMlease (f : FmtR) (s : State) : Host.Outcome State Fault Refusal :=
  .next (issueSimple (.mlease f) (fun s c =>
    match tableGet s.strips c.id with
    | none => (true, s)
    | some p => (true, advanceX (placeMark s p.coreId c.id) c)) s)

end Sys2Proof.Machine
end

