-- ==== Sys2Proof/Machine/Splat.lean ====
section
/-! DEFINITION. The splat engine (spec 17): its records, projection and binning, sorting, blending and back-propagation.
A command does a freely chosen part of its work when the engine begins it and the rest at its completion (log 7). FP32
values are patterns held as numbers. -/
namespace Sys2Proof.Machine

/-! ## FP32 as the splat engine computes (R352) -/

def fl32div (a b : Nat) : Nat := (f32.div a b 0 false).1
def fl32sqrt (a : Nat) : Nat := (f32.sqrt a 0 false).1
/-- Unary minus. -/
def fl32neg (a : Nat) : Nat := if a < 2 ^ 31 then a + 2 ^ 31 else a - 2 ^ 31
/-- a < b. -/
def fl32lt (a b : Nat) : Bool := (f32.val a).lt (f32.val b)
def fl32finite (a : Nat) : Bool := a / 2 ^ 23 % 256 != 255
def c01 : Nat := 0x3DCCCCCD
def fpOne : Nat := 0x3F800000
def fpTwo : Nat := 0x40000000
def fpThree : Nat := 0x40400000
def fpHalf : Nat := 0x3F000000
def fpQuarter : Nat := 0x3E800000
/-- 0.99609375 and 2^−8 (R356). -/
def alphaCap : Nat := 0x3F7F0000
def alphaMin : Nat := 0x3B800000
/-- L2E (R356). -/
def fpL2E : Nat := 0x3FB8AA3B

/-! ## Reading and writing -/

/-- A splat command under way: the first translation fault it met, with its address, kind and ACCESS bit; poison stopped
it; the bytes it writes are each written or not, because a translation fault lies on its way (R365); a reservation was
not made, so no later one is (R354). -/
structure Spl where
  s : State
  fault : Option (Nat × Nat × Nat)
  stop : Bool
  free : Bool
  cut : Bool

/-- A command sets out. -/
def Spl.start (s : State) (free : Bool) : Spl := ⟨s, none, false, free, false⟩
/-- It does nothing more: stopped by poison, or by a fault while it is held to its order. -/
def Spl.over (k : Spl) : Bool := k.stop || (k.fault.isSome && !k.free)
/-- It meets a fault. -/
def Spl.fail (k : Spl) (s : State) (va kind access : Nat) : Spl :=
  { k with s := s, fault := if k.fault.isSome then k.fault else some (va, kind, access) }

/-- [va, va + n) cut at 8-byte words, the granule of poison (R422). -/
def wordPieces : Nat → Nat → Nat → List (Nat × Nat)
  | 0, _, _ => []
  | fuel + 1, va, n =>
    if n = 0 then []
    else
      let m := min n (8 - va % 8)
      (vaOf va, m) :: wordPieces fuel (va + m) (n - m)

/-- Read pieces coherently: none at a translation fault; a poisoned word reads zero, is counted up to the first fault,
and is reported. -/
def splPieces (ag : Agent) : List (Nat × Nat) → Spl → Option (List Byte) × Bool × Spl
  | [], k => (some [], false, k)
  | (va, n) :: rest, k =>
    match xlateRange k.s ag va n .read with
    | (.error (fva, kind), s) => (none, false, k.fail s fva kind accRead)
    | (.ok ps, s) =>
      let (b, bad, s) := readAccess s ag .home false ps
      let counted := bad && k.fault.isNone
      let k := { k with s := if counted then enginePoison s ag (firstPa ps) else s, stop := k.stop || (counted && ag.poisonTrap) }
      let b := if bad then List.replicate n 0 else b
      let (bs, bad', k) := splPieces ag rest k
      (bs.map fun bs => b ++ bs, bad || bad', k)

/-- Read [va, va + n). -/
def Spl.read (k : Spl) (ag : Agent) (va n : Nat) : Option (List Byte) × Bool × Spl :=
  splPieces ag (wordPieces (n / 8 + 2) (vaOf va) n) k

/-- Write pieces, each byte of them or, when a fault lies on the way and `all` does not ask for every one, some. -/
def splWrite (ag : Agent) (all : Bool) : List (Nat × Nat) → List Byte → Spl → Spl
  | [], _, k => k
  | (va, n) :: rest, b, k =>
    let k := match xlate k.s ag va .write with
      | (.error kind, s) => k.fail s va kind accWrite
      | (.ok l, s) =>
        let bytes := allBytes (b.take n)
        let (bytes, s) := if k.free && !all then chooseBytes s bytes else (bytes, s)
        { k with s := engWritePiece s ag ⟨va, l, n⟩ bytes }
    splWrite ag all rest (b.drop n) k

/-- Write bytes at [va, …); nothing once the command is over. -/
def Spl.write (k : Spl) (ag : Agent) (va : Nat) (b : List Byte) (all : Bool := false) : Spl :=
  if k.over then k else splWrite ag all (linePieces (b.length / 128 + 2) (vaOf va) b.length) b k

/-- A part of a command's work: performed as it is, or, when a translation fault lies on its way, reported, with all that
the command would still have done free (R365). Says whether it went well. -/
def splRun (s : State) (ag : Agent) (part rest : Spl → Spl) : Bool × State :=
  let k := part (.start s false)
  match k.fault with
  | some (va, kind, access) => (false, engineFault (rest (.start s true)).s ag va kind access)
  | none => (!k.stop, k.s)

/-! ## Records -/

/-- A frame record (R349). -/
structure Frec where
  w : Nat
  h : Nat
  lcap : Nat
  tcut : Nat
  thdr : Nat
  lbase : Nat
  pbase : Nat
  grbase : Nat
  bg : Nat × Nat × Nat
  znear : Nat
deriving DecidableEq, Repr

def parseFrec (b : List Byte) : Frec :=
  ⟨field b 0x00 4, field b 0x04 4, field b 0x08 4, field b 0x0C 4, field b 0x10 8, field b 0x18 8, field b 0x20 8,
    field b 0x28 8, (field b 0x30 4, field b 0x34 4, field b 0x38 4), field b 0x3C 4⟩

/-- Tiles across and down (R349). -/
def Frec.tw (f : Frec) : Nat := (f.w + 15) / 16
def Frec.th (f : Frec) : Nat := (f.h + 15) / 16

/-- A frame record obeys R349. -/
def Frec.ok (f : Frec) : Bool :=
  1 ≤ f.w && f.w ≤ 16384 && 1 ≤ f.h && f.h ≤ 16384 && 1 ≤ f.lcap && f.lcap ≤ 65536 &&
  !(f32.val f.tcut).isNan && !fl32lt f.tcut 0 && !fl32lt fpOne f.tcut &&
  f.thdr % 16 == 0 && f.lbase % 8 == 0 && f.pbase % 16 == 0 && f.grbase % 16 == 0 &&
  fl32finite f.znear && fl32lt 0 f.znear

/-- Read and check a command's frame record; none when the command ends here. -/
def readFrec (k : Spl) (ag : Agent) (va : Nat) : Option (List Byte) × Spl :=
  match k.read ag va 64 with
  | (some b, _, k) => if k.stop then (none, k) else if (parseFrec b).ok then (some b, k) else (none, { k with stop := true })
  | (none, _, k) => (none, k)

/-- A projected record as a pixel uses it (R351). -/
structure Prec where
  u : Nat
  v : Nat
  ca : Nat
  cb : Nat
  cc : Nat
  opac : Nat
  col : Nat × Nat × Nat
  status : Nat
deriving DecidableEq, Repr

def parsePrec (b : List Byte) : Prec :=
  ⟨field b 0 4, field b 4 4, field b 8 4, field b 0xC 4, field b 0x10 4, field b 0x18 4,
    (field b 0x1C 4, field b 0x20 4, field b 0x24 4), field b 0x2C 4⟩

/-! ## Projection (R353) -/

/-- A value as projection forms it: none once a NaN or infinity has been formed. -/
abbrev Formed := Option Nat

/-- Keep a finite value. -/
def formed (a : Nat) : Formed := if fl32finite a then some a else none
/-- A finite value. -/
def Formed.of (a : Nat) : Formed := some a
def Formed.op (g : Nat → Nat → Nat) (a b : Formed) : Formed := match a, b with
  | some x, some y => formed (g x y)
  | _, _ => none
def Formed.add (a b : Formed) : Formed := a.op fl32add b
def Formed.sub (a b : Formed) : Formed := a.op fl32sub b
def Formed.mul (a b : Formed) : Formed := a.op fl32mul b
def Formed.div (a b : Formed) : Formed := a.op fl32div b
def Formed.neg (a : Formed) : Formed := a.map fl32neg
def Formed.sqrt (a : Formed) : Formed := match a with
  | some x => formed (fl32sqrt x)
  | none => none
/-- p0·q0 + p1·q1 + p2·q2. -/
def dot3 (p0 p1 p2 q0 q1 q2 : Formed) : Formed := ((p0.mul q0).add (p1.mul q1)).add (p2.mul q2)

/-- A Gaussian and a camera as projection reads them. -/
structure Gaussian where
  m : List Nat
  opac : Nat
  sd : List Nat
  q : List Nat
  col : List Nat
deriving DecidableEq, Repr

/-- F16 to FP32, exactly. -/
def f16to32 (x : Nat) : Nat := (convert 10 8 x 0 false).1

def parseGrec (b : List Byte) : Gaussian :=
  let w := fun (o : Nat) => field b o 4
  let h := fun (o : Nat) => f16to32 (field b o 2)
  ⟨[w 0, w 4, w 8], w 0xC, [w 0x10, w 0x14, w 0x18], [h 0x1C, h 0x1E, h 0x20, h 0x22], [h 0x24, h 0x26, h 0x28]⟩

/-- The 2D shape of a projected Gaussian. -/
structure Shape2 where
  ca : Nat
  cb : Nat
  cc : Nat
  rad : Nat
deriving DecidableEq, Repr

/-- The exact ceiling of a finite non-negative value, saturated to N32 (R353). -/
def ceil32 (x : Nat) : Nat := match f32.val x with
  | .fin false m e _ => min (2 ^ 32 - 1) (if 0 ≤ e then m * 2 ^ e.toNat else (m + (2 ^ (-e).toNat - 1)) / 2 ^ (-e).toNat)
  | _ => 0

/-- max(a, b) of finite values. -/
def fl32max (a b : Nat) : Nat := if fl32lt a b then b else a

/-- The rotation matrix of a normalised quaternion, row by row (R353). -/
def rotation (w a b c : Formed) : List Formed :=
  let two := Formed.of fpTwo
  let diag := fun (x y : Formed) => (Formed.of fpOne).sub (two.mul ((x.mul x).add (y.mul y)))
  let plus := fun (x y z t : Formed) => two.mul ((x.mul y).add (z.mul t))
  let minus := fun (x y z t : Formed) => two.mul ((x.mul y).sub (z.mul t))
  [diag b c, minus a b w c, plus a c w b, plus a b w c, diag a c, minus b c w a, minus a c w b, plus b c w a, diag a b]

/-- The rows of K (R353): the Jacobian times the camera rotation. -/
def kMatrix (cam : Nat → Formed) (x y z : Formed) : List Formed :=
  let fx := cam 12
  let fy := cam 13
  let zz := z.mul z
  let j00 := fx.div z
  let j02 := (Formed.neg (fx.mul x)).div zz
  let j11 := fy.div z
  let j12 := (Formed.neg (fy.mul y)).div zz
  ((List.range 3).map fun k => (j00.mul (cam k)).add (j02.mul (cam (6 + k)))) ++
    (List.range 3).map fun k => (j11.mul (cam (3 + k))).add (j12.mul (cam (6 + k)))

/-- The conic and the radius from the 2D covariance (R353): the status of a degenerate one is 2. -/
def conic (e00 e01 e11 : Formed) : Except Nat Shape2 :=
  let det := (e00.mul e11).sub (e01.mul e01)
  match det with
  | none => .error 4
  | some d =>
    if !fl32lt 0 d then .error 2
    else
      let ca := e11.div det
      let cb := (Formed.neg e01).div det
      let cc := e00.div det
      let mid := (Formed.of fpHalf).mul (e00.add e11)
      let low := ((mid.mul mid).sub det).map (fl32max c01)
      let lam := mid.add (Formed.sqrt low)
      let r3 := (Formed.of fpThree).mul (Formed.sqrt lam)
      match ca, cb, cc, r3 with
      | some ca, some cb, some cc, some r => .ok ⟨ca, cb, cc, ceil32 r⟩
      | _, _, _, _ => .error 4

/-- The 2D covariance of a Gaussian (R353), after its quaternion has been normalised. -/
def covariance (cam : Nat → Formed) (g : Gaussian) (x y z w a b c : Formed) : Formed × Formed × Formed :=
  let q := rotation w a b c
  let sd := fun (j : Nat) => Formed.of (g.sd.getD j 0)
  let m := (List.range 9).map fun k => (q.getD k none : Formed).mul (sd (k % 3))
  let mAt := fun (i j : Nat) => (m.getD (3 * i + j) none : Formed)
  let e := (List.range 9).map fun k =>
    dot3 (mAt (k / 3) 0) (mAt (k / 3) 1) (mAt (k / 3) 2) (mAt (k % 3) 0) (mAt (k % 3) 1) (mAt (k % 3) 2)
  let eAt := fun (i j : Nat) => (e.getD (3 * i + j) none : Formed)
  let km := kMatrix cam x y z
  let kAt := fun (i j : Nat) => (km.getD (3 * i + j) none : Formed)
  let u := (List.range 6).map fun n =>
    dot3 (kAt (n / 3) 0) (kAt (n / 3) 1) (kAt (n / 3) 2) (eAt 0 (n % 3)) (eAt 1 (n % 3)) (eAt 2 (n % 3))
  let uAt := fun (i j : Nat) => (u.getD (3 * i + j) none : Formed)
  let r := fun (i j : Nat) => dot3 (uAt i 0) (uAt i 1) (uAt i 2) (kAt j 0) (kAt j 1) (kAt j 2)
  ((r 0 0).add (some fpQuarter), r 0 1, (r 1 1).add (some fpQuarter))

/-- A projected Gaussian: u, v, z and its shape. -/
structure Projected where
  u : Nat
  v : Nat
  z : Nat
  shape : Shape2
deriving DecidableEq, Repr

/-- The projection of R353 up to the radius; otherwise the STATUS that ends it. -/
def project (g : Gaussian) (crec : List Nat) (znear : Nat) : Except Nat Projected :=
  if !((g.m ++ [g.opac] ++ g.sd ++ g.q ++ g.col ++ crec).all fl32finite) then .error 4
  else
    let cam := fun (k : Nat) => Formed.of (crec.getD k 0)
    let mAt := fun (k : Nat) => Formed.of (g.m.getD k 0)
    let axis := fun (k : Nat) =>
      (dot3 (cam (3 * k)) (cam (3 * k + 1)) (cam (3 * k + 2)) (mAt 0) (mAt 1) (mAt 2)).add (cam (9 + k))
    let x := axis 0
    let y := axis 1
    match x, y, axis 2 with
    | some _, some _, some zv =>
      if !fl32lt znear zv then .error 1
      else
        let z : Formed := some zv
        let u := ((cam 12).mul (x.div z)).add (cam 14)
        let v := ((cam 13).mul (y.div z)).add (cam 15)
        let qAt := fun (k : Nat) => Formed.of (g.q.getD k 0)
        let sq := fun (k : Nat) => (qAt k).mul (qAt k)
        let n := Formed.sqrt ((((sq 0).add (sq 1)).add (sq 2)).add (sq 3))
        match u, v, n with
        | some u, some v, some nv =>
          if nv % 2 ^ 31 = 0 then .error 2
          else
            let (e00, e01, e11) := covariance cam g x y z ((qAt 0).div n) ((qAt 1).div n) ((qAt 2).div n) ((qAt 3).div n)
            match conic e00 e01 e11 with
            | .error st => .error st
            | .ok sh => .ok ⟨u, v, zv, sh⟩
        | _, _, _ => .error 4
    | _, _, _ => .error 4

/-- floor((x + r) / 16) of a finite FP32 value and an integer, exactly. -/
def tileFloor (x : Nat) (r : Int) : Int := match f32.val x with
  | .fin neg m e _ =>
    let q : Nat := (-e).toNat
    let n : Int := if 0 ≤ e then m * 2 ^ e.toNat else m
    let n := if neg then -n else n
    (n + r * 2 ^ q) / (16 * 2 ^ q)
  | _ => r / 16

/-- The tiles of a projected Gaussian, in binning order (R353). -/
def tilesOf (f : Frec) (p : Projected) : List Nat :=
  let r : Int := p.shape.rad
  let span := fun (c : Nat) (n : Nat) => (max 0 (tileFloor c (-r)), min ((n : Int) - 1) (tileFloor c r))
  let (x0, x1) := span p.u f.tw
  let (y0, y1) := span p.v f.th
  (List.range (y1 - y0 + 1).toNat).flatMap fun ty =>
    (List.range (x1 - x0 + 1).toNat).map fun tx => (y0.toNat + ty) * f.tw + (x0.toNat + tx)

/-- The 48 bytes of a projected record (R351). -/
def precBytes (g : Gaussian) (p : Except Nat Projected) (tiles : List Nat) : List Byte :=
  match p with
  | .error st => List.replicate 44 0 ++ leBytes 4 st
  | .ok p =>
    if tiles.isEmpty then List.replicate 44 0 ++ leBytes 4 3
    else [p.u, p.v, p.shape.ca, p.shape.cb, p.shape.cc, p.z, g.opac, g.col.getD 0 0, g.col.getD 1 0, g.col.getD 2 0,
      p.shape.rad, 0].flatMap (leBytes 4)

/-- Write a list entry of a reservation that was made; when its address faults, no later reservation is made. -/
def binEntry (ag : Agent) (va : Nat) (b : List Byte) (k : Spl) : Spl :=
  let w := Spl.write { k with fault := none } ag va b
  { w with fault := if k.fault.isSome then k.fault else w.fault, cut := w.cut || w.fault.isSome }

/-- Bin a Gaussian into one tile, as one atomic event at the header's home (R354, R365). With a fault on the command's way
each reservation in turn was made, or it and every later one was not. -/
def binOne (ag : Agent) (f : Frec) (z i : Nat) (k : Spl) (t : Nat) : Spl :=
  if k.over || k.cut then k
  else match xlateRange k.s ag (vaOf (f.thdr + 16 * t)) 8 .both with
    | (.error (va, kind), s) => { k.fail s va kind (accRead + accWrite) with cut := true }
    | (.ok ps, s) =>
      let (go, s) := if k.free then s.choose else (true, s)
      let k := { k with s := s }
      if !go then { k with cut := true }
      else
        let (b, bad, s) := readAccess s ag .home false ps
        if bad then
          let s := dropRdcFor (l2Atomic s (lineOf (firstPa ps)) 0) ag.die (firstPa ps)
          let counted := k.fault.isNone
          { k with
            s := if counted then enginePoison s ag (firstPa ps) else s
            stop := k.stop || (counted && ag.poisonTrap) }
        else
          let old := field b 0 4
          let flags := if old < f.lcap then field b 4 4 else field b 4 4 ||| 1
          let k := { k with s := writePieces s ag false ps (leBytes 4 ((old + 1) % 2 ^ 32) ++ leBytes 4 flags) }
          if old < f.lcap then binEntry ag (f.lbase + 8 * (t * f.lcap + old)) (leBytes 4 z ++ leBytes 4 i) k else k

/-- Project and bin one Gaussian. -/
def projectOne (ag : Agent) (f : Frec) (crec : List Nat) (grec : Nat) (k : Spl) (i : Nat) : Spl :=
  if k.over then k
  else
    match k.read ag (grec + 48 * i) 48 with
    | (none, _, k) => k
    | (some b, _, k) =>
      let g := parseGrec b
      let p := project g crec f.znear
      let tiles := match p with
        | .ok p => tilesOf f p
        | .error _ => []
      let k := k.write ag (f.pbase + 48 * i) (precBytes g p tiles)
      match p with
      | .ok p => tiles.foldl (fun k t => binOne ag f p.z i k t) k
      | .error _ => k

/-! ### A command's data once the engine has begun it: 1, a number of its own, and bytes. -/

/-- Bytes as a command's data. -/
def dataOf (n : Nat) (b : List Byte) : List Nat := 1 :: n :: b.map fun x => x.toNat
def Cmd.dataNum (k : Cmd) : Nat := k.data.getD 1 0
def Cmd.dataBytes (k : Cmd) : List Byte := (k.data.drop 2).map fun n => BitVec.ofNat 8 n

/-- Set a command's data. -/
def setData (s : State) (core id : Nat) (d : List Nat) : State := modCmd s core id fun k => { k with data := d }

/-- SPPROJ reads its records at its start (R361): the data with the first index, or none when it ends with FAULT. -/
def openSpproj (s : State) (core : Nat) (c : Cmd) : Option (List Nat) × State :=
  if !c.data.isEmpty then (some c.data, s)
  else
    let ag := cmdAgent core c
    let go := fun k => match readFrec k ag c.ops.addrA with
      | (none, k) => (([] : List Nat), k)
      | (some b, k) => match k.read ag (vaOf (dword0 (c.ops.ua.drop 2)).toNat) 64 with
        | (none, _, k) => ([], k)
        | (some cr, _, k) => (dataOf 0 (b ++ cr), k)
    let r := splRun s ag (fun k => (go k).2) id
    (if r.1 then some (go (.start s false)).1 else none, r.2)

/-- Gaussians `lo` to `hi` of an SPPROJ's range (R353, R354). -/
def projectRange (ag : Agent) (c : Cmd) (lo hi : Nat) (k : Spl) : Spl :=
  let b := c.dataBytes
  let crec := (List.range 16).map fun n => field b (64 + 4 * n) 4
  (List.range (hi - lo)).foldl
    (fun k n => projectOne ag (parseFrec b) crec (dword0 c.ops.ub).toNat k (c.ops.nc + lo + n)) k

/-- SPPROJ begins: its next index is saved as it goes (R364). -/
def beginSpproj (s : State) (core : Nat) (c : Cmd) : State :=
  let ag := cmdAgent core c
  match openSpproj s core c with
  | (none, s) => failCmd s core c.id codeFAULT
  | (some d, s) =>
    let c := { c with data := d }
    let n := (wordAt c.ops.uc 1).toNat
    let (m, s) := s.below (n - c.dataNum + 1)
    let (ok, s) := splRun s ag (projectRange ag c c.dataNum (c.dataNum + m)) (projectRange ag c c.dataNum n)
    if ok then setData s core c.id (dataOf (c.dataNum + m) c.dataBytes) else failCmd s core c.id codeFAULT

/-- SPPROJ does the rest (R353, R354, R361, R365). -/
def performSpproj (s : State) (core : Nat) (c : Cmd) : Nat × State :=
  match openSpproj s core c with
  | (none, s) => (codeFAULT, s)
  | (some d, s) =>
    let ag := cmdAgent core c
    let c := { c with data := d }
    let go := projectRange ag c c.dataNum (wordAt c.ops.uc 1).toNat
    let (ok, s) := splRun s ag go go
    (codeOf ok, s)

/-! ## Sorting (R355) -/

/-- Insert an entry by KEY, ties by INDEX. -/
def insertEntry (e : Nat × Nat) : List (Nat × Nat) → List (Nat × Nat)
  | [] => [e]
  | x :: l => if e.1 < x.1 ∨ (e.1 = x.1 ∧ e.2 ≤ x.2) then e :: x :: l else x :: insertEntry e l

/-- The entries of a byte list. -/
def entriesOf (n : Nat) (b : List Byte) : List (Nat × Nat) :=
  (List.range n).map fun j => (field b (8 * j) 4, field b (8 * j + 4) 4)

/-- The valid frame record and the list length of a command on one tile (R361); none when it ends here. SPBACK needs
gradient records. -/
def openTile (ag : Agent) (o : Operands) (back : Bool) (k : Spl) : Option (List Byte × Nat) × Spl :=
  match readFrec k ag o.addrA with
  | (none, k) => (none, k)
  | (some b, k) =>
    let f := parseFrec b
    if f.tw * f.th ≤ o.nb ∨ (back ∧ f.grbase = 0) then (none, { k with stop := true })
    else match k.read ag (f.thdr + 16 * o.nb) 4 with
      | (none, _, k) => (none, k)
      | (some w, _, k) => (some (b, min (field w 0 4) f.lcap), k)

/-- The address of a tile's list. -/
def tileList (f : Frec) (o : Operands) : Nat := f.lbase + 8 * (o.nb * f.lcap)

/-- A free permutation of a list. -/
def shuffle : Nat → List (Nat × Nat) → State → List (Nat × Nat) × State
  | 0, l, s => (l, s)
  | n + 1, l, s =>
    let (i, s) := s.below (max 1 l.length)
    match l[i]? with
    | none => (l, s)
    | some e =>
      let (r, s) := shuffle n (l.eraseIdx i) s
      (e :: r, s)

/-- Put a tile's list into another order, which `order` gives. -/
def sortPass (ag : Agent) (c : Cmd) (order : List (Nat × Nat) → State → List (Nat × Nat) × State) (k : Spl) : Spl :=
  let at_ := tileList (parseFrec c.dataBytes) c.ops
  match k.read ag at_ (8 * c.dataNum) with
  | (none, _, k) => k
  | (some b, _, k) =>
    let (l, s) := order (entriesOf c.dataNum b) k.s
    Spl.write { k with s := s } ag at_ (l.flatMap fun (e : Nat × Nat) => leBytes 4 e.1 ++ leBytes 4 e.2)

/-- SPSORT reads its frame record and WANTED (R355, R361). -/
def openSpsort (s : State) (core : Nat) (c : Cmd) : Option (List Nat) × State :=
  if !c.data.isEmpty then (some c.data, s)
  else
    let ag := cmdAgent core c
    let r := splRun s ag (fun k => (openTile ag c.ops false k).2) id
    match r.1, (openTile ag c.ops false (.start s false)).1 with
    | true, some (b, n) => (some (dataOf n b), r.2)
    | _, _ => (none, r.2)

/-- SPSORT begins: some passes are made or none (R355, R364). -/
def beginSpsort (s : State) (core : Nat) (c : Cmd) : State :=
  let ag := cmdAgent core c
  match openSpsort s core c with
  | (none, s) => failCmd s core c.id codeFAULT
  | (some d, s) =>
    let (pass, s) := s.choose
    let go := if pass then sortPass ag { c with data := d } fun l s => shuffle l.length l s else id
    let (ok, s) := splRun s ag go go
    if ok then setData s core c.id d else failCmd s core c.id codeFAULT

/-- SPSORT does the rest (R355). -/
def performSpsort (s : State) (core : Nat) (c : Cmd) : Nat × State :=
  match openSpsort s core c with
  | (none, s) => (codeFAULT, s)
  | (some d, s) =>
    let ag := cmdAgent core c
    let go := sortPass ag { c with data := d } fun l s => (l.foldl (fun l e => insertEntry e l) [], s)
    let (ok, s) := splRun s ag go go
    (codeOf ok, s)

/-! ## Evaluation and blending (R356, R357) -/

/-- What an entry gives at a pixel. -/
structure Sample where
  alpha : Nat
  gs : Nat
  capped : Bool
  dx : Nat
  dy : Nat
deriving DecidableEq, Repr

/-- The centre of a pixel's row or column. -/
def centre (p : Nat) : Nat := fl32of (.ofInt (2 * p + 1) (-1))

/-- eval(j, px, py) (R356); none for skip. -/
def evalAt (e : Prec) (px py : Nat) : Option Sample :=
  if e.status ≠ 0 then none
  else
    let dx := fl32sub (centre px) e.u
    let dy := fl32sub (centre py) e.v
    let quad := fl32add (fl32mul (fl32mul e.ca dx) dx) (fl32mul (fl32mul e.cc dy) dy)
    let power := fl32sub (fl32mul (fl32neg fpHalf) quad) (fl32mul (fl32mul e.cb dx) dy)
    if fl32lt 0 power then none
    else
      let gs := (fEx2 (fl32mul power fpL2E) 0).1
      let a0 := fl32mul e.opac gs
      if (f32.val a0).isNan || fl32lt a0 alphaMin then none
      else
        let capped := fl32lt alphaCap a0
        some ⟨if capped then alphaCap else a0, gs, capped, dx, dy⟩

/-- A colour's three channels through a function. -/
def onCol (g : Nat → Nat → Nat) (a b : Nat × Nat × Nat) : Nat × Nat × Nat :=
  (g a.1 b.1, g a.2.1 b.2.1, g a.2.2 b.2.2)

/-- No entry contributed. -/
def noLast : Nat := 0xFFFFFFFF

/-- A pixel's position in the image. -/
def pixelAt (f : Frec) (t p : Nat) : Nat × Nat := (t % f.tw * 16 + p % 16, t / f.tw * 16 + p / 16)

/-- A pixel under way (R357): still running, its colour, T and last; `known` is false once it has needed an entry that
could not be read. -/
structure Pixel where
  run : Bool
  known : Bool
  col : Nat × Nat × Nat
  t : Nat
  last : Nat
deriving DecidableEq, Repr

/-- A pixel at the start: one outside the image does not run. -/
def Pixel.start (f : Frec) (t p : Nat) : Pixel :=
  let (px, py) := pixelAt f t p
  ⟨px < f.w && py < f.h, true, (0, 0, 0), fpOne, noLast⟩

/-- Entry j at a pixel (R357). -/
def blendOne (f : Frec) (t j : Nat) (e : Option Prec) (p : Nat) (x : Pixel) : Pixel :=
  if !x.run then x
  else match e with
    | none => { x with run := false, known := false }
    | some e =>
      let (px, py) := pixelAt f t p
      match evalAt e px py with
      | none => x
      | some q =>
        let col := onCol (fun c y => fl32add c (fl32mul (fl32mul y q.alpha) x.t)) x.col e.col
        let tr := fl32mul x.t (fl32sub fpOne q.alpha)
        { x with col := col, t := tr, last := j, run := !fl32lt tr f.tcut }

/-- Read entry j of a tile's list and its projected record. -/
def readPrec (ag : Agent) (f : Frec) (o : Operands) (j : Nat) (k : Spl) : Option Prec × Spl :=
  match k.read ag (tileList f o + 8 * j) 8 with
  | (none, _, k) => (none, k)
  | (some b, _, k) =>
    let (b, _, k) := k.read ag (f.pbase + 48 * field b 4 4) 48
    (b.map parsePrec, k)

/-- Blend a tile entry by entry while some pixel runs (R357). -/
def blendTile (ag : Agent) (f : Frec) (o : Operands) : List Nat → List Pixel → Spl → List Pixel × Spl
  | [], l, k => (l, k)
  | j :: js, l, k =>
    if k.over || !(l.any fun x => x.run) then (l, k)
    else
      let (e, k) := readPrec ag f o j k
      blendTile ag f o js (((List.range 256).zip l).map fun x => blendOne f o.nb j e x.1 x.2) k

/-- A word's bytes, or none of them. -/
def wordBytes (known : Bool) (x : Nat) : Bytes := if known then allBytes (leBytes 4 x) else List.replicate 4 none

/-- The scratch block of a tile's pixels (R357). -/
def blockBytes (f : Frec) (t : Nat) (l : List Pixel) : Bytes :=
  let px := (List.range 256).zip l
  let inside := fun (p : Nat) => (pixelAt f t p).1 < f.w && (pixelAt f t p).2 < f.h
  let out := fun (x : Nat × Pixel) => if inside x.1 then onCol (fun c b => fl32add c (fl32mul x.2.t b)) x.2.col f.bg else (0, 0, 0)
  (px.flatMap fun x => wordBytes x.2.known (out x).1 ++ wordBytes x.2.known (out x).2.1 ++ wordBytes x.2.known (out x).2.2 ++
    wordBytes x.2.known x.2.t) ++ px.flatMap fun x => wordBytes x.2.known x.2.last

/-- Render a tile (R357): its block, once no fault or trapped poison has ended the command. -/
def renderTile (ag : Agent) (o : Operands) (k : Spl) : Bytes × Spl :=
  match openTile ag o false k with
  | (none, k) => ([], k)
  | (some (b, n), k) =>
    let f := parseFrec b
    let (l, k) := blendTile ag f o (List.range n) ((List.range 256).map (Pixel.start f o.nb)) k
    (blockBytes f o.nb l, k)

/-- SPBLND evaluates its tile: its code, the block still to be written, and the state. A command that ends with FAULT on
a translation fault has written each byte it knows or not (R365). -/
def runSpblnd (s : State) (core : Nat) (c : Cmd) : Nat × List Byte × State :=
  let ag := cmdAgent core c
  let at_ := (cmdBase s c.wg core).getD 0 + c.ops.nc
  let (ok, s') := splRun s ag (fun k => (renderTile ag c.ops k).2) fun k =>
    let (b, k) := renderTile ag c.ops k
    { k with s := engScratchWrite k.s core at_ false b }
  (codeOf ok, if ok then (renderTile ag c.ops (.start s false)).1.filterMap id else [], s')

/-! ## Back-propagation (R358, R359) -/

/-- A gradient record under way: nine sums, and NPIX. -/
structure Grad where
  sums : List Nat
  npix : Nat
deriving DecidableEq, Repr

/-- What a pixel's replay carries: T, Bk and the records. -/
structure Replay where
  t : Nat
  bk : Nat × Nat × Nat
  grads : List Grad

/-- The upstream gradients of a pixel. -/
structure Upstream where
  g : Nat × Nat × Nat
  gt : Nat
  tf : Nat

/-- Replay one entry for a pixel (R358). -/
def replayOne (u : Upstream) (px py : Nat) (r : Replay) (je : Nat × Prec) : Replay :=
  let e := je.2
  match evalAt e px py with
  | none => r
  | some q =>
    let om := fl32sub fpOne q.alpha
    let t := fl32div r.t om
    let term := fun (g x b : Nat) => fl32mul (fl32mul g t) (fl32sub x b)
    let da := fl32add (fl32add (term u.g.1 e.col.1 r.bk.1) (term u.g.2.1 e.col.2.1 r.bk.2.1)) (term u.g.2.2 e.col.2.2 r.bk.2.2)
    let da := fl32sub da (fl32div (fl32mul u.gt u.tf) om)
    let dcol := fun (g : Nat) => fl32mul (fl32mul q.alpha t) g
    let bk := onCol (fun x b => fl32add (fl32mul q.alpha x) (fl32mul om b)) e.col r.bk
    let dop := if q.capped then 0 else fl32mul da q.gs
    let dpw := if q.capped then 0 else fl32mul (fl32mul da e.opac) q.gs
    let half := fl32mul (fl32neg fpHalf) dpw
    let du := fl32mul dpw (fl32add (fl32mul e.ca q.dx) (fl32mul e.cb q.dy))
    let dv := fl32mul dpw (fl32add (fl32mul e.cc q.dy) (fl32mul e.cb q.dx))
    let new := [du, dv, fl32mul half (fl32mul q.dx q.dx), fl32mul (fl32neg dpw) (fl32mul q.dx q.dy),
      fl32mul half (fl32mul q.dy q.dy), dop, dcol u.g.1, dcol u.g.2.1, dcol u.g.2.2]
    let add := fun g : Grad => { g with sums := (g.sums.zip new).map fun x => fl32add x.1 x.2, npix := g.npix + 1 }
    { t := t, bk := bk, grads := listMod r.grads je.1 add }

/-- What SPBACK reads of a pixel in scratch: `last`, the final T and the upstream gradients. -/
structure Forward where
  last : Nat
  u : Upstream

/-- Replay one pixel over the records read (R358). -/
def replayPixel (f : Frec) (t n : Nat) (ps : List Prec) (fwd : Nat → Forward) (grads : List Grad) (p : Nat) : List Grad :=
  let (px, py) := pixelAt f t p
  let w := fwd p
  if f.w ≤ px ∨ f.h ≤ py ∨ w.last = noLast then grads
  else
    let todo := (((List.range n).zip ps).take (w.last + 1)).reverse
    (todo.foldl (replayOne w.u px py) ⟨w.u.tf, f.bg, grads⟩).grads

/-- The 48 bytes of a gradient record (R359). -/
def gradBytes (g : Grad) (index : Nat) : List Byte :=
  g.sums.flatMap (leBytes 4) ++ leBytes 4 index ++ leBytes 4 g.npix ++ leBytes 4 0

/-- The scratch words that SPBACK reads (R358): `last` of the pixels inside the image; T and the upstream gradients of those
that replay. -/
def backReads (f : Frec) (t at_ up : Nat) (fwd : Nat → Forward) : List (Nat × Nat) :=
  let inside := (List.range 256).filter fun p => (pixelAt f t p).1 < f.w && (pixelAt f t p).2 < f.h
  inside.flatMap fun p => (at_ + 4096 + 4 * p, 4) ::
    if (fwd p).last = noLast then [] else [(at_ + 16 * p + 12, 4), (up + 16 * p, 16)]

/-- Read the entries that some pixel replays, from the first (R358): positions 0 to the greatest `last`. -/
def readPrecs (ag : Agent) (f : Frec) : List (Nat × Nat) → Spl → List Prec × Spl
  | [], k => ([], k)
  | e :: l, k => match k.read ag (f.pbase + 48 * e.2) 48 with
    | (none, _, k) => ([], k)
    | (some b, _, k) =>
      let (ps, k) := readPrecs ag f l k
      (parsePrec b :: ps, k)

/-- Back-propagate a tile (R358, R359): the address and the bytes of its gradient records; without them where a record
could not be read. -/
def backTile (ag : Agent) (core base : Nat) (o : Operands) (k : Spl) : Nat × List Byte × Spl :=
  match openTile ag o true k with
  | (none, k) => (0, [], k)
  | (some (b, n), k) =>
    let f := parseFrec b
    match k.read ag (tileList f o) (8 * n) with
    | (none, _, k) => (0, [], k)
    | (some l, _, k) =>
      let at_ := base + o.nc
      let up := base + (wordAt o.uc 1).toNat
      let block := scratchArray k.s core at_ 5120
      let grad := scratchArray k.s core up 4096
      let fwd := fun (p : Nat) =>
        let g := fun (j : Nat) => elemAt grad (16 * p + 4 * j) 4
        (⟨elemAt block (4096 + 4 * p) 4, ⟨(g 0, g 1, g 2), g 3, elemAt block (16 * p + 12) 4⟩⟩ : Forward)
      let (sound, s) := matrixPoison k.s ag core (poisonIn (coreOf k.s core) (backReads f o.nb at_ up fwd)) []
      let k := { k with s := s, stop := k.stop || !sound }
      let es := entriesOf n l
      let most := (List.range 256).foldl (fun m p =>
        let inside := (pixelAt f o.nb p).1 < f.w && (pixelAt f o.nb p).2 < f.h
        if inside && (fwd p).last != noLast then max m (min ((fwd p).last + 1) n) else m) 0
      let (ps, k) := readPrecs ag f (es.take most) k
      let grads := (List.range 256).foldl (replayPixel f o.nb n ps fwd) (List.replicate n ⟨List.replicate 9 0, 0⟩)
      if ps.length < most then (0, [], k)
      else (f.grbase + 48 * (o.nb * f.lcap), (grads.zip es).flatMap fun g => gradBytes g.1 g.2.2, k)

/-- SPBACK evaluates its tile: its code, where its records go, the records still to be written, and the state. -/
def runSpback (s : State) (core : Nat) (c : Cmd) : Nat × Nat × List Byte × State :=
  let ag := cmdAgent core c
  let base := (cmdBase s c.wg core).getD 0
  let go := backTile ag core base c.ops
  let (ok, s') := splRun s ag (fun k => (go k).2.2) fun k =>
    let (va, b, k) := go k
    k.write ag va b
  let (va, b, _) := go (.start s false)
  (codeOf ok, va, if ok then b else [], s')

/-! ## The engine (R363, R364) -/

/-- A command of the splat engine. -/
def isSplat : Instr → Bool
  | .spproj _ => true
  | .spsort _ => true
  | .spblnd _ => true
  | .spback _ => true
  | _ => false

/-- The splat command performed next on a core (R363): each strip's oldest, if started; among strips the one started
earliest, by the mark in `stage`. -/
def splatNext (s : State) (core : Nat) : Option Cmd :=
  let l := (coreOf s core).rsb.filter fun k => isSplat k.instr && k.failed.isNone && !k.shadow
  let heads := l.filter fun k => k.started && (l.find? fun e => e.strip == k.strip).any fun e => e.id == k.id
  heads.foldl (fun (best : Option Cmd) k => match best with
    | none => some k
    | some b => if k.stage < b.stage then some k else some b) none

/-- Write bytes at [va, …) for a splat command. -/
def splBytes (s : State) (ag : Agent) (va : Nat) (b : List Byte) : Bool × State :=
  splRun s ag (fun k => k.write ag va b) fun k => k.write ag va b

/-- SPBLND begins (R364): its block is evaluated, and some of its bytes are written. -/
def beginSpblnd (s : State) (core : Nat) (c : Cmd) : State :=
  let at_ := (cmdBase s c.wg core).getD 0 + c.ops.nc
  match runSpblnd s core c with
  | (0, b, s) =>
    let (some_, s) := chooseBytes s (allBytes b)
    setData (putScratch s core at_ some_) core c.id (dataOf 0 b)
  | (code, _, s) => failCmd s core c.id code

/-- SPBACK begins (R364): its records are summed, and the first of them are written. -/
def beginSpback (s : State) (core : Nat) (c : Cmd) : State :=
  match runSpback s core c with
  | (0, va, b, s) =>
    let (m, s) := s.below (b.length / 48 + 1)
    let ag := cmdAgent core c
    let (ok, s) := splRun s ag (fun k => k.write ag va (b.take (48 * m))) fun k => k.write ag va b
    if ok then setData s core c.id (dataOf (va + 48 * m) (b.drop (48 * m))) else failCmd s core c.id codeFAULT
  | (code, _, _, s) => failCmd s core c.id code

/-- The engine, idle, begins its next command, or leaves it whole to its completion: a free choice. -/
def beginSplat (s : State) (core : Nat) : State :=
  match splatNext s core with
  | none => s
  | some k =>
    let (now, s) := s.choose
    if !now then s
    else match k.instr with
      | .spproj _ => beginSpproj s core k
      | .spsort _ => beginSpsort s core k
      | .spblnd _ => if k.data.isEmpty then beginSpblnd s core k else s
      | .spback _ => if k.data.isEmpty then beginSpback s core k else s
      | _ => s

/-- A splat command does all that is left of its work: its code; none while it is not its turn. -/
def performSplat (s : State) (core : Nat) (k : Cmd) : Option (Nat × State) :=
  if !((splatNext s core).any fun e => e.id == k.id) then none
  else match k.instr with
    | .spproj _ => some (performSpproj s core k)
    | .spsort _ => some (performSpsort s core k)
    | .spblnd _ =>
      let (code, b, s) := if k.data.isEmpty then runSpblnd s core k else (0, k.dataBytes, s)
      some (code, writeScratch s core ((cmdBase s k.wg core).getD 0 + k.ops.nc) b)
    | .spback _ =>
      let (code, va, b, s) := if k.data.isEmpty then runSpback s core k else (0, k.dataNum, k.dataBytes, s)
      let (ok, s) := splBytes s (cmdAgent core k) va b
      some (max code (codeOf ok), s)
    | _ => none

/-! ## Issue -/

/-- The frame's address obeys R361. -/
def frecAligned (o : Operands) : Bool := o.addrA % 64 == 0
/-- A command on global memory that failed at issue takes no ranges (R361). -/
def splPlan (ok : Bool) (reads writes : List Region) : Plan :=
  if ok then ⟨reads, writes, true, none, [], false⟩ else { planNone with failed := some codeFAULT }

/-- SPPROJ (R353, R361). -/
def planSpproj (_ : State) (_ : Strip) (c : Ctx) : Plan :=
  let o := c.ops
  let count := (wordAt o.uc 1).toNat
  splPlan (frecAligned o && (dword0 (o.ua.drop 2)).toNat % 64 == 0 && count ≤ 65536 && o.nc + count ≤ 2 ^ 32 &&
    o.addrB % 16 == 0) [] []
def execSpproj (f : FmtE) (s : State) : Host.Outcome State Fault Refusal := engineOp (.spproj f) f noCheck planSpproj s

/-- SPSORT (R355, R361). -/
def planSpsort (_ : State) (_ : Strip) (c : Ctx) : Plan := splPlan (frecAligned c.ops) [] []
def execSpsort (f : FmtE) (s : State) : Host.Outcome State Fault Refusal := engineOp (.spsort f) f noCheck planSpsort s

/-- SPBLND (R357, R361, R362). -/
def planSpblnd (s : State) (p : Strip) (c : Ctx) : Plan :=
  splPlan (frecAligned c.ops && inWindow (scratchSize s p) c.ops.nc 5120 16) []
    (windowRange (partOf s p).scratch c.ops.nc 5120)
def execSpblnd (f : FmtE) (s : State) : Host.Outcome State Fault Refusal := engineOp (.spblnd f) f noCheck planSpblnd s

/-- SPBACK (R358, R361, R362). -/
def planSpback (s : State) (p : Strip) (c : Ctx) : Plan :=
  let o := c.ops
  let up := (wordAt o.uc 1).toNat
  let n := scratchSize s p
  let base := (partOf s p).scratch
  splPlan (frecAligned o && inWindow n o.nc 5120 16 && inWindow n up 4096 16)
    (windowRange base o.nc 5120 ++ windowRange base up 4096) []
def execSpback (f : FmtE) (s : State) : Host.Outcome State Fault Refusal := engineOp (.spback f) f noCheck planSpback s

end Sys2Proof.Machine
end

