-- ==== Sys2Proof/Machine/Route.lean ====
section
/-! DEFINITION. The route unit and escrow (spec 19): inboxes, deliveries and answers, handles, reassembly and the deadline,
with the instructions RXREG, RXDEREG, ROUTE, RECV, RETN and ESCQ. -/
namespace Sys2Proof.Machine

/-! ## Inboxes -/

/-- A directory entry (R376): C-die i mod 4 holds it. -/
def dirFind (s : State) (ident : Nat) : Option DirEntry := (dieOf s (ident % 4)).directory.find? fun e => e.ident == ident

/-- An inbox of a workgroup on a core by its identifier, with its slot. -/
def inboxFind (s : State) (core wg ident : Nat) : Option (Nat × Inbox) :=
  (coreOf s core).inboxes.find? fun b => b.2.ident == ident && b.2.wg == wg

/-- Count in a core's counter of R390. -/
def countDiscard (s : State) (core : Nat) : State := modCore s core fun c => { c with discards := c.discards + 1 }

/-- RXREG's limits (R377). -/
def rxregOk (o : Operands) (scratch : Nat) : Bool :=
  1 ≤ o.aAt 0 && o.aAt 0 ≤ 65535 && o.aAt 1 % 16 == 0 && 1 ≤ o.aAt 2 && o.aAt 2 ≤ 256 &&
    16 ≤ o.aAt 3 && o.aAt 3 ≤ 512 && o.aAt 3 % 16 == 0 && o.aAt 1 + o.aAt 2 * (o.aAt 3 + 8) ≤ scratch

/-- RXREG (R377). -/
def execRxreg (f : FmtE) (s : State) : Host.Outcome State Fault Refusal :=
  engineOp (.rxreg f) f noCheck (fun _ _ _ => planNone) s
def performRxreg (s : State) (core : Nat) (k : Cmd) : Nat × State :=
  let o := k.ops
  let slot := (List.range 8).find? fun n => (tableGet (coreOf s core).inboxes n).isNone
  let job := k.job.index
  match rxregOk o (cmdScratch s k) && (dirFind s (o.aAt 0)).isNone, slot with
  | true, some n =>
    let part := (cmdSlots s k.wg core).2
    let s := modCore s core fun c => { c with
      inboxes := tablePut c.inboxes n ⟨o.aAt 0, job, k.wg, part, o.aAt 1, o.aAt 2, o.aAt 3, 0, 0, 0, 0⟩ }
    (codeOK, modDie s (o.aAt 0 % 4) fun d => { d with
      directory := d.directory ++ [⟨o.aAt 0, job, core / 96, core % 96, n, k.wg, true⟩] })
  | _, _ => (codeFAULT, s)

/-- RXDEREG (R379). -/
def execRxdereg (f : FmtE) (s : State) : Host.Outcome State Fault Refusal :=
  engineOp (.rxdereg f) f noCheck (fun _ _ _ => planNone) s
def performRxdereg (s : State) (core : Nat) (k : Cmd) : Nat × State :=
  match inboxFind s core k.wg k.ops.na with
  | some (slot, _) => (codeOK, removeInbox s core slot)
  | none => (codeFAULT, s)

/-! ## Handles (R380) -/

/-- The handle of an escrow slot; `row` and `slot` number it within the tile. -/
def makeHandle (gen : BitVec 16) (origin entry slot row : Nat) : DWord :=
  BitVec.ofNat 64 (gen.toNat * 2 ^ 32 + origin / 96 * 2 ^ 21 + origin % 96 * 2 ^ 14 + entry * 2 ^ 9 + slot * 2 ^ 7 + row)
def handleGen (h : DWord) : BitVec 16 := BitVec.ofNat 16 (h.toNat / 2 ^ 32)
def handleDie (h : DWord) : Nat := h.toNat / 2 ^ 21 % 4
def handleCore (h : DWord) : Nat := h.toNat / 2 ^ 14 % 128
def handleEntry (h : DWord) : Nat := h.toNat / 2 ^ 9 % 32
def handleSlot (h : DWord) : Nat := h.toNat / 2 ^ 7 % 4
def handleRow (h : DWord) : Nat := h.toNat % 128
/-- The core a handle names. -/
def handleOrigin (h : DWord) : Nat := handleDie h * 96 + handleCore h
/-- The handle names a core and has its reserved bits 0 (R382). -/
def handleOk (h : DWord) : Bool := handleCore h < 96 && h.toNat / 2 ^ 48 == 0 && h.toNat / 2 ^ 23 % 2 ^ 9 == 0

/-- An escrow entry answers to a handle. -/
def answersTo (h : DWord) (key : Nat) (e : Escrow) : Bool :=
  key % 32 == handleEntry h && e.origin == handleOrigin h && e.st == .open && e.gen == handleGen h

/-- The core and the place of a handle's open entry, its own or where a restore put it (R394). -/
def escrowHome (s : State) (h : DWord) : Option (Nat × Nat × Escrow) :=
  s.cores.findSome? fun c => (c.2.escrow.find? fun e => answersTo h e.1 e.2).map fun e => (c.1, e)
/-- The entry of a handle is saved with a workgroup that is not resident. -/
def escrowSaved (s : State) (h : DWord) : Bool :=
  s.dies.any fun d => d.images.any fun m => m.escrow.any fun e => answersTo h e.2.1 e.2.2

/-! ## ROUTE (R383-R390) -/

/-- A ROUTE's parameters (R383, R384). -/
structure RouteArgs where
  n : Nat
  k : Nat
  sent : Nat
  e : Nat
  oty : Nat
  sat : Bool
  drop : Bool
  tile : Nat
  table : Nat
  staging : Nat
  out : Nat
  status : Nat
deriving DecidableEq, Repr

def routeArgs (f : FmtE) (o : Operands) : RouteArgs :=
  let r := o.nb
  ⟨r % 256, r / 2 ^ 8 % 4 + 1, 16 * (r / 2 ^ 10 % 32 + 1), 4 * (r / 2 ^ 16 % 32 + 1), r / 2 ^ 21 % 16, r.testBit 25,
    f.mod.getLsbD 0, o.aAt 0, o.aAt 1, o.aAt 2, o.aAt 3, o.nc⟩

/-- Bytes of an output element. -/
def RouteArgs.ob (a : RouteArgs) : Nat := canonBytes a.oty
/-- The regions of R384: offset and bytes. -/
def RouteArgs.reads (a : RouteArgs) : List (Nat × Nat) := [(a.tile, a.n * a.sent), (a.table, 8 * a.n * a.k)]
def RouteArgs.writes (a : RouteArgs) : List (Nat × Nat) :=
  [(a.staging, 4 * a.e * a.n * a.k), (a.out, a.n * a.e * a.ob), (a.status, 4 * a.n)]

/-- Two non-empty ranges share a byte. -/
def spanMeets (x y : Nat × Nat) : Bool := x.2 != 0 && y.2 != 0 && x.1 < y.1 + y.2 && y.1 < x.1 + x.2

/-- A ROUTE passes the checks of R393. -/
def routeOk (o : Operands) (a : RouteArgs) (scratch : Nat) : Bool :=
  let w := a.writes
  o.nb &&& 0xFC008000 == 0 && 1 ≤ a.n && a.n ≤ 128 && [8, 10, 11, 12, 13].contains a.oty && !(a.sat && a.oty == 8) &&
    (a.reads ++ w).all (fun r => inWindow scratch r.1 r.2 16) &&
    !(w.any fun x => a.reads.any (spanMeets x)) &&
    ((List.range w.length).all fun i => (w.drop (i + 1)).all fun y => !((w[i]?.map (spanMeets · y)).getD false))

/-- ROUTE at issue (R384, R385). -/
def planRoute (f : FmtE) (s : State) (p : Strip) (c : Ctx) : Plan :=
  let a := routeArgs f c.ops
  let base := (partOf s p).scratch
  let win := fun (r : Nat × Nat) => windowRange base r.1 r.2
  if routeOk c.ops a (scratchSize s p) then ⟨a.reads.flatMap win, a.writes.flatMap win, false, none, [], false⟩
  else { planNone with failed := some codeFAULT }

/-- A core's escrow entry. -/
def escrowOf (s : State) (core n : Nat) : Escrow := (tableGet (coreOf s core).escrow n).getD ⟨.free, 0, core, 0, [], none, []⟩
def putEscrow (s : State) (core n : Nat) (e : Escrow) : State := modCore s core fun c => { c with escrow := tablePut c.escrow n e }
/-- The first free escrow entry of a core (R385): none while 32 are held or open, restored ones included. -/
def freeEscrow (s : State) (core : Nat) : Option Nat :=
  if 32 ≤ ((coreOf s core).escrow.filter fun e => e.2.st != .free).length then none
  else (List.range 32).find? fun n => (escrowOf s core n).st == .free

/-- The escrow entry of a command. -/
def escrowOfCmd (s : State) (core cmd : Nat) : Option (Nat × Escrow) :=
  (coreOf s core).escrow.find? fun e => e.2.cmd == cmd && e.2.st != .free

/-- A ROUTE that has issued holds an escrow entry; one that failed frees it at once (R388, R393). -/
def holdEscrow (s : State) (core cmd : Nat) : State :=
  match freeEscrow s core with
  | some n => putEscrow s core n { escrowOf s core n with st := .held, cmd := cmd, origin := core }
  | none => s

/-- ROUTE (R385): not ready without a free escrow entry. -/
def execRoute (f : FmtE) (s : State) : Host.Outcome State Fault Refusal :=
  .next (issue (.route f) noCheck
    (fun s c => match tableGet s.strips c.id with
      | some p => if (freeEscrow s p.coreId).isSome then holdEngine (planRoute f) s c else (false, s)
      | none => (true, s))
    (fun s c => match tableGet s.strips c.id with
      | none => (true, s)
      | some p =>
        let pl := planRoute f s p c
        let id := s.nextId
        let s := enterCmd s c p f pl
        let s := if pl.failed.isNone then holdEscrow s p.coreId id else s
        (true, advanceX s c)) s)

/-- A slot is resolved. -/
def SlotState.resolved : SlotState → Bool
  | .inFlight => false
  | .waiting _ => false
  | .sent => false
  | _ => true

/-- A range of a command's window with poisoned words read as 0, and whether there were any. -/
def windowBytes (s : State) (core base off n : Nat) : List Byte × Bool :=
  ((scratchArray s core (base + off) n).toList, !(poisonIn (coreOf s core) [(base + off, n)]).isEmpty)

/-- The routing entry of slot s of row r: identifier, reserved bits, weight; none when poisoned (R393). -/
def routeEntry (s : State) (core base : Nat) (a : RouteArgs) (q : Nat) : Option (Nat × Nat × Nat) :=
  let (b, bad) := windowBytes s core base (a.table + 8 * q) 8
  if bad then none else some (field b 0 2, field b 2 2, field b 4 4)

/-- The bits of a slot in its row's status word (R388). -/
def statusBit (slot : Nat) : SlotState → Nat
  | .returned => 2 ^ slot
  | .dropped => 2 ^ (4 + slot)
  | .timedOut => 2 ^ (8 + slot)
  | .unused => 2 ^ (12 + slot)
  | _ => 0

/-- The command and its window behind an escrow entry. -/
def routeCmd (s : State) (core cmd : Nat) : Option (Cmd × RouteArgs × Nat) :=
  match (coreOf s core).rsb.find? fun k => k.id == cmd && !k.shadow with
  | some k => match k.instr with
    | .route f => some (k, routeArgs f k.ops, (cmdBase s k.wg core).getD 0)
    | _ => none
  | none => none

/-- Close an escrow entry and complete its command (R388). -/
def closeEscrow (s : State) (core n : Nat) (k : Cmd) (code : Nat) : State :=
  let s := modCore s core fun c => { c with
    escrow := tableMod c.escrow n fun e => { e with st := .free, slots := [], deadline := none, rowsDone := [] } }
  finishCmd s core k code

/-- Element j of a row (R386): the weighted answers in slot order. -/
def routeSum (l : List (SlotState × Nat × List Byte)) (j : Nat) : Nat :=
  l.foldl (fun acc q => match q.1 with
    | .returned => fl32add acc (fl32mul q.2.1 (field q.2.2 (4 * j) 4))
    | _ => acc) 0

/-- Reassemble one resolved row (R386, R393): false when a poisoned word ends the command with FAULT. -/
def reassemble (s : State) (core n : Nat) (k : Cmd) (a : RouteArgs) (base r : Nat) : Bool × State :=
  let e := escrowOf s core n
  let ag := cmdAgent core k
  let slots := (List.range a.k).map fun q =>
    let st := e.slots.getD (r * a.k + q) .unused
    let (b, _) := windowBytes s core base (a.staging + 4 * a.e * (r * a.k + q)) (4 * a.e)
    match st, routeEntry s core base a (r * a.k + q) with
    | .returned, none => (SlotState.dropped, 0, b)
    | .returned, some w => (st, w.2.2, b)
    | _, _ => (st, 0, b)
  let returned := (List.range a.k).filter fun q => e.slots.getD (r * a.k + q) .unused == .returned
  let bad := poisonIn (coreOf s core) (returned.flatMap fun q =>
    [(base + a.table + 8 * (r * a.k + q), 8), (base + a.staging + 4 * a.e * (r * a.k + q), 4 * a.e)])
  let s := scratchMet s ag core bad
  if !bad.isEmpty && ag.poisonTrap then (false, s)
  else
    let now := slots.map fun q => q.1
    let out := (List.range a.e).flatMap fun j => leBytes a.ob ((fltOf a.oty).round (f32.val (routeSum slots j)) 0 a.sat).1
    let word := (List.range a.k).foldl (fun w q => w + statusBit q (now.getD q .unused)) 0
    let s := writeScratch s core (base + a.out + r * a.e * a.ob) out
    let s := writeScratch s core (base + a.status + 4 * r) (leBytes 4 word)
    let merged := e.slots.take (r * a.k) ++ now ++ e.slots.drop (r * a.k + a.k)
    (true, putEscrow s core n { e with slots := merged, rowsDone := setAdd e.rowsDone r })

/-- The rank of the worst slot (R388). -/
def routeCode (l : List SlotState) : Nat :=
  if l.contains .timedOut then codeTIMEOUT else if l.contains .dropped then codeDROPPED else codeOK

/-- The rows of an open entry that are resolved and not written. -/
def rowsReady (e : Escrow) (a : RouteArgs) : List Nat :=
  (List.range a.n).filter fun r => !e.rowsDone.contains r &&
    ((List.range a.k).all fun q => (e.slots.getD (r * a.k + q) .unused).resolved)

/-- Reassemble rows, up to the first that ends the command. -/
def reassembleAll (s : State) (core n : Nat) (k : Cmd) (a : RouteArgs) (base : Nat) : List Nat → Bool × State
  | [] => (true, s)
  | r :: rest =>
    match reassemble s core n k a base r with
    | (false, s) => (false, s)
    | (true, s) => reassembleAll s core n k a base rest

/-- The launch's ROUTE_TRAP flag (R181). -/
def routeTraps (s : State) (k : Cmd) : Bool := match tableGet s.launches k.launch with
  | some l => l.lrec.routeTrap
  | none => false

/-- Write every row that has become resolved; after the last one the command completes (R386, R388, R389). -/
def settleRoute (s : State) (core n : Nat) : State :=
  let e := escrowOf s core n
  match routeCmd s core e.cmd with
  | none => s
  | some (k, a, base) =>
    if e.st ≠ .open then s
    else
      match reassembleAll s core n k a base (rowsReady e a) with
      | (false, s) => closeEscrow s core n k codeFAULT
      | (true, s) =>
        let e := escrowOf s core n
        if e.rowsDone.length < a.n then s
        else
          let code := routeCode e.slots
          let t : AsyncTrap := ⟨causeTIMEOUT, k.pc.setWidth 64, BitVec.ofNat 32 (n % 32 + tokenInfo k), e.gen.setWidth 32⟩
          let s := if code = codeTIMEOUT && routeTraps s k then raiseNow s k.strip core t else s
          closeEscrow s core n k code

/-- Set a slot of an open entry. -/
def putSlot (s : State) (core n q : Nat) (st : SlotState) : State :=
  modCore s core fun c => { c with escrow := tableMod c.escrow n fun e => { e with slots := listPut e.slots q st } }

/-- Resolve a slot, with its count of R390. -/
def resolveSlot (s : State) (core n q : Nat) (st : SlotState) (count : Bool) : State :=
  let s := putSlot s core n q st
  settleRoute (if count then countDiscard s core else s) core n

/-- The sent bytes of a slot's row. -/
def rowBytes (s : State) (core base : Nat) (a : RouteArgs) (q : Nat) : List Byte × Bool :=
  windowBytes s core base (a.tile + q / a.k * a.sent) a.sent

/-- Put a delivery of slot q under way (R385), its first attempt or a retry. -/
def sendSlot (s : State) (core n : Nat) (k : Cmd) (a : RouteArgs) (base ident q : Nat) (first : Bool) : State :=
  let e := escrowOf s core n
  let h := makeHandle e.gen e.origin (n % 32) (q % a.k) (q / a.k)
  let (b, _) := rowBytes s core base a q
  let s := putSlot s core n q .inFlight
  { s with net := s.net ++ [.delivery h ident b k.job.index first] }

/-- Send one slot at the start of a ROUTE: none when its identifier is 0, dropped when malformed or poisoned. -/
def startSlot (core n : Nat) (k : Cmd) (a : RouteArgs) (base : Nat) (s : State) (q : Nat) : State :=
  match routeEntry s core base a q with
  | none => countDiscard (putSlot (scratchMet s (cmdAgent core k) core (poisonIn (coreOf s core) [(base + a.table + 8 * q, 8)]))
      core n q .dropped) core
  | some (0, 0, _) => putSlot s core n q .unused
  | some (ident, 0, _) => sendSlot s core n k a base ident q true
  | some _ => countDiscard (putSlot s core n q .dropped) core

/-- Poison a started ROUTE would read in its tile and table. -/
def routePoison (s : State) (core base : Nat) (a : RouteArgs) : List Nat :=
  poisonIn (coreOf s core) (a.reads.map fun r => (base + r.1, r.2))

/-- The start of a ROUTE (R385, R388, R393): GEN, the deadline, then the deliveries in ascending order. -/
def startRoute (s : State) (core : Nat) (k : Cmd) : State :=
  match escrowOfCmd s core k.id, routeCmd s core k.id with
  | some (n, e), some (_, a, base) =>
    let escto := match tableGet s.launches k.launch with
      | some l => l.lrec.escto
      | none => 0
    let due := if escto = 0 then none else some (s.clk + 1024 * escto)
    let s := putEscrow s core n { e with
      st := .open, gen := e.gen + 1, deadline := due, slots := List.replicate (a.n * a.k) .inFlight, rowsDone := [] }
    let bad := routePoison s core base a
    let s := scratchMet s (cmdAgent core k) core (bad.filter fun w => spanMeets (4 * w, 4) (base + a.tile, a.n * a.sent))
    if !bad.isEmpty && (cmdAgent core k).poisonTrap then closeEscrow s core n k codeFAULT
    else settleRoute ((List.range (a.n * a.k)).foldl (startSlot core n k a base) s) core n
  | _, _ => s

/-! ## Messages -/

/-- Take message m out of the network. -/
def takeMessage (s : State) (m : Nat) : Option Message × State := (s.net[m]?, { s with net := s.net.eraseIdx m })

/-- Two handles name one opening of one escrow entry. -/
def sameEntry (g h : DWord) : Bool := g.toNat / 2 ^ 9 == h.toNat / 2 ^ 9

/-- An earlier first attempt of the same ROUTE to the same inbox is still on its way: these arrive in the order they were
sent (R443); retries and other senders' deliveries have no order (R378). -/
def overtakes (s : State) (m : Nat) : Bool := match s.net[m]? with
  | some (.delivery h ident _ _ true) => (s.net.take m).any fun e => match e with
    | .delivery g i _ _ true => sameEntry g h && i == ident
    | _ => false
  | _ => false

/-- The open entry and slot a handle names. -/
def handleSlotOf (s : State) (h : DWord) : Option (Nat × Nat × Nat × SlotState) :=
  match escrowHome s h with
  | none => none
  | some (core, n, e) => match routeCmd s core e.cmd with
    | none => none
    | some (_, a, _) =>
      let q := handleRow h * a.k + handleSlot h
      if handleSlot h < a.k then (e.slots[q]?).map fun st => (core, n, q, st) else none

/-- A delivery is refused (R385): dropped, or retried no sooner than 64 cycles later. -/
def refuseSlot (s : State) (core n q : Nat) : State :=
  match routeCmd s core (escrowOf s core n).cmd with
  | some (_, a, _) => if a.drop then resolveSlot s core n q .dropped true else putSlot s core n q (.waiting (s.clk + 64))
  | none => s

/-- A row is accepted by an inbox and lands with its handle (R378). -/
def landRow (s : State) (core slot : Nat) (b : Inbox) (h : DWord) (bytes : List Byte) : State :=
  let base := (cmdBase s b.wg core).getD 0
  let pos := b.rsv % b.cap
  let row := bytes ++ List.replicate (b.rb - bytes.length) 0
  let s := writeScratch s core (base + b.ring + pos * b.rb) row
  let s := writeScratch s core (base + b.ring + b.cap * b.rb + 8 * pos) (leBytes 8 h.toNat)
  modCore s core fun c => { c with inboxes := tablePut c.inboxes slot { b with rsv := b.rsv + 1, arr := b.arr + 1 } }

/-- Change a sender's slot when its entry is still open and the slot's delivery is on its way. -/
def onSlot (s : State) (h : DWord) (g : State → Nat → Nat → Nat → State) : State :=
  match handleSlotOf s h with
  | some (core, n, q, .inFlight) => g s core n q
  | _ => s

/-- After the deadline's cycle, what is not resolved has timed out (R387-R389); deadlines stand still during a save (R394). -/
def expire (s : State) (core entry : Nat) : State :=
  let e := escrowOf s core entry
  match e.deadline with
  | some t =>
    let saved := match routeCmd s core e.cmd with
      | some (k, _, _) => wgSaving s k.wg
      | none => false
    if e.st = .open ∧ t < s.clk ∧ !saved then
      let slots := e.slots.map fun q => if q.resolved then q else .timedOut
      settleRoute (putEscrow s core entry { e with slots := slots, deadline := none }) core entry
    else s
  | none => s

/-- An entry whose deadline lies in an earlier cycle times out before a message reaches it (R387). -/
def expireOf (s : State) (h : DWord) : State := match escrowHome s h with
  | some (core, n, _) => expire s core n
  | none => s
/-- Every entry of a core whose deadline lies in an earlier cycle times out. -/
def expireCore (s : State) (core : Nat) : State := (coreOf s core).escrow.foldl (fun s e => expire s core e.1) s

/-- ROUTE_DELIVERY_ARRIVAL (R378, R385, R387): the target's route unit accepts or refuses. A delivery to an inbox whose
workgroup is not resident is refused before its length is looked at: R378 gives no order (DESIGN CHOICE, log 67). -/
def execRouteDeliveryArrival (msg : Nat) (s : State) : Host.Outcome State Fault Refusal :=
  .next (if overtakes s msg then s else match takeMessage s msg with
  | (some (.delivery h ident bytes job _), s) =>
    let s := expireOf s h
    match dirFind s ident with
    | none => onSlot s h fun s c n q => resolveSlot s c n q .dropped true
    | some d =>
      if d.job ≠ job then onSlot s h fun s c n q => resolveSlot s c n q .dropped true
      else if !d.resident then onSlot s h refuseSlot
      else
        let core := d.die * 96 + d.core
        match tableGet (coreOf s core).inboxes d.slot with
        | none => onSlot s h fun s c n q => resolveSlot s c n q .dropped true
        | some b =>
          if b.rb < bytes.length then onSlot s h fun s c n q => resolveSlot s c n q .dropped true
          else if b.rsv = b.fre + b.cap then onSlot s h refuseSlot
          else onSlot (landRow s core d.slot b h bytes) h fun s c n q => putSlot s c n q .sent
  | _ => s)

/-- ROUTE_RETRY (R385): a waiting slot is sent again, no sooner than its time. -/
def execRouteRetry (core entry slot : Nat) (s : State) : Host.Outcome State Fault Refusal :=
  .next (let s := expire s core entry
  let e := escrowOf s core entry
  match e.slots[slot]?, routeCmd s core e.cmd with
  | some (.waiting at_), some (k, a, base) =>
    if e.st = .open ∧ at_ ≤ s.clk ∧ !wgSaving s k.wg then
      match routeEntry s core base a slot with
      | some (ident, _, _) => sendSlot s core entry k a base ident slot false
      | none => resolveSlot s core entry slot .dropped true
    else s
  | _, _ => s)

/-- Note what became of an answer of a RETN (R382). -/
def markAnswer (s : State) (cmd index st : Nat) : State :=
  mapCores s fun c => { c with rsb := c.rsb.map fun k =>
    if k.id = cmd ∧ !k.shadow then { k with data := listPut k.data index st } else k }

/-- Fates of an answer: on its way, accepted, discarded, refused. -/
def ansFlying : Nat := 0
def ansTaken : Nat := 1
def ansGone : Nat := 2
def ansRefused : Nat := 3

/-- ROUTE_ANSWER_ARRIVAL (R382, R387): refused while the origin is saved, accepted by a sent slot, or discarded. -/
def execRouteAnswerArrival (msg : Nat) (s : State) : Host.Outcome State Fault Refusal :=
  .next (match s.net[msg]? with
  | some (.answer h bytes cmd index) =>
    let s := expireOf { s with net := s.net.eraseIdx msg } h
    if escrowSaved s h then markAnswer s cmd index ansRefused
    else
      let gone := fun s : State => markAnswer (countDiscard s (handleOrigin h)) cmd index ansGone
      match handleSlotOf s h with
      | some (core, n, q, .sent) =>
        match routeCmd s core (escrowOf s core n).cmd with
        | some (_, a, base) =>
          if bytes.length = 4 * a.e then
            let s := writeScratch s core (base + a.staging + 4 * a.e * q) bytes
            resolveSlot (markAnswer s cmd index ansTaken) core n q .returned false
          else gone s
        | none => gone s
      | _ => gone s
  | _ => s)

/-- DROP_NOTICE_ARRIVAL (R379, R387): a notice for a saved entry stays on its way. -/
def execDropNoticeArrival (msg : Nat) (s : State) : Host.Outcome State Fault Refusal :=
  .next (match s.net[msg]? with
  | some (.drop h) =>
    if escrowSaved s h then s
    else
      let s := expireOf { s with net := s.net.eraseIdx msg } h
      match handleSlotOf s h with
      | some (core, n, q, .sent) => resolveSlot s core n q .dropped false
      | _ => if handleOk h then countDiscard s (handleOrigin h) else s
  | _ => s)

/-- ESCROW_DEADLINE (R387-R389). -/
def execEscrowDeadline (core entry : Nat) (s : State) : Host.Outcome State Fault Refusal := .next (expire s core entry)

/-! ## RETN (R382) -/

/-- RETN passes the checks of R393. -/
def retnOk (o : Operands) (scratch : Nat) : Bool :=
  let n := o.aAt 2
  let l := o.nb
  1 ≤ n && n ≤ 128 && 16 ≤ l && l ≤ 512 && l % 16 == 0 && inWindow scratch (o.aAt 0) (n * l) 16 &&
    inWindow scratch (o.aAt 1) (8 * n) 8

/-- RETN at issue. -/
def planRetn (s : State) (p : Strip) (c : Ctx) : Plan :=
  let o := c.ops
  let base := (partOf s p).scratch
  if retnOk o (scratchSize s p) then
    ⟨windowRange base (o.aAt 0) (o.aAt 2 * o.nb) ++ windowRange base (o.aAt 1) (8 * o.aAt 2), [], false, none, [], false⟩
  else { planNone with failed := some codeFAULT }
def execRetn (f : FmtE) (s : State) : Host.Outcome State Fault Refusal := engineOp (.retn f) f noCheck planRetn s

/-- Send answer i of a RETN, or discard it where its handle names no core (R382). -/
def sendAnswer (core : Nat) (k : Cmd) (base : Nat) (s : State) (i : Nat) : State :=
  let (hb, _) := windowBytes s core base (k.ops.aAt 1 + 8 * i) 8
  let h : DWord := BitVec.ofNat 64 (leNat hb)
  let (b, _) := windowBytes s core base (k.ops.aAt 0 + i * k.ops.nb) k.ops.nb
  if handleOk h then
    let s := markAnswer s k.id i ansFlying
    { s with net := s.net ++ [.answer h b k.id i] }
  else markAnswer (countDiscard s core) k.id i ansGone

/-- The start of a RETN: its answers in ascending order; poison with the trap set ends it (R393). -/
def startRetn (s : State) (core : Nat) (k : Cmd) : State :=
  let base := (cmdBase s k.wg core).getD 0
  let n := k.ops.aAt 2
  let bad := poisonIn (coreOf s core) [(base + k.ops.aAt 0, n * k.ops.nb), (base + k.ops.aAt 1, 8 * n)]
  let s := scratchMet s (cmdAgent core k) core bad
  if !bad.isEmpty && (cmdAgent core k).poisonTrap then modCmd s core k.id fun k => { k with failed := some codeFAULT }
  else
    let s := modCmd s core k.id fun k => { k with data := List.replicate n ansFlying }
    (List.range n).foldl (sendAnswer core k base) s

/-- RETN_ANSWER_RETRY (R382): the refused answers are sent again. -/
def execRetnAnswerRetry (core cmd : Nat) (s : State) : Host.Outcome State Fault Refusal :=
  .next (match cmdOf s core cmd with
  | none => s
  | some k => match k.instr with
    | .retn _ =>
      if wgSaving s k.wg then s
      else
      let base := (cmdBase s k.wg core).getD 0
      ((List.range k.data.length).filter fun i => k.data.getD i 0 == ansRefused).foldl (sendAnswer core k base) s
    | _ => s)

/-- The outcome of a RETN, once every answer has been accepted or discarded. -/
def retnDone (k : Cmd) : Option Nat :=
  if k.data.all fun a => a == ansTaken || a == ansGone then
    some (if k.data.contains ansGone then codeDROPPED else codeOK)
  else none

/-! ## RECV and ESCQ -/

/-- A long-latency uniform instruction whose result is known at its issue (R136, R501). -/
def uniformLong (i : Instr) (act : State → Strip → Ctx → List Nat × State) (s : State) : Host.Outcome State Fault Refusal :=
  .next (issue i noCheck holdRoom (fun s c => match tableGet s.strips c.id with
    | none => (true, s)
    | some p =>
      let (ws, s) := act s p c
      launchFlight s c (destOf c.sh) 0 [ws.map (BitVec.ofNat 32)] 0) s)

/-- RECV's step (R381). -/
def recvStep (s : State) (p : Strip) (c : Ctx) : List Nat × State :=
  match inboxFind s p.coreId p.wg c.ops.na with
  | none => ([0, 0, 0, 1], s)
  | some (slot, b) =>
    let fre := min b.clm (b.fre + c.ops.nb / 2 ^ 16)
    let k := min (c.ops.nb % 2 ^ 16) (b.arr - b.clm)
    let clm := b.clm + k
    let put := fun q : Core => { q with inboxes := tablePut q.inboxes slot { b with fre := fre, clm := clm } }
    ([b.clm % b.cap, k, b.arr - clm, 0], modCore s p.coreId put)
/-- RECV (R381). -/
def execRecv (f : FmtE) (s : State) : Host.Outcome State Fault Refusal := uniformLong (.recv f) recvStep s

/-- The oldest ROUTE of a strip on a token, with its escrow entry (R391). -/
def oldestRoute (s : State) (core strip token : Nat) : Option (Cmd × Escrow) :=
  (coreOf s core).rsb.findSome? fun k =>
    if k.strip == strip && k.token == some token && !k.shadow then
      (escrowOfCmd s core k.id).map fun e => (k, e.2)
    else none

/-- ESCQ's step (R391). -/
def escqStep (s : State) (p : Strip) (c : Ctx) : List Nat × State :=
  let s := expireCore s p.coreId
  let p := (tableGet s.strips c.id).getD p
  let t := c.ops.na % 8
  let tok := (p.tokens.getD t ⟨0, 0⟩).field
  let cnt := (coreOf s p.coreId).discards.toNat
  match oldestRoute s p.coreId c.id t with
  | none => ([tok, 0, 0, cnt], s)
  | some (k, e) =>
    match e.st with
    | .open => ([tok, e.rowsDone.length, (e.slots.filter fun q => !q.resolved).length, cnt], s)
    | _ =>
      let n := match k.instr with
        | .route f => (routeArgs f k.ops).n * (routeArgs f k.ops).k
        | _ => 0
      ([tok, 0, n, cnt], s)
/-- ESCQ (R391). -/
def execEscq (f : FmtE) (s : State) : Host.Outcome State Fault Refusal := uniformLong (.escq f) escqStep s

end Sys2Proof.Machine
end

