-- ==== Sys2Proof/Machine/WorkInstr.lean ====
section
/-! DEFINITION. LAUNCH and CANCEL (R207-R209) as engine commands. -/
namespace Sys2Proof.Machine

/-- LAUNCH (R208): a release at SYS scope. -/
def execLaunch (f : FmtE) (s : State) : Host.Outcome State Fault Refusal :=
  engineOp (.launch f) f noCheck (fun _ _ _ => planGlobal) s
/-- CANCEL (R209). -/
def execCancel (f : FmtE) (s : State) : Host.Outcome State Fault Refusal :=
  engineOp (.cancel f) f noCheck (fun _ _ _ => planNone) s

end Sys2Proof.Machine
end

