-- ==== Sys2Proof/Machine/Halo.lean ====
section
/-! DEFINITION. The halo engine (R465-R469), phase count events (R205, R468), PHWAIT (R470), and the scale-out transport with
the fabric window (R471, R472). -/
namespace Sys2Proof.Machine

/-! ## Commands by identifier -/

/-- A command's worst status so far, held in `stage`. -/
def worsen (s : State) (id code : Nat) : State := modCmdId s id fun k => { k with stage := max k.stage code }

/-- Packets of a command wait for acknowledgement. -/
def unackedOf (s : State) (id : Nat) : Bool := s.conns.any fun c => c.2.unacked.any fun u => u.2.1 == id

/-- An open connection that binds a job (R471). -/
def connOf (s : State) (n job : Nat) : Option Conn := match tableGet s.conns n with
  | some c => if c.up && c.job.index == job then some c else none
  | none => none

/-- Send a packet for a command. -/
def sendPacket (s : State) (n cmd : Nat) (b : PacketBody) : State :=
  { s with conns := tableMod s.conns n fun c => { c with
      sendSeq := c.sendSeq + 1
      unacked := c.unacked ++ [(⟨BitVec.ofNat 64 c.sendSeq, b⟩, cmd, 0, s.clk)] } }

/-! ## HALO at issue and at its start -/

/-- HALO (R466, R467). -/
def execHalo (f : FmtE) (s : State) : Host.Outcome State Fault Refusal :=
  engineOp (.halo f) f noCheck (fun _ _ _ => planGlobal) s

/-- A descriptor as the halo engine reads it; none when it is invalid (R324). -/
def splVdesc (k : Spl) (ag : Agent) (va : Nat) : Option Vdesc × Spl :=
  if va % 128 ≠ 0 then (none, k)
  else
    match k.read ag va 128 with
    | (some b, false, k) =>
      let v := parseVdesc 0 b
      (if vdescOk b v then some v else none, k)
    | (_, _, k) => (none, k)

/-- The checks made at a HALO's start (R467): whether it may deliver. -/
def haloReady (ag : Agent) (o : Operands) (k : Spl) : Bool × Spl :=
  let first := o.nb
  let count := o.bAt 1
  if o.addrA % 64 ≠ 0 then (false, k)
  else
    match k.read ag o.addrA 64 with
    | (none, _, k) => (false, k)
    | (some b, _, k) =>
      let nent := field b 0 4
      if nent = 0 ∨ 2 ^ 20 < nent ∨ !zeroBytes b 4 4 ∨ !zeroBytes b 0x10 48 ∨ count = 0 ∨ nent < first + count then (false, k)
      else
        let (v, k) := splVdesc k ag (field b 8 8)
        (v.isSome && !k.stop, k)

/-- Halo entries in flight on a die: under way, or waiting for their count or acknowledgement (R467). -/
def dieHalos (s : State) (die : Nat) : Nat := (s.halos.filter fun h => h.core / 96 == die).length

/-- Start deliveries of a command while fewer than 64 are in flight on its die, and its workgroup is not being saved (R467,
R469). -/
def fillHalo (s : State) (core : Nat) (id : Nat) : Nat → State
  | 0 => s
  | fuel + 1 =>
    match cmdOf s core id with
    | none => s
    | some k => match k.data with
      | [] => s
      | i :: rest =>
        if dieHalos s (core / 96) < 64 && !wgSaving s k.wg then
          let s := modCmd s core id fun k => { k with data := rest }
          fillHalo { s with halos := s.halos ++ [⟨core, id, i, k.job, k.launch, k.ops.addrA, word0 k.ops.uc, false⟩] } core id fuel
        else s

/-- A HALO that delivers. -/
def haloRuns (k : Cmd) : Bool := k.started && k.failed.isNone && !k.shadow && match k.instr with
  | .halo _ => true
  | _ => false

/-- Start deliveries of every HALO of a die (R467). -/
def fillHalos (s : State) (die : Nat) : State :=
  s.cores.foldl (fun s c => if c.1 / 96 = die then
      (c.2.rsb.filter haloRuns).foldl (fun s k => fillHalo s c.1 k.id 64) s else s) s
/-- The same on every die. -/
def fillAll (s : State) : State := (List.range 4).foldl fillHalos s

/-- An entry of a command that waited for its count or its acknowledgement is no longer in flight. -/
def haloLanded (s : State) (cmd : Nat) : State := match s.halos.findIdx? fun h => h.cmd == cmd && h.sent with
  | some n => { s with halos := s.halos.eraseIdx n }
  | none => s

/-- The start of a HALO (R467): an acquire at PKG scope, its checks, and its first deliveries. -/
def startHalo (s : State) (core : Nat) (k : Cmd) : State :=
  let ag := cmdAgent core k
  let s := acquireScope s ag 3
  let (ready, q) := haloReady ag k.ops (.start s false)
  match q.fault with
  | some (va, kind, access) => failCmd (engineFault q.s ag va kind access) core k.id codeFAULT
  | none =>
    if !ready then failCmd q.s core k.id codeFAULT
    else
      let s := modCmd q.s core k.id fun c => { c with data := (List.range (k.ops.bAt 1)).map (k.ops.nb + ·) }
      fillHalos s (core / 96)

/-- The outcome of a HALO whose entries have all been delivered and counted, or refused. -/
def haloDone (s : State) (k : Cmd) : Option Nat :=
  if k.data.isEmpty && !(s.halos.any fun h => h.cmd == k.id) && !(s.phaseEvents.any fun e => e.halo == some k.id) &&
      !unackedOf s k.id then some k.stage
  else none

/-! ## Delivering an entry -/

/-- An entry of a plan (R465). -/
structure HaloEntry where
  sleaf : Nat
  dleaf : Nat
  ddie : Nat
  parts : Nat
  conn : Nat
  dvdesc : Nat
  dphase : Nat
deriving DecidableEq, Repr

/-- An entry's fields, when it obeys R465. -/
def haloEntry (b : List Byte) : Option HaloEntry :=
  let e : HaloEntry := ⟨field b 0 4, field b 4 4, field b 8 1, field b 9 1, field b 10 2, field b 0x10 8, field b 0x18 8⟩
  if e.ddie ≤ 3 && 1 ≤ e.parts && e.parts ≤ 7 && e.conn ≤ 256 && zeroBytes b 0xC 4 && e.dphase % 64 == 0 then some e
  else none

/-- What an entry carries: element data, mask, and header bytes 0-16 (R467). -/
structure HaloParts where
  data : Option (List Byte)
  mask : Option (List Byte)
  hdr : Option (List Byte)
deriving DecidableEq, Repr

/-- The origin of the source header, FLAGS := GHOST, and HOME (R327, R467). -/
def ghostHeader (h : List Byte) : List Byte := h.take 12 ++ leBytes 4 1 ++ (h.drop 16).take 1

/-- Read the parts of the source leaf at its homes. -/
def sourceParts (ag : Agent) (v : Vdesc) (e : HaloEntry) (k : Spl) : Option HaloParts × Spl :=
  let n := elemBytes v.etype
  let get := fun (k : Spl) (bit va len : Nat) =>
    if e.parts.testBit bit then
      let (b, _, k) := k.read ag va len
      (b.map some, k)
    else (some none, k)
  let (data, k) := get k 0 (v.ldata + 512 * n * e.sleaf) (512 * n)
  let (mask, k) := get k 1 (v.lmask + 64 * e.sleaf) 64
  let (hdr, k) := get k 2 (v.lhdr + 64 * e.sleaf) 17
  match data, mask, hdr with
  | some d, some m, some h => (if k.stop then none else some ⟨d, m, h.map ghostHeader⟩, k)
  | _, _, _ => (none, k)

/-- Where the parts are written in the destination tree. -/
def destWrites (v : Vdesc) (dleaf : Nat) (p : HaloParts) : List (Nat × List Byte) :=
  let n := elemBytes v.etype
  let one := fun (va : Nat) (b : Option (List Byte)) => match b with
    | some b => [(va, b)]
    | none => []
  one (v.ldata + 512 * n * dleaf) p.data ++ one (v.lmask + 64 * dleaf) p.mask ++ one (v.lhdr + 64 * dleaf) p.hdr

/-- The cells of translated writes, by physical address. -/
def pieceCells (ps : List (Piece × Bytes)) : List (Nat × Byte) :=
  ps.flatMap fun p => (List.range p.2.length).filterMap fun i => (p.2.getD i none).map fun x => (p.1.leaf.pa + i, x)

/-- Write cells, one event for each line (R467). -/
def writeCells (s : State) (ag : Agent) (cells : List (Nat × Byte)) : State :=
  let lines := cells.foldl (fun l c => setAdd l (lineOf c.1)) []
  lines.foldl (fun s line =>
    let t := (cells.filter fun c => lineOf c.1 == line).foldl (fun t c => tablePut t (c.1 % 128) c.2) []
    dropRdcFor (writeLine s ag.cp ag.launches line t) ag.die (line * 128)) s

/-- Translate the writes of an entry, each piece with its bytes; says whether all of them went well. -/
def entryPieces (s : State) (ag : Agent) (writes : List (Nat × List Byte)) : List (Piece × Bytes) × Bool × State :=
  writes.foldl (fun r w =>
    let (ps, ok, s) := engXlate r.2.2 ag (linePieces (w.2.length / 128 + 2) (vaOf w.1) w.2.length) (allBytes w.2)
    (r.1 ++ ps, r.2.1 && ok, s)) ([], true, s)

/-- Write the pieces of an entry that is cut short: each byte, or not (R467). -/
def cutWrites (s : State) (ag : Agent) (ps : List (Piece × Bytes)) : State :=
  let (cells, s) := ps.foldl (fun (r : List (Piece × Bytes) × State) p =>
    let (b, s) := chooseBytes r.2 p.2
    (r.1 ++ [(p.1, b)], s)) ([], s)
  writeCells s ag (pieceCells cells)

/-- Write a delivered entry into a tree (R467): all of it, or, past a translation fault, each byte or not. -/
def writeEntry (s : State) (ag : Agent) (writes : List (Nat × List Byte)) (dphase : Nat) : Bool × State :=
  let (ps, ok, s) := entryPieces s ag writes
  -- the phase record is translated with the entry
  let (ok, s) := if dphase = 0 then (ok, s)
    else match xlateRange s ag (vaOf dphase) 64 .both with
      | (.ok _, s) => (ok, s)
      | (.error (va, kind), s) => (false, engineFault s ag va kind (accRead + accWrite))
  if ok then (true, writeCells s ag (pieceCells ps)) else (false, cutWrites s ag ps)

/-- A tree's leaf may be a halo's end. -/
def leafInside (n : Nat) (v : Vdesc) : Bool := n != 0 && n < v.lcap

/-- The agent of a halo entry at its issuing die, and at its destination. -/
def haloAgent (h : HaloFlight) : Agent :=
  ⟨h.core / 96, h.core, h.job.asid, h.job.root, h.job.index, [h.launch], h.job.poisonTrap, 16 * h.cmd + 15, 0⟩
def haloThere (h : HaloFlight) (die : Nat) : Agent :=
  { dieAgent die h.job with launches := [h.launch], who := 16 * h.cmd + 15 }

/-- What becomes of an entry once its records and its source have been read: stopped by a fault of an agent or by trapped
poison, refused, written into a tree of this package, or sent over a connection. -/
inductive HaloEnd where
  | stopped (ag : Agent)
  | refused
  | near (e : HaloEntry) (v : Vdesc) (p : HaloParts)
  | far (conn : Nat) (m : HaloMsg)
deriving DecidableEq, Repr

/-- Read an entry's source for a destination that takes it. -/
def haloSource (h : HaloFlight) (v : Vdesc) (e : HaloEntry) (go : HaloParts → HaloEnd) (k : Spl) : HaloEnd × Spl :=
  match sourceParts (haloAgent h) v e k with
  | (none, k) => (.stopped (haloAgent h), k)
  | (some p, k) => (go p, k)

/-- The message of an entry that leaves the package. -/
def haloMsg (h : HaloFlight) (e : HaloEntry) (v : Vdesc) (p : HaloParts) : HaloMsg :=
  ⟨BitVec.ofNat 64 e.dvdesc, BitVec.ofNat 32 e.dleaf, p.data, p.mask, p.hdr, BitVec.ofNat 64 e.dphase, h.step, v.etype, e.ddie⟩

/-- Read an entry that obeys R465, with its source tree, up to its end. -/
def haloRead (h : HaloFlight) (e : HaloEntry) (v : Vdesc) (k : Spl) : HaloEnd × Spl :=
  if !leafInside e.sleaf v then (.refused, k)
  else if e.conn ≠ 0 then
    if (connOf k.s (e.conn - 1) h.job.index).isNone then (.refused, k)
    else haloSource h v e (fun p => .far (e.conn - 1) (haloMsg h e v p)) k
  else if !holdsSector k.s h.job.part e.ddie then (.refused, k)
  else
    match splVdesc k (haloThere h e.ddie) e.dvdesc with
    | (none, k) => (if k.fault.isSome || k.stop then .stopped (haloThere h e.ddie) else .refused, k)
    | (some d, k) =>
      if k.stop then (.stopped (haloThere h e.ddie), k)
      else if !leafInside e.dleaf d || d.etype ≠ v.etype then (.refused, k)
      else haloSource h v e (fun p => .near e d p) k

/-- Read an entry under way. -/
def openEntry (h : HaloFlight) (k : Spl) : HaloEnd × Spl :=
  let ag := haloAgent h
  match k.read ag (h.plan + 64 + 32 * h.index) 32 with
  | (none, _, k) => (.stopped ag, k)
  | (some b, _, k) =>
    match k.read ag h.plan 64 with
    | (none, _, k) => (.stopped ag, k)
    | (some l, _, k) =>
      if k.stop then (.stopped ag, k)
      else
        match haloEntry b with
        | none => (.refused, k)
        | some e =>
          match splVdesc k ag (field l 8 8) with
          | (none, k) => (.stopped ag, k)
          | (some v, k) => if k.stop then (.stopped ag, k) else haloRead h e v k

/-- An entry that its command's FAULT cuts short: each destination byte is written or not, and it is not counted (R467). -/
def cutEntry (s : State) (h : HaloFlight) : State :=
  match openEntry h (.start s true) with
  | (.near e v p, k) =>
    let ag := haloThere h e.ddie
    let go := fun (r : List (Piece × Bytes) × State) (w : Nat × List Byte) =>
      (linePieces (w.2.length / 128 + 2) (vaOf w.1) w.2.length).foldl (fun r c => match xlate r.2 ag c.1 .write with
        | (.ok l, s) => (r.1 ++ [(⟨c.1, l, c.2⟩, allBytes ((w.2.drop ((c.1 + 2 ^ 48 - vaOf w.1) % 2 ^ 48)).take c.2))], s)
        | (.error _, s) => (r.1, s)) r
    let (ps, s) := (destWrites v e.dleaf p).foldl go ([], k.s)
    cutWrites s ag ps
  | (_, k) => k.s

/-- A HALO ends with FAULT: it starts no further entry, and those under way are cut short. -/
def failHalo (s : State) (id : Nat) : State :=
  let s := modCmdId s id fun k => { k with stage := codeFAULT, data := [] }
  let cut := fun h : HaloFlight => h.cmd == id && !h.sent
  (s.halos.filter cut).foldl cutEntry { s with halos := s.halos.filter fun h => !cut h }

/-- An entry stays in flight until its count is performed or its packet acknowledged. -/
def stayInFlight (s : State) (h : HaloFlight) : State := { s with halos := s.halos ++ [{ h with sent := true }] }

/-- Deliver an entry (R467). -/
def deliverEntry (s : State) (h : HaloFlight) : State :=
  match openEntry h (.start s false) with
  | (.stopped ag, k) => match k.fault with
    | some (va, kind, access) => failHalo (engineFault (cutEntry s h) ag va kind access) h.cmd
    | none => failHalo k.s h.cmd
  | (.refused, k) => worsen k.s h.cmd codeDROPPED
  | (.far conn m, k) => stayInFlight (sendPacket k.s conn h.cmd (.halo m)) h
  | (.near e v p, k) =>
    match writeEntry k.s (haloThere h e.ddie) (destWrites v e.dleaf p) e.dphase with
    | (false, s) => failHalo s h.cmd
    | (true, s) =>
      if e.dphase = 0 then s
      else stayInFlight { s with phaseEvents := s.phaseEvents ++
        [⟨BitVec.ofNat 64 e.dphase, h.job, e.ddie, some h.step, some h.cmd⟩] } h

/-- HALO_ENTRY_DELIVERY (R467): an entry under way is delivered, and others start. -/
def execHaloEntryDelivery (entry : Nat) (s : State) : Host.Outcome State Fault Refusal :=
  .next (match s.halos[entry]? with
  | none => s
  | some h =>
    if h.sent then s else fillHalos (deliverEntry { s with halos := s.halos.eraseIdx entry } h) (h.core / 96))

/-! ## Phase records -/

/-- A phase record's words (R205): COUNT, STATUS, then MEMBERS to STEPS. -/
structure Phase where
  count : Nat
  status : Nat
  members : Nat
  mdone : Nat
  expect : Nat
  arrived : Nat
  ahead : Nat
  stray : Nat
  steps : Nat
deriving DecidableEq, Repr

def parsePhase (b : List Byte) : Phase :=
  ⟨field b 0 8, field b 8 4, field b 0x20 4, field b 0x24 4, field b 0x28 4, field b 0x2C 4, field b 0x30 4,
    field b 0x34 4, field b 0x38 4⟩

/-- The release of R205, when its test holds. -/
def Phase.release (p : Phase) : Phase :=
  if p.mdone = p.members ∧ p.expect ≤ p.arrived then
    let count := (p.count + 1) % 2 ^ 64
    { p with
      count := count
      mdone := 0
      arrived := p.ahead
      ahead := 0
      status := if p.steps ≠ 0 ∧ count = p.steps then 2 else p.status }
  else p

/-- One count event on a record that is not final (R468): its first one makes it RUNNING (R195). -/
def Phase.event (p : Phase) (step : Option Word) : Phase :=
  let bump := fun (n : Nat) => (n + 1) % 2 ^ 32
  let p := if p.status = 0 then { p with status := 1 } else p
  let p := match step with
    | none => { p with mdone := bump p.mdone }
    | some s =>
      if s.toNat = p.count % 2 ^ 32 then { p with arrived := bump p.arrived }
      else if s.toNat = (p.count + 1) % 2 ^ 32 then { p with ahead := bump p.ahead }
      else { p with stray := bump p.stray }
  p.release

/-- The record's bytes after an event: bytes 0-31 keep SEQ, and DIGEST is 0 when it ends (R205). -/
def Phase.bytes (p : Phase) (old : List Byte) : List Byte :=
  leBytes 8 p.count ++ leBytes 8 p.status ++ (if p.status = 2 then leBytes 8 0 else (old.drop 0x10).take 8) ++
    (old.drop 0x18).take 8 ++ leBytes 4 p.members ++ leBytes 4 p.mdone ++ leBytes 4 p.expect ++ leBytes 4 p.arrived ++
    leBytes 4 p.ahead ++ leBytes 4 p.stray ++ leBytes 4 p.steps ++ (old.drop 0x3C).take 4

/-- PHWAIT's condition on a record (R470). -/
def phaseMet (p : Phase) (target : Word) : Bool :=
  (p.count % 2 ^ 32 + 2 ^ 32 - target.toNat) % 2 ^ 32 < 2 ^ 31 || 2 ≤ p.status

/-- Read a phase record for a strip, coherently at home. -/
def readPhase (s : State) (p : Strip) (va : Nat) : Except (Nat × Nat) Phase × State :=
  match readVirt s (stripAgent s p) va 64 with
  | (.error e, s) => (.error e, s)
  | (.ok (b, _), s) => (.ok (parsePhase b), s)

/-- A strand blocked in PHWAIT whose condition holds in `s`. -/
def phaseFree (s : State) (p : Strip) (t : Strand) : Bool := match t.st with
  | .blocked (.phase r target) => match (readPhase s p (vaOf r.toNat)).1 with
    | .ok q => phaseMet q target
    | .error _ => false
  | _ => false

/-- Release every strand whose PHWAIT condition holds (R470): an acquire at PKG scope. -/
def releasePhases (s : State) : State :=
  s.strips.foldl (fun s p =>
    if p.2.strands.any (phaseFree s p.2) then
      let go := fun t : Strand => if phaseFree s p.2 t then { t with st := .runnable, pc := t.pc + 8 } else t
      let s' := putStrip s p.1 { p.2 with strands := p.2.strands.map go }
      acquireScope s' (stripAgent s' p.2) 3
    else s) s

/-- Perform a count event on a record for an agent (R468): the fault met, or nothing. -/
def countEvent (s : State) (ag : Agent) (record : DWord) (step : Option Word) : Option (Nat × Nat) × State :=
  match xlateRange s ag (vaOf record.toNat) 64 .both with
  | (.error e, s) => (some e, s)
  | (.ok ps, s) =>
    let (b, _, s) := readAccess s ag .home false ps
    let p := parsePhase b
    (none, if 2 ≤ p.status then s else writePieces s ag false ps ((p.event step).bytes b))

/-- PHASE_COUNT_EVENT (R468). A translation fault ends the HALO it serves with FAULT (R467), or waits (R421). -/
def execPhaseCountEvent (ev : Nat) (s : State) : Host.Outcome State Fault Refusal :=
  .next (match s.phaseEvents[ev]? with
  | none => s
  | some e =>
    let ag := dieAgent e.die e.job
    let who := Waiter.phase e.record e.job.index
    let done := fun s : State => { s with phaseEvents := s.phaseEvents.eraseIdx ev }
    if dieWaiting s who then s
    else match countEvent s ag e.record e.step, e.halo with
      | (some (va, kind), s), some id => fillAll (haloLanded (failHalo (engineFault (done s) ag va kind (accRead + accWrite)) id) id)
      | (some (va, kind), s), none => dieFault s ag who va kind (accRead + accWrite)
      | (none, s), some id => fillAll (haloLanded (done s) id)
      | (none, s), none => done s)

/-- PHWAIT (R470). -/
def execPhwait (f : FmtR) (s : State) : Host.Outcome State Fault Refusal :=
  let rec_ := fun (c : Ctx) => vaOf (dword0 c.ops.ua).toNat
  let read := fun (s : State) (c : Ctx) => match tableGet s.strips c.id with
    | some p => (some p, readPhase s p (rec_ c))
    | none => (none, (.ok (parsePhase []), s))
  .next (issue (.phwait f) (checkRecord 64)
    (fun s c => match read s c with
      | (some p, .error (va, kind), s) => (false, suspendStrip s c.id p (stripAgent s p) va kind accRead)
      | (_, .ok _, s) => (true, s)
      | (none, .error _, s) => (true, s))
    (fun s c =>
      let target := word0 c.ops.ub
      match read s c with
      | (some p, .ok q, s) =>
        if phaseMet q target then (true, acquireScope (advanceX s c) (stripAgent s p) 3)
        else (true, modStrip s c.id fun p => p.block c.x (.phase (dword0 c.ops.ua) target))
      | (_, _, s) => (true, s)) s)

/-! ## The fabric window (R472) -/

/-- A physical address lies in the fabric window. -/
def inFabric (pa : Nat) : Bool := paRegion pa == 15
def fabricConn (pa : Nat) : Nat := pa / 2 ^ 32 % 256
def fabricOffset (pa : Nat) : Nat := pa % 2 ^ 32

/-- A CPYGG's destination starts in the fabric window. -/
def toFabric (s : State) (core : Nat) (k : Cmd) : Bool :=
  match k.instr with
  | .cpygg _ => k.ops.nc != 0 && match (xlate s (cmdAgent core k) k.ops.addrA .write).1 with
    | .ok lf => inFabric lf.pa
    | .error _ => false
  | _ => false

/-- A CPYGG goes over connections: its packets are out, or its destination lies in the fabric window. -/
def overFabric (s : State) (core : Nat) (k : Cmd) : Bool := match k.instr with
  | .cpygg _ => !k.data.isEmpty || toFabric s core k
  | _ => false

/-- A piece of a CPYGG can be sent: its bytes have been read and its connection is open. -/
def pieceGoes (s : State) (ag : Agent) (p : Piece × Bytes) : Bool :=
  p.2.all (·.isSome) && inFabric p.1.leaf.pa && (connOf s (fabricConn p.1.leaf.pa) ag.job).isSome

/-- Send a CPYGG's bytes over its connections (R472): FAULT where one is not open or a byte could not be read, with some of
the leading packets sent. -/
def sendCpygg (s : State) (core : Nat) (k : Cmd) : State :=
  let ag := cmdAgent core k
  let n := k.ops.nc
  let (b, ok, s) := engRead s ag k.ops.addrB n
  let (ps, ok', s) := engXlate s ag (linePieces (n / 128 + 2) k.ops.addrA n) b
  let good := ps.takeWhile (pieceGoes s ag)
  let s := modCmd s core k.id fun k => { k with data := [1] }
  let send := fun (s : State) (l : List (Piece × Bytes)) => l.foldl (fun s p =>
    sendPacket s (fabricConn p.1.leaf.pa) k.id
      (.writes (BitVec.ofNat 32 (fabricOffset p.1.leaf.pa)) (p.2.filterMap id))) s
  if ok && ok' && good.length == ps.length then send s ps
  else
    let (m, s) := s.below (good.length + 1)
    worsen (send s (good.take m)) k.id codeFAULT

/-! ## The transport (R471) -/

/-- The port that carries a connection: its number modulo 8. R471 and R495 do not say which (DESIGN CHOICE, log 61). -/
def connPort (conn : Nat) : Nat := conn % 8

/-- The runtime opens a connection for a job, with its receive region (R471, R495): unless it is open, or its port is down.
Its first packet in each direction has sequence number 0 (log 41). -/
def openConn (s : State) (conn : Nat) (j : Job) (base : DWord) (size : Nat) : State :=
  if 256 ≤ conn || (tableGet s.conns conn).any (·.up) || s.linksDown.contains (16 + connPort conn) then s
  else { s with conns := tablePut s.conns conn ⟨true, j, base, size, 0, 0, [], []⟩ }

/-- How the receiver's part of a packet ended: performed, refused, or cut short by a fault. -/
def packetDone : Nat := 0
def packetRefused : Nat := 1
def packetFault : Nat := 2

/-- The receiver writes a packet's bytes into its region; beyond it the packet is refused (R472). -/
def receiveWrites (s : State) (c : Conn) (off : Nat) (b : List Byte) : Nat × State :=
  if c.size < off + b.length then (packetRefused, s)
  else
    let (ok, s) := engWrite s (dieAgent 0 c.job) true (vaOf (c.base.toNat + off)) (allBytes b)
    (if ok then packetDone else packetFault, s)

/-- The data of a message has its element type's size. -/
def msgFits (m : HaloMsg) : Bool := match m.data with
  | some d => d.length == 512 * elemBytes m.etype
  | none => true

/-- The halo engine of DDIE delivers an entry that came over a connection: refused when its own tree does not take it
(R467). Its count is performed with it, before the next packet (R471). -/
def receiveHalo (s : State) (c : Conn) (m : HaloMsg) : Nat × State :=
  let ag := dieAgent m.ddie c.job
  let (v, k) := splVdesc (.start s false) ag m.dvdesc.toNat
  match k.fault, v with
  | some (va, kind, access), _ => (packetFault, engineFault k.s ag va kind access)
  | none, none => (if k.stop then packetFault else packetRefused, k.s)
  | none, some v =>
    if k.stop then (packetFault, k.s)
    else if !leafInside m.dleaf.toNat v || v.etype ≠ m.etype || !msgFits m || m.dphase.toNat % 64 ≠ 0 then (packetRefused, k.s)
    else
      match writeEntry k.s ag (destWrites v m.dleaf.toNat ⟨m.data, m.mask, m.hdr⟩) m.dphase.toNat with
      | (false, s) => (packetFault, s)
      | (true, s) =>
        if m.dphase = 0 then (packetDone, s)
        else match countEvent s ag m.dphase (some m.step) with
          | (none, s) => (packetDone, s)
          | (some (va, kind), s) => (packetFault, engineFault s ag va kind (accRead + accWrite))

/-- SCALE_OUT_PACKET_RECEIVE (R471): the next packet in sequence is performed, and its outcome reported with its
acknowledgement; another packet is discarded. -/
def execScaleOutPacketReceive (conn : Nat) (pkt : Packet) (s : State) : Host.Outcome State Fault Refusal :=
  .next (match tableGet s.conns conn with
  | none => s
  | some c =>
    if c.up && pkt.seq.toNat == c.recvSeq then
      let s := { s with conns := tablePut s.conns conn { c with recvSeq := c.recvSeq + 1 } }
      let (out, s) := match pkt.body with
        | .writes off b => receiveWrites s c off.toNat b
        | .halo m => receiveHalo s c m
      if out = packetDone then s
      else { s with conns := tableMod s.conns conn fun c => { c with reports := c.reports ++ [(pkt.seq.toNat, out)] } }
    else s)

/-- What a packet's outcome at the receiver means for its command (R467, R472). -/
def packetEnd (s : State) (cmd : Nat) (b : PacketBody) (outcome : Nat) : State :=
  if outcome = packetDone then s
  else match b with
    | .writes _ _ => worsen s cmd codeFAULT
    | .halo _ => if outcome = packetRefused then worsen s cmd codeDROPPED else failHalo s cmd

/-- An entry whose packet is acknowledged, or given up, is no longer in flight. -/
def landPacket (s : State) (b : PacketBody) (cmd : Nat) : State := match b with
  | .halo _ => haloLanded s cmd
  | .writes _ _ => s

/-- SCALE_OUT_ACK (R471): every packet up to a sequence number is acknowledged, the last of them with its outcome. -/
def execScaleOutAck (conn : Nat) (ack : PacketAck) (s : State) : Host.Outcome State Fault Refusal :=
  .next (match tableGet s.conns conn with
  | none => s
  | some c =>
    let s := { s with conns := tablePut s.conns conn { c with unacked := c.unacked.filter fun u => ack.seq < u.1.seq.toNat } }
    let done := c.unacked.filter fun u => u.1.seq.toNat ≤ ack.seq
    let s := match c.unacked.find? fun u => u.1.seq.toNat == ack.seq with
      | none => s
      | some u => packetEnd s u.2.1 u.1.body ack.outcome
    fillAll (done.foldl (fun s u => landPacket s u.1.body u.2.1) s))

/-- 20 µs in cycles, and the retransmissions allowed (R471). -/
def retryCycles : Nat := 20 * cyclesUs
def maxTries : Nat := 64

/-- A connection goes down: its commands end with FAULT (R471). -/
def connDown (s : State) (conn : Nat) (c : Conn) : State :=
  let s := { s with conns := tablePut s.conns conn { c with up := false, unacked := [] } }
  fillAll (c.unacked.foldl (fun s u => landPacket (worsen s u.2.1 codeFAULT) u.1.body u.2.1) s)

/-- SCALE_OUT_RETRANSMIT (R471): what has waited 20 µs is sent again, up to 64 times; then the connection goes down. -/
def execScaleOutRetransmit (conn : Nat) (s : State) : Host.Outcome State Fault Refusal :=
  .next (match tableGet s.conns conn with
  | none => s
  | some c =>
    let due := fun (u : Packet × Nat × Nat × Nat) => decide (u.2.2.2 + retryCycles ≤ s.clk)
    if !c.up || !(c.unacked.any due) then s
    else if c.unacked.any fun u => due u && decide (maxTries ≤ u.2.2.1) then connDown s conn c
    else
      let again := fun (u : Packet × Nat × Nat × Nat) => if due u then (u.1, u.2.1, u.2.2.1 + 1, s.clk) else u
      { s with conns := tablePut s.conns conn { c with unacked := c.unacked.map again } })

end Sys2Proof.Machine
end

