-- ==== Sys2Proof/Machine/Engine.lean ====
section
/-! DEFINITION. The start and the completion of engine commands (R277, R281, R363): what each performs at its start, and what
is left for its completion. -/
namespace Sys2Proof.Machine

/-- What a command does at its start. -/
def startEffect (s : State) (core : Nat) (k : Cmd) : State :=
  if k.failed.isSome then s
  else match k.instr with
    | .route _ => startRoute s core k
    | .retn _ => startRetn s core k
    | .halo _ => startHalo s core k
    | .launch _ => performLevel s core k
    | .cancel _ => performLevel s core k
    | i =>
      if isMatrix i then beginMatrix s core
      else if isSplat i then
        beginSplat (modCmd { s with nextId := s.nextId + 1 } core k.id fun k => { k with stage := s.nextId }) core
      else if isCopy i && !toFabric s core k then startCopy s core k
      else s

/-- ENGINE_COMMAND_START (R277, R388): a command that depends on no earlier one starts. -/
def execEngineCommandStart (core cmd : Nat) (s : State) : Host.Outcome State Fault Refusal :=
  .next (match cmdOf s core cmd with
  | none => s
  | some k =>
    if k.started || !cmdClear s core cmd then s
    else startEffect (modCmd s core cmd fun k => { k with started := true }) core k)

/-- The legs of a CPYMC that found no part are counted and make its code DROPPED (R289, R441). -/
def countLegs (s : State) (core : Nat) (k : Cmd) (code : Nat) : Nat × State := match k.instr with
  | .cpymc _ => dropLegs s core k code
  | _ => (code, s)

/-- A command completes with a code, its lost legs counted. -/
def endCmd (s : State) (core : Nat) (k : Cmd) (code : Nat) : State :=
  let (code, s) := countLegs s core k code
  finishCmd s core k code

/-- A copy performs the rest of its units and completes. -/
def endCopy (s : State) (core : Nat) (k : Cmd) : State :=
  let (code, s) := performCopy s core k
  endCmd s core k code

/-- A splat command performs the rest of its work and completes, and the engine may begin the next. -/
def endSplat (s : State) (core : Nat) (k : Cmd) : State :=
  match performSplat s core k with
  | none => s
  | some (code, s) => beginSplat (finishCmd s core k code) core

/-- A command that is performed as a whole at its completion: its code and the state after it; none while it cannot be. -/
def performCmd (s : State) (core : Nat) (k : Cmd) : Option (Nat × State) :=
  match k.instr with
  | .rxreg _ => some (performRxreg s core k)
  | .rxdereg _ => some (performRxdereg s core k)
  | .retn _ => (retnDone k).map fun c => (c, s)
  | .halo _ => (haloDone s k).map fun c => (c, s)
  | _ => none

/-- A CPYGG into the fabric window (R472): its packets go out, and it completes when all are acknowledged. -/
def fabricComplete (s : State) (core : Nat) (k : Cmd) : State :=
  if k.data.isEmpty then sendCpygg s core k
  else if unackedOf s k.id then s
  else finishCmd s core k k.stage

/-- What is left of a started command whose code is not known yet. -/
def completeCmd (s : State) (core : Nat) (k : Cmd) : State :=
  if isMatrix k.instr then matrixComplete s core k
  else if isSplat k.instr then endSplat s core k
  else if overFabric s core k then fabricComplete s core k
  else if isCopy k.instr then endCopy s core k
  else match performCmd s core k with
    | none => s
    | some (code, s) => finishCmd s core k code

/-- COMMAND_COMPLETION (R281): a started command performs what is left of it and completes with its code; a command whose
code is known completes with it. -/
def execCommandCompletion (core cmd : Nat) (s : State) : Host.Outcome State Fault Refusal :=
  .next (match cmdOf s core cmd with
  | none => s
  | some k =>
    match k.failed with
    | some code => if isMatrix k.instr then matrixComplete s core k else endCmd s core k code
    | none => if k.started then completeCmd s core k else s)

end Sys2Proof.Machine
end

