-- ==== Sys2Proof/Machine/Queues.lean ====
section
/-! DEFINITION. Package queues (R484-R489, R503, R504): acceptance, and the commands that a queue starts in order: launches
(R182, R189), graphs (R198-R201), copies (R202), cancels and closes. -/
namespace Sys2Proof.Machine

/-! ## Jobs -/

/-- A job table entry's fields (R489). -/
def parseJob (index : Nat) (b : List Byte) : Job where
  index := index
  asid := field b 0x00 2
  part := field b 0x02 1
  ceil := field b 0x03 1
  poisonTrap := (field b 0x04 1).testBit 1
  watchdog := (field b 0x04 1).testBit 2
  slice := if field b 0x08 4 = 0 then 2000 else field b 0x08 4
  root := field b 0x10 8
  jrec := BitVec.ofNat 64 (field b 0x18 8)
  pool := (List.range 4).map fun d => (field b (0x40 + 16 * d) 8, field b (0x48 + 16 * d) 8)

/-- The entry lets commands of a queue of partition `part` run (R489). -/
def jobOk (part index : Nat) (b : List Byte) : Bool :=
  let j := parseJob index b
  let flags := field b 0x04 1
  index ≤ 4095 && flags.testBit 0 && flags < 8 && j.part == part && j.ceil ≤ 3 && zeroBytes b 0x05 3 &&
    zeroBytes b 0x0C 4 && zeroBytes b 0x20 32 && (100 ≤ j.slice && j.slice ≤ 1000000) &&
    (j.root % 4096 == 0 && j.root < 2 ^ 44) && j.jrec.toNat % 32 == 0 && j.pool.all fun p => p.1 % 4096 == 0

/-- A job table entry, read coherently by a die (R489): its address; its bytes, and whether they are poisoned. -/
def jobAt (s : State) (die index : Nat) : Nat := (dieOf s die).jobtab.toNat + 128 * index
def jobEntry (s : State) (die index : Nat) : List Byte × Bool := readHome s (jobAt s die index) 128

/-- A record is final without DONE (R503): CANCELLED, WATCHDOG, INVALID or ABORTED; none while the read waits. -/
def recordStopped (s : State) (die : Nat) (j : Job) (who : Waiter) (r : DWord) : Option Bool × State :=
  if r = 0 then (some false, s)
  else match dieRead s (dieAgent die j) who (vaOf (r.toNat + 8)) 4 with
    | (some (b, _), s) => (some (3 ≤ leNat b && leNat b ≤ 6), s)
    | (none, s) => (none, s)

/-! ## Acceptance -/

/-- The address of position p of a command ring. -/
def ringAt (s : State) (q pos : Nat) : Nat := queueField s q 0x00 8 + 64 * (pos % queueField s q 0x08 4)

/-- An entry cannot run (R486, R489): it completes INVALID. -/
def entryBad (s : State) (q : Nat) (b : List Byte) (bad : Bool) (seq : Nat) (j : Job) (okJob : Bool) : Bool :=
  let kind := field b 0x08 1
  bad || field b 0x00 8 ≠ seq || !zeroBytes b 0x0A 6 || !zeroBytes b 0x20 32 || kind = 0 || 5 < kind || !okJob ||
    j.ceil < queueField s q 0x0C 1

/-- How an entry ends without running, if it does (R486, R489, R503); none while a read of its phase's or job's record
waits. -/
def endsOf (s : State) (q : Nat) (b : List Byte) (bad : Bool) (seq : Nat) (j : Job) (okJob : Bool) :
    Option (Option Status) × State :=
  let die := queueOwner s q
  if entryBad s q b bad seq j okJob then (some (some .invalid), s)
  else if 3 < field b 0x08 1 then (some none, s)
  else
    match recordStopped s die j (.queue q) (BitVec.ofNat 64 (field b 0x18 8)) with
    | (none, s) => (none, s)
    | (some true, s) => (some (some .cancelled), s)
    | (some false, s) =>
      match recordStopped s die j (.queue q) j.jrec with
      | (none, s) => (none, s)
      | (some stopped, s) => (some (if stopped then some .cancelled else none), s)

/-- Accept the next position of a queue (R486): the entry and its job are read, as an acquire at SYS scope, then ACC
advances. -/
def acceptOne (s : State) (q : Nat) : State :=
  let owner := queueOwner s q
  let pos := queueField s q 0x28 8
  let seq := (queueField s q 0x18 8 + pos) % 2 ^ 64
  let index := queueField s q 0x10 2
  let (jb, jbad) := jobEntry s owner index
  let okJob := !jbad && jobOk (q / 64) index jb
  let j := if okJob then parseJob index jb else noJob
  let s := acquireScope s (dieAgent owner j) 4
  let s := noteBeyond (noteBeyond s owner (ringAt s q pos)) owner (jobAt s owner index)
  let (b, bad) := readHome s (ringAt s q pos) 64
  match endsOf s q b bad seq j okJob with
  | (none, s) => s
  | (some ends, s) =>
    let phase : DWord := BitVec.ofNat 64 (field b 0x18 8)
    let c : Accepted := ⟨pos, j, BitVec.ofNat 64 (field b 0x00 8), field b 0x08 1, field b 0x09 1,
      BitVec.ofNat 64 (field b 0x10 8), phase, ends, false, 0⟩
    let s := if ends.isNone && field b 0x08 1 ≤ 3 then notePhase s j phase else s
    modQueue (putQueueField s q 0x28 8 (pos + 1)) q fun u => { u with accepted := u.accepted ++ [c] }

/-- Positions of an open queue wait that HALT does not stop (R485, R488). -/
def entriesWait (s : State) (q : Nat) : Bool :=
  queueOpen s q && !queueHaltBit s q && decide (queueField s q 0x28 8 < queueField s q 0x20 8)

/-- A member of a job's phase has completed and its count is still on its way: the job's next commands come after it, since
a member counts into the step that is current when it completes (R205, R189). -/
def memberPending (s : State) (job : Nat) : Bool := s.phaseEvents.any fun e => e.step.isNone && e.job.index == job

/-- The next position of a queue can be accepted: the command before it has completed, or is a launch whose workgroups
have all been dispatched (R182, R189; that acceptance waits for this is read from R488, log 24). -/
def mayAccept (s : State) (q : Nat) : Bool :=
  entriesWait s q && !memberPending s (queueField s q 0x10 2) && match (queueOf s q).accepted.getLast? with
    | none => true
    | some c => c.kind == 1 && c.runs != 0 && match tableGet s.launches (c.runs - 1) with
      | some l => allDispatched l
      | none => false

/-- A doorbell rings (R487): any die's is forwarded to the queue's owner. The next position is accepted when it can be; the
bell stays rung while positions wait. -/
def ringBell (s : State) (q : Nat) : State :=
  if q < 1024 then
    let s := noteBeyond s (queueOwner s q) (queueAt s q)
    let s := if mayAccept s q && !dieWaiting s (.queue q) then acceptOne s q else s
    modQueue s q fun u => { u with bell := entriesWait s q }
  else s

/-- QBELL (R487). -/
def execQbell (queue : Nat) (s : State) : Host.Outcome State Fault Refusal := .next (ringBell s queue)

/-- Set or clear HALTED in a queue's entry (R485, R488). -/
def setHalted (s : State) (q : Nat) (on : Bool) : State :=
  let f := queueField s q 0x0E 1
  let s := putQueueField s q 0x0E 1 (if on then f ||| 8 else f &&& 0xF7)
  modQueue s q fun u => { u with halted := on }

/-- QUEUE_HALTED (R488): HALT is seen, and ACC no longer changes. -/
def execQueueHalted (queue : Nat) (s : State) : Host.Outcome State Fault Refusal :=
  .next (if queue < 1024 && queueHaltBit s queue && !(queueOf s queue).halted then setHalted s queue true else s)

/-- HALT_CLEARED (R488): acceptance resumes. -/
def execHaltCleared (queue : Nat) (s : State) : Host.Outcome State Fault Refusal :=
  .next (if queue < 1024 && !queueHaltBit s queue && (queueOf s queue).halted then
    ringBell (setHalted s queue false) queue
  else s)

/-! ## The order of commands -/

/-- A command's previous command has completed (R189). -/
def prevDone (u : Queue) (c : Accepted) : Bool := !(u.accepted.any fun d => d.pos + 1 == c.pos)

/-- The command before this one is a launch whose workgroups have all been dispatched (R182, R189). -/
def prevDispatched (s : State) (u : Queue) (c : Accepted) : Bool :=
  match u.accepted.find? fun d => d.pos + 1 == c.pos with
  | some d => d.kind == 1 && d.runs != 0 && match tableGet s.launches (d.runs - 1) with
    | some l => allDispatched l
    | none => false
  | none => false

/-- A launch command whose record has been read and whose turn has come (R182, R189). -/
def mayOpen (s : State) (u : Queue) (c : Accepted) : Bool :=
  c.started && c.kind == 1 && c.runs != 0 && match tableGet s.launches (c.runs - 1) with
    | some l => !l.open_ && (prevDone u c || (l.lrec.overlap && !l.badRecord && prevDispatched s u c))
    | none => false

/-- The command on which a queue acts next. -/
def nextCommand (s : State) (q : Nat) : Option Accepted :=
  let u := queueOf s q
  u.accepted.find? fun c => !memberPending s c.job.index &&
    (mayOpen s u c || (!c.started && (prevDone u c || (c.kind == 1 && c.ends.isNone && prevDispatched s u c))))

/-- A command that is handled by a kind's event; one of no known kind goes with the launches. -/
def isKind (c : Accepted) (kind : Nat) : Bool := if 2 ≤ c.kind ∧ c.kind ≤ 5 then c.kind == kind else kind == 1

/-- Change a command. -/
def modCommand (s : State) (q pos : Nat) (g : Accepted → Accepted) : State :=
  modQueue s q fun u => { u with accepted := u.accepted.map fun c => if c.pos = pos then g c else c }

/-- A command's job and phase become RUNNING (R195, R489). -/
def startLevels (s : State) (q : Nat) (c : Accepted) : State :=
  let die := queueOwner s q
  startRecord (startRecord s die c.job c.job.jrec) die c.job c.phase

/-- A command starts, run by a launch, graph or copy. -/
def startCommand (s : State) (q : Nat) (c : Accepted) (id : Nat) : State :=
  startLevels (modCommand s q c.pos fun c => { c with started := true, runs := id + 1 }) q c

/-- A command ends without running: INVALID writes its completion entry; CANCELLED its counter record first (R503). -/
def endEarly (s : State) (q : Nat) (c : Accepted) (st : Status) : State :=
  if st = .cancelled then
    match commandRecord s q (.queue q) c with
    | (none, s) => s
    | (some r, s) => cancelCommand s q c r
  else completeCommand s q c.pos 0 st 0

/-- Run a queue's next command, when it is of a kind. -/
def onCommand (s : State) (q kind : Nat) (run : State → Accepted → State) : State :=
  match nextCommand s q with
  | none => s
  | some c =>
    if !isKind c kind || dieWaiting s (.queue q) then s
    else match c.ends with
      | some st => pumpAll (endEarly s q c st)
      | none => pumpAll (run s c)

/-! ## Launch commands -/

/-- A sparse COOP launch: whether it can be admitted is known when its leaves have been counted (R182, R185). -/
def Lrec.countsFirst (r : Lrec) : Bool := r.coop && r.sparse

/-- A launch's turn has come: INVALID, or its workgroups may be dispatched; with none to run it is DONE (R184, R195). Job and
phase of a sparse COOP launch become RUNNING once its leaves have been counted and can be admitted. -/
def openLaunch (s : State) (q id : Nat) (c : Accepted) : State :=
  match tableGet s.launches id with
  | none => s
  | some l =>
    if l.badRecord then closeLaunch s id .invalid
    else match phaseRead s l.owner l.job (.queue q) l.phase with
      | (none, s) => s
      | (some now, s) =>
        let s := if l.lrec.countsFirst && !(l.work.all (·.forwarded)) then s else startCommand s q c id
        checkLaunch (modLaunch s id fun l => { l with open_ := true, phaseCount := now, wrote := s.wrote }) id

/-- Start a launch command (R182, R189): its record is read once; without OVERLAP it then waits for its turn. -/
def startLaunch (s : State) (q : Nat) (c : Accepted) : State :=
  if c.started then openLaunch s q (c.runs - 1) c
  else
    let owner := queueOwner s q
    match readLrec s owner c.job (.queue q) c.arg with
    | (none, s) => s
    | (some (r, bad), s) =>
      let prio := queueField s q 0x0C 1
      let (id, s) := addLaunch s (newLaunch c.arg owner r c.seq c.job (.command q c.pos) c.phase prio bad false)
      let s := modCommand s q c.pos fun c => { c with started := true, runs := id + 1 }
      if prevDone (queueOf s q) c || (!bad && r.overlap) then openLaunch s q id c else s

/-- LAUNCH_COMMAND (R182). -/
def execLaunchCommand (queue : Nat) (s : State) : Host.Outcome State Fault Refusal :=
  .next (onCommand s queue 1 fun s c => startLaunch s queue c)

/-! ## Graph commands -/

/-- The node in 32 bytes, with the first edges of its two lists (R198). -/
def parseNode (b : List Byte) : Node × Nat × Nat × Nat × Nat :=
  (⟨field b 0x00 1, field b 0x02 2, [], [], BitVec.ofNat 64 (field b 0x10 8), .waiting, 0, false⟩,
    field b 0x04 4, field b 0x08 2, field b 0x0C 4, field b 0x0A 2)

/-- A node's own fields are well formed (R198, R201). -/
def nodeOk (b : List Byte) : Bool :=
  let kind := field b 0x00 1
  kind ≤ 4 && zeroBytes b 0x01 1 && zeroBytes b 0x18 8 && (kind == 2 || (field b 0x0C 4 == 0 && field b 0x0A 2 == 0)) &&
    (kind != 2 || field b 0x10 8 % 4 == 0)

/-- Remove the nodes that nothing left points to, over and over; what stays lies on or behind a cycle. -/
def peelNodes (nodes : List Node) : Nat → List Nat → List Nat
  | 0, left => left
  | fuel + 1, left =>
    let targets := left.flatMap fun i => match nodes[i]? with
      | some n => n.succ0 ++ n.succ1
      | none => []
    peelNodes nodes fuel (left.filter fun i => targets.contains i)

/-- The edges of a graph are well formed (R198): NPRED counts them, they name nodes, and they form no cycle. -/
def edgesOk (nodes : List Node) : Bool :=
  let all := nodes.flatMap fun n => n.succ0 ++ n.succ1
  all.all (· < nodes.length) &&
    ((List.range nodes.length).all fun i => ((nodes[i]?).map fun n => n.npred).getD 0 == (all.filter (· == i)).length) &&
    (peelNodes nodes nodes.length (List.range nodes.length)).isEmpty

/-- Read `n` edges from index `first`. -/
def readEdges (s : State) (ag : Agent) (who : Waiter) (edges first n : Nat) : Option (List Nat) × State :=
  if n = 0 then (some [], s)
  else match dieRead s ag who (vaOf (edges + 4 * first)) (4 * n) with
    | (none, s) => (none, s)
    | (some (b, _), s) => (some ((List.range n).map fun k => field b (4 * k) 4), s)

/-- Read a graph's nodes with their edges: the nodes and whether all are well formed; none while a read waits. -/
def readNodes (s : State) (ag : Agent) (who : Waiter) (nodes edges : Nat) : List Nat → Option (List Node × Bool) × State
  | [] => (some ([], true), s)
  | i :: rest =>
    match dieRead s ag who (vaOf (nodes + 32 * i)) 32 with
    | (none, s) => (none, s)
    | (some (b, bad), s) =>
      let (n, e0, n0, e1, n1) := parseNode b
      match readEdges s ag who edges e0 n0 with
      | (none, s) => (none, s)
      | (some l0, s) =>
        match readEdges s ag who edges e1 n1 with
        | (none, s) => (none, s)
        | (some l1, s) =>
          match readNodes s ag who nodes edges rest with
          | (none, s) => (none, s)
          | (some (ns, ok), s) => (some ({ n with succ0 := l0, succ1 := l1 } :: ns, ok && !bad && nodeOk b), s)

/-- The work-graph queues of a graph are in use from its start (R204). -/
def openQueues (s : State) (gid : Nat) (g : Graph) : State :=
  (List.range g.nodes.length).foldl (fun s i => match g.nodes[i]? with
    | some n =>
      if n.kind = 3 then
        let q : NodeQueue := ⟨gid, i, n.arg, homeOf s g.owner g.job n.arg, g.job, 0, [], 0⟩
        { s with nodeQueues := tablePut s.nodeQueues s.nextId q, nextId := s.nextId + 1 }
      else s
    | none => s) s

/-- Start a graph command (R198-R200): INVALID, or RUNNING with its first nodes. A header whose counter record address is 0
or no multiple of 32 makes the graph INVALID with no record written: R198 names no outcome (DESIGN CHOICE, log 64). -/
def startGraph (s : State) (q : Nat) (c : Accepted) : State :=
  let owner := queueOwner s q
  let ag := dieAgent owner c.job
  match dieRead s ag (.queue q) (vaOf c.arg.toNat) 32 with
  | (none, s) => s
  | (some (h, bad), s) =>
    let r : DWord := BitVec.ofNat 64 (field h 0x00 8)
    let n := field h 0x08 4
    let headOk := !bad && recordOk r && 1 ≤ n && n ≤ 4096 && zeroBytes h 0x0C 4
    match (if headOk then readNodes s ag (.queue q) (field h 0x10 8) (field h 0x18 8) (List.range n)
        else (some ([], false), s)) with
    | (none, s) => s
    | (some (nodes, ok), s) =>
      if ok && edgesOk nodes then
        let gid := s.nextId
        let g : Graph := ⟨owner, r, c.seq, c.job, .command q c.pos, c.phase, queueField s q 0x0C 1, nodes, 0, .running⟩
        let s := startCommand { s with nextId := gid + 1 } q c gid
        let s := putStatus (putSeq s owner c.job r c.seq) owner c.job r .running
        openQueues { s with graphs := tablePut s.graphs gid g } gid g
      else
        let s := putCount (putSeq s owner c.job r c.seq) owner c.job r 0
        completeCommand (putStatus s owner c.job r .invalid) q c.pos 0 .invalid 0 r

/-- GRAPH_COMMAND (R198). -/
def execGraphCommand (queue : Nat) (s : State) : Host.Outcome State Fault Refusal :=
  .next (onCommand s queue 2 fun s c => startGraph s queue c)

/-! ## Copies -/

/-- Start a copy command (R202, R484). -/
def startCopyCommand (s : State) (q : Nat) (c : Accepted) : State :=
  let owner := queueOwner s q
  match dieRead s (dieAgent owner c.job) (.queue q) (vaOf c.arg.toNat) 32 with
  | (none, s) => s
  | (some (b, _), s) =>
    let dst : DWord := BitVec.ofNat 64 (field b 8 8)
    let id := s.nextId
    let s := startCommand { s with nextId := id + 1 } q c id
    let copy : Copy := ⟨.command q c.pos, c.job, BitVec.ofNat 64 (field b 0 8), dst, field b 16 8, homeOf s owner c.job dst⟩
    { s with copies := tablePut s.copies id copy }

/-- COPY_COMMAND (R202). -/
def execCopyCommand (queue : Nat) (s : State) : Host.Outcome State Fault Refusal :=
  .next (onCommand s queue 3 fun s c => startCopyCommand s queue c)

/-- Perform the bytes of a copy whose ranges translate (R202): an acquire at PKG scope, then the bytes in no order. -/
def moveBytes (s : State) (ag : Agent) (src dst n : Nat) : State :=
  let (b, ok, s) := engRead (acquireScope s ag 3) ag src n
  let d : Int := (dst : Int) - src
  let (b, s) := if d ≠ 0 ∧ -(n : Int) < d ∧ d < n then overlapBytes s d b else (b, s)
  (engWrite s ag ok dst b).2

/-- COPY_NODE_COMPLETION (R202). A translation fault makes the copy wait (R421). -/
def execCopyNodeCompletion (copy : Nat) (s : State) : Host.Outcome State Fault Refusal :=
  .next (match tableGet s.copies copy with
  | none => s
  | some c =>
    let ag := { dieAgent (c.home s) c.job with poisonTrap := false }
    let src := vaOf c.src.toNat
    let dst := vaOf c.dst.toNat
    if dieWaiting s (.copy copy) then s
    else
      match xlateRange s ag src c.len .read with
      | (.error (va, kind), s) => dieFault s ag (.copy copy) va kind accRead
      | (.ok _, s) =>
        match xlateRange s ag dst c.len .write with
        | (.error (va, kind), s) => dieFault s ag (.copy copy) va kind accWrite
        | (.ok _, s) =>
          let s := moveBytes { s with copies := tableDel s.copies copy } ag src dst c.len
          pumpAll (match c.origin with
          | .command q pos =>
            let (n, s) := freeCount s
            completeCommand s q pos n .done 0
          | .node g n => nodeDone s g n))

/-! ## Cancel and close commands -/

/-- The completion of a cancel or close command, once every record it affects is final (R504); none while a read of its
level's record waits. -/
def actedOn (q : Nat) (c : Accepted) : Option Bool × State → State
  | (none, s) => s
  | (some true, s) => completeCommand s q c.pos 1 .done 0 0 true
  | (some false, s) => completeCommand s q c.pos 0 .invalid 0

/-- CANCEL_COMMAND (R504): what completes in the same cycle completes first (R197). -/
def execCancelCommand (queue : Nat) (s : State) : Host.Outcome State Fault Refusal :=
  .next (onCommand s queue 4 fun s c =>
    let die := queueOwner s queue
    let s := startRecord s die c.job c.job.jrec
    actedOn queue c (if c.level ≤ 3 then cancelAfter s die c.job (.queue queue) c.level c.arg else (some false, s)))

/-- CLOSE_COMMAND (R504). -/
def execCloseCommand (queue : Nat) (s : State) : Host.Outcome State Fault Refusal :=
  .next (onCommand s queue 5 fun s c =>
    let die := queueOwner s queue
    actedOn queue c (closeLevel (startRecord s die c.job c.job.jrec) die c.job (.queue queue) c.level c.arg))

end Sys2Proof.Machine
end

