-- ==== Sys2Proof/Machine/Place.lean ====
section
/-! DEFINITION. Placing a workgroup (R120, R121, R145, R183, R186, R193): strips on slices, scratch windows and slots on
cores, parts on the cores of one sector, and the state in which a workgroup starts. -/
namespace Sys2Proof.Machine

/-! ## Units -/

/-- The cores that a dispatch target names: a cluster for SPAN ≤ 4, else a sector (R187). -/
def targetCores (die span target : Nat) : List Nat :=
  if span ≤ 4 then (if target < 24 then clusterCores die target else [])
  else if target < 4 then sectorCores die target else []

/-- The sector of a core within its die. -/
def sectorOf (core : Nat) : Nat := core % 96 / 24

/-- The partition owns a core's sector. -/
def ownsCore (s : State) (part core : Nat) : Bool := s.parts.getD (core / 96 * 4 + sectorOf core) 16 == part

/-! ## What a core has free -/

/-- The lowest place of `n` units in [0, total) outside the ranges in use. -/
def firstFit (used : List (Nat × Nat)) (n total : Nat) : Option Nat :=
  let ok := fun (c : Nat) => c + n ≤ total && !(used.any fun u => c < u.2 && u.1 < c + n && n != 0)
  ((0 :: used.map fun u => u.2).filter ok).foldl (fun (b : Option Nat) c => match b with
    | some x => some (min x c)
    | none => some c) none

/-- The parts of resident workgroups on a core, with their launches' records. -/
def partsOn (s : State) (core : Nat) : List (Part × Lrec) :=
  s.wgs.flatMap fun w => match tableGet s.launches w.2.launch with
    | some l => (w.2.parts.filter fun p => p.core == core).map fun p => (p, l.lrec)
    | none => []

/-- Scratch footprints (R219) and slot ranges of a core that are in use. -/
def scratchUsed (s : State) (core : Nat) : List (Nat × Nat) :=
  (partsOn s core).filterMap fun p =>
    if p.2.scratch = 0 then none else some (p.1.scratch, p.1.scratch + footprint p.2.scratch)
def slotsUsed (s : State) (core : Nat) : List (Nat × Nat) :=
  (partsOn s core).filterMap fun p => if p.2.acc = 0 then none else some (p.1.slots, p.1.slots + p.2.acc)

/-- Strips on a slice of a core, and on a bay. -/
def stripsOnSlice (s : State) (core k : Nat) : List (Nat × Strip) :=
  s.strips.filter fun p => p.2.coreId == core && p.2.sliceKey == k
def bayRegs (s : State) (core bay : Nat) : Nat :=
  s.strips.foldl (fun n p => if p.2.coreId = core ∧ p.2.bay = bay then n + sregsOf s p.2 else n) 0

/-- Claimed rows of a slice of a core (R144). -/
def sliceClaimed (s : State) (core k : Nat) : Nat :=
  (stripsOnSlice s core k).foldl (fun n q => n + max q.2.rows q.2.floor) 0

/-- No claim waits on a slice, or one of a test's own stands at its head, which goes with the strip that it admits (R145). -/
def sliceOpen (s : State) (own : Claim → Bool) (core k : Nat) : Bool := match claimsOf s core k with
  | [] => true
  | c :: _ => own c

/-- A slice can take a strip (R121, R145): its bay has the s registers, it has a strip slot, no claim of another waits, and it
has the rows. -/
def sliceFits (s : State) (own : Claim → Bool) (core floor sregs k : Nat) : Bool :=
  !bayFenced s core (k / 4) && bayRegs s core (k / 4) + sregs ≤ 4096 && (stripsOnSlice s core k).length < 8 &&
    sliceOpen s own core k && sliceClaimed s core k + floor ≤ 384

/-- The state with rows and claims left out of account: no strip claims a row, and no claim waits (R145). -/
def unclaimed (s : State) : State := { mapCores s fun c => { c with claims := [] } with
    strips := s.strips.map fun p => (p.1, { p.2 with v := [], flights := [], floor := 0 }) }

/-- The free strip slot of a slice. -/
def freeSlot (s : State) (core k : Nat) : Nat :=
  ((List.range 8).find? fun j => !((stripsOnSlice s core k).any fun p => p.2.slot == j)).getD 0

/-! ## The state of a strip at its start -/

/-- s0:s1 and, for a consumer workgroup, s2-s5 (R183). -/
def startRegs (r : Lrec) (ring pos count : Nat) : Table Word :=
  let ws := wordsOf 2 r.param.toNat ++ wordsOf 2 ring ++ [BitVec.ofNat 32 pos, BitVec.ofNat 32 count]
  cellPutAll (0 : Word) [] 0 ws

/-- A strip as R183 starts it. -/
def freshStrip (wg index core k slot : Nat) (r : Lrec) (s : Table Word) : Strip where
  wg := wg
  index := index
  die := core / 96
  core := core % 96
  bay := k / 4
  slice := k % 4
  slot := slot
  strands := List.replicate 16 ⟨BitVec.ofNat 48 r.code.toNat, .runnable, 0, false, false⟩
  v := []
  s := s
  sPoison := []
  status := 0
  fpflags := 0
  tokens := List.replicate 8 ⟨0, 0⟩
  flights := []
  floor := r.floor
  cause := 0
  mask := 0
  trapPc := 0
  trapWord := 0
  info0 := 0
  info1 := 0
  asyncs := []
  waits := []
  noted := []
  zeroFetch := false
  fetchX := 0
  yieldUntil := 0
  lease := 0

/-! ## Placing -/

/-- A strip to be placed: the strip but for its place, its s registers and its floor. -/
structure Placing where
  /-- Its identifier, if it has one. -/
  id : Option Nat
  strip : Strip
  sregs : Nat
deriving DecidableEq, Repr

/-- Place a strip on a slice of a core; its admission claim leaves the queue (R145). -/
def placeAt (s : State) (own : Claim → Bool) (core : Nat) (p : Placing) (k : Nat) : State :=
  let q := { p.strip with
    die := core / 96
    core := core % 96
    bay := k / 4
    slice := k % 4
    slot := freeSlot s core k }
  let s := modCore s core fun c => { c with claims := tableMod c.claims k fun l => match l with
    | a :: t => if own a then t else l
    | [] => [] }
  match p.id with
  | some id => putStrip s id q
  | none => { putStrip s s.nextId q with nextId := s.nextId + 1 }

/-- The slices that are tried for a strip: every one that takes it, for a saved strip; the strips of a new workgroup are
alike, and for them the first is as good as any. -/
def slicesFor (s : State) (own : Claim → Bool) (core : Nat) (p : Placing) : List Nat :=
  let l := (List.range 48).filter fun k => sliceFits s own core p.strip.floor p.sregs k
  if p.id.isSome then l else l.take 1

/-- Place the strips of a part on a core, in a way that what is still to place (`go`) allows; none when there is none. -/
def placeStrips {α : Type} (own : Claim → Bool) (core : Nat) (go : State → Option α) : List Placing → State → Option α
  | [], s => go s
  | p :: rest, s => (slicesFor s own core p).findSome? fun k => placeStrips own core go rest (placeAt s own core p k)

/-- A part on a core: its strips, its window, whose base is a multiple of 1 KiB as every footprint is (R219), and its
slots. -/
def placePart {α : Type} (own : Claim → Bool) (r : Lrec) (core : Nat) (l : List Placing) (go : Part → State → Option α)
    (s : State) : Option α :=
  match firstFit (scratchUsed s core) (footprint r.scratch) 524288, firstFit (slotsUsed s core) r.acc 32 with
  | some base, some slot => placeStrips own core (go ⟨core, base, slot⟩) l s
  | _, _ => none

/-- The parts of a workgroup, each on a core of its own (R186). -/
def placeParts {α : Type} (own : Claim → Bool) (r : Lrec) (go : List Part → State → Option α) :
    List (List Placing) → List Nat → State → Option α
  | [], _, s => go [] s
  | l :: rest, cores, s => cores.findSome? fun c =>
      placePart own r c l (fun p => placeParts own r (fun ps => go (p :: ps)) rest (cores.filter (· != c))) s

/-- The strips of a new workgroup, part by part. -/
def newStrips (wg : Nat) (r : Lrec) (regs : Table Word) : List (List Placing) :=
  (List.range r.span).map fun j =>
    ((List.range r.strips).filter fun k => partOfStrip r k == j).map fun k => ⟨none, freshStrip wg k 0 0 0 r regs, r.sregs⟩

/-! ## Admission claims -/

/-- A claim was placed for an admission (R145). -/
def ownClaim (who : Admission) : Claim → Bool
  | .admission _ w _ _ => w == who
  | .grow _ _ _ _ _ => false

/-- The strips that rows or earlier claims keep out (R145), each with its workgroup, core, slice and floor: those of a placement
`s'` made without regard to them whose slice is not open or lacks the rows for it and those before it. -/
def lateStrips (s s' : State) : List (Nat × Nat × Nat × Nat) :=
  let new := (s'.strips.filter fun p => (tableGet s.strips p.1).isNone).map fun p => p.2
  (List.range new.length).filterMap fun n => (new[n]?).bind fun p =>
    let rows := ((new.take (n + 1)).filter fun q => q.coreId == p.coreId && q.sliceKey == p.sliceKey).foldl (fun m q => m + q.floor) 0
    if (claimsOf s p.coreId p.sliceKey).isEmpty && sliceClaimed s p.coreId p.sliceKey + rows ≤ 384 then none
    else some (p.wg, p.coreId, p.sliceKey, p.floor)

/-- Claims that a test picks wait already. -/
def claimWaits (s : State) (own : Claim → Bool) : Bool := s.cores.any fun c => c.2.claims.any fun q => q.2.any own

/-- Place the admission claims of workgroups that only rows and earlier claims keep out (R145), given a placement without
regard to them, if there is one; `who` names the admission of each. -/
def claimFor (s : State) (own : Claim → Bool) (who : Nat → Wg → Admission) (relaxed : Option State) : State :=
  match relaxed with
  | none => s
  | some s' =>
    if claimWaits s own then s
    else (lateStrips s s').foldl (fun s a => match tableGet s'.wgs a.1 with
      | some w => placeClaim { s with nextId := s.nextId + 1 } a.2.1 a.2.2.1 (.admission s.nextId (who a.1 w) a.2.2.2 s.clk)
      | none => s) s

/-! ## Scratch and slots as a workgroup finds them -/

/-- The job of the last occupant of a unit. -/
def lastJob (l : List (Nat × Nat × Nat)) (a : Nat) : Option Nat :=
  (l.find? fun r => r.1 ≤ a && a < r.2.1).map fun r => r.2.2

/-- What a unit of a new window keeps (R183): nothing after another job, else nothing or what was left. -/
def keepsLeft (l : List (Nat × Nat × Nat)) (lo hi job : Nat) (keep : Bool) (a : Nat) : Bool :=
  !(lo ≤ a && a < hi) || (keep && lastJob l a == some job)

/-- Ready a core for a workgroup (R183, R193): caches, window and slots. -/
def readyCore (s : State) (r : Lrec) (job asid : Nat) (p : Part) : State :=
  let (keep, s) := if (coreOf s p.core).scratchLeft.isEmpty && (coreOf s p.core).accLeft.isEmpty then (false, s) else s.choose
  let s := dropWalker (dropAllRc s p.core) p.core
  let s := dropRdcJob s (p.core / 96) asid fun _ => true
  let hi := p.scratch + r.scratch
  let top := p.slots + r.acc
  modCore s p.core fun c => { c with
    ic := []
    scratch := c.scratch.filter fun b => keepsLeft c.scratchLeft p.scratch hi job keep b.1
    scratchPoison := c.scratchPoison.filter fun w => keepsLeft c.scratchLeft p.scratch hi job keep (4 * w)
    acc := c.acc.filter fun e => keepsLeft c.accLeft p.slots top job keep (e.1 / 2048)
    accPoison := c.accPoison.filter fun e => keepsLeft c.accLeft p.slots top job keep (e / 2048) }

/-! ## Residency -/

/-- A launch is resident on a die from now on (R428): time without residency does not count. -/
def comeBack (s : State) (launch die : Nat) : State :=
  modLaunch s launch fun l => { l with work := listMod l.work die fun w => match w.away with
    | some t => { w with beat := w.beat + (s.clk - t), away := none }
    | none => w }

/-- The job's slice clock on a die starts with its first resident workgroup (R431). -/
def startSlice (s : State) (job die : Nat) : State :=
  if (dieOf s die).slices.any fun x => x.job == job then s
  else modDie s die fun d => { d with slices := d.slices ++ [⟨job, s.clk⟩] }

/-! ## The start of a workgroup -/

/-- What a workgroup of a launch is: its indices, the records of a consumer, and its ordinal. -/
structure WgPlan where
  wg0 : Nat
  wg1 : Nat
  wg2 : Nat
  leaf : Nat
  records : Nat × Nat
  ring : Nat
  cap : Nat
  ordinal : Nat
deriving DecidableEq, Repr

/-- %leaf of the workgroups of a dense launch (R23). -/
def noLeaf : Nat := 0xFFFFFFFF

/-- The plan of workgroup or leaf `w` of a launch (R184, R185). -/
def planOf (r : Lrec) (w : Nat) : WgPlan :=
  if r.sparse then ⟨w, 0, 0, w, (0, 0), 0, 0, w⟩
  else ⟨w % r.g0, w / r.g0 % r.g1, w / (r.g0 * r.g1), noLeaf, (0, 0), 0, 0, w⟩

/-- The s registers of a plan's strips (R183). -/
def planRegs (r : Lrec) (w : WgPlan) : Table Word :=
  if w.records.2 = 0 then startRegs r 0 0 0 else startRegs r w.ring (w.records.1 % w.cap) w.records.2

/-- A log doorbell that has rung is served by an acquire at SYS scope (R464). -/
def serveTi (s : State) (die : Nat) : State := if (dieOf s die).tiPending then applyTi s die else s

/-- A placed workgroup starts (R186, R193): all of its strips are resident at once, an acquire at SYS scope on each core. -/
def startWg (s : State) (id die launch : Nat) (l : Launch) (parts : List Part) : State :=
  let s := modWg s id fun g => { g with parts := parts }
  let s := serveTi s die
  let s := parts.foldl (fun s p => readyCore s l.lrec l.job.index l.job.asid p) s
  runLaunch (comeBack (startSlice s l.job.index die) launch die) launch

/-- Place a workgroup on the given cores in a way that what is still to place (`go`) allows; none when there is none. -/
def placeWgThen {α : Type} (own : Claim → Bool) (die launch : Nat) (l : Launch) (cores : List Nat) (w : WgPlan)
    (go : State → Option α) (s : State) : Option α :=
  let id := s.nextId
  let r := l.lrec
  let mine := cores.filter (ownsCore s l.job.part)
  let n := fun x => BitVec.ofNat 32 x
  let g : Wg := ⟨launch, n w.wg0, n w.wg1, n w.wg2, n w.leaf, die, sectorOf (mine.headD 0), [], [], w.records, w.ordinal, none⟩
  placeParts own r (fun parts s => go (startWg s id die launch l parts)) (newStrips id r (planRegs r w)) mine
    { s with nextId := id + 1, wgs := tablePut s.wgs id g }

/-- Place a workgroup on the given cores, or nothing (R186). -/
def placeWg (s : State) (own : Claim → Bool) (die launch : Nat) (l : Launch) (cores : List Nat) (w : WgPlan) : Option State :=
  placeWgThen own die launch l cores w some s

end Sys2Proof.Machine
end

