-- ==== Sys2Proof/Machine/Images.lean ====
section
/-! DEFINITION. Saved workgroups (R432, R434, R439): where their images could be placed, with the commands, escrow entries and
inboxes that come back with them, and whose turn it is among saved and unstarted work (R188, R431). -/
namespace Sys2Proof.Machine

/-! ## What comes back with an image -/

/-- The cores that hosted and that host the parts of an image: (old, new). -/
abbrev Moves := List (Nat × Nat)

/-- The mask of a CPYMC after a move (R434), and the number of its bits that named a core without a part. -/
def moveMask (home mask : Nat) (mv : Moves) : Nat × Nat :=
  let named := maskCores home mask
  (mv.foldl (fun n m => if named.contains m.1 then n + 2 ^ (m.2 % 24) else n) 0,
    (named.filter fun c => !(mv.any fun m => m.1 == c)).length)

/-- A saved command as it re-enters the scoreboard of its part's new core. -/
def movedCmd (old : Part) (p : Part) (mv : Moves) (k : Cmd) : Cmd :=
  let abs := fun g : Region => let b := if g.slot then p.slots else p.scratch
    (⟨g.slot, g.lo + b, g.hi + b⟩ : Region)
  let k := { k with reads := k.reads.map abs, writes := k.writes.map abs }
  match k.instr with
  | .cpymc _ =>
    let (mask, lost) := moveMask old.core k.ops.nc mv
    { k with ops := { k.ops with c := [[BitVec.ofNat 32 mask]] }, data := [k.data.headD 0 + lost] }
  | _ => k

/-- A command re-enters the scoreboards (R439, step 3): its own core's, and for a CPYMC those of its legs. -/
def enterSaved (s : State) (core : Nat) (k : Cmd) : State :=
  let s := modCore s core fun c => { c with rsb := c.rsb ++ [k] }
  match k.instr with
  | .cpymc _ =>
    ((maskCores core k.ops.nc).filter fun l => l != core && k.ops.bAt 1 != 0).foldl (fun s l => match cmdBase s k.wg l with
      | some base => modCore s l fun c => { c with rsb := c.rsb ++
          [{ k with reads := [], writes := windowRange base (k.ops.bAt 0) (k.ops.bAt 1), shadow := true }] }
      | none => s) s
  | _ => s

/-- The key of a restored escrow entry on a core: its own number, apart from the core's entries (R394). -/
def restoredKey (c : Core) (n : Nat) (e : Escrow) : Nat :=
  let first := n % 32 + 32 * (1 + e.origin)
  (((List.range 33).map fun k => first + 32 * 512 * k).find? fun key => (tableGet c.escrow key).isNone).getD first

/-- Reopen an escrow entry: GEN is unchanged, and its deadline goes on with what was left (R394). -/
def reopenEscrow (s : State) (core n since : Nat) (e : Escrow) : State :=
  let e := { e with deadline := e.deadline.map fun d => s.clk + (d - since) }
  modCore s core fun c => { c with escrow := tablePut c.escrow (restoredKey c n e) e }

/-- An inbox is resident again, in a free slot of its part's new core (R394); a core has 8 (`unitsFit`). -/
def reopenInbox (s : State) (wg core : Nat) (b : Inbox) : State :=
  let l := (coreOf s core).inboxes
  let slot := ((List.range (l.length + 1)).find? fun n => (tableGet l n).isNone).getD l.length
  let s := modCore s core fun c => { c with inboxes := tablePut c.inboxes slot { b with wg := wg } }
  mapDies s fun d => { d with directory := d.directory.map fun e =>
    if e.ident = b.ident then { e with die := core / 96, core := core % 96, slot := slot, resident := true } else e }

/-- The scoreboards, escrow entries and inbox slots of the new cores hold what the image brings. -/
def unitsFit (s : State) (parts : List Part) : Bool := parts.all fun p =>
  let c := coreOf s p.core
  c.rsb.length ≤ 64 && (c.escrow.filter fun e => e.2.st != .free).length ≤ 32 && c.inboxes.length ≤ 8

/-- Re-enter the commands, escrow entries and inboxes of an image (R439, step 3). -/
def reenter (s : State) (m : Image) (parts : List Part) : State :=
  let coreAt := fun j => (parts[j]?.map fun p => p.core).getD 0
  let mv : Moves := (m.wg.parts.zip parts).map fun q => (q.1.core, q.2.core)
  let s := m.cmds.foldl (fun s k => match m.wg.parts[k.1]?, parts[k.1]? with
    | some old, some p => enterSaved s p.core (movedCmd old p mv k.2)
    | _, _ => s) s
  let s := m.escrow.foldl (fun s e => reopenEscrow s (coreAt e.1) e.2.1 m.savedAt e.2.2) s
  m.inboxes.foldl (fun s b => reopenInbox s m.wgId (coreAt b.2.part) b.2) s

/-! ## Placing images -/

/-- Strip indices of part j (R186). -/
def partIndices (r : Lrec) (j : Nat) : List Nat := (List.range r.strips).filter fun k => partOfStrip r k == j

/-- The strips of an image as they are to be placed, part by part. -/
def imagePlacings (m : Image) (la : Launch) (now : Nat) : List (List Placing) :=
  (List.range la.lrec.span).map fun j => (partIndices la.lrec j).filterMap fun k =>
    (m.strips.find? fun p => p.2.index == k).map fun p =>
      ⟨some p.1, { p.2 with
        v := []
        flights := p.2.flights.map fun f => { f with staged := false }
        yieldUntil := now + (p.2.yieldUntil - m.savedAt) }, la.lrec.sregs⟩

/-- The claims of saved workgroups (R145). -/
def restoreOwn (wgs : List Nat) : Claim → Bool
  | .admission _ (.restore w _) _ _ => wgs.contains w
  | _ => false

/-- Place an image on a sector of its die with what re-enters its cores (R439), in a way that what is still to place (`go`)
allows; none when there is none. -/
def placeImage {α : Type} (own : Claim → Bool) (la : Launch) (m : Image) (target : Nat) (go : List Part → State → Option α)
    (s : State) : Option α :=
  let cores := (targetCores m.wg.die 16 target).filter (ownsCore s la.job.part)
  let g := { m.wg with parts := [], sector := target, saving := none }
  placeParts own la.lrec (fun parts s => go parts (reenter (modWg s m.wgId fun g => { g with parts := parts }) m parts))
    (imagePlacings m la s.clk) cores { s with wgs := tablePut s.wgs m.wgId g }

/-- Place images together, each on one of its targets, where the cores hold all that comes back: the state, and the parts of
each. -/
def placeImages (own : Claim → Bool) (la : Launch) : List (Image × List Nat) → List (Image × List Part) → State →
    Option (State × List (Image × List Part))
  | [], placed, s => if placed.all fun d => unitsFit s d.2 then some (s, placed) else none
  | (m, targets) :: rest, placed, s => targets.findSome? fun t =>
      placeImage own la m t (fun parts s => placeImages own la rest (placed ++ [(m, parts)]) s) s

/-- An image's VERSION is this device's (R436). -/
def versionOk (s : State) (m : Image) : Bool := leNat (readHome s m.addr 4).1 == 1

/-- Images of all dies. -/
def allImages (s : State) : List Image := s.dies.flatMap fun d => d.images

/-- The images restored together with one (R432). -/
def restoreSet (s : State) (m : Image) (la : Launch) : List Image :=
  if la.lrec.coop then (allImages s).filter fun i => i.wg.launch == m.wg.launch else [m]

/-! ## Turns -/

/-- The workgroup of an image could come back at once, with those that come back with it: it is the first of its launch to do
so, and its die takes it (R432, R439). -/
def imageReady (s : State) (m : Image) : Bool := match tableGet s.launches m.wg.launch with
  | none => false
  | some la =>
    let set_ := restoreSet s m la
    (((dieOf s m.wg.die).images.find? fun i => i.wg.launch == m.wg.launch).any fun i => i.wgId == m.wgId) &&
      !dieWaiting s (.launch m.wg.launch) && set_.all (versionOk s) &&
      (placeImages (restoreOwn (set_.map fun i => i.wgId)) la (set_.map fun i => (i, List.range 4)) [] s).isSome

/-- A job's place in the order in which slices have expired on a die (R431); 0 for a job whose slice has not. -/
def jobRank (s : State) (die job : Nat) : Nat :=
  let l := (dieOf s die).expired
  if l.contains job then l.findIdx (· == job) + 1 else 0

/-- Work of a job at a priority comes before another's: a higher priority, or an equal one of another job whose turn it is
(R188, R431). -/
def aheadOf (s : State) (die job prio job' prio' : Nat) : Bool :=
  prio' < prio || (prio == prio' && job != job' && jobRank s die job < jobRank s die job')

/-- A saved workgroup of a die comes before work of a job at a priority. -/
def imageAhead (s : State) (die job prio : Nat) : Bool := (dieOf s die).images.any fun m =>
  (match tableGet s.launches m.wg.launch with
    | some la => aheadOf s die la.job.index la.prio job prio
    | none => false) && imageReady s m

end Sys2Proof.Machine
end

