-- ==== Sys2Proof/Machine/DispatchWork.lean ====
section
/-! DEFINITION. The dispatchers at work (R184-R194, R203, R204, R462, R487): a launch forwarded to a die, workgroups dispatched
in priority and queue order, stealing, admission claims (R145, R147), consumers of work-graph queues, and STRIP_RETIREMENT. -/
namespace Sys2Proof.Machine

/-! ## A launch reaches a die -/

/-- Read the words of a bitmap from number `k` on, each once (R185); none while a read waits on a fault. -/
def readWords (s : State) (ag : Agent) (who : Waiter) (bitmap k : Nat) : Nat → Option (List (Nat × Nat)) × State
  | 0 => (some [], s)
  | n + 1 =>
    match dieRead s ag who (vaOf (bitmap + 8 * k)) 8 with
    | (none, s) => (none, s)
    | (some (b, _), s) =>
      match readWords s ag who bitmap (k + 1) n with
      | (none, s) => (none, s)
      | (some l, s) => (some ((k, leNat b) :: l), s)

/-- The leaves of a range whose bits are set, ascending. -/
def activeLeaves (words : List (Nat × Nat)) (lo hi : Nat) : List Nat :=
  words.flatMap fun w => (List.range 64).filterMap fun i =>
    let leaf := 64 * w.1 + i
    if w.2.testBit i && lo ≤ leaf && leaf < hi then some leaf else none

/-- The workgroups of a die of a launch (R184, R185): index ranges; none while a read waits on a fault. A descriptor that has
become invalid or poisoned since the launch record was checked gives the die no workgroup: the spec names no outcome (DESIGN
CHOICE, log 51). -/
def subGrid (s : State) (die launch : Nat) (l : Launch) : Option (List (Nat × Nat)) × State :=
  let e := l.lrec.range.getD die (0, 0)
  if !l.lrec.sparse then (some [e], s)
  else
    let ag := dieAgent die l.job
    let s := acquireScope s ag 3
    match dieRead s ag (.launch launch) (vaOf l.lrec.vdesc.toNat) 128 with
    | (none, s) => (none, s)
    | (some (b, bad), s) =>
      let v := parseVdesc 0 b
      if bad || !vdescOk b v then (some [], s)
      else
        let h := v.range.getD die (0, 0)
        let lo := max e.1 h.1
        let hi := min e.2 h.2
        let first := lo / 64
        match readWords s ag (.launch launch) v.bitmap first (if lo < hi then (hi + 63) / 64 - first else 0) with
        | (none, s) => (none, s)
        | (some ws, s) => (some ((activeLeaves ws lo hi).map fun n => (n, n + 1)), s)

/-- A launch waits to be forwarded to a die. -/
def mayForward (l : Launch) (die : Nat) : Bool := l.open_ && !l.badRecord && match l.work[die]? with
  | some w => !w.forwarded
  | none => false

/-- The workgroups of a die that have not started. -/
def todoCount (w : DieWork) : Nat := w.todo.foldl (fun n t => n + (t.2 - t.1)) 0

/-- A sparse COOP launch whose last die has counted its leaves cannot be placed at once on some die (R182). -/
def sparseMisfit (s : State) (l : Launch) : Bool :=
  !((List.range 4).all fun d => match l.work[d]? with
    | some w => coopHolds s l.job.part l.lrec d (todoCount w)
    | none => true)

/-- A sparse COOP launch whose leaves are all counted (R182): INVALID once the command before it has completed, or its job and
phase become RUNNING. -/
def admitCounted (s : State) (launch : Nat) (l : Launch) : State :=
  match l.origin with
  | .node _ _ => if sparseMisfit s l then closeLaunch s launch .invalid else checkLaunch s launch
  | .command q pos => match (queueOf s q).accepted.find? fun c => c.pos == pos with
    | none => s
    | some c =>
      if !sparseMisfit s l then checkLaunch (startLevels s q c) launch
      else if prevDone (queueOf s q) c then closeLaunch s launch .invalid
      else modLaunch s launch fun l => { l with badRecord := true, open_ := false }

/-- A die has taken its sub-grid of a launch. -/
def forwarded (s : State) (launch : Nat) : State := match tableGet s.launches launch with
  | none => s
  | some l => if l.lrec.countsFirst && l.work.all (·.forwarded) then admitCounted s launch l else checkLaunch s launch

/-- LAUNCH_FORWARD (R487, R462): the die's dispatcher takes its sub-grid. -/
def execLaunchForward (die launch : Nat) (s : State) : Host.Outcome State Fault Refusal :=
  .next (match tableGet s.launches launch with
  | none => s
  | some l =>
    if !mayForward l die || dieWaiting s (.launch launch) then s
    else
      match subGrid s die launch l with
      | (none, s) => s
      | (some todo, s) =>
        let s := modLaunch s launch fun l => { l with
          work := listMod l.work die fun _ => ⟨todo, [], true, s.clk, some s.clk⟩ }
        pumpAll (forwarded s launch))

/-! ## What may be dispatched -/

/-- The package queue that a launch comes from. -/
def launchQueue (s : State) (l : Launch) : Nat := match l.origin with
  | .command q _ => q
  | .node g _ => match tableGet s.graphs g with
    | some gr => match gr.origin with
      | .command q _ => q
      | .node _ _ => 0
    | none => 0

/-- A launch has unstarted workgroups in a die's dispatcher. -/
def hasTodo (l : Launch) (die : Nat) : Bool := l.open_ && match l.work[die]? with
  | some w => !w.todo.isEmpty
  | none => false

/-- Workgroups of a launch are saved on a die: they are restored first (R432). -/
def hasImages (s : State) (die launch : Nat) : Bool := (dieOf s die).images.any fun m => m.wg.launch == launch

/-- The targets of a launch on a die. -/
def targetsOf (r : Lrec) : List Nat := List.range (if r.span ≤ 4 then 24 else 4)

/-- The first unstarted workgroup of a launch in a die's dispatcher. -/
def firstTodo (l : Launch) (die : Nat) : Option Nat := match l.work[die]? with
  | some w => w.todo.head?.map fun t => t.1
  | none => none

/-- The claim of a launch's next workgroup at a target. -/
def launchOwn (die launch target : Nat) : Claim → Bool := ownClaim (.launch die launch target)

/-- Place a launch's next workgroup on a target of a die, or nothing. -/
def placeNext (s : State) (die launch target : Nat) (l : Launch) (w : Nat) : Option State :=
  placeWg s (launchOwn die launch target) die launch l (targetCores die l.lrec.span target) (planOf l.lrec w)

/-- The batch of a launch that a cluster holds, with its first unstarted workgroup. -/
def batchAt (l : Launch) (die cluster : Nat) : Option Nat := match l.work[die]? with
  | some w => (w.batches.find? fun b => b.1 == cluster).bind fun b => b.2.head?
  | none => none

/-- A launch that is not COOP has a workgroup, not yet in a batch, that a die could place at once (R188). -/
def placeable (s : State) (die launch : Nat) (l : Launch) : Bool :=
  hasTodo l die && !l.lrec.coop && !hasImages s die launch && match firstTodo l die with
    | none => false
    | some w => (targetsOf l.lrec).any fun t => (placeNext s die launch t l w).isSome

/-- A cluster could place a workgroup of the batch that it holds of a launch (R188). -/
def batchPlaceable (s : State) (die launch : Nat) (l : Launch) : Bool :=
  l.open_ && !hasImages s die launch && (List.range 24).any fun t => match batchAt l die t with
    | some w => (placeNext s die launch t l w).isSome
    | none => false

/-- A COOP launch that waits for its admission needs a die (R191). -/
def coopNeeds (l : Launch) (die : Nat) : Bool := l.lrec.coop && l.open_ && !l.badRecord && match l.work[die]? with
  | some w => !w.todo.isEmpty || !w.forwarded
  | none => false

/-- A waiting COOP launch holds back a launch's new workgroups on a die (R191): those of an equal or lower priority; of two
COOP launches of one priority the later one waits (DEDUCED, log 9). -/
def coopBlocks (s : State) (die launch prio : Nat) (coop : Bool) : Bool := s.launches.any fun l =>
  l.1 != launch && coopNeeds l.2 die && (prio < l.2.prio || (prio == l.2.prio && (!coop || l.1 < launch)))

/-- New workgroups may start on a die (R500). -/
def dieDispatches (s : State) (die : Nat) : Bool := (dieOf s die).band != .critical

/-- Every unstarted workgroup of a launch: (die, index). -/
def allTodo (l : Launch) : List (Nat × Nat) :=
  (List.range 4).flatMap fun d => match l.work[d]? with
    | some w => w.todo.flatMap fun t => (List.range (t.2 - t.1)).map fun i => (d, t.1 + i)
    | none => []

/-- Claims of a launch, for any workgroup of it: a COOP launch is admitted whole. -/
def coopOwn (launch : Nat) : Claim → Bool
  | .admission _ (.launch _ l _) _ _ => l == launch
  | _ => false

/-- Place workgroups together, each on one of its die's targets; none when there is no way to place all. -/
def placeEach (launch : Nat) (l : Launch) : List (Nat × Nat) → State → Option State
  | [], s => some s
  | (d, w) :: rest, s => (targetsOf l.lrec).findSome? fun t =>
      placeWgThen (coopOwn launch) d launch l (targetCores d l.lrec.span t) (planOf l.lrec w) (placeEach launch l rest) s

/-- The dies of a COOP launch. -/
def coopDies (l : Launch) : List Nat := (List.range 4).filter fun d => hasTodo l d

/-- A COOP launch waits for nothing but room: every die has its sub-grid, takes new workgroups and holds no image of it. -/
def coopOpen (s : State) (launch : Nat) (l : Launch) : Bool :=
  l.lrec.coop && l.open_ && !l.badRecord && l.work.all (fun w => w.forwarded) && !(coopDies l).isEmpty &&
    (coopDies l).all fun d => dieDispatches s d && !hasImages s d launch && !coopBlocks s d launch l.prio true

/-- A COOP launch that could be placed at once on all of its dies. -/
def coopReady (s : State) (launch : Nat) (l : Launch) : Bool :=
  coopOpen s launch l && (placeEach launch l (allTodo l) s).isSome

/-! ### Consumers -/

/-- A consumer that a work-graph queue has records for (R204): its launch, its plan and the state in which its launch record
has been read. -/
structure ConsumerPlan where
  launch : Nat
  l : Launch
  plan : WgPlan
  s : State

/-- What a queue would dispatch next, if its reads go well; the state after the reads. -/
def consumerPlan (s : State) (queue : Nat) (nq : NodeQueue) : Option ConsumerPlan × State :=
  match nqRead s queue nq with
  | (none, s) => (none, s)
  | (some b, s) =>
    let pub := field b 0x20 8
    let disp := field b 0x28 8
    if pub ≤ disp then (none, s)
    else
      match consumerLaunch s queue nq (BitVec.ofNat 64 (field b 0x10 8)) with
      | (none, s) => (none, pumpAll s)
      | (some id, s) =>
        match tableGet s.launches id with
        | none => (none, s)
        | some l =>
          let k := min (field b 0x38 4) (pub - disp)
          (some ⟨id, l, ⟨nq.next, 0, 0, noLeaf, (disp, k), field b 0x00 8, field b 0x08 4, nq.next⟩, s⟩, s)

/-- Place a queue's next consumer on a target, in a state. -/
def placeConsumer (c : ConsumerPlan) (s : State) (queue die target : Nat) : Option State :=
  placeWg s (ownClaim (.consumer queue target)) die c.launch c.l (targetCores die c.l.lrec.span target) c.plan

/-- A queue has a consumer that its die could place at once. -/
def consumerReady (s : State) (queue : Nat) (nq : NodeQueue) : Option Launch :=
  if dieWaiting s (.nodeQueue queue) then none
  else match (consumerPlan s queue nq).1 with
    | none => none
    | some c =>
      let die := nq.home s
      if hasImages s die c.launch || coopBlocks s die c.launch c.l.prio false then none
      else if (targetsOf c.l.lrec).any fun t => (placeConsumer c c.s queue die t).isSome then some c.l
      else none

/-! ### Turns -/

/-- What a die could place at once and has not handed to a cluster (R188, R190): unstarted workgroups, consumers and COOP
launches, each with its job, its priority and its queue. -/
def newWorks (s : State) (die : Nat) : List (Nat × Nat × Nat) :=
  let of := fun l : Launch => (l.job.index, l.prio, launchQueue s l)
  (s.launches.filterMap fun l =>
    if l.2.lrec.coop then (if (coopDies l.2).contains die && coopReady s l.1 l.2 then some (of l.2) else none)
    else if !coopBlocks s die l.1 l.2.prio false && placeable s die l.1 l.2 then some (of l.2) else none) ++
  s.nodeQueues.filterMap fun q => if q.2.home s = die then (consumerReady s q.1 q.2).map of else none

/-- Everything a die could place at once (R188): also what a cluster holds in a batch. -/
def dieWorks (s : State) (die : Nat) : List (Nat × Nat × Nat) :=
  newWorks s die ++ (s.launches.filter fun l => batchPlaceable s die l.1 l.2).map fun l =>
    (l.2.job.index, l.2.prio, launchQueue s l.2)

/-- Work that a die could place, or a saved workgroup, comes before a job's at a priority (R188, R431). -/
def workAhead (s : State) (die job prio : Nat) : Bool :=
  ((dieWorks s die).any fun w => aheadOf s die w.1 w.2.1 job prio) || imageAhead s die job prio

/-- WEIGHT of a queue. -/
def queueWeight (s : State) (q : Nat) : Nat := queueField s q 0x0D 1

/-- The queue whose turn it is at a priority on a die, with what it will have taken (R190): the current one until it has
taken its weight, else the next with work that no job's turn keeps back (R431). -/
def turnOf (s : State) (die prio : Nat) : Nat × Nat :=
  let t := (dieOf s die).turns.getD prio (0, 0)
  let qs := ((newWorks s die).filter fun w => w.2.1 == prio && !workAhead s die w.1 prio).map fun w => w.2.2
  if t.2 < queueWeight s t.1 && qs.contains t.1 then (t.1, t.2 + 1)
  else
    let far := fun q => (q + 1023 - t.1) % 1024
    match qs with
    | [] => (t.1, t.2 + 1)
    | q :: rest => (rest.foldl (fun b q => if far q < far b then q else b) q, 1)

/-- No work that a die could place comes before a launch's (R188, R431). -/
def noneAhead (s : State) (die : Nat) (l : Launch) : Bool := !workAhead s die l.job.index l.prio

/-- A die may take a new batch or single workgroup of a launch now (R188, R190, R191, R432, R500). -/
def mayTake (s : State) (die launch : Nat) (l : Launch) : Bool :=
  dieDispatches s die && !coopBlocks s die launch l.prio l.lrec.coop && !hasImages s die launch && noneAhead s die l &&
    (turnOf s die l.prio).1 == launchQueue s l

/-! ## Dispatching -/

/-- Take the first index off the first range. -/
def dropFirst : List (Nat × Nat) → List (Nat × Nat)
  | [] => []
  | (lo, hi) :: t => if lo + 1 < hi then (lo + 1, hi) :: t else t

/-- Take the first workgroup off a cluster's batch. -/
def dropBatch (cluster : Nat) : List (Nat × List Nat) → List (Nat × List Nat)
  | [] => []
  | (c, l) :: t =>
    if c = cluster then (if 1 < l.length then (c, l.drop 1) :: t else t) else (c, l) :: dropBatch cluster t

/-- Take up to `n` workgroups off the front of a die's ranges (R187). -/
def takeWork : Nat → List (Nat × Nat) → List Nat × List (Nat × Nat)
  | _, [] => ([], [])
  | n, (lo, hi) :: t =>
    let top := min hi (lo + n)
    let here := (List.range (top - lo)).map (lo + ·)
    if top < hi then (here, (top, hi) :: t)
    else
      let (rest, t) := takeWork (n - (top - lo)) t
      (here ++ rest, t)

/-- Hand a cluster its next batch of up to 8 consecutive workgroups (R187), of which the first has been placed. -/
def handBatch (cluster : Nat) (w : DieWork) : DieWork :=
  let (batch, todo) := takeWork 8 w.todo
  { w with
    todo := todo
    batches := if 1 < batch.length then w.batches ++ [(cluster, batch.drop 1)] else w.batches }

/-- Change a launch's work on a die. -/
def modWork (s : State) (die launch : Nat) (g : DieWork → DieWork) : State :=
  modLaunch s launch fun l => { l with work := listMod l.work die g }

/-- Count a batch or single workgroup against its queue's weight (R190), given the turn as it was decided. -/
def takeTurn (s : State) (die prio : Nat) (turn : Nat × Nat) : State :=
  modDie s die fun d => { d with turns := listPut d.turns prio turn }

/-- Place the admission claims of a launch's next workgroup that only rows and earlier claims keep out (R145). -/
def placeClaims (s : State) (die launch target : Nat) (l : Launch) (w : Nat) : State :=
  claimFor s (launchOwn die launch target) (fun _ _ => .launch die launch target) (placeNext (unclaimed s) die launch target l w)

/-- Place the first workgroup of the batch that a cluster holds of a launch. It counts as dispatched already, so neither a
waiting COOP launch nor its queue's turn holds it back: R187, R190 and R191 do not say so (DESIGN CHOICE, log 63). -/
def dispatchBatch (s : State) (die launch target : Nat) (l : Launch) (w : Nat) : State :=
  if !dieDispatches s die || hasImages s die launch || !noneAhead s die l then s
  else match placeNext s die launch target l w with
    | some s => modWork (dropClaims s launch (some die)) die launch fun k => { k with batches := dropBatch target k.batches }
    | none => placeClaims s die launch target l w

/-- Place the next workgroup of a launch that is not COOP on a target of a die: from the cluster's batch, or as a new batch or
single workgroup. One that only rows keep out places its claims. The dispatcher may withdraw a claim at any time (R145): here
it withdraws those of a launch on a die whenever it places a workgroup of the launch there, and otherwise only with the
launch's end (DESIGN CHOICE, log 48). -/
def dispatchOne (s : State) (die launch target : Nat) (l : Launch) : State :=
  match (if l.lrec.span ≤ 4 then batchAt l die target else none) with
  | some w => dispatchBatch s die launch target l w
  | none =>
    match firstTodo l die with
    | none => s
    | some w =>
      match placeNext s die launch target l w with
      | some s' =>
        if !mayTake s die launch l then s
        else
          let s' := takeTurn (dropClaims s' launch (some die)) die l.prio (turnOf s die l.prio)
          modWork s' die launch fun k => if l.lrec.span ≤ 4 then handBatch target k else { k with todo := dropFirst k.todo }
      | none =>
        if dieDispatches s die && !coopBlocks s die launch l.prio false && !hasImages s die launch then
          placeClaims s die launch target l w
        else s

/-- What a COOP launch takes of its queue's weight on a die (R187, R190): its batches of 8, or its single workgroups. -/
def coopTakes (l : Launch) (die : Nat) : Nat := match l.work[die]? with
  | some w => if l.lrec.span ≤ 4 then (todoCount w + 7) / 8 else todoCount w
  | none => 0

/-- Place the admission claims of a COOP launch that only rows and earlier claims keep out (R145): of every workgroup that does
not fit beside the others. -/
def coopClaims (s : State) (launch : Nat) (l : Launch) : State :=
  claimFor s (coopOwn launch) (fun _ w => .launch w.die launch 0) (placeEach launch l (allTodo l) (unclaimed s))

/-- Admit a COOP launch on all of its dies in a single step (R191), when it is its queue's turn on each (R190). -/
def dispatchCoop (s : State) (launch : Nat) (l : Launch) : State :=
  if !coopOpen s launch l then s
  else
    match placeEach launch l (allTodo l) s with
    | none => coopClaims s launch l
    | some s' =>
      if !((coopDies l).all fun d => mayTake s d launch l) then s
      else
        let s' := (coopDies l).foldl (fun q d =>
          let turn := turnOf s d l.prio
          takeTurn q d l.prio (turn.1, turn.2 + coopTakes l d - 1)) (dropClaims s' launch none)
        modLaunch s' launch fun l => { l with work := l.work.map fun w => { w with todo := [] } }

/-- WORKGROUP_DISPATCH (R186). -/
def execWorkgroupDispatch (die launch target : Nat) (s : State) : Host.Outcome State Fault Refusal :=
  .next (match tableGet s.launches launch with
  | none => s
  | some l =>
    if !l.open_ || l.badRecord || l.consumerOf ≠ 0 then s
    else if l.lrec.coop then dispatchCoop s launch l
    else dispatchOne s die launch target l)

/-! ## Stealing -/

/-- Unstarted workgroups that a cluster holds (R187). -/
def heldBy (s : State) (die cluster : Nat) : Nat :=
  s.launches.foldl (fun n l => match l.2.work[die]? with
    | some w => w.batches.foldl (fun n b => if b.1 = cluster then n + b.2.length else n) n
    | none => n) 0

/-- Move up to `n` workgroups from the ends of a victim's batches to the thief; the number still to move, and the batches. -/
def stealFrom (thief victim : Nat) : Nat → List (Nat × List Nat) → Nat × List (Nat × List Nat)
  | n, [] => (n, [])
  | n, (c, l) :: t =>
    let (n, t) := stealFrom thief victim n t
    if c = victim ∧ n ≠ 0 then
      let k := min n l.length
      let left := if k < l.length then [(c, l.take (l.length - k))] else []
      (n - k, left ++ [(thief, l.drop (l.length - k))] ++ t)
    else (n, (c, l) :: t)

/-- STEAL_REQUEST (R187): a cluster without unstarted work takes half of another's in its sector. -/
def execStealRequest (die thief victim : Nat) (s : State) : Host.Outcome State Fault Refusal :=
  .next (let n := heldBy s die victim
  if thief < 24 ∧ victim < 24 ∧ thief ≠ victim ∧ thief / 6 = victim / 6 ∧ heldBy s die thief = 0 ∧ 2 ≤ n then
    let go := fun (r : Nat × State) (l : Nat × Launch) => match l.2.work[die]? with
      | some w =>
        let (left, bs) := stealFrom thief victim r.1 w.batches
        (left, modWork r.2 die l.1 fun k => { k with batches := bs })
      | none => r
    (s.launches.foldl go (n / 2, s)).2
  else s)

/-! ## Consumers of work-graph queues -/

/-- A consumer has been placed: the queue has handed it its records. -/
def consumerTaken (s : State) (queue : Nat) (nq : NodeQueue) (plan : WgPlan) : State :=
  let end_ := plan.records.1 + plan.records.2
  let s := dropAdmissions s fun a => match a with
    | .consumer q _ => q == queue
    | _ => false
  let s := { s with nodeQueues := tableMod s.nodeQueues queue fun q => { q with
    consumers := q.consumers ++ [(nq.next, end_, false)]
    next := nq.next + 1 } }
  dieWrite s (nq.home s) nq.job (vaOf (nq.desc.toNat + 0x28)) (leBytes 8 end_)

/-- Dispatch a queue's next consumer to a target, as a single workgroup of its queue's turn (R188, R190, R204). -/
def dispatchConsumer (s : State) (queue target : Nat) (nq : NodeQueue) : State :=
  let die := nq.home s
  match consumerPlan s queue nq with
  | (none, s) => s
  | (some c, _) =>
    match placeConsumer c c.s queue die target with
    | some s' =>
      if !mayTake s die c.launch c.l then s
      else consumerTaken (takeTurn s' die c.l.prio (turnOf s die c.l.prio)) queue nq c.plan
    | none =>
      if dieDispatches s die && !coopBlocks s die c.launch c.l.prio false && !hasImages s die c.launch then
        claimFor c.s (ownClaim (.consumer queue target)) (fun _ _ => .consumer queue target)
          (placeConsumer c (unclaimed c.s) queue die target)
      else s

/-- WORK_GRAPH_CONSUMER_DISPATCH (R204): a consumer receives min(RPW, PUB − DISP) records. A descriptor that R203 does not
allow (an alignment, CAP, RSIZE, RPW or a reserved byte) is used as it stands: the spec names no outcome (DESIGN CHOICE,
log 49). -/
def execWorkGraphConsumerDispatch (queue target : Nat) (s : State) : Host.Outcome State Fault Refusal :=
  .next (match tableGet s.nodeQueues queue with
  | none => s
  | some nq => if dieWaiting s (.nodeQueue queue) then s else dispatchConsumer s queue target nq)

/-! ## Retirement -/

/-- STRIP_RETIREMENT (R193). -/
def execStripRetirement (strip : Nat) (s : State) : Host.Outcome State Fault Refusal := .next (retireStrip s strip)

end Sys2Proof.Machine
end

