-- ==== Sys2Proof/Machine/Preempt.lean ====
section
/-! DEFINITION. Pre-emption (spec 21): time slices, stopping a workgroup, its context image, and its restore. -/
namespace Sys2Proof.Machine

/-! ## When a save begins -/

/-- A launch is COOP. -/
def launchCoop (s : State) (launch : Nat) : Bool := match tableGet s.launches launch with
  | some l => l.lrec.coop
  | none => false

/-- The job of a launch. -/
def launchJob (s : State) (launch : Nat) : Job := match tableGet s.launches launch with
  | some l => l.job
  | none => noJob

/-- Begin the save of the workgroups that a test picks, and of every workgroup of their COOP launches (R431-R433); each die
concerned applies its invalidation log (R464). A deadline that fell in an earlier cycle has its effect first (R387, R441). -/
def beginSave (s : State) (pick : Wg → Bool) : State :=
  let coop := (s.wgs.filter fun w => pick w.2 && launchCoop s w.2.launch).map fun w => w.2.launch
  let taken := fun w : Wg => w.saving.isNone && (pick w || coop.contains w.launch)
  let dies := (List.range 4).filter fun d => s.wgs.any fun w => taken w.2 && w.2.die == d
  let cores := (s.wgs.filter fun w => taken w.2).flatMap fun w => w.2.parts.map fun q => q.core
  let s := cores.foldl expireCore s
  let s := { s with wgs := s.wgs.map fun w => if taken w.2 then (w.1, { w.2 with saving := some s.clk }) else w }
  dies.foldl applyTi s

/-- The highest priority of a job's resident launches on a die. -/
def residentPrio (s : State) (die job : Nat) : Nat :=
  s.wgs.foldl (fun n w => match tableGet s.launches w.2.launch with
    | some l => if w.2.die = die ∧ l.job.index = job then max n l.prio else n
    | none => n) 0

/-- A work-graph queue of another job has records for consumers on a die, at a priority at or above one. -/
def consumersWait (s : State) (die job prio : Nat) : Bool := s.nodeQueues.any fun q =>
  q.2.home s == die && q.2.job.index != job && ((tableGet s.graphs q.2.graph).any fun g => prio ≤ g.prio) &&
    (consumerPlan s q.1 q.2).1.isSome

/-- Another job has unstarted or saved work on a die at a priority at or above one (R431). -/
def othersWait (s : State) (die job prio : Nat) : Bool := consumersWait s die job prio || s.launches.any fun l =>
  l.2.job.index != job && prio ≤ l.2.prio && l.2.open_ && !l.2.badRecord && (hasImages s die l.1 || match l.2.work[die]? with
    | some w => !w.todo.isEmpty || !w.batches.isEmpty
    | none => false)

/-- A job's time slice in cycles (R206), by a launch of it. -/
def sliceCycles (s : State) (job : Nat) : Nat := match s.launches.find? fun l => l.2.job.index == job with
  | some l => l.2.job.slice * cyclesUs
  | none => 0

/-- The slice clock of a job on a die starts anew. -/
def renewSlice (s : State) (die job : Nat) : State :=
  modDie s die fun d => { d with slices := d.slices.map fun x => if x.job = job then { x with since := s.clk } else x }

/-- A job's slice on a die has expired. -/
def sliceOver (s : State) (die job : Nat) : Bool :=
  (dieOf s die).slices.any fun x => x.job == job && x.since + sliceCycles s job ≤ s.clk

/-- A job's slice expires on a die: it is the last to have done so. -/
def noteExpiry (s : State) (die job : Nat) : State :=
  modDie s die fun d => { d with expired := d.expired.filter (· != job) ++ [job] }

/-- A job's slice expires (R431): saved when others wait, renewed otherwise. Nothing that follows a save's beginning falls in
its cycle (log 55). -/
def expireSlice (s : State) (die job : Nat) : State :=
  let save := othersWait s die job (residentPrio s die job)
  let s := noteExpiry (renewSlice s die job) die job
  if save then beginSave { s with cycleOver := true } fun w => w.die == die && (launchJob s w.launch).index == job else s

/-- TIME_SLICE_EXPIRY (R431): what retires in the cycle of the expiry retires first (R441). -/
def execTimeSliceExpiry (die job : Nat) (s : State) : Host.Outcome State Fault Refusal :=
  .next (if !sliceOver s die job then s
  else
    let s := completeFirst s fun l => l.job.index == job
    if sliceOver s die job then expireSlice s die job else s)

/-! ## Stop points (R434) -/

/-- Bring in the outstanding results of a strip. -/
def stopFlights (s : State) (id : Nat) : State := match tableGet s.strips id with
  | none => s
  | some p => p.flights.foldl (fun s f => performFlight s id f.id) s

/-- The commands of a workgroup on a core. -/
def cmdsOf (s : State) (wg core : Nat) : List Cmd := (coreOf s core).rsb.filter fun k => k.wg == wg && !k.shadow

/-- A command is a LAUNCH or a CANCEL. -/
def isLevelCmd : Instr → Bool
  | .launch _ => true
  | .cancel _ => true
  | _ => false

/-- LAUNCH and CANCEL commands complete, and so does a matrix command being performed (R320). -/
def stopCommand (s : State) (core : Nat) (k : Cmd) : State :=
  let s := if isLevelCmd k.instr && k.failed.isNone then performLevel s core k else s
  match cmdOf s core k.id with
  | none => s
  | some k => match k.failed with
    | none => s
    | some code =>
      if isLevelCmd k.instr then finishCmd s core k code else if k.begun then endMatrix s core k code else s

/-- Every activity of a workgroup goes on to its stop point. -/
def stopWg (s : State) (id : Nat) (w : Wg) : State :=
  let s := (stripsOf s id).foldl (fun s p => stopFlights s p.1) s
  let s := w.parts.foldl (fun s p => (cmdsOf s id p.core).foldl (fun s k => stopCommand s p.core k) s) s
  w.parts.foldl (fun s p => beginMatrix s p.core) s

/-- Some activity of a command goes on elsewhere: a LAUNCH or CANCEL not performed, halo entries and their counts (R469), or
the deliveries and answers of a ROUTE or RETN on their way. -/
def cmdBusy (s : State) (core : Nat) (k : Cmd) : Bool :=
  isLevelCmd k.instr || (s.halos.any fun h => h.cmd == k.id && !h.sent) || (s.phaseEvents.any fun e => e.halo == some k.id) ||
    s.net.any fun m => match m with
      | .delivery h _ _ _ _ => (coreOf s core).escrow.any fun e => e.2.cmd == k.id && answersTo h e.1 e.2
      | .answer _ _ c _ => c == k.id
      | .drop _ => false

/-- A strip has reached its stop point: what is not performed, here or at a Mint, belongs to one that waits on a fault. -/
def stripStopped (s : State) (id : Nat) (p : Strip) : Bool :=
  !p.waits.isEmpty || (p.flights.all fun f => f.undone == 0 && (!f.long || f.arrived)) &&
    !(s.dies.any fun d => d.mint.any fun m => m.strip == id && m.flight.isSome)

/-- Every activity of a workgroup has reached its stop point. -/
def wgStopped (s : State) (id : Nat) : Bool :=
  ((stripsOf s id).all fun p => stripStopped s p.1 p.2) &&
    s.cores.all fun c => (cmdsOf s id c.1).all fun k => !cmdBusy s c.1 k

/-! ## The image (R435-R438) -/

/-- The entries of a spilled register in its slot, and those that are poisoned, or the fault met. -/
def slotWords (s : State) (ag : Agent) (at_ : Nat) : Nat → Except (Nat × Nat) (List Word × Strands) × State
  | 0 => (.ok ([], 0), s)
  | n + 1 =>
    match slotWords s ag at_ n with
    | (.error e, s) => (.error e, s)
    | (.ok (ws, bad), s) =>
      match readVirt s ag (vaOf (at_ + 4 * n)) 4 with
      | (.error e, s) => (.error e, s)
      | (.ok (b, x), s) => (.ok (ws ++ [BitVec.ofNat 32 (leNat b)], if x then bad ||| oneStrand n else bad), s)

/-- A v register as an image holds it: a spilled one with the entries of its slot. -/
def imageReg (s : State) (p : Strip) (reg : Nat) (r : VReg) : Except (Nat × Nat) VReg × State :=
  if r.spilled then
    match slotWords s { stripAgent s p with launches := [] } (spillSlot s p reg) 16 with
    | (.error e, s) => (.error e, s)
    | (.ok (ws, bad), s) => (.ok { r with vals := ws, poison := r.poison ||| (bad &&& r.valid) }, s)
  else (.ok r, s)

/-- The v registers of a strip as its image holds them. -/
def imageRegs (s : State) (p : Strip) : Table VReg → Except (Nat × Nat) (Table VReg) × State
  | [] => (.ok [], s)
  | (reg, r) :: rest =>
    match imageReg s p reg r with
    | (.error e, s) => (.error e, s)
    | (.ok r, s) => match imageRegs s p rest with
      | (.error e, s) => (.error e, s)
      | (.ok l, s) => (.ok ((reg, r) :: l), s)

/-- The strips of a workgroup as its image holds them. -/
def imageStrips (s : State) : List (Nat × Strip) → Except (Nat × Nat) (Table Strip) × State
  | [] => (.ok [], s)
  | (id, p) :: rest =>
    match imageRegs s p p.v with
    | (.error e, s) => (.error e, s)
    | (.ok v, s) => match imageStrips s rest with
      | (.error e, s) => (.error e, s)
      | (.ok l, s) => (.ok ((id, { p with v := v }) :: l), s)

/-- Rows of a strip record (R438): its registers, and its pending results. -/
def recordRows (p : Strip) : Nat :=
  p.v.length + p.flights.foldl (fun n f => if f.long then n + f.dest.vRegs.length else n) 0

/-- Bytes of a strip record; a retired strip has a fixed part only. -/
def recordBytes (r : Lrec) (p : Option Strip) : Nat := match p with
  | some p => 2048 + 4 * r.sregs + 64 * recordRows p
  | none => 2048

/-- The saved strip of index `k`. -/
def stripAt (l : Table Strip) (k : Nat) : Option Strip := (l.find? fun p => p.2.index == k).map fun p => p.2

/-- Bytes of part j's section: header, strip records, window, slots and engine record. -/
def sectionBytes (r : Lrec) (l : Table Strip) (j : Nat) : Nat :=
  64 + ((partIndices r j).foldl (fun n k => n + recordBytes r (stripAt l k)) 0) + r.scratch + 8192 * r.acc + 16384

/-- Where part j's section begins. -/
def sectionAt (r : Lrec) (l : Table Strip) (j : Nat) : Nat :=
  (List.range j).foldl (fun n i => n + sectionBytes r l i) 256

/-- SIZE of an image (R438), a whole number of pages. -/
def imageSize (r : Lrec) (l : Table Strip) : Nat := (sectionAt r l r.span + 4095) / 4096 * 4096

/-- The arrival count of barrier n (R177). -/
def barCount (l : Table Strip) (n : Nat) : Nat :=
  l.foldl (fun k p => k + (p.2.strands.filter fun t => atBar n t).length) 0

/-- The workgroup header (R436). -/
def wgHeader (la : Launch) (m : Image) : List Byte :=
  let r := la.lrec
  let susp := m.strips.any fun p => !p.2.waits.isEmpty
  leBytes 4 1 ++ leBytes 4 m.bytes ++ leBytes 8 la.address.toNat ++ leBytes 8 la.seq.toNat ++
    leBytes 4 (if r.sparse then m.wg.leaf else m.wg.wg0).toNat ++ leBytes 4 m.wg.wg1.toNat ++ leBytes 4 m.wg.wg2.toNat ++
    leBytes 1 m.wg.die ++ leBytes 1 r.span ++ leBytes 1 ((if r.coop then 1 else 0) + (if susp then 2 else 0)) ++ leBytes 1 0 ++
    leBytes 8 m.savedAt ++ leBytes 16 0 ++ (List.range 16).flatMap (fun n => leBytes 4 (barCount m.strips n)) ++
    (List.range 16).flatMap fun j => leBytes 8 (if j < r.span then sectionAt r m.strips j else 0)

/-- The header of part j (R437); its offsets count from the image's start (log 16). -/
def partHeader (r : Lrec) (m : Image) (j : Nat) : List Byte :=
  let at_ := sectionAt r m.strips j + 64
  let scr := at_ + ((partIndices r j).foldl (fun n k => n + recordBytes r (stripAt m.strips k)) 0)
  let eng := scr + r.scratch + 8192 * r.acc
  leBytes 4 (r.partStrips j) ++ leBytes 4 r.scratch ++ leBytes 1 r.acc ++
    leBytes 1 (m.escrow.filter fun e => e.1 == j).length ++ leBytes 1 (m.inboxes.filter fun b => b.2.part == j).length ++
    leBytes 1 (m.cmds.filter fun k => k.1 == j).length ++ leBytes 4 0 ++ leBytes 8 at_ ++ leBytes 8 scr ++
    leBytes 8 (scr + r.scratch) ++ leBytes 8 eng ++ leBytes 8 16384 ++ leBytes 8 0

/-- Write bytes at a physical address for a die, line by line (R230). -/
def writePhys (s : State) (die pa : Nat) (b : List Byte) : State :=
  ((linePieces (b.length / 128 + 2) pa b.length).foldl (fun (q : State × List Byte) n =>
    (hardWrite q.1 die n.1 (q.2.take n.2), q.2.drop n.2)) (s, b)).1

/-- Lines that a die reads beyond the populated window are recorded (R230). -/
def noteLines (s : State) (die pa n : Nat) : State :=
  (linePieces (n / 128 + 2) pa n).foldl (fun s p => noteBeyond s die p.1) s

/-! ### The body of an image -/

/-- Words of an image, each with its poison. -/
abbrev PoolWords := List (Word × Bool)

/-- Where the record of the n-th strip of part j begins. -/
def recordAt (r : Lrec) (l : Table Strip) (j n : Nat) : Nat :=
  sectionAt r l j + 64 + ((partIndices r j).take n).foldl (fun m k => m + recordBytes r (stripAt l k)) 0

/-- The registers of a strip in the order of its rows (R438): mapped ones, then spilled ones. -/
def rowRegs (p : Strip) : Table VReg := (p.v.filter fun e => !e.2.spilled) ++ p.v.filter fun e => e.2.spilled

/-- Rows of a pending result. -/
def flightRows (f : Flight) : Nat := if f.long then f.dest.vRegs.length else 0

/-- The rows of a strip: registers, then pending results. -/
def stripRows (p : Strip) : List PoolWords :=
  (rowRegs p).map (fun e => (List.range 16).map fun i => (e.2.vals.getD i 0, e.2.poison.getLsbD i)) ++
    p.flights.flatMap fun f => (List.range (flightRows f)).map fun k =>
      (List.range 16).map fun i => ((f.got.getD i []).getD k 0, (f.spoilt.getD k 0).getLsbD i)

/-- The s registers and the rows of a strip. -/
def stripWords (r : Lrec) (p : Strip) : PoolWords :=
  (List.range r.sregs).map (fun n => (cellGet (0 : Word) p.s n, p.sPoison.contains n)) ++ (stripRows p).flatten

/-- The window of part j. -/
def windowWords (r : Lrec) (m : Image) (j : Nat) : PoolWords :=
  let b := cellRange (0 : Byte) (m.scratch.getD j []) 0 r.scratch
  (List.range (r.scratch / 4)).map fun w =>
    (BitVec.ofNat 32 (leNat ((b.drop (4 * w)).take 4)), (m.scratchPoison.getD j []).contains w)

/-- The slots of part j. -/
def slotsWords (r : Lrec) (m : Image) (j : Nat) : PoolWords :=
  (List.range (2048 * r.acc)).map fun e => (cellGet (0 : Word) (m.acc.getD j []) e, (m.accPoison.getD j []).contains e)

/-- Where the window copy of part j begins. -/
def windowAt (r : Lrec) (m : Image) (j : Nat) : Nat := recordAt r m.strips j (partIndices r j).length

/-- What an image holds in memory beside its headers, by offset (R438): s registers and rows, windows and slots. -/
def imageBlocks (r : Lrec) (m : Image) : List (Nat × PoolWords) :=
  (List.range r.span).flatMap fun j =>
    ((List.range (partIndices r j).length).filterMap fun n =>
      (stripAt m.strips ((partIndices r j).getD n 0)).map fun p => (recordAt r m.strips j n + 2048, stripWords r p)) ++
    [(windowAt r m j, windowWords r m j), (windowAt r m j + r.scratch, slotsWords r m j)]

/-- The offsets of the poisoned words of blocks. -/
def markedWords (l : List (Nat × PoolWords)) : List Nat :=
  l.flatMap fun b => (List.range b.2.length).filterMap fun i => if (b.2.getD i (0, false)).2 then some (b.1 + 4 * i) else none

/-- Write a block; a poisoned word poisons the word of memory it lies in (R435). -/
def writeBlock (s : State) (die addr : Nat) (b : Nat × PoolWords) : State :=
  let s := writePhys s die (addr + b.1) (b.2.flatMap fun w => leBytes 4 w.1.toNat)
  { s with poison := (markedWords [b]).foldl (fun l o => setAdd l ((addr + o) / 8)) s.poison }

/-- Write an image to its pool (R435): headers, s registers, rows, windows and slots as the spec lays them out, the rest of
the body free (log 16). -/
def writeImage (s : State) (la : Launch) (m : Image) : State :=
  let r := la.lrec
  let body := (List.range (m.bytes - 256)).map fun k => Config.freeByte s.free k
  let die := m.wg.die
  let s := writePhys { s with free := s.free + 1 } die (m.addr + 256) body
  let s := writePhys s die m.addr (wgHeader la m)
  let s := (List.range r.span).foldl (fun s j => writePhys s die (m.addr + sectionAt r m.strips j) (partHeader r m j)) s
  (imageBlocks r m).foldl (fun s b => writeBlock s die m.addr b) s

/-- A word of an image as it is read back. A word of memory that is poisoned poisons its halves, but for one whose other
half alone was saved as poisoned. -/
def poolWord (s : State) (addr : Nat) (marks : List Nat) (o : Nat) : Word × Bool :=
  let (b, bad) := readHome s (addr + o) 4
  let other := if o % 8 = 0 then o + 4 else o - 4
  (BitVec.ofNat 32 (leNat b), bad && (marks.contains o || !marks.contains other))

/-- The words of a block as they are read back. -/
def poolWords (s : State) (addr : Nat) (marks : List Nat) (b : Nat × PoolWords) : PoolWords :=
  (List.range b.2.length).map fun i => poolWord s addr marks (b.1 + 4 * i)

/-- Row k of rows. -/
def rowAt (ws : PoolWords) (k : Nat) : PoolWords := (ws.drop (16 * k)).take 16

/-- A pending result takes its words from rows, with their poison where it has been performed (R435). -/
def loadFlights : PoolWords → List Flight → List Flight
  | _, [] => []
  | ws, f :: rest =>
    let got := (List.range f.got.length).map fun i =>
      if flightRows f = 0 then f.got.getD i []
      else (List.range (f.got.getD i []).length).map fun k => ((rowAt ws k).getD i (0, false)).1
    let bad := (List.range (flightRows f)).map fun k =>
      strandSet (fun i => ((rowAt ws k).getD i (0, false)).2) &&& f.x &&& ~~~f.undone
    { f with got := got, spoilt := if bad.all (· == 0) then [] else bad } :: loadFlights (ws.drop (16 * flightRows f)) rest

/-- A strip takes its s registers and rows from words. -/
def loadStrip (r : Lrec) (p : Strip) (ws : PoolWords) : Strip :=
  let regs := ws.take r.sregs
  let rows := ws.drop r.sregs
  let order := (rowRegs p).map fun e => e.1
  let one := fun e : Nat × VReg =>
    let row := rowAt rows (order.findIdx (· == e.1))
    (e.1, { e.2 with vals := row.map (·.1), poison := strandSet fun i => (row.getD i (0, false)).2 })
  { p with
    s := cellPutAll (0 : Word) [] 0 (regs.map (·.1))
    sPoison := (List.range regs.length).filter fun n => (regs.getD n (0, false)).2
    v := p.v.map one
    flights := loadFlights (rows.drop (16 * order.length)) p.flights }

/-- The strips of an image as they are read back from its pool. -/
def loadStrips (s : State) (r : Lrec) (m : Image) (marks : List Nat) : Table Strip :=
  (List.range r.span).foldl (fun t j => (List.range (partIndices r j).length).foldl (fun t n =>
    let k := (partIndices r j).getD n 0
    t.map fun e => if e.2.index = k then
        (e.1, loadStrip r e.2 (poolWords s m.addr marks (recordAt r m.strips j n + 2048, stripWords r e.2)))
      else e) t) m.strips

/-- Positions of poisoned words. -/
def badWords (ws : PoolWords) : List Nat := (List.range ws.length).filter fun i => (ws.getD i (0, false)).2

/-- An image with what its pool holds read back from memory (R439, step 2). -/
def loadImage (s : State) (r : Lrec) (m : Image) : Image :=
  let marks := markedWords (imageBlocks r m)
  let window := fun j => poolWords s m.addr marks (windowAt r m j, windowWords r m j)
  let slots := fun j => poolWords s m.addr marks (windowAt r m j + r.scratch, slotsWords r m j)
  { m with
    strips := loadStrips s r m marks
    scratch := (List.range r.span).map fun j => cellPutAll (0 : Byte) [] 0 ((window j).flatMap fun w => leBytes 4 w.1.toNat)
    scratchPoison := (List.range r.span).map fun j => badWords (window j)
    acc := (List.range r.span).map fun j => cellPutAll (0 : Word) [] 0 ((slots j).map (·.1))
    accPoison := (List.range r.span).map fun j => badWords (slots j) }

/-! ## Leaving the cores (R433, step 5) -/

/-- A command that goes on where it stands: its progress lies in escrow entries, answers, halo entries or packets. -/
def goesOn (k : Cmd) : Bool := match k.instr with
  | .route _ => true
  | .retn _ => true
  | .halo _ => true
  | .cpygg _ => !k.data.isEmpty
  | _ => false

/-- A command that starts its tile anew (R364). -/
def restartsTile : Instr → Bool
  | .spblnd _ => true
  | .spback _ => true
  | _ => false

/-- A command as its image holds it (R434): regions relative to the part; one that does not go on where it stands is to start
again, from the offset or index it has reached (R296, R364). -/
def savedCmd (p : Part) (k : Cmd) : Cmd :=
  let rel := fun g : Region => let b := if g.slot then p.slots else p.scratch
    (⟨g.slot, g.lo - b, g.hi - b⟩ : Region)
  { k with
    reads := k.reads.map rel
    writes := k.writes.map rel
    started := k.started && goesOn k
    data := if restartsTile k.instr && k.failed.isNone then [] else k.data }

/-- A window's cells, from its base. -/
def cutCells {α : Type} (l : List (Nat × α)) (lo n : Nat) : List (Nat × α) :=
  (l.filter fun c => lo ≤ c.1 && c.1 < lo + n).map fun c => (c.1 - lo, c.2)
/-- A window's poisoned units, from its base. -/
def cutMarks (l : List Nat) (lo n : Nat) : List Nat := (l.filter fun c => lo ≤ c && c < lo + n).map fun c => c - lo

/-- Commands of every part, by identifier. -/
def imageCmds (s : State) (id : Nat) (w : Wg) : List (Nat × Cmd) :=
  let all : Table (Nat × Cmd) := (List.range w.parts.length).foldl (fun t j => match w.parts[j]? with
    | some p => (cmdsOf s id p.core).foldl (fun t k => tablePut t k.id (j, savedCmd p k)) t
    | none => t) []
  all.map fun e => e.2

/-- Escrow entries of a part: those its commands hold (R394). -/
def imageEscrow (s : State) (id : Nat) (w : Wg) : List (Nat × Nat × Escrow) :=
  (List.range w.parts.length).flatMap fun j => match w.parts[j]? with
    | some p =>
      let mine := (cmdsOf s id p.core).map fun k => k.id
      ((coreOf s p.core).escrow.filter fun e => e.2.st != .free && mine.contains e.2.cmd).map fun e => (j, e.1, e.2)
    | none => []

/-- The image of a stopped workgroup. -/
def makeImage (s : State) (id : Nat) (w : Wg) (la : Launch) (strips : Table Strip) (addr since : Nat) : Image :=
  let r := la.lrec
  let parts := w.parts.map fun p => (p, coreOf s p.core)
  { addr := addr
    bytes := imageSize r strips
    job := la.job.index
    wgId := id
    wg := w
    strips := strips
    cmds := imageCmds s id w
    scratch := parts.map fun p => cutCells p.2.scratch p.1.scratch r.scratch
    scratchPoison := parts.map fun p => cutMarks p.2.scratchPoison (p.1.scratch / 4) (r.scratch / 4)
    acc := parts.map fun p => cutCells p.2.acc (p.1.slots * 2048) (r.acc * 2048)
    accPoison := parts.map fun p => cutMarks p.2.accPoison (p.1.slots * 2048) (r.acc * 2048)
    inboxes := parts.flatMap fun p => p.2.inboxes.filter fun b => b.2.wg == id
    escrow := imageEscrow s id w
    claims := parts.flatMap fun p => p.2.claims.flatMap fun q => q.2.filterMap fun c => match c with
      | .grow i t f _ _ => if (tableGet strips t).isSome then some (t, i, f) else none
      | _ => none
    savedAt := since }

/-- Free an escrow entry that a save takes away; one that a restore put in place of another goes. A saved entry that is HELD
opens with the next generation, so the entry it leaves goes past that one (R395, log 37). -/
def freeEntry (t : Table Escrow) (key : Nat) : Table Escrow :=
  if key < 32 then tableMod t key fun e => { e with
    st := .free, slots := [], deadline := none, rowsDone := [], gen := if e.st = .held then e.gen + 1 else e.gen }
  else tableDel t key

/-- What a core loses when part j of an image leaves it. -/
def clearPart (m : Image) (j : Nat) (c : Core) : Core :=
  let gone := m.cmds.map fun k => k.2.id
  let held := (m.escrow.filter fun e => e.1 == j).map fun e => e.2.1
  { c with
    rsb := c.rsb.filter fun k => !gone.contains k.id
    escrow := held.foldl freeEntry c.escrow
    inboxes := c.inboxes.filter fun b => b.2.wg != m.wgId
    claims := c.claims.map fun q => (q.1, q.2.filter fun k => match k with
      | .grow _ t _ _ _ => (tableGet m.strips t).isNone
      | _ => true)
    holder := if c.holder ≠ 0 && (tableGet m.strips (c.holder - 1)).isSome then 0 else c.holder }

/-- A saved workgroup frees everything it held on its cores (R433, step 5). -/
def leaveCores (s : State) (m : Image) (la : Launch) : State :=
  let cores := m.wg.parts.map fun p => p.core
  let gone := m.cmds.map fun k => k.2.id
  -- entries of its CPYMC commands on cores of the sector
  let s := mapCores s fun c => { c with rsb := c.rsb.filter fun k => !(k.shadow && gone.contains k.id) }
  let s := (List.range cores.length).foldl (fun s j => match cores[j]? with
    | some core => modCore s core (clearPart m j)
    | none => s) s
  let s := m.wg.parts.foldl (fun s p => leaveCore s la.lrec m.job p) s
  let s := mapDies s fun d => { d with directory := d.directory.map fun e => if e.wg = m.wgId then { e with resident := false } else e }
  let s := { s with
    strips := s.strips.filter fun p => p.2.wg != m.wgId
    wgs := tableDel s.wgs m.wgId }
  let s := leaveDie s m.wg.launch m.wg.die
  cores.foldl beginMatrix s

/-! ## WORKGROUP_SAVE -/

/-- A place for an image in a pool (R435): its address. -/
def poolPlace (s : State) (die : Nat) (j : Job) (n : Nat) : Option Nat :=
  let pool := j.pool.getD die (0, 0)
  let used := ((dieOf s die).images.filter fun m => m.job == j.index).map fun m => (m.addr - pool.1, m.addr - pool.1 + m.bytes)
  (firstFit used n pool.2).map (pool.1 + ·)

/-- How the save of one stopped workgroup ends: a fault on a spill slot, no room, or saved. -/
inductive SaveEnd where
  | waits (die va kind : Nat)
  | noRoom
  | saved (s : State)

/-- Save a workgroup that has stopped (R433, steps 3 to 5). -/
def saveWg (s : State) (id since : Nat) (w : Wg) (la : Launch) : SaveEnd :=
  let s := w.parts.foldl (fun s p => releaseCore s p.core) s
  match imageStrips s (stripsOf s id) with
  | (.error (va, kind), _) => .waits w.die va kind
  | (.ok strips, s) =>
    match poolPlace s w.die la.job (imageSize la.lrec strips) with
    | none => .noRoom
    | some addr =>
      let m := makeImage s id w la strips addr since
      let s := modDie (writeImage s la m) w.die fun d => { d with images := d.images ++ [m] }
      .saved (leaveCores s m la)

/-- Save stopped workgroups together; all or none. -/
def saveAll (s : State) : List Nat → SaveEnd
  | [] => .saved s
  | id :: rest =>
    match tableGet s.wgs id with
    | none => saveAll s rest
    | some w =>
      match w.saving, tableGet s.launches w.launch with
      | some since, some la =>
        match saveWg s id since w la with
        | .saved s => saveAll s rest
        | e => e
      | _, _ => saveAll s rest

/-- A save that finds no room leaves its workgroups resident: their slices are renewed, what waited goes on, and the runtime is
notified (R435, R469). -/
def giveUpSave (s : State) (ids : List Nat) (w : Wg) : State :=
  let mine := (s.wgs.filter fun g => ids.contains g.1).map fun g => g.2
  let s := { s with wgs := s.wgs.map fun g => if ids.contains g.1 then (g.1, { g.2 with saving := none }) else g }
  let s := (mine.flatMap fun g => g.parts).foldl (fun s p => beginMatrix s p.core) (fillAll s)
  match tableGet s.launches w.launch with
  | some la =>
    let s := (mine.map fun g => g.die).foldl (fun s d => renewSlice s d la.job.index) s
    { s with notices := s.notices ++ [(la.seq, la.status, [])] }
  | none => s

/-- The workgroups saved together with one (R432). -/
def saveSet (s : State) (wg : Nat) (w : Wg) : List Nat :=
  if launchCoop s w.launch then (s.wgs.filter fun g => g.2.launch == w.launch).map fun g => g.1 else [wg]

/-- Write the images of stopped workgroups, or give up (R433, R435). -/
def finishSave (s : State) (ids : List Nat) (w : Wg) : State := match saveAll s ids with
  | .saved s => s
  | .waits die va kind => dieFault s (dieAgent die (launchJob s w.launch)) (.launch w.launch) va kind accRead
  | .noRoom => giveUpSave s ids w

/-- WORKGROUP_SAVE (R433): a workgroup being saved, or all of a COOP launch's, reaches its stop points; then its image is
written and its resources are freed. -/
def execWorkgroupSave (wg : Nat) (s : State) : Host.Outcome State Fault Refusal :=
  .next (match tableGet s.wgs wg with
  | none => s
  | some w =>
    if w.saving.isNone then s
    else
      let s := (saveSet s wg w).foldl (fun s id => match tableGet s.wgs id with
        | some g => stopWg s id g
        | none => s) s
      -- a CANCEL on the way to its stop point may have ended the workgroup
      if (tableGet s.wgs wg).isNone || !((saveSet s wg w).all (wgStopped s)) || dieWaiting s (.launch w.launch) then s
      else finishSave s (saveSet s wg w) w)

/-! ## WORKGROUP_RESTORE (R439) -/

/-- Write a register to the spill slot of the new place (R155). SPILL of STRIP_STATUS stays as it was saved: R155 and R439 do
not say that a restore sets it (DESIGN CHOICE, log 62). -/
def restoreSpill (s : State) (id reg : Nat) (p : Strip) (r : VReg) : Except (Nat × Nat) State :=
  let ag := stripAgent s p
  match xlateRange s ag (spillSlot s p reg) 64 .both with
  | (.error e, _) => .error e
  | (.ok ps, s) =>
    let s := storeAccess s ag [] 0 ps (wordsBytes r.vals)
    .ok (modStrip s id fun p => { p with v := tablePut p.v reg { r with spilled := true, vals := List.replicate 16 0 } })

/-- Give a strip its registers back in ascending order: a row where R146 gives one, else the new slot. -/
def restoreRegs (s : State) (id : Nat) : Table VReg → Except (Nat × Nat) State
  | [] => .ok s
  | (reg, r) :: rest =>
    match tableGet s.strips id with
    | none => .ok s
    | some p =>
      if !r.spilled && rowFree s p then restoreRegs (modStrip s id fun p => { p with v := tablePut p.v reg r }) id rest
      else match restoreSpill s id reg p r with
        | .error e => .error e
        | .ok s => restoreRegs s id rest

/-- The registers of every strip of an image. -/
def restoreStrips (s : State) : Table Strip → Except (Nat × Nat) State
  | [] => .ok s
  | (id, p) :: rest => match restoreRegs s id p.v with
    | .error e => .error e
    | .ok s => restoreStrips s rest

/-- Load a window and slots of part j. -/
def restorePart (r : Lrec) (m : Image) (j : Nat) (p : Part) (c : Core) : Core :=
  let out := fun (lo n a : Nat) => !(lo ≤ a && a < lo + n)
  { c with
    scratch := (m.scratch.getD j []).foldl (fun t b => cellPut (0 : Byte) t (p.scratch + b.1) b.2)
      (c.scratch.filter fun b => out p.scratch r.scratch b.1)
    scratchPoison := (m.scratchPoison.getD j []).foldl (fun t w => setAdd t (p.scratch / 4 + w))
      (c.scratchPoison.filter fun w => out (p.scratch / 4) (r.scratch / 4) w)
    acc := (m.acc.getD j []).foldl (fun t e => cellPut (0 : Word) t (p.slots * 2048 + e.1) e.2)
      (c.acc.filter fun e => out (p.slots * 2048) (r.acc * 2048) e.1)
    accPoison := (m.accPoison.getD j []).foldl (fun t e => setAdd t (p.slots * 2048 + e))
      (c.accPoison.filter fun e => out (p.slots * 2048) (r.acc * 2048) e) }

/-- How the restore of one image ends: no place but for rows and earlier claims, no place at all, a translation fault of a spill
slot, or done. -/
inductive RestoreEnd where
  | noRows
  | noPlace
  | fault (die : Nat) (va kind : Nat)
  | done (s : State)

/-- A placed workgroup takes up again what its image holds (R439, steps 1 to 4). -/
def resumeImage (s : State) (la : Launch) (m : Image) (parts : List Part) : RestoreEnd :=
  let die := m.wg.die
  let r := la.lrec
  let s := parts.foldl (fun s p => readyCore s r la.job.index la.job.asid p) (noteLines s die m.addr m.bytes)
  let s := (List.range parts.length).foldl (fun s j => match parts[j]? with
    | some p => modCore s p.core (restorePart r m j p)
    | none => s) s
  match restoreStrips s m.strips with
  | .error (va, kind) => .fault die va kind
  | .ok s =>
    let s := m.claims.foldl (fun s c => match tableGet s.strips c.1 with
      | some p => placeClaim s p.coreId p.sliceKey (.grow c.2.1 c.1 c.2.2 p.slot s.clk)
      | none => s) s
    let s := modDie s die fun d => { d with images := d.images.filter fun i => i.wgId != m.wgId }
    let s := comeBack (startSlice s la.job.index die) m.wg.launch die
    let s := modLaunch s m.wg.launch fun l => { l with work := listMod l.work die fun w => { w with beat := s.clk } }
    .done (fillHalos (checkBars s m.wgId) die)

/-- Placed workgroups take up what their images hold. -/
def resumeAll (la : Launch) : List (Image × List Part) → State → RestoreEnd
  | [], s => .done s
  | (m, parts) :: rest, s => match resumeImage s la m parts with
    | .done s => resumeAll la rest s
    | e => e

/-- The admission claims of saved workgroups leave their queues. -/
def dropRestores (s : State) (wgs : List Nat) : State := dropAdmissions s fun a => match a with
  | .restore w _ => wgs.contains w
  | _ => false

/-- Restore images together (R432, R439): all of them are placed, their floors admitted and their claims gone, before any
register takes a row. -/
def restoreAll (s : State) (la : Launch) (set_ : List (Image × List Nat)) : RestoreEnd :=
  let ids := set_.map fun i => i.1.wgId
  let set_ := set_.map fun i => (loadImage s la.lrec i.1, i.2)
  match placeImages (restoreOwn ids) la set_ [] s with
  | some (s, placed) => resumeAll la placed (dropRestores s ids)
  | none => if (placeImages (restoreOwn ids) la set_ [] (unclaimed s)).isSome then .noRows else .noPlace

/-- A saved workgroup's turn (R188, R431, R432): the earliest image of its launch on its die, with no work before it that
the die could place. -/
def mayRestore (s : State) (m : Image) (la : Launch) : Bool :=
  let die := m.wg.die
  dieDispatches s die && !dieWaiting s (.launch m.wg.launch) &&
    (((dieOf s die).images.find? fun i => i.wg.launch == m.wg.launch).any fun i => i.wgId == m.wgId) &&
    !workAhead s die la.job.index la.prio

/-- A restore waits for rows or behind claims alone: its workgroups place their admission claims (R145, R439), unless they
wait. -/
def restoreClaims (s : State) (la : Launch) (set_ : List (Image × List Nat)) : State :=
  let own := restoreOwn (set_.map fun i => i.1.wgId)
  claimFor s own (fun id w => .restore id w.sector) ((placeImages own la set_ [] (unclaimed s)).map fun r => r.1)

/-- Restore a saved workgroup, or all of a COOP launch's, on cores of a sector of its die (R439). -/
def restoreWg (s : State) (m : Image) (la : Launch) (target : Nat) : State :=
  let set_ := restoreSet s m la
  let rest := (set_.filter fun i => i.wgId != m.wgId).map fun i => (i, List.range 4)
  if !mayRestore s m la || (s.wgs.any fun g => la.lrec.coop && g.2.launch == m.wg.launch) then s
  else if !(set_.all (versionOk s)) then set_.foldl (fun s i => noteBeyond s i.wg.die i.addr) s
  else
    let dies := (List.range 4).filter fun d => set_.any fun i => i.wg.die == d
    match restoreAll (dies.foldl applyTi s) la ((m, [target]) :: rest) with
    | .done s => s
    | .noRows => restoreClaims s la ((m, [target]) :: rest)
    | .noPlace => s
    | .fault die va kind => dieFault s (dieAgent die la.job) (.launch m.wg.launch) va kind (accRead + accWrite)

/-- Restore the saved workgroup with an identifier; none when there is no such image. -/
def restoreId (s : State) (wg target : Nat) : Option State := match (allImages s).find? fun m => m.wgId == wg with
  | none => none
  | some m => (tableGet s.launches m.wg.launch).map fun la => restoreWg s m la target

/-- WORKGROUP_RESTORE (R439). -/
def execWorkgroupRestore (wg target : Nat) (s : State) : Host.Outcome State Fault Refusal :=
  .next ((restoreId s wg target).getD s)

/-! ## Claims at the head of a slice's queue -/

/-- What an admission claim at the head of a queue is for tries to be placed (R147); one for nothing any more leaves its
queue. -/
def grantAdmission (s : State) (who : Admission) : State :=
  let withdraw := dropAdmissions s fun a => a == who
  match who with
  | .launch die launch target => match tableGet s.launches launch with
    | some l => if l.lrec.coop then dispatchCoop s launch l else dispatchOne s die launch target l
    | none => withdraw
  | .consumer queue target => match tableGet s.nodeQueues queue with
    | some nq => if dieWaiting s (.nodeQueue queue) then s else dispatchConsumer s queue target nq
    | none => withdraw
  | .restore wg target => (restoreId s wg target).getD withdraw

/-- GROW_CLAIM_GRANT (R147): a GROW claim whose rows fit is granted; an admission claim admits its workgroup when all of it
can be placed. -/
def execGrowClaimGrant (core slice : Nat) (s : State) : Host.Outcome State Fault Refusal :=
  .next (match claimsOf s core slice with
  | .grow _ _ _ _ _ :: _ => (grantGrow s core slice).2
  | .admission _ who _ _ :: _ => grantAdmission s who
  | [] => s)

end Sys2Proof.Machine
end

