-- ==== Sys2Proof/Machine/Fetch.lean ====
section
/-! DEFINITION. Instruction fetch (R18, R70, R421, R423, R424): the word at the PC of the next issue, through the core's
instruction cache, and what a fault or poison makes of it. -/
namespace Sys2Proof.Machine

/-- What a fetch obtains: a word, whether it is poisoned, and its physical address; or a fault's kind. -/
inductive Fetched where
  | word (w : DWord) (bad : Bool) (pa : Nat)
  | fault (kind : Nat)
deriving DecidableEq, Repr

/-- Words of the instruction cache (R8): 64 KiB. -/
def icWords : Nat := 8192

/-- A word put back as it was before a write. -/
def beforeWrite (pa : Nat) (w : List Byte) (q : Past) : List Byte :=
  (List.range 8).map fun i =>
    if q.pa ≤ pa + i && pa + i < q.pa + q.old.length then q.old.getD (pa + i - q.pa) 0 else w.getD i 0

/-- The contents of a word since a launch started, the present ones first (R18). -/
def wordVersions (s : State) (wrote pa : Nat) : List (List Byte) :=
  ((s.past.take (s.wrote - wrote)).foldl (fun (r : List (List Byte) × List Byte) q =>
    let w := beforeWrite pa r.2 q
    if w = r.2 then r else (r.1 ++ [w], w)) ([cellRange (0 : Byte) s.mem pa 8], cellRange (0 : Byte) s.mem pa 8)).1

/-- A word of the instruction cache, if it holds it. -/
def cachedWord (s : State) (core pa : Nat) : Option DWord := tableGet (coreOf s core).ic (pa / 8)

/-- A fetched word comes into the instruction cache. -/
def fillIc (s : State) (core pa : Nat) (w : DWord) : State :=
  let (t, s) := cacheHold s icWords (fun _ => true) (coreOf s core).ic (pa / 8) w
  modCore s core fun c => { c with ic := t }

/-- One of the contents a word has had since a launch started; the choice is free (R18). -/
def pickVersion (s : State) (wrote pa : Nat) : DWord × State :=
  let l := wordVersions s wrote pa
  let word := fun n => BitVec.ofNat 64 (leNat (l.getD n []))
  if l.length ≤ 1 then (word 0, s)
  else
    let n := (Config.freeWord s.free 0).toNat % l.length
    (word n, { s with free := s.free + 1 })

/-- The memory writes that a strip's launch need not see: those since it opened (R18). -/
def openedAt (s : State) (p : Strip) : Nat := match launchOfStrip s p with
  | some (_, l) => l.wrote
  | none => s.wrote

/-- Fetch a word from memory (R18): the present one, or an older one as the launch may see it; it is cached. A poisoned word
is not. -/
def fetchMemory (s : State) (p : Strip) (lf : Leaf) : Fetched × State :=
  let (b, bad) := readHome s lf.pa 8
  if bad || lf.pr then
    (.word (BitVec.ofNat 64 (leNat b)) true lf.pa,
      if populated lf.pa then s else logError s p.die unitBeyond .poisoned lf.pa)
  else
    let (w, s) := pickVersion s (openedAt s p) lf.pa
    (.word w false lf.pa, fillIc s p.coreId lf.pa (BitVec.ofNat 64 (leNat b)))

/-- The word that the instruction cache holds is memory's, and has been since the launch opened. -/
def cacheFresh (s : State) (p : Strip) (pa : Nat) (w : DWord) : Bool :=
  let (b, bad) := readHome s pa 8
  !bad && w.toNat == leNat b && (wordVersions s (openedAt s p) pa).length ≤ 1

/-- Fetch the word at an address: the instruction cache's word or memory's, freely where they may differ (R18). -/
def fetchAt (s : State) (p : Strip) (pc : VA) : Fetched × State :=
  match xlate s (stripAgent s p) pc.toNat .exec with
  | (.error k, s) => (.fault k, s)
  | (.ok lf, s) =>
    match cachedWord s p.coreId lf.pa with
    | none => fetchMemory s p lf
    | some w =>
      if lf.pr then fetchMemory s p lf
      else if cacheFresh s p lf.pa w then (.word w false lf.pa, s)
      else
        let (hit, s) := s.choose
        if hit then (.word w false lf.pa, s) else fetchMemory s p lf

/-- The end of a fetch: an instruction that issues, or a state in which nothing has. -/
inductive FetchEnd where
  | issue (i : Instr) (s : State)
  | none (s : State)

/-- A poisoned word that is delivered: the all-zero word, which is illegal with detail code 1; POISON is set and the word is
counted at its physical address (R423). -/
def poisonedFetch (s : State) (pa : Nat) : State :=
  match chooseIssue s with
  | .error s => s
  | .ok (id, pc, x, s) =>
    match tableGet s.strips id with
    | none => s
    | some p => illegalTrap (modStrip (notePoison s id p pa) id fun p => { p with zeroFetch := false }) id pc x 0 1

/-- A fetch that cannot be made suspends the strip, and its executing set is recorded (R421, R424). -/
def suspendFetch (s : State) (id : Nat) (p : Strip) (ag : Agent) (pc : VA) (x : Strands) (kind : Nat) : State :=
  modStrip (suspendStrip s id p ag pc.toNat kind accExec) id fun p => { p with fetchX := x }

/-- Where an answer ZERO has found the poison of a fetch. -/
def fetchPlace (s : State) (p : Strip) (pc : VA) : Nat := match (fetchAt s p pc).1 with
  | .word _ _ pa => pa
  | .fault _ => 0

/-- Fetch for the strip that issues (`cur`): the instruction of its next executing set. A fault, or poison under the job's
trap, suspends the strip (R421, R424); an answer ZERO has made the word zero. -/
def fetchNext (s : State) : FetchEnd :=
  match tableGet s.strips s.cur with
  | none => .none s
  | some p =>
    match p.issueSet with
    | none => .none s.pass
    | some (pc, x) =>
      let ag := stripAgent s p
      if p.zeroFetch then .none (poisonedFetch s (fetchPlace s p pc))
      else
        match fetchAt s p pc with
        | (.fault k, s) => .none (suspendFetch s s.cur p ag pc x k).pass
        | (.word w false _, s) => .issue (decodeRaw w) s
        | (.word _ true pa, s) =>
          if ag.poisonTrap then .none (suspendFetch s s.cur p ag pc x kindPoison).pass
          else .none (poisonedFetch s pa)

/-- The instruction a strip would issue next, if its word can be had. -/
def nextInstr (s : State) (p : Strip) : Option Instr :=
  match p.issueSet with
  | none => none
  | some (pc, _) => match (fetchAt s p pc).1 with
    | .word w false _ => some (decodeRaw w)
    | _ => none

end Sys2Proof.Machine
end

