-- ==== Sys2Proof/Machine/StripEvents.lean ====
section
/-! DEFINITION. What happens to a strip without an issue of it: asynchronous traps (R400), results and refills that arrive
(R150, R153), drains (R226), Mint's operations (R339), translation faults (R418), the watchdog (R428, R429), and an illegal
word (R71). -/
namespace Sys2Proof.Machine

/-- ASYNC_TRAP_ENTRY (R400): a strip that is being saved takes it after its restore (R430). -/
def execAsyncTrapEntry (strip : Nat) (s : State) : Host.Outcome State Fault Refusal :=
  .next (match tableGet s.strips strip with
  | none => s
  | some p => if savingStrip s p then s else takeAsync s strip)

/-- LONG_LATENCY_RESULT_ARRIVAL (R153): an access is performed for some of its strands and, where it is not single-copy
atomic, for some of their bytes (R240); the last one makes the result arrive. -/
def execLongLatencyResultArrival (strip win : Nat) (part : AccessPart) (s : State) : Host.Outcome State Fault Refusal :=
  .next (match tableGet s.strips strip with
  | none => s
  | some p => match p.flights[win]? with
    | some f => performSome s strip f.id part.set part.bytes
    | none => s)

/-- SPILL_REFILL_ARRIVAL (R150): the refill of a spilled register that the strip's next instruction reads. -/
def execSpillRefillArrival (strip reg : Nat) (s : State) : Host.Outcome State Fault Refusal :=
  .next (match tableGet s.strips strip with
  | none => s
  | some p =>
    match nextInstr s p with
    | none => s
    | some i =>
      let sh := shape i
      match (stepsOf 4 (readsV sh)).find? fun l => l.contains reg with
      | some step =>
        if p.waits.isEmpty && !savingStrip s p then noteRefills s (refillReg s strip reg (instrRegs sh) step).2 strip else s
      | none => s)

/-- SCB_DRAIN (R226): an entry of a core's buffer drains when it is due; past the entries, a posted write is performed, in
no order but that of the writes of one line (R242, R258). -/
def execScbDrain (core entry : Nat) (s : State) : Host.Outcome State Fault Refusal :=
  .next (match (coreOf s core).scb[entry]? with
  | some e => if scbDue s e then drainLine s core e.line else s
  | none =>
    let k := entry - (coreOf s core).scb.length
    match (coreOf s core).posted[k]? with
    | none => s
    | some q => if postedFirst (coreOf s core) k then
        performPosted (modCore s core fun c => { c with posted := c.posted.eraseIdx k }) core q
      else s)

/-- MINT_OPERATION (R339): one request is performed, of a VINS one event; its strands go in ascending order (R343). -/
def execMintOperation (die req : Nat) (s : State) : Host.Outcome State Fault Refusal :=
  .next (match (dieOf s die).mint[req]? with
  | none => s
  | some m => match m.flight with
    | none => vfreeOne s m
    | some fid => match flightOf s m.strip fid with
      | some f => if lowStrand f.undone = m.strand then performSome s m.strip fid (oneStrand m.strand) 0 else s
      | none => if m.step = .fresh then s else vinsOrphan s m)

/-- TRANSLATION_FAULT (R418): the strip is suspended and the fault is reported (R420). -/
def execTranslationFault (strip : Nat) (va : BitVec 48) (kind access : BitVec 8) (s : State) : Host.Outcome State Fault Refusal :=
  .next (match tableGet s.strips strip with
  | none => s
  | some p => suspendStrip s strip p (stripAgent s p) va.toNat kind.toNat access.toNat)

/-! ## The watchdog -/

/-- The watchdog ends a launch (R429): the runtime is notified with its sequence number. What completes in the same cycle
completes first (R430): nothing that follows falls in its cycle (log 55). -/
def fireWatchdog (s : State) (id : Nat) (l : Launch) : State :=
  let s := completeFirst s fun m => m.address == l.address && m.seq == l.seq && m.origin == l.origin
  match tableGet s.launches id with
  | none => s
  | some _ =>
    pumpAll (stopLaunch { s with notices := s.notices ++ [(l.seq, .watchdog, [])], cycleOver := true } id .watchdog)

/-- Some strip of a launch is resident on a die. -/
def stripsOnDie (s : State) (launch die : Nat) : Bool := s.strips.any fun p => p.2.die == die &&
  match tableGet s.wgs p.2.wg with
  | some w => w.launch == launch
  | none => false

/-- A persistent launch has gone twice HBPERIOD on a die without a heartbeat (R428). -/
def heartbeatOver (s : State) (die launch : Nat) (l : Launch) : Bool :=
  l.job.watchdog && l.lrec.persistent && stripsOnDie s launch die && match l.work[die]? with
    | some w => w.beat + 2 * l.lrec.hbperiod * cyclesUs ≤ s.clk
    | none => false

/-- WATCHDOG_HEARTBEAT_EXPIRY (R428). -/
def execWatchdogHeartbeatExpiry (die launch : Nat) (s : State) : Host.Outcome State Fault Refusal :=
  .next (match tableGet s.launches launch with
  | some l => if heartbeatOver s die launch l then fireWatchdog s launch l else s
  | none => s)

/-- A launch that is not persistent has run past WALLLIM (R429). -/
def wallClockOver (s : State) (l : Launch) : Bool :=
  l.job.watchdog && !l.lrec.persistent && l.lrec.walllim != 0 && l.started && l.start + l.lrec.walllim * cyclesUs ≤ s.clk

/-- WATCHDOG_WALL_CLOCK_EXPIRY (R429). -/
def execWatchdogWallClockExpiry (launch : Nat) (s : State) : Host.Outcome State Fault Refusal :=
  .next (match tableGet s.launches launch with
  | some l => if wallClockOver s l then fireWatchdog s launch l else s
  | none => s)

/-! ## Illegal words -/

/-- ILLEGAL_INSTRUCTION (R71): the issue of a word without a major traps with detail code 1. -/
def execIllegalInstruction (word : BitVec 64) (s : State) : Host.Outcome State Fault Refusal :=
  .next (match chooseIssue s with
  | .error s => s
  | .ok (id, pc, x, s) => illegalTrap s id pc x word 1)

end Sys2Proof.Machine
end

