-- ==== Sys2Proof/Machine/Answers.lean ====
section
/-! DEFINITION. The runtime's answers to fault queue entries (R419-R421, R424), the consumer counter (R426), and the requests
TIBELL and SAVEREQ (R431, R464). -/
namespace Sys2Proof.Machine

/-! ## An answered entry -/

/-- An outstanding entry of a die's fault queue: written and not answered. -/
def outstanding (s : State) (die seq : Nat) : Option FaultEntry := (dieOf s die).faults.find? fun f => f.seq == seq && f.written

/-- A strip of a die no longer waits on an entry. -/
def Strip.answered (p : Strip) (seq : Nat) : Strip := { p with waits := p.waits.filter (· != seq) }

/-- Change every strip of a die that waits on an entry, resident or saved (R441). -/
def onWaiters (s : State) (die seq : Nat) (g : Strip → Strip) : State :=
  let go := fun (q : Nat × Strip) => if q.2.die = die && q.2.waits.contains seq then (q.1, g q.2) else q
  let s := { s with strips := s.strips.map go }
  modDie s die fun d => { d with images := d.images.map fun m => { m with strips := m.strips.map go } }

/-- The entry is answered: it leaves the queue's unanswered entries, and its waiters no longer wait on it. -/
def settleEntry (s : State) (die seq : Nat) : State :=
  let s := onWaiters s die seq fun p => p.answered seq
  let s := modDie s die fun d => { d with faults := d.faults.filter fun f => f.seq != seq }
  { s with dieWaits := s.dieWaits.filter fun w => !(w.die == die && w.seq == seq) }

/-- Agents of the dies go on with what waited. -/
def resumeAgents (s : State) : State := pumpAll (payOwed s)

/-- The answer RETRY (R420): every waiter repeats its translation. -/
def answerRetry (s : State) (die seq : Nat) : State := match outstanding s die seq with
  | some _ => resumeAgents (settleEntry s die seq)
  | none => s

/-- FQANS_RETRY (R420). -/
def execFqansRetry (die : Nat) (seq : BitVec 64) (s : State) : Host.Outcome State Fault Refusal :=
  .next (answerRetry s die seq.toNat)

/-- A recorded access touches a page; one whose addresses are not known from its operands may. -/
def touchesPage (f : Flight) (page : Nat) : Bool := (strandsOf f.undone).any fun i => match flightEa f i with
  | some (a, n) => a / 4096 == page || (a + n - 1) / 4096 == page
  | none => true

/-- ZERO's effect on a waiting strip (R424): its poisoned accesses, or its poisoned fetch, complete with zero. -/
def Strip.zeroed (p : Strip) (f : FaultEntry) : Strip :=
  { p with
    flights := p.flights.map fun g => if g.undone ≠ 0 && touchesPage g f.page then { g with zero := true } else g
    zeroFetch := p.zeroFetch || (p.fetchX != 0 && (p.pcOf (lowStrand p.fetchX)).toNat / 4096 == f.page) }

/-- ZERO's effect on the requests at a die's Mint that wait on an entry (R424). -/
def zeroMint (s : State) (die seq : Nat) : State :=
  let waits := fun m : MintReq => s.dieWaits.any fun w => w.die == die && w.seq == seq && w.who == .mint m.strip
  modDie s die fun d => { d with mint := d.mint.map fun m => if waits m then { m with zero := true } else m }

/-- The answer ZERO (R420): kind 4 only. -/
def answerZero (s : State) (die seq : Nat) : State := match outstanding s die seq with
  | some f =>
    if f.kind = kindPoison then
      resumeAgents (settleEntry (zeroMint (onWaiters s die seq fun p => p.zeroed f) die seq) die seq) else s
  | none => s

/-- FQANS_ZERO (R420). -/
def execFqansZero (die : Nat) (seq : BitVec 64) (s : State) : Host.Outcome State Fault Refusal :=
  .next (answerZero s die seq.toNat)

/-! ## ABORT -/

/-- A phase receives ABORTED (R196): what stands below it ends with CANCELLED, and its record takes the status. -/
def abortPhase (s : State) (die : Nat) (r : DWord) (job : Nat) : State :=
  let mine := fun (k : Job) (ph : DWord) => k.index == job && ph == r
  let evs := s.phaseEvents.filter fun e => mine e.job e.record
  let s := { s with phaseEvents := s.phaseEvents.filter fun e => !mine e.job e.record }
  let s := fillAll (evs.foldl (fun s e => match e.halo with
    | some id => haloLanded s id
    | none => s) s)
  let s := discardAll s (.phase r job) fun a => mine a.job a.phase
  let s := stopAll s .cancelled (fun l => mine l.job l.phase) (fun g => mine g.job g.phase) (fun c => mine c.job (copyPhase s c))
  match evs with
  | e :: _ => endRecord s die e.job r .aborted
  | [] => s

/-- The operation writes memory; what is not is the completion of a command or node, which its level's end does not take
away. -/
def AgentOp.writes : AgentOp → Bool
  | .commandDone _ _ _ _ _ _ => false
  | .nodeDone _ _ => false
  | _ => true

/-- The levels whose counter record a write of an agent was for receive ABORTED. -/
def abortRecord (s : State) (va job : Nat) : State :=
  let here := fun (r : DWord) => vaOf r.toNat ≤ va && va < vaOf r.toNat + 32
  stopAll { s with owed := s.owed.filter fun o => !(o.job.index == job && o.va == va && o.op.writes) } .aborted
    (fun l => l.job.index == job && here l.lrec.done) (fun g => g.job.index == job && here g.record) (fun _ => false)

/-- The launches whose CANCEL commands wait to read a record (R209, R421). -/
def cancellers (s : State) (r : DWord) (job : Nat) : List Nat :=
  s.cores.flatMap fun c => (c.2.rsb.filter fun k => k.failed.isNone && k.job.index == job && match k.instr with
    | .cancel _ => dword0 k.ops.ua == r
    | _ => false).map fun k => k.launch

/-- The launch of a strip, resident or saved. -/
def launchOfAny (s : State) (strip : Nat) : Option Nat :=
  match tableGet s.strips strip with
  | some p => (tableGet s.wgs p.wg).map fun w => w.launch
  | none => (s.dies.flatMap fun d => d.images).findSome? fun m =>
      if (tableGet m.strips strip).isSome then some m.wg.launch else none

/-- The level that a die's agent serves receives ABORTED (R420, R421). -/
def abortWaiter (s : State) (die : Nat) : Waiter → State
  | .launch id => stopLaunch s id .aborted
  | .node g _ => stopGraph s g .aborted
  | .copy id => haltCopy s id .aborted
  | .queue q => match nextCommand s q with
    | some c =>
      if c.kind = 1 ∧ c.runs ≠ 0 then stopLaunch s (c.runs - 1) .aborted else completeCommand s q c.pos 0 .aborted 0
    | none => s
  | .nodeQueue id => match tableGet s.nodeQueues id with
    | some nq => stopGraph s nq.graph .aborted
    | none => s
  | .mint strip =>
    let s := modDie s die fun d => { d with mint := d.mint.filter fun m => m.strip != strip || m.step != .fresh }
    match launchOfAny s strip with
    | some l => stopLaunch s l .aborted
    | none => s
  | .phase r job =>
    if s.phaseEvents.any fun e => e.record == r && e.job.index == job then abortPhase s die r job
    else (cancellers s r job).foldl (fun s l => stopLaunch s l .aborted) (abortRecord s (vaOf r.toNat) job)

/-- The launches of the strips that wait on an entry of a die. -/
def waitingLaunches (s : State) (die seq : Nat) : List Nat :=
  ((allStrips s).filter fun q => q.1.die == die && q.1.waits.contains seq).map fun q => q.2

/-- The answer ABORT (R420): the level that each waiter serves receives ABORTED. -/
def answerAbort (s : State) (die seq : Nat) : State := match outstanding s die seq with
  | some _ =>
    let launches := waitingLaunches s die seq
    let agents := (s.dieWaits.filter fun w => w.die == die && w.seq == seq).map fun w => w.who
    let s := settleEntry s die seq
    let s := launches.foldl (fun s l => stopLaunch s l .aborted) s
    resumeAgents (agents.foldl (fun s w => abortWaiter s die w) s)
  | none => s

/-- FQANS_ABORT (R420). -/
def execFqansAbort (die : Nat) (seq : BitVec 64) (s : State) : Host.Outcome State Fault Refusal :=
  .next (answerAbort s die seq.toNat)

/-! ## Counters and doorbells -/

/-- A write of FQCONS (R426): entries that wait for room are written. -/
def writeFqcons (s : State) (die : Nat) (value : DWord) : State :=
  flushFaults (modDie s die fun d => { d with fqcons := value }) die

/-- FQCONS (R426). -/
def execFqcons (die : Nat) (value : BitVec 64) (s : State) : Host.Outcome State Fault Refusal :=
  .next (writeFqcons s die value)

/-- The log doorbell (R464): the next save, restore or acquire at PKG or SYS scope on the die applies the log. -/
def ringTi (s : State) (die : Nat) : State := modDie s die fun d => { d with tiPending := true }

/-- TIBELL (R464). -/
def execTibell (die : Nat) (s : State) : Host.Outcome State Fault Refusal := .next (ringTi s die)

/-- The save of every resident workgroup of a partition on a die begins (R431). -/
def requestSave (s : State) (die part : Nat) : State :=
  beginSave s fun w => w.die == die && (launchJob s w.launch).part == part

/-- SAVEREQ (R431). -/
def execSavereq (die part : Nat) (s : State) : Host.Outcome State Fault Refusal := .next (requestSave s die part)

end Sys2Proof.Machine
end

