-- ==== Sys2Proof/Machine/Errors.lean ====
section
/-! DEFINITION. Errors (R422, R425, R427): what a correctable and an uncorrectable error do in each unit, the scrubs, and
link retries. Unit codes and positions of the log's records: log 17. -/
namespace Sys2Proof.Machine

/-- The unit code and the position of a place in an error record (log 17). -/
def siteRecord : ErrSite → Nat × Nat
  | .coffer p r k => (1, p * 2 ^ 16 + r * 16 + k)
  | .uniformFile p r => (2, p * 2 ^ 16 + r)
  | .scratch c w => (3, c * 2 ^ 20 + w)
  | .slot c n e => (4, c * 2 ^ 20 + n * 2048 + e)
  | .scb c e w => (5, c * 2 ^ 20 + e * 32 + w)
  | .spillBuffer p r k => (6, p * 2 ^ 16 + r * 16 + k)
  | .readCache _ pa => (7, pa.toNat)
  | .instrCache _ pa => (8, pa.toNat)
  | .walker _ pa => (9, pa.toNat)
  | .rdc pa => (10, pa.toNat)
  | .tlb e => (11, e)
  | .coreTlb c e => (24, c * 2 ^ 20 + e)
  | .l2 pa => (12, pa.toNat)
  | .hbm pa => (13, pa.toNat)
  | .laneDatapath p r k => (14, p * 2 ^ 16 + r * 16 + k)
  | .uniformDatapath p r => (15, p * 2 ^ 16 + r)
  | .link n => (16, n)
  | .matrixArray c n e _ => (17, c * 2 ^ 20 + n * 2048 + e)

/-- Log an error of a place. -/
def logSite (s : State) (die : Nat) (e : ErrSite) (sev : Severity) : State := logError s die (siteRecord e).1 sev (siteRecord e).2

/-- The units whose correctable errors are corrected and logged (R422). -/
def siteCorrects : ErrSite → Bool
  | .laneDatapath _ _ _ => false
  | .uniformDatapath _ _ => false
  | .link _ => false
  | .matrixArray _ _ _ _ => false
  | _ => true

/-- A correctable error is corrected in place and logged (R422). -/
def correctable (s : State) (die : Nat) (site : ErrSite) : State :=
  if siteCorrects site then logSite s die site .corrected else s

/-- CORRECTABLE_ERROR (R422). -/
def execCorrectableError (die : Nat) (site : ErrSite) (s : State) : Host.Outcome State Fault Refusal :=
  .next (correctable s die site)

/-! ## Links -/

/-- A job receives ABORTED (R196): what stands below it ends with CANCELLED, and its record takes the status. -/
def abortJob (s : State) (die : Nat) (j : Job) : State := endRecord (stopJob s die j) die j j.jrec .aborted

/-- The links of a module (R8, R452): link 4a + b with a < b joins dies a and b, link 5a die a and the S-die, and 16 to 23
are the scale-out ports (numbers: log 31). -/
def linkOk (link : Nat) : Bool := if link < 16 then link / 4 ≤ link % 4 else link < 24
/-- The dies that a die link joins. -/
def linkDies (link : Nat) : List Nat := [link / 4, link % 4]

/-- A launch has work on a die. -/
def worksOn (s : State) (die : Nat) (l : Nat × Launch) : Bool := residentOn s l.1 die || hasImages s die l.1 || hasTodo l.2 die

/-- The jobs that use a link (log 31): a die link those with work on its dies, a port those of the connections that it
carries. -/
def linkJobs (s : State) (link : Nat) : List Job :=
  if link < 16 then (s.launches.filter fun l => (linkDies link).any fun d => worksOn s d l).map fun l => l.2.job
  else (s.conns.filter fun c => c.2.up && connPort c.1 == link - 16).map fun c => c.2.job

/-- A link goes down: every job using it receives ABORTED (R422). -/
def linkDown (s : State) (link : Nat) : State :=
  if !linkOk link || s.linksDown.contains link then s
  else
    let jobs := linkJobs s link
    let die := if link < 16 then link / 4 else 0
    let s := logSite { s with linksDown := setAdd s.linksDown link, links := tableDel s.links link } die (.link link) .fatal
    let s := s.conns.foldl (fun s c => if 16 ≤ link && c.2.up && connPort c.1 == link - 16 then connDown s c.1 c.2 else s) s
    pumpAll (jobs.foldl (fun s j => abortJob s die j) s)

/-- LINK_FLIT_RETRY (R422): a retried flit arrives well, or is retried again, up to 16 times. -/
def execLinkFlitRetry (link : Nat) (good : Bool) (s : State) : Host.Outcome State Fault Refusal :=
  .next (if !linkOk link || s.linksDown.contains link then s
  else
    let n := (tableGet s.links link).getD 0 + 1
    if good then logSite { s with links := tableDel s.links link } (if link < 16 then link / 4 else 0) (.link link) .corrected
    else if n < 16 then { s with links := tablePut s.links link n }
    else linkDown s link)

/-! ## Uncorrectable errors -/

/-- Poison one entry of a v register that holds a value. -/
def Strip.poisonV (p : Strip) (reg strand : Nat) : Strip :=
  { p with v := tableMod p.v reg fun r => { r with poison := r.poison ||| (oneStrand strand &&& r.valid) } }

/-- Poison an 8-byte word of memory. -/
def poisonMemory (s : State) (pa : Nat) : State := if populated pa then { s with poison := setAdd s.poison (pa / 8) } else s

/-- Poison an 8-byte word of HBM: seen at once where the line's home value is HBM's, else when HBM's contents show again. -/
def poisonHbm (s : State) (pa : Nat) : State :=
  let line := lineOf pa
  let word := pa % 128 / 8
  match tableGet s.hbm line with
  | some h => { s with hbm := tablePut s.hbm line { h with held := { h.held with poison := setAdd h.held.poison word } } }
  | none =>
    if (tableGet s.l2 line).isSome then
      let d := lineData s line
      { s with hbm := tablePut s.hbm line ⟨{ d with poison := setAdd d.poison word }, none⟩ }
    else poisonMemory s pa

/-- An uncorrectable error in the L2 (R422): a modified line's word is poisoned, an unmodified line is fetched again. -/
def errorL2 (s : State) (pa : Nat) : Option Severity × State :=
  let line := lineOf pa
  match tableGet s.l2 line with
  | none => (none, s)
  | some l => if l.dirty then (some .poisoned, poisonMemory s pa) else (some .masked, l2Alloc (l2Evict s line) line l.cp)

/-- Poison a word of an entry of a core's store coalescing buffer. -/
def poisonScb (s : State) (core entry word : Nat) : State :=
  modCore s core fun c => { c with scb := listMod c.scb entry fun e => { e with poison := setAdd e.poison word } }

/-- Poison a word of a strip's spill slot: in the buffer, or in memory once it has drained. -/
def poisonSlotWord (s : State) (id reg strand : Nat) : State :=
  match tableGet s.strips id with
  | none => s
  | some p =>
    match (xlate s (stripAgent s p) (vaOf (spillSlot s p reg + 4 * strand)) .any).1 with
    | .error _ => s
    | .ok lf =>
      match (coreOf s p.coreId).scb.findIdx? fun e => e.line == lineOf lf.pa with
      | some n => poisonScb s p.coreId n (lf.pa % 128 / 4)
      | none => poisonMemory s lf.pa

/-- What an uncorrectable error does in its unit (R422), with the severity it is logged at; none when it is not logged. -/
def errorEffect (s : State) (die : Nat) : ErrSite → Option Severity × State
  | .coffer p r k => (some .poisoned, modStrip s p fun q => q.poisonV r k)
  | .uniformFile p r => (some .poisoned, modStrip s p fun q => { q with sPoison := setAdd q.sPoison r })
  | .scratch c w => (some .poisoned, modCore s c fun q => { q with scratchPoison := setAdd q.scratchPoison w })
  | .slot c n e => (some .poisoned, modCore s c fun q => { q with accPoison := setAdd q.accPoison (slotKey n 0 0 + e) })
  | .scb c e w => (some .poisoned, poisonScb s c e w)
  | .spillBuffer p r k => (some .poisoned, poisonSlotWord s p r k)
  | .readCache c pa => (some .masked, dropRc s c (lineOf pa.toNat))
  | .instrCache c pa => (some .masked, modCore s c fun q => { q with ic := tableDel q.ic (pa.toNat / 8) })
  | .walker c _ => (some .masked, dropWalker s c)
  | .rdc pa => (some .masked, dropRdc s die (lineOf pa.toNat))
  | .tlb e => (some .masked, modDie s die fun d => { d with tlb := d.tlb.eraseIdx e })
  | .coreTlb c e => (some .masked, modCore s c fun q => { q with tlb := q.tlb.eraseIdx e })
  | .l2 pa => errorL2 s pa.toNat
  | .hbm pa => (some .poisoned, poisonHbm s pa.toNat)
  | .laneDatapath p r k => (some .poisoned, modStrip s p fun q => q.poisonV r k)
  | .uniformDatapath p r => (some .poisoned, modStrip s p fun q => { q with sPoison := setAdd q.sPoison r })
  | .link n => (none, linkDown s n)
  | .matrixArray c n e flips => (none, modCore s c fun q => { q with
      acc := cellPut (0 : Word) q.acc (slotKey n 0 0 + e) (cellGet (0 : Word) q.acc (slotKey n 0 0 + e) ^^^ flips) })

/-- An uncorrectable error strikes (R422). -/
def uncorrectable (s : State) (die : Nat) (site : ErrSite) : State :=
  match errorEffect s die site with
  | (some sev, s) => logSite s die site sev
  | (none, s) => s

/-- UNCORRECTABLE_ERROR (R422). -/
def execUncorrectableError (die : Nat) (site : ErrSite) (s : State) : Host.Outcome State Fault Refusal :=
  .next (uncorrectable s die site)

/-- An array on the die, which a patrol scrub reads. -/
def siteScrubbed : ErrSite → Bool
  | .hbm _ => false
  | e => siteCorrects e

/-- A place in HBM. -/
def siteHbm : ErrSite → Bool
  | .hbm _ => true
  | _ => false

/-- What a scrub does with the errors it finds in its arrays: corrects in place, or poisons (R422). -/
def scrub (s : State) (die : Nat) (mine : ErrSite → Bool) (found : ScrubErrors) : State :=
  (found.bad.filter mine).foldl (fun s e => uncorrectable s die e) ((found.good.filter mine).foldl (fun s e => correctable s die e) s)

/-- PATROL_SCRUB (R422): a pass over every on-die array. -/
def execPatrolScrub (die : Nat) (found : ScrubErrors) (s : State) : Host.Outcome State Fault Refusal :=
  .next (if s.scrubOn then scrub (modDie s die fun d => { d with scrubs := d.scrubs + 1 }) die siteScrubbed found else s)

/-- HBM_SCRUB (R422): a pass over HBM. -/
def execHbmScrub (die : Nat) (found : ScrubErrors) (s : State) : Host.Outcome State Fault Refusal :=
  .next (scrub (modDie s die fun d => { d with hbmScrubs := d.hbmScrubs + 1 }) die siteHbm found)

end Sys2Proof.Machine
end

