-- ==== Sys2Proof/Machine/SystemDie.lean ====
section
/-! DEFINITION. The S-die's registers as they are written (R482, R483), the display heads and encoders (R494-R497), and the
IOMMU with device accesses (R498). -/
namespace Sys2Proof.Machine

/-! ## The control block -/

/-- FQANS's action (R483): 1 RETRY, 2 ZERO, 3 ABORT of the SEQ written before. -/
def answerFault (s : State) (die action : Nat) : State :=
  let seq := (dieOf s die).fqans.toNat
  match action with
  | 1 => answerRetry s die seq
  | 2 => answerZero s die seq
  | 3 => answerAbort s die seq
  | _ => s

/-- A write of a control block register (R483); writes of RO registers and of other offsets are ignored. -/
def controlWrite (s : State) (die off : Nat) (v : DWord) : State :=
  match off with
  | 0x00 => modDie s die fun d => { d with fqbase := v }
  | 0x08 => modDie s die fun d => { d with fqcap := v }
  | 0x18 => modDie s die fun d => { d with fqans := v }
  | 0x20 => answerFault s die v.toNat
  | 0x28 => modDie s die fun d => { d with elbase := v }
  | 0x30 => modDie s die fun d => { d with elcap := v }
  | 0x40 => modDie s die fun d => { d with tilog := v }
  | 0x48 => ringTi s die
  | 0x50 => modDie s die fun d => { d with jobtab := v }
  | 0x58 => modDie s die fun d => { d with qtab := v }
  | 0x60 => ringBell s (v.toNat % 1024)
  | 0x68 => requestSave s die v.toNat
  | 0x70 => writeFqcons s die v
  | 0x78 => modDie s die fun d => { d with elcons := v }
  | _ => s

/-! ## Display heads -/

/-- Change a display head. -/
def modHead (s : State) (h : Nat) (g : Head → Head) : State := { s with heads := listMod s.heads h g }
/-- A display head. -/
def headOf (s : State) (h : Nat) : Head := s.heads.getD h resetHead

/-- A write of a head's register (R496, R497): reserved bits are ignored; OWNER is RO to the runtime. -/
def Head.write (h : Head) (off : Nat) (v : DWord) : Head :=
  match off with
  | 0x08 => { h with fbaddr := v }
  | 0x10 => { h with pitch := v }
  | 0x18 => { h with mode := v &&& 0xFF0FFFFFFFFF }
  | 0x20 => { h with flipTo := some v }
  | 0x38 => { h with enc := v &&& 7 }
  | 0x40 => { h with codec := v &&& 0xFFFFFF0F }
  | 0x48 => { h with bitrate := v }
  | 0x50 => { h with bsbase := v }
  | 0x58 => { h with bscap := v }
  | 0x68 => { h with bscons := v }
  | 0x78 => { h with keyreq := true }
  | _ => h

/-- FLIP (R496). -/
def execFlip (head : Nat) (value : BitVec 64) (s : State) : Host.Outcome State Fault Refusal :=
  .next (modHead s head fun h => h.write 0x20 value)
/-- KEYREQ (R497). -/
def execKeyreq (head : Nat) (s : State) : Host.Outcome State Fault Refusal :=
  .next (modHead s head fun h => h.write 0x78 0)

/-- What a head's frames are scanned and encoded by: MODE, PITCH and the stream registers (R496). -/
def Head.config (h : Head) : List DWord := [h.mode, h.pitch, h.codec, h.bitrate, h.bsbase, h.bscap]
/-- Registers in force for the current frame. -/
def Head.liveAt (h : Head) (k : Nat) : Nat := (h.live.getD k 0).toNat

/-- The head's partition and its ENABLE bit (R496). -/
def Head.part (h : Head) : Nat := h.owner.toNat % 16
def Head.enabled (h : Head) : Bool := h.owner.getLsbD 8

/-- [lo, hi) lies in a partition's HBM share (R489). -/
def inShare (s : State) (part : Nat) : Nat → Nat → Nat → Bool
  | 0, lo, hi => hi ≤ lo
  | fuel + 1, lo, hi => hi ≤ lo || match s.shares.find? fun r => r.1 == part && r.2.1 ≤ lo && lo < r.2.2 with
    | some r => inShare s part fuel r.2.2 hi
    | none => false

/-- Width, height and pitch of a frame. -/
def Head.width (h : Head) : Nat := h.liveAt 0 % 2 ^ 16
def Head.height (h : Head) : Nat := h.liveAt 0 / 2 ^ 16 % 2 ^ 16
/-- FORMAT of the frame is 1, 10 bits a colour; every other code is taken as 0, 8 bits (DESIGN CHOICE, log 36). -/
def Head.tenBit (h : Head) : Bool := h.liveAt 0 / 2 ^ 32 % 16 == 1

/-- A pixel's colours: red, green, blue. -/
structure Rgb where
  r : Nat
  g : Nat
  b : Nat
deriving DecidableEq, Repr

/-- A pixel as FORMAT lays it out in a 32-bit word (R496). -/
def pixelOf (ten : Bool) (w : Nat) : Rgb :=
  let c := fun k => if ten then w / 2 ^ (10 * k) % 1024 else w / 2 ^ (8 * k) % 256
  ⟨c 2, c 1, c 0⟩

/-- Every line of a frame buffer lies in the partition's share. -/
def frameInside (s : State) (h : Head) : Bool := (List.range h.height).all fun k =>
  let lo := h.flipped.toNat + k * h.liveAt 1
  let hi := lo + 4 * h.width
  inShare s h.part (s.shares.length + 1) lo hi && populated lo && populated (hi - 1)

/-- The pixels of a frame buffer, line by line. -/
def framePixels (s : State) (h : Head) : List Rgb := (List.range h.height).flatMap fun k =>
  (List.range h.width).map fun x =>
    pixelOf h.tenBit (leNat (readHome s (h.flipped.toNat + k * h.liveAt 1 + 4 * x) 4).1)

/-! ### Conversion to Y′CbCr

BT.709 takes colours from 0 to 1 and gives, for `n` bits and limited range, Y′ = ⌊(219 E + 16) 2^(n−8) + ½⌋ and the colour
differences ⌊(224 E + 128) 2^(n−8) + ½⌋. A pixel's colours are taken to fill their range (DEDUCED, log 36). -/

/-- 10,000 times a pixel's luma, in steps of a colour (BT.709). -/
def Rgb.luma (p : Rgb) : Nat := 2126 * p.r + 7152 * p.g + 722 * p.b
/-- 2^(n − 8), and the highest value of a colour. -/
def bitScale (ten : Bool) : Nat := if ten then 4 else 1
def colourMax (ten : Bool) : Nat := if ten then 1023 else 255

/-- Y′ of a pixel (R496). -/
def lumaSample (ten : Bool) (p : Rgb) : Nat :=
  let k := bitScale ten
  let m := 10000 * colourMax ten
  (2 * 219 * k * p.luma + m * (32 * k + 1)) / (2 * m)
/-- A colour difference of a pixel: of a colour, over `d` = 10,000 times BT.709's divisor, 1.8556 for blue and 1.5748 for
red (R496). -/
def chromaSample (ten : Bool) (d colour : Nat) (p : Rgb) : Nat :=
  let k := bitScale ten
  let m := d * colourMax ten
  ((2 * 224 * k * 10000 * colour + m * (256 * k + 1)) - 2 * 224 * k * p.luma) / (2 * m)

/-- The samples of 4:2:0 out of a plane of one sample a pixel: a plane of one value keeps it; any other is filtered in a way
that no standard gives (log 36). -/
def halfPlane (w hgt : Nat) (plane : List Nat) : List Nat :=
  (List.range (hgt / 2)).flatMap fun y => (List.range (w / 2)).map fun x =>
    if plane.all (· == plane.headD 0) then plane.headD 0 else Config.chroma w x y plane

/-- A frame as it is handed to its encoder (R496): Y′, then Cb and Cr at half the width and height. -/
def convertFrame (ten : Bool) (w hgt : Nat) (px : List Rgb) : List Nat :=
  px.map (lumaSample ten) ++ halfPlane w hgt (px.map fun p => chromaSample ten 18556 p.b p) ++
    halfPlane w hgt (px.map fun p => chromaSample ten 15748 p.r p)

/-- The samples of a head's frame, black where its buffer leaves the partition's share; and whether it does not. -/
def scanFrame (s : State) (h : Head) : List Nat × Bool :=
  let ok := frameInside s h
  let px := if ok then framePixels s h else List.replicate (h.width * h.height) ⟨0, 0, 0⟩
  (convertFrame h.tenBit h.width h.height px, ok)

/-- The unit code of a head's error records (log 17). -/
def unitDisplay : Nat := 21

/-- DISPLAY_FRAME_START (R496, R497): a frame not begun by its encoder is skipped; the new one is scanned, black when its
buffer leaves the partition's share. -/
def execDisplayFrameStart (head : Nat) (s : State) : Host.Outcome State Fault Refusal :=
  .next (let h := headOf s head
  if !h.enabled then s
  else
    let missed := h.frame.isSome
    let fb := h.flipTo.getD h.fbaddr
    let changed := h.live != h.config
    let h := { h with fbaddr := fb, flipTo := none, flipped := fb, live := h.config }
    let (samples, ok) := scanFrame s h
    let s := if ok then s else logError s 0 unitDisplay .masked fb.toNat
    modHead s head fun _ => { h with
      skipped := if missed then h.skipped + 1 else h.skipped
      keyreq := h.keyreq || missed || changed
      frame := some (h.frames.toNat, s.clk, h.keyreq || missed || changed, changed)
      scan := samples
      frames := h.frames + 1 })

/-! ## Encoders -/

/-- The heads that wait for an encoder. -/
def waitingHeads (s : State) (enc : Nat) : List Nat := (List.range 16).filter fun h =>
  (headOf s h).enc.toNat % 8 == enc && (headOf s h).frame.isSome

/-- The head that an encoder serves next, in turns weighted by the partitions' weights (R497), and its turn counter: the
head × 65,536 + frames taken. -/
def nextHead (s : State) (enc : Nat) : Option (Nat × Nat) :=
  let t := (s.encoders.getD enc ⟨0, 0⟩).turn
  let cur := t / 65536
  let l := waitingHeads s enc
  if l.contains cur && t % 65536 < s.weights.getD (headOf s cur).part 1 then some (cur, t + 1)
  else
    let far := fun h => (h + 15 - cur) % 16
    match l with
    | [] => none
    | h :: rest =>
      let b := rest.foldl (fun b h => if far h < far b then h else b) h
      some (b, b * 65536 + 1)

/-- A record's header (R497). -/
def frameHeader (len flags frame clock : Nat) : List Byte :=
  leBytes 4 len ++ leBytes 4 flags ++ leBytes 8 frame ++ leBytes 8 clock ++ leBytes 8 0

/-- Write a record of a head's ring when it has room (R497): the bytes, then BSPROD. -/
def putRing (s : State) (head : Nat) (b : List Byte) : Option State :=
  let h := headOf s head
  if h.liveAt 5 < h.bsprod.toNat + b.length - h.bscons.toNat ∨ h.liveAt 5 = 0 then none
  else
    let s := writePhys s 0 (h.liveAt 4 + h.bsprod.toNat % h.liveAt 5) b
    some (modHead s head fun h => { h with bsprod := h.bsprod + BitVec.ofNat 64 b.length })

/-- Write a frame's record, after a filler where it would cross the ring's end. -/
def putFrame (s : State) (head flags frame clock : Nat) (payload : List Byte) : Option State :=
  let h := headOf s head
  let rec_ := frameHeader payload.length flags frame clock ++ payload ++ List.replicate ((16 - payload.length % 16) % 16) 0
  let rest := h.liveAt 5 - h.bsprod.toNat % h.liveAt 5
  if rest < rec_.length then
    let filler := (frameHeader (rest - 32) (2 ^ 31) frame clock ++ List.replicate (rest - 32) 0).take rest
    match putRing s head filler with
    | none => none
    | some s => putRing s head rec_
  else putRing s head rec_

/-- The frame is a key frame: asked for, or due by the interval of CODEC (R497). -/
def keyDue (h : Head) (asked : Bool) : Bool := asked || h.liveAt 2 / 2 ^ 16 % 2 ^ 16 ≤ h.sinceKey + 1

/-- The samples that the encoder codes (R497): for HEVC Main with FORMAT 1 the 8 high bits of each. -/
def codedSamples (h : Head) : List Nat :=
  if h.tenBit && h.liveAt 2 % 4 == 1 then h.scan.map (· / 4) else h.scan

/-- ENCODED_FRAME_WRITE (R497): an encoder finishes the frame of the head whose turn it is, a key frame when one has been asked
for up to now; without room the frame is skipped, and the next one is a key frame. The cycles it took are free (log 2). -/
def execEncodedFrameWrite (enc : Nat) (s : State) : Host.Outcome State Fault Refusal :=
  .next (match nextHead s enc with
  | none => s
  | some (head, turn) =>
    let h := headOf s head
    match h.frame with
    | none => s
    | some (frame, clock, asked, first) =>
      let key := keyDue h (asked || h.keyreq)
      let payload := Config.encodeFrame h.live key (codedSamples h)
      let busy : DWord := (Config.freeWord s.free 0).setWidth 64
      let s := { s with
        free := s.free + 1
        encoders := listMod s.encoders enc fun e => ⟨e.busy + busy, turn⟩ }
      let flags := (if key then 1 else 0) + (if first then 2 else 0)
      match putFrame s head flags frame clock payload with
      | some s => modHead s head fun h => { h with
          frame := none, scan := [], keyreq := false, sinceKey := if key then 0 else h.sinceKey + 1 }
      | none => modHead s head fun h => { h with frame := none, scan := [], skipped := h.skipped + 1, keyreq := true })

/-! ## REGISTER_WRITE and the IOMMU's invalidations -/

/-- IOINV (R498): drop the cached translations of an ASID. -/
def ioinvAsid (s : State) (asid : Nat) : State :=
  { s with iommu := { s.iommu with cached := s.iommu.cached.filter fun t => t.asid != asid } }
/-- Drop every cached translation. -/
def ioinvAll (s : State) : State := { s with iommu := { s.iommu with cached := [] } }
/-- IOINV_ASID (R498). -/
def execIoinvAsid (asid : BitVec 16) (s : State) : Host.Outcome State Fault Refusal := .next (ioinvAsid s asid.toNat)
/-- IOINV_ALL (R498). -/
def execIoinvAll (s : State) : Host.Outcome State Fault Refusal := .next (ioinvAll s)

/-- A store of 8 bytes arrives at a register (R482, R483, R496-R498): one that is not aligned is recorded, as R230 lays down,
and writes nothing. The S-die's records stand in die 0's log (log 17). -/
def writeRegister (s : State) (pa : Nat) (v : DWord) : State :=
  let o := devOff pa
  if !isDevice pa then s
  else if pa % 8 ≠ 0 then logError s 0 unitDevice .masked pa
  else if o < 0x4000 then controlWrite s (o / 0x1000) (o % 0x1000) v
  else if o = 0x4000 then { s with iommu := { s.iommu with iotab := v } }
  else if o = 0x4008 then (if v.getLsbD 16 then ioinvAll s else ioinvAsid s (v.toNat % 2 ^ 16))
  else if 0x10000 ≤ o ∧ o < 0x11000 then modHead s ((o - 0x10000) / 256) fun h => h.write (o % 256) v
  else s

/-- REGISTER_WRITE (R483). -/
def execRegisterWrite (pa : BitVec 44) (value : BitVec 64) (s : State) : Host.Outcome State Fault Refusal :=
  .next (writeRegister s pa.toNat value)

/-! ## Stores of the runtime and of devices -/

/-- A store of bytes of one line by an RV64 core or a device (R1, R456, R482, R498): to a register, or at its home. One that no
register accepts, or that lies beyond the populated window, is dropped and recorded (R230, R482): in its home die's log,
and in die 0's for the S-die (log 17). -/
def outerStore (s : State) (pa : Nat) (b : List Byte) : State :=
  if isDevice pa then
    (if b.length = 8 then writeRegister s pa (BitVec.ofNat 64 (leNat b)) else logError s 0 unitDevice .masked pa)
  else hardWrite s (if onSdie pa then 0 else homeDie pa) pa b

/-! ## The IOMMU -/

/-- Hold a translation in place of an older one of the page. -/
def ioPut (l : List TlbEntry) (t : TlbEntry) : List TlbEntry :=
  t :: l.filter fun u => !(u.asid == t.asid && u.page == t.page)

/-- Translate an address of a device (R498), perhaps by a translation still cached (log 8); none when it fails. -/
def ioXlate (s : State) (j : Job) (va : Nat) (acc : Access) : Option Leaf × State :=
  let fresh := walk s j.root va
  let use := fun (e : DWord) (b : Nat) => (useEntry e b va acc).toOption
  let walked := fun s : State => match fresh with
    | .error _ => (none, noteWalk s 0 j.root va)
    | .ok (e, b) => match use e b with
      | some l => (some l, { s with iommu := { s.iommu with cached := ioPut s.iommu.cached ⟨j.asid, va / b * b, b, e⟩ } })
      | none => (none, s)
  match tlbFind s.iommu.cached j.asid va with
  | none => walked s
  | some t =>
    let (c, s) := s.choose
    if c then (use t.entry t.bytes, s) else walked s

/-- Translate the pieces of a device access; none when one fails. -/
def ioXlateAll (s : State) (j : Job) (acc : Access) : List (Nat × Nat) → Option (List Piece) × State
  | [] => (some [], s)
  | (va, n) :: rest =>
    match ioXlate s j va acc with
    | (none, s) => (none, s)
    | (some l, s) => match ioXlateAll s j acc rest with
      | (none, s) => (none, s)
      | (some ps, s) => (some (⟨va, l, n⟩ :: ps), s)

/-- The address of a requester's entry (R498). -/
def requesterAt (s : State) (bdf : Nat) : Nat := s.iommu.iotab.toNat + 8 * bdf

/-- The job whose tables translate a requester's accesses (R498): none when its entry is not valid. An entry with a 1 in
a bit other than VALID and JOB is taken as not valid (DESIGN CHOICE, log 54). -/
def requesterJob (s : State) (bdf : Nat) : Option Job :=
  let (b, bad) := readHome s (requesterAt s bdf) 8
  let e := leNat b
  let index := e / 2 ^ 16 % 2 ^ 16
  let (jb, jbad) := jobEntry s 0 index
  if bad || jbad || e % 2 == 0 || e / 2 % 2 ^ 15 != 0 || e / 2 ^ 32 != 0 || !(field jb 0x04 1).testBit 0 || 4095 < index then none
  else some (parseJob index jb)

/-- What a device's read of a piece leaves: a record where it names no memory and no register (R230, R482). -/
def outerRead (s : State) (p : Piece) : State :=
  if isDevice p.leaf.pa then
    (if p.len = 8 ∧ p.leaf.pa % 8 = 0 then s else logError s 0 unitDevice .masked p.leaf.pa)
  else noteBeyond s (if onSdie p.leaf.pa then 0 else homeDie p.leaf.pa) p.leaf.pa

/-- The unit code of a refused device access (log 17). -/
def unitIommu : Nat := 22

/-- A refused device access: a record names the requester and the address. -/
def refuseDma (s : State) (bdf : BitVec 16) (va : BitVec 48) : State :=
  logError s 0 unitIommu .masked (bdf.toNat * 2 ^ 48 + va.toNat)

/-- DEVICE_DMA_ACCESS (R498): what a read returns goes to the device. -/
def execDeviceDmaAccess (bdf : BitVec 16) (va : BitVec 48) (len : Nat) (write : Option (List Byte)) (s : State)
    : Host.Outcome State Fault Refusal :=
  let s := noteBeyond s 0 (requesterAt s bdf.toNat)
  .next (match requesterJob s bdf.toNat with
  | none => refuseDma s bdf va
  | some j =>
    let n := match write with
      | some b => b.length
      | none => len
    match ioXlateAll s j (if write.isSome then .write else .read) (linePieces (n / 128 + 2) va.toNat n) with
    | (none, s) => refuseDma s bdf va
    | (some ps, s) =>
      match write with
      | none => ps.foldl outerRead s
      | some b => (splitBytes ps b).foldl (fun s q => outerStore s q.1 q.2) s)

end Sys2Proof.Machine
end

