-- ==== Sys2Proof/Machine/Module.lean ====
section
/-! DEFINITION. The module (R3, R490-R493, R499, R500): boot and self-test, module reset, the management port, and the power
and thermal bands. -/
namespace Sys2Proof.Machine

/-! ## Boot -/

/-- The bytes that an image's digest covers: its contents, the security version and the anchors (R492; order: log 12). -/
def fwBytes (i : FwImage) : List Byte :=
  let code : Role → Byte := fun r => match r with
    | .observe => 0
    | .operate => 1
    | .firmware => 2
  i.body ++ leBytes 4 i.version ++ i.anchors.map code

/-- An image may run (R492): its digest, both keys and both signatures verify, and its version is allowed. -/
def imageRuns (b : Boot) (i : FwImage) : Bool :=
  i.digest == Config.sha512 (fwBytes i) && Config.sha512 i.keyEd == b.keyEd && Config.sha512 i.keyMl == b.keyMl &&
    i.sigEd.length == 64 && i.sigMl.length == 3309 && Config.verifyEd i.keyEd i.sigEd i.digest &&
    Config.verifyMl i.keyMl i.sigMl i.digest && b.fuseMin ≤ i.version && i.version < 2 ^ 32 && i.anchors.length ≤ 8

/-- Run an image, or stay in recovery. -/
def runImage (s : State) (i : FwImage) : State := { s with boot := { s.boot with recovery := false, image := some i } }

/-- The unit codes of self-test failures of a bay and of a core (log 17). -/
def unitSelfTest : Nat := 19
def unitSelfTestCore : Nat := 23

/-- The bays that a failed unit takes with it, and its die: a failed core is fenced as its 12 bays. -/
def FailedUnit.bays : FailedUnit → List Nat
  | .bay n => [n]
  | .core n => (List.range 12).map fun b => n * 12 + b
def FailedUnit.die : FailedUnit → Nat
  | .bay n => n / 1152
  | .core n => n / 96
def FailedUnit.number : FailedUnit → Nat
  | .bay n => n
  | .core n => n
/-- The unit exists. -/
def FailedUnit.ok : FailedUnit → Bool
  | .bay n => n < 4608
  | .core n => n < 384

/-- Fence a unit that failed self-test off (R3) and record it once: in the module's error record and, as one fatal record
of the unit, in its die's error log, which counts it lost while the log has no ring (DESIGN CHOICE, log 56). -/
def fence (s : State) (u : FailedUnit) : State :=
  if !u.ok ∨ s.boot.failures.contains u then s
  else
    let s := { s with fenced := u.bays.foldl setAdd s.fenced, boot := { s.boot with failures := s.boot.failures ++ [u] } }
    logError s u.die (match u with
      | .bay _ => unitSelfTest
      | .core _ => unitSelfTestCore) .fatal u.number

/-- BOOT (R492, R3): the bays and cores that fail self-test are fenced off and recorded (a failed core as one unit, with
its 12 bays: DESIGN CHOICE, log 56); the image runs if it verifies, else the module stays in recovery. It happens once
after a reset. -/
def execBoot (image : Option FwImage) (failed : SelfTest) (s : State) : Host.Outcome State Fault Refusal :=
  .next (if s.boot.image.isSome then s
  else
    let s := (failed.bays.map FailedUnit.bay ++ failed.cores.map FailedUnit.core).foldl fence s
    match image with
    | some i => if imageRuns s.boot i then runImage s i else s
    | none => s)

/-- A module reset: the machine after reset; memory, the fuses, the fenced units and the model's own fields
stay (log 10). -/
def moduleReset (s : State) : State :=
  { State.reset with
    mem := s.mem
    poison := s.poison
    boot := { s.boot with recovery := true, image := none }
    fenced := s.fenced
    inputs := s.inputs
    ticks := s.ticks
    cycleOver := s.cycleOver
    free := s.free
    nextId := s.nextId }

/-! ## Sessions -/

/-- Response statuses (R490). -/
def stOK : Nat := 0
def stDENIED : Nat := 1
def stREFUSED : Nat := 2
def stMALFORMED : Nat := 3

/-- A role serves an operation (R491); the roles build on one another. -/
def roleServes (r : Role) (op : Nat) : Bool :=
  match r with
  | .observe => [1, 2, 7].contains op
  | .operate => [1, 2, 7, 3, 4, 5, 8].contains op
  | .firmware => [1, 2, 7, 3, 4, 5, 8, 6, 9].contains op

/-- An operation is served to a session: in recovery 1, 6 and 8 to any client (R491, R492). -/
def served (s : State) (x : Session) (op : Nat) : Bool :=
  if s.boot.recovery then [1, 6, 8].contains op else match x.role with
    | some r => roleServes r op
    | none => false

/-- Store the response to a request. -/
def respond (s : State) (session : Nat) (num : DWord) (st : Nat) (body : List Byte) : State :=
  { s with sessions := tableMod s.sessions session fun x => { x with answered := x.answered ++ [(num, st, body)] } }

/-- A request (R490): one already answered is not executed again; one outside the role is DENIED. -/
def request (s : State) (session : Nat) (num : DWord) (op : Nat) (run : State → Nat × List Byte × State) : State :=
  match tableGet s.sessions session with
  | none => s
  | some x =>
    if x.answered.any fun a => a.1 == num then s
    else if !served s x op then respond s session num stDENIED []
    else
      let (st, body, s) := run s
      respond s session num st body

/-- MGMT_SESSION (R491): a chain that ends at no anchor of the image ends the session; in recovery any client is served. -/
def execMgmtSession (anchor : Option Nat) (s : State) : Host.Outcome State Fault Refusal :=
  .next (let put := fun (r : Option Role) =>
    { s with sessions := tablePut s.sessions s.nextId ⟨r, []⟩, nextId := s.nextId + 1 }
  if s.boot.recovery then put none
  else match anchor, s.boot.image with
    | some k, some i => match i.anchors[k]? with
      | some r => put (some r)
      | none => s
    | _, _ => s)

/-- MGMT_MALFORMED_REQUEST (R490). -/
def execMgmtMalformedRequest (session : Nat) (num : BitVec 64) (s : State) : Host.Outcome State Fault Refusal :=
  .next (match tableGet s.sessions session with
  | none => s
  | some x => if x.answered.any fun a => a.1 == num then s else respond s session num stMALFORMED [])

/-! ## Operations -/

/-- MGMT_READ_STATUS (R490). -/
def execMgmtReadStatus (session : Nat) (num : BitVec 64) (s : State) : Host.Outcome State Fault Refusal :=
  .next (request s session num 1 fun s =>
    (stOK, Config.statusBody (s.dies.map (·.temp) ++ [s.sTemp] ++ s.dies.map (·.power) ++
      [if s.alarm then 1 else 0, s.coolant.1, s.coolant.2] ++ s.fenced), s))

/-- The error records of a die's ring after a sequence number. -/
def recordsAfter (s : State) (d : Die) (after : Nat) : List Byte :=
  let n := min d.elprod.toNat d.elcap.toNat
  (List.range n).flatMap fun k =>
    let b := (readHome s (d.elbase.toNat + 32 * ((d.elprod.toNat - n + k) % d.elcap.toNat)) 32).1
    if after < field b 0 8 then b else []

/-- The reads of a die's error log that lie beyond the populated window are recorded (R230). -/
def noteLogReads (s : State) (die : Nat) : State :=
  let d := dieOf s die
  (List.range (min d.elprod.toNat d.elcap.toNat)).foldl (fun s k =>
    noteBeyond s die (d.elbase.toNat + 32 * ((d.elprod.toNat + k) % d.elcap.toNat))) s

/-- MGMT_READ_ERROR_LOG (R490). -/
def execMgmtReadErrorLog (session : Nat) (num after : BitVec 64) (s : State) : Host.Outcome State Fault Refusal :=
  .next (request s session num 2 fun s =>
    (stOK, s.dies.flatMap fun d => recordsAfter s d after.toNat, (List.range 4).foldl noteLogReads s))

/-- Some job runs: a launch, graph, copy or command of it is live. -/
def jobsRun (s : State) : Bool :=
  !s.launches.isEmpty || !s.graphs.isEmpty || !s.copies.isEmpty || s.queues.any fun q => !q.2.accepted.isEmpty

/-- MGMT_SET_PARTITIONS (R490): refused while any job runs. -/
def execMgmtSetPartitions (session : Nat) (num : BitVec 64) (map owners weights : List Nat) (shares : List (Nat × Nat × Nat))
    (s : State) : Host.Outcome State Fault Refusal :=
  .next (request s session num 3 fun s =>
    if map.length ≠ 16 ∨ owners.length ≠ 16 ∨ weights.length ≠ 16 ∨ !(map.all (· < 16)) then (stMALFORMED, [], s)
    else if jobsRun s then (stREFUSED, [], s)
    else
      let own := fun (h : Head × Nat) => { h.1 with owner := BitVec.ofNat 64 h.2 &&& 0x10F }
      (stOK, [], { s with parts := map, weights := weights, shares := shares, heads := (s.heads.zip owners).map own }))

/-- MGMT_PATROL_SCRUB (R490). -/
def execMgmtPatrolScrub (session : Nat) (num : BitVec 64) (on : Bool) (s : State) : Host.Outcome State Fault Refusal :=
  .next (request s session num 4 fun s => (stOK, [], { s with scrubOn := on }))

/-- MGMT_SET_POWER_CAP (R490, R499). -/
def execMgmtSetPowerCap (session : Nat) (num : BitVec 64) (die watts : Nat) (s : State) : Host.Outcome State Fault Refusal :=
  .next (request s session num 5 fun s =>
    if 4 ≤ die then (stMALFORMED, [], s)
    else (stOK, [], modDie s die fun d => { d with cap := watts, held := watts < d.power }))

/-- MGMT_LOAD_FIRMWARE (R492): an image that does not verify is refused. -/
def execMgmtLoadFirmware (session : Nat) (num : BitVec 64) (image : FwImage) (s : State) : Host.Outcome State Fault Refusal :=
  .next (request s session num 6 fun s =>
    if imageRuns s.boot image then (stOK, [], runImage s image) else (stREFUSED, [], s))

/-- An attestation report (R493): the nonce, the image digest, the partition map and the fused unit map (layout: log 12). -/
def reportBytes (s : State) (nonce : BitVec 256) : List Byte :=
  leBytes 32 nonce.toNat ++ leBytes 64 ((s.boot.image.map fun i => i.digest.toNat).getD 0) ++
    s.parts.flatMap (fun p => leBytes 1 p) ++ s.fenced.flatMap fun u => leBytes 2 u

/-- MGMT_ATTESTATION (R493): the report and its two signatures. -/
def execMgmtAttestation (session : Nat) (num : BitVec 64) (nonce : BitVec 256) (s : State) : Host.Outcome State Fault Refusal :=
  .next (request s session num 7 fun s => (stOK, reportBytes s nonce ++ Config.attest (reportBytes s nonce), s))

/-- MGMT_MODULE_RESET (R490). -/
def execMgmtModuleReset (session : Nat) (num : BitVec 64) (s : State) : Host.Outcome State Fault Refusal :=
  .next (request s session num 8 fun s => (stOK, [], moduleReset s))

/-- MGMT_RAISE_SECURITY_VERSION (R492): refused below the fused minimum or above 64. -/
def execMgmtRaiseSecurityVersion (session : Nat) (num : BitVec 64) (s : State) : Host.Outcome State Fault Refusal :=
  .next (request s session num 9 fun s => match s.boot.image with
    | none => (stREFUSED, [], s)
    | some i =>
      if i.version < s.boot.fuseMin ∨ 64 < i.version then (stREFUSED, [], s)
      else (stOK, [], { s with boot := { s.boot with fuseMin := i.version } }))

/-! ## Power and heat -/

/-- POWER_CAP_THROTTLE (R499): above its cap a die's dispatcher holds back issue. -/
def execPowerCapThrottle (die watts : Nat) (s : State) : Host.Outcome State Fault Refusal :=
  .next (modDie s die fun d => { d with power := watts, held := d.cap < watts })

/-- The unit codes of thermal records of a C-die and of the S-die, and of coolant records (log 17). -/
def unitThermal : Nat := 18
def unitThermalSdie : Nat := 25
def unitCoolant : Nat := 20

/-- The band of a junction temperature below 110 degrees (R500). -/
def bandOf (temp : Nat) : Band := if temp ≤ 95 then .normal else if temp ≤ 105 then .throttle else .critical

/-- A thermal record of die 0 to 3, or of the S-die, number 4, in die 0's log (log 33). -/
def logThermal (s : State) (die : Nat) (sev : Severity) (temp : Nat) : State :=
  if die = 4 then logError s 0 unitThermalSdie sev temp else logError s die unitThermal sev temp

/-- The band in which a die was last reported. -/
def bandNow (s : State) (die : Nat) : Band := if die = 4 then s.sBand else (dieOf s die).band

/-- A die's junction temperature is reported: the records of entering and leaving a band, and the band (R500). The S-die is
die 4; it has no dispatcher to hold back. -/
def setBand (s : State) (die temp : Nat) : State :=
  let old := bandNow s die
  let new := bandOf temp
  let s := if die = 4 then { s with sTemp := temp, sBand := new } else modDie s die fun d => { d with temp := temp, band := new }
  if old = new then s
  else
    let s := if old = .critical ∨ new = .critical then logThermal s die .fatal temp else s
    if new = .throttle then logThermal s die .corrected temp else s

/-- THERMAL_THROTTLE_BAND (R500). -/
def execThermalThrottleBand (die temp : Nat) (s : State) : Host.Outcome State Fault Refusal :=
  .next (if temp ≤ 105 then setBand s die temp else s)

/-- THERMAL_CRITICAL_BAND (R500): entering it stops the dispatch of new workgroups; leaving it ends that. -/
def execThermalCriticalBand (die temp : Nat) (s : State) : Host.Outcome State Fault Refusal :=
  .next (if temp < 110 then setBand s die temp else s)

/-- THERMAL_RESET (R500): at 110 degrees the event is logged and the module is reset. -/
def execThermalReset (die temp : Nat) (s : State) : Host.Outcome State Fault Refusal :=
  .next (if 110 ≤ temp then moduleReset (logThermal s die .fatal temp) else s)

/-- COOLANT_ALARM (R500): outside the limits of R499 a record is logged and the alarm is raised. -/
def execCoolantAlarm (inlet flow : Nat) (s : State) : Host.Outcome State Fault Refusal :=
  .next (let s := { s with coolant := (inlet, flow) }
  if 40 < inlet ∨ flow < 4 then logError { s with alarm := true } 0 unitCoolant .masked (inlet * 2 ^ 16 + flow)
  else { s with alarm := false })

end Sys2Proof.Machine
end

