-- ==== Sys2Proof/Machine/UniformScalar.lean ====
section
/-! DEFINITION. The meanings of the uniform pipe's scalar instructions (R170). -/
namespace Sys2Proof.Machine

/-- SADD (R170). -/
def execSadd (f : FmtR) (s : State) : Host.Outcome State Fault Refusal :=
  uniformOp (.sadd f) (fun o => intAdd f o.ua o.ub) s

/-- SSUB (R170). -/
def execSsub (f : FmtR) (s : State) : Host.Outcome State Fault Refusal :=
  uniformOp (.ssub f) (fun o => intSub f o.ua o.ub) s

/-- SMUL (R170). -/
def execSmul (f : FmtR) (s : State) : Host.Outcome State Fault Refusal :=
  uniformOp (.smul f) (fun o => intMul f o.ua o.ub) s

/-- SMULH (R170). -/
def execSmulh (f : FmtR) (s : State) : Host.Outcome State Fault Refusal :=
  uniformOp (.smulh f) (fun o => intMulh f o.ua o.ub) s

/-- SMAD (R170). -/
def execSmad (f : FmtR) (s : State) : Host.Outcome State Fault Refusal :=
  uniformOp (.smad f) (fun o => intMad f o.ua o.ub o.uc) s

/-- SMIN (R170). -/
def execSmin (f : FmtR) (s : State) : Host.Outcome State Fault Refusal :=
  uniformOp (.smin f) (fun o => intMinOp f o.ua o.ub) s

/-- SMAX (R170). -/
def execSmax (f : FmtR) (s : State) : Host.Outcome State Fault Refusal :=
  uniformOp (.smax f) (fun o => intMaxOp f o.ua o.ub) s

/-- SCMP (R170). -/
def execScmp (f : FmtR) (s : State) : Host.Outcome State Fault Refusal :=
  uniformOp (.scmp f) (fun o => intCmp f o.ua o.ub) s

/-- SSEL (R170). -/
def execSsel (f : FmtR) (s : State) : Host.Outcome State Fault Refusal :=
  uniformOp (.ssel f) (fun o => intSel o.ua o.ub o.uc) s

/-- SAND (R170). -/
def execSand (f : FmtR) (s : State) : Host.Outcome State Fault Refusal :=
  uniformOp (.sand f) (fun o => bitwise (· &&& ·) o.ua o.ub) s

/-- SOR (R170). -/
def execSor (f : FmtR) (s : State) : Host.Outcome State Fault Refusal :=
  uniformOp (.sor f) (fun o => bitwise (· ||| ·) o.ua o.ub) s

/-- SXOR (R170). -/
def execSxor (f : FmtR) (s : State) : Host.Outcome State Fault Refusal :=
  uniformOp (.sxor f) (fun o => bitwise (· ^^^ ·) o.ua o.ub) s

/-- SSHL (R170). -/
def execSshl (f : FmtR) (s : State) : Host.Outcome State Fault Refusal :=
  uniformOp (.sshl f) (fun o => intShl f o.ua o.ub) s

/-- SSHR (R170). -/
def execSshr (f : FmtR) (s : State) : Host.Outcome State Fault Refusal :=
  uniformOp (.sshr f) (fun o => intShr f o.ua o.ub) s

/-- SSAR (R170). -/
def execSsar (f : FmtR) (s : State) : Host.Outcome State Fault Refusal :=
  uniformOp (.ssar f) (fun o => intSar f o.ua o.ub) s

/-- SBFX (R170). -/
def execSbfx (f : FmtR) (s : State) : Host.Outcome State Fault Refusal :=
  uniformOp (.sbfx f) (fun o => bfxOp f o.ua o.ub) s

/-- SPOPC (R170). -/
def execSpopc (f : FmtR) (s : State) : Host.Outcome State Fault Refusal :=
  uniformOp (.spopc f) (fun o => popcOp f o.ua) s

/-- SLEA (R170). -/
def execSlea (f : FmtR) (s : State) : Host.Outcome State Fault Refusal :=
  uniformOp (.slea f) (fun o => leaOp f o.ua o.ub) s

/-- SMOV (R170). -/
def execSmov (f : FmtR) (s : State) : Host.Outcome State Fault Refusal :=
  uniformOp (.smov f) (fun o => (o.ua, 0)) s

/-- SMOVI (R91, R170). -/
def execSmovi (f : FmtI) (s : State) : Host.Outcome State Fault Refusal :=
  uniformOp (.smovi f) (fun _ => ([f.imm], 0)) s

/-- SFADD (R170). -/
def execSfadd (f : FmtR) (s : State) : Host.Outcome State Fault Refusal :=
  uniformOp (.sfadd f) (fun o => fpAdd f o.ua o.ub) s

/-- SFMUL (R170). -/
def execSfmul (f : FmtR) (s : State) : Host.Outcome State Fault Refusal :=
  uniformOp (.sfmul f) (fun o => fpMul f o.ua o.ub) s

/-- SFFMA (R170). -/
def execSffma (f : FmtR) (s : State) : Host.Outcome State Fault Refusal :=
  uniformOp (.sffma f) (fun o => fpFma f o.ua o.ub o.uc) s

/-- SCVT (R170). -/
def execScvt (f : FmtR) (s : State) : Host.Outcome State Fault Refusal :=
  uniformOp (.scvt f) (fun o => cvtOp f o.ua) s

end Sys2Proof.Machine
end

