-- ==== Sys2Proof/Machine/Dispatch.lean ====
section
/-! DEFINITION. The dispatch of every instruction and event to its meaning: one arm per constructor of Instr. -/
namespace Sys2Proof.Machine

def exec (i : Instr) (s : State) : Host.Outcome State Fault Refusal :=
  match i with
  | .iadd f => Sys2Proof.Machine.execIadd f s
  | .isub f => Sys2Proof.Machine.execIsub f s
  | .imul f => Sys2Proof.Machine.execImul f s
  | .imulh f => Sys2Proof.Machine.execImulh f s
  | .imad f => Sys2Proof.Machine.execImad f s
  | .idiv f => Sys2Proof.Machine.execIdiv f s
  | .irem f => Sys2Proof.Machine.execIrem f s
  | .imin f => Sys2Proof.Machine.execImin f s
  | .imax f => Sys2Proof.Machine.execImax f s
  | .iabs f => Sys2Proof.Machine.execIabs f s
  | .ineg f => Sys2Proof.Machine.execIneg f s
  | .icmp f => Sys2Proof.Machine.execIcmp f s
  | .isel f => Sys2Proof.Machine.execIsel f s
  | .iand f => Sys2Proof.Machine.execIand f s
  | .ior f => Sys2Proof.Machine.execIor f s
  | .ixor f => Sys2Proof.Machine.execIxor f s
  | .iandn f => Sys2Proof.Machine.execIandn f s
  | .ishl f => Sys2Proof.Machine.execIshl f s
  | .ishr f => Sys2Proof.Machine.execIshr f s
  | .isar f => Sys2Proof.Machine.execIsar f s
  | .ifshl f => Sys2Proof.Machine.execIfshl f s
  | .ifshr f => Sys2Proof.Machine.execIfshr f s
  | .bfx f => Sys2Proof.Machine.execBfx f s
  | .bfi f => Sys2Proof.Machine.execBfi f s
  | .popc f => Sys2Proof.Machine.execPopc f s
  | .clz f => Sys2Proof.Machine.execClz f s
  | .ctz f => Sys2Proof.Machine.execCtz f s
  | .brev f => Sys2Proof.Machine.execBrev f s
  | .bperm f => Sys2Proof.Machine.execBperm f s
  | .lea f => Sys2Proof.Machine.execLea f s
  | .isad f => Sys2Proof.Machine.execIsad f s
  | .mov f => Sys2Proof.Machine.execMov f s
  | .movi f => Sys2Proof.Machine.execMovi f s
  | .dot4 f => Sys2Proof.Machine.execDot4 f s
  | .dot8 f => Sys2Proof.Machine.execDot8 f s
  | .fadd f => Sys2Proof.Machine.execFadd f s
  | .fsub f => Sys2Proof.Machine.execFsub f s
  | .fmul f => Sys2Proof.Machine.execFmul f s
  | .ffma f => Sys2Proof.Machine.execFfma f s
  | .fmin f => Sys2Proof.Machine.execFmin f s
  | .fmax f => Sys2Proof.Machine.execFmax f s
  | .fcmp f => Sys2Proof.Machine.execFcmp f s
  | .fclass f => Sys2Proof.Machine.execFclass f s
  | .frnd f => Sys2Proof.Machine.execFrnd f s
  | .fscale f => Sys2Proof.Machine.execFscale f s
  | .frcp f => Sys2Proof.Machine.execFrcp f s
  | .frsq f => Sys2Proof.Machine.execFrsq f s
  | .fsqrt f => Sys2Proof.Machine.execFsqrt f s
  | .fdiv f => Sys2Proof.Machine.execFdiv f s
  | .fex2 f => Sys2Proof.Machine.execFex2 f s
  | .flg2 f => Sys2Proof.Machine.execFlg2 f s
  | .fsinpi f => Sys2Proof.Machine.execFsinpi f s
  | .fcospi f => Sys2Proof.Machine.execFcospi f s
  | .ftanh f => Sys2Proof.Machine.execFtanh f s
  | .hfma2 f => Sys2Proof.Machine.execHfma2 f s
  | .fdot2 f => Sys2Proof.Machine.execFdot2 f s
  | .cvt f => Sys2Proof.Machine.execCvt f s
  | .cvtpk f => Sys2Proof.Machine.execCvtpk f s
  | .cvtxp f => Sys2Proof.Machine.execCvtxp f s
  | .shfl f => Sys2Proof.Machine.execShfl f s
  | .gshfl f => Sys2Proof.Machine.execGshfl f s
  | .vote f => Sys2Proof.Machine.execVote f s
  | .red f => Sys2Proof.Machine.execRed f s
  | .scan f => Sys2Proof.Machine.execScan f s
  | .isect f => Sys2Proof.Machine.execIsect f s
  | .smerge f => Sys2Proof.Machine.execSmerge f s
  | .sort16 f => Sys2Proof.Machine.execSort16 f s
  | .matchKeys f => Sys2Proof.Machine.execMatchKeys f s
  | .jarv f => Sys2Proof.Machine.execJarv f s
  | .jwait f => Sys2Proof.Machine.execJwait f s
  | .bra f => Sys2Proof.Machine.execBra f s
  | .brx f => Sys2Proof.Machine.execBrx f s
  | .call f => Sys2Proof.Machine.execCall f s
  | .ret f => Sys2Proof.Machine.execRet f s
  | .exit f => Sys2Proof.Machine.execExit f s
  | .nop f => Sys2Proof.Machine.execNop f s
  | .ldg f => Sys2Proof.Machine.execLdg f s
  | .stg f => Sys2Proof.Machine.execStg f s
  | .ldc f => Sys2Proof.Machine.execLdc f s
  | .ldga f => Sys2Proof.Machine.execLdga f s
  | .stgr f => Sys2Proof.Machine.execStgr f s
  | .ldl f => Sys2Proof.Machine.execLdl f s
  | .stl f => Sys2Proof.Machine.execStl f s
  | .atomg f => Sys2Proof.Machine.execAtomg f s
  | .atoml f => Sys2Proof.Machine.execAtoml f s
  | .redg f => Sys2Proof.Machine.execRedg f s
  | .pref f => Sys2Proof.Machine.execPref f s
  | .vlook f => Sys2Proof.Machine.execVlook f s
  | .vsten f => Sys2Proof.Machine.execVsten f s
  | .vmarch f => Sys2Proof.Machine.execVmarch f s
  | .vprobe f => Sys2Proof.Machine.execVprobe f s
  | .vins f => Sys2Proof.Machine.execVins f s
  | .vact f => Sys2Proof.Machine.execVact f s
  | .enq f => Sys2Proof.Machine.execEnq f s
  | .sadd f => Sys2Proof.Machine.execSadd f s
  | .ssub f => Sys2Proof.Machine.execSsub f s
  | .smul f => Sys2Proof.Machine.execSmul f s
  | .smulh f => Sys2Proof.Machine.execSmulh f s
  | .smad f => Sys2Proof.Machine.execSmad f s
  | .smin f => Sys2Proof.Machine.execSmin f s
  | .smax f => Sys2Proof.Machine.execSmax f s
  | .scmp f => Sys2Proof.Machine.execScmp f s
  | .ssel f => Sys2Proof.Machine.execSsel f s
  | .sand f => Sys2Proof.Machine.execSand f s
  | .sor f => Sys2Proof.Machine.execSor f s
  | .sxor f => Sys2Proof.Machine.execSxor f s
  | .sshl f => Sys2Proof.Machine.execSshl f s
  | .sshr f => Sys2Proof.Machine.execSshr f s
  | .ssar f => Sys2Proof.Machine.execSsar f s
  | .sbfx f => Sys2Proof.Machine.execSbfx f s
  | .spopc f => Sys2Proof.Machine.execSpopc f s
  | .slea f => Sys2Proof.Machine.execSlea f s
  | .smov f => Sys2Proof.Machine.execSmov f s
  | .smovi f => Sys2Proof.Machine.execSmovi f s
  | .sfadd f => Sys2Proof.Machine.execSfadd f s
  | .sfmul f => Sys2Proof.Machine.execSfmul f s
  | .sffma f => Sys2Proof.Machine.execSffma f s
  | .scvt f => Sys2Proof.Machine.execScvt f s
  | .sld f => Sys2Proof.Machine.execSld f s
  | .sst f => Sys2Proof.Machine.execSst f s
  | .fence f => Sys2Proof.Machine.execFence f s
  | .fencePromote f => Sys2Proof.Machine.execFencePromote f s
  | .discard f => Sys2Proof.Machine.execDiscard f s
  | .dgst f => Sys2Proof.Machine.execDgst f s
  | .sbra f => Sys2Proof.Machine.execSbra f s
  | .sbrx f => Sys2Proof.Machine.execSbrx f s
  | .jinit f => Sys2Proof.Machine.execJinit f s
  | .sgetm f => Sys2Proof.Machine.execSgetm f s
  | .yield f => Sys2Proof.Machine.execYield f s
  | .bar f => Sys2Proof.Machine.execBar f s
  | .grow f => Sys2Proof.Machine.execGrow f s
  | .shrink f => Sys2Proof.Machine.execShrink f s
  | .hbeat f => Sys2Proof.Machine.execHbeat f s
  | .launch f => Sys2Proof.Machine.execLaunch f s
  | .cancel f => Sys2Proof.Machine.execCancel f s
  | .ccnt f => Sys2Proof.Machine.execCcnt f s
  | .wait f => Sys2Proof.Machine.execWait f s
  | .cpyin f => Sys2Proof.Machine.execCpyin f s
  | .cpyout f => Sys2Proof.Machine.execCpyout f s
  | .cpygg f => Sys2Proof.Machine.execCpygg f s
  | .cpymc f => Sys2Proof.Machine.execCpymc f s
  | .cpyt f => Sys2Proof.Machine.execCpyt f s
  | .cpytn f => Sys2Proof.Machine.execCpytn f s
  | .mma f => Sys2Proof.Machine.execMma f s
  | .mmasp f => Sys2Proof.Machine.execMmasp f s
  | .mzero f => Sys2Proof.Machine.execMzero f s
  | .mloadb f => Sys2Proof.Machine.execMloadb f s
  | .mdrain f => Sys2Proof.Machine.execMdrain f s
  | .mlease f => Sys2Proof.Machine.execMlease f s
  | .spproj f => Sys2Proof.Machine.execSpproj f s
  | .spsort f => Sys2Proof.Machine.execSpsort f s
  | .spblnd f => Sys2Proof.Machine.execSpblnd f s
  | .spback f => Sys2Proof.Machine.execSpback f s
  | .rxreg f => Sys2Proof.Machine.execRxreg f s
  | .rxdereg f => Sys2Proof.Machine.execRxdereg f s
  | .route f => Sys2Proof.Machine.execRoute f s
  | .recv f => Sys2Proof.Machine.execRecv f s
  | .retn f => Sys2Proof.Machine.execRetn f s
  | .escq f => Sys2Proof.Machine.execEscq f s
  | .halo f => Sys2Proof.Machine.execHalo f s
  | .phwait f => Sys2Proof.Machine.execPhwait f s
  | .valloc f => Sys2Proof.Machine.execValloc f s
  | .vfree f => Sys2Proof.Machine.execVfree f s
  | .wfence f => Sys2Proof.Machine.execWfence f s
  | .trap f => Sys2Proof.Machine.execTrap f s
  | .rte f => Sys2Proof.Machine.execRte f s
  | .sprr f => Sys2Proof.Machine.execSprr f s
  | .sprw f => Sys2Proof.Machine.execSprw f s
  | .asyncTrapEntry strip => Sys2Proof.Machine.execAsyncTrapEntry strip s
  | .longLatencyResultArrival strip win part => Sys2Proof.Machine.execLongLatencyResultArrival strip win part s
  | .spillRefillArrival strip reg => Sys2Proof.Machine.execSpillRefillArrival strip reg s
  | .growClaimGrant core slice => Sys2Proof.Machine.execGrowClaimGrant core slice s
  | .scbDrain core entry => Sys2Proof.Machine.execScbDrain core entry s
  | .engineCommandStart core cmd => Sys2Proof.Machine.execEngineCommandStart core cmd s
  | .commandCompletion core cmd => Sys2Proof.Machine.execCommandCompletion core cmd s
  | .mintOperation die req => Sys2Proof.Machine.execMintOperation die req s
  | .translationFault strip va kind access => Sys2Proof.Machine.execTranslationFault strip va kind access s
  | .routeDeliveryArrival msg => Sys2Proof.Machine.execRouteDeliveryArrival msg s
  | .routeRetry core entry slot => Sys2Proof.Machine.execRouteRetry core entry slot s
  | .routeAnswerArrival msg => Sys2Proof.Machine.execRouteAnswerArrival msg s
  | .dropNoticeArrival msg => Sys2Proof.Machine.execDropNoticeArrival msg s
  | .escrowDeadline core entry => Sys2Proof.Machine.execEscrowDeadline core entry s
  | .launchCommand queue => Sys2Proof.Machine.execLaunchCommand queue s
  | .graphCommand queue => Sys2Proof.Machine.execGraphCommand queue s
  | .copyCommand queue => Sys2Proof.Machine.execCopyCommand queue s
  | .cancelCommand queue => Sys2Proof.Machine.execCancelCommand queue s
  | .closeCommand queue => Sys2Proof.Machine.execCloseCommand queue s
  | .launchForward die launch => Sys2Proof.Machine.execLaunchForward die launch s
  | .workgroupDispatch die launch target => Sys2Proof.Machine.execWorkgroupDispatch die launch target s
  | .stealRequest die thief victim => Sys2Proof.Machine.execStealRequest die thief victim s
  | .stripRetirement strip => Sys2Proof.Machine.execStripRetirement strip s
  | .workGraphConsumerDispatch queue target => Sys2Proof.Machine.execWorkGraphConsumerDispatch queue target s
  | .phaseCountEvent ev => Sys2Proof.Machine.execPhaseCountEvent ev s
  | .queueHalted queue => Sys2Proof.Machine.execQueueHalted queue s
  | .watchdogHeartbeatExpiry die launch => Sys2Proof.Machine.execWatchdogHeartbeatExpiry die launch s
  | .watchdogWallClockExpiry launch => Sys2Proof.Machine.execWatchdogWallClockExpiry launch s
  | .timeSliceExpiry die job => Sys2Proof.Machine.execTimeSliceExpiry die job s
  | .workgroupSave wg => Sys2Proof.Machine.execWorkgroupSave wg s
  | .workgroupRestore wg target => Sys2Proof.Machine.execWorkgroupRestore wg target s
  | .haloEntryDelivery entry => Sys2Proof.Machine.execHaloEntryDelivery entry s
  | .scaleOutPacketReceive conn pkt => Sys2Proof.Machine.execScaleOutPacketReceive conn pkt s
  | .scaleOutAck conn ack => Sys2Proof.Machine.execScaleOutAck conn ack s
  | .scaleOutRetransmit conn => Sys2Proof.Machine.execScaleOutRetransmit conn s
  | .linkFlitRetry link good => Sys2Proof.Machine.execLinkFlitRetry link good s
  | .correctableError die site => Sys2Proof.Machine.execCorrectableError die site s
  | .uncorrectableError die site => Sys2Proof.Machine.execUncorrectableError die site s
  | .patrolScrub die found => Sys2Proof.Machine.execPatrolScrub die found s
  | .hbmScrub die found => Sys2Proof.Machine.execHbmScrub die found s
  | .qbell queue => Sys2Proof.Machine.execQbell queue s
  | .tibell die => Sys2Proof.Machine.execTibell die s
  | .savereq die part => Sys2Proof.Machine.execSavereq die part s
  | .fqansRetry die seq => Sys2Proof.Machine.execFqansRetry die seq s
  | .fqansZero die seq => Sys2Proof.Machine.execFqansZero die seq s
  | .fqansAbort die seq => Sys2Proof.Machine.execFqansAbort die seq s
  | .fqcons die value => Sys2Proof.Machine.execFqcons die value s
  | .registerWrite pa value => Sys2Proof.Machine.execRegisterWrite pa value s
  | .flip head value => Sys2Proof.Machine.execFlip head value s
  | .keyreq head => Sys2Proof.Machine.execKeyreq head s
  | .ioinvAsid asid => Sys2Proof.Machine.execIoinvAsid asid s
  | .ioinvAll => Sys2Proof.Machine.execIoinvAll s
  | .displayFrameStart head => Sys2Proof.Machine.execDisplayFrameStart head s
  | .encodedFrameWrite enc => Sys2Proof.Machine.execEncodedFrameWrite enc s
  | .deviceDmaAccess bdf va len write => Sys2Proof.Machine.execDeviceDmaAccess bdf va len write s
  | .mgmtReadStatus session num => Sys2Proof.Machine.execMgmtReadStatus session num s
  | .mgmtReadErrorLog session num after => Sys2Proof.Machine.execMgmtReadErrorLog session num after s
  | .mgmtSetPartitions session num map owners weights shares => Sys2Proof.Machine.execMgmtSetPartitions session num map owners weights shares s
  | .mgmtPatrolScrub session num on => Sys2Proof.Machine.execMgmtPatrolScrub session num on s
  | .mgmtSetPowerCap session num die watts => Sys2Proof.Machine.execMgmtSetPowerCap session num die watts s
  | .mgmtLoadFirmware session num image => Sys2Proof.Machine.execMgmtLoadFirmware session num image s
  | .mgmtAttestation session num nonce => Sys2Proof.Machine.execMgmtAttestation session num nonce s
  | .mgmtModuleReset session num => Sys2Proof.Machine.execMgmtModuleReset session num s
  | .mgmtRaiseSecurityVersion session num => Sys2Proof.Machine.execMgmtRaiseSecurityVersion session num s
  | .boot image failed => Sys2Proof.Machine.execBoot image failed s
  | .powerCapThrottle die watts => Sys2Proof.Machine.execPowerCapThrottle die watts s
  | .thermalThrottleBand die temp => Sys2Proof.Machine.execThermalThrottleBand die temp s
  | .thermalCriticalBand die temp => Sys2Proof.Machine.execThermalCriticalBand die temp s
  | .thermalReset die temp => Sys2Proof.Machine.execThermalReset die temp s
  | .coolantAlarm inlet flow => Sys2Proof.Machine.execCoolantAlarm inlet flow s
  | .illegalInstruction word => Sys2Proof.Machine.execIllegalInstruction word s
  | .retnAnswerRetry core cmd => Sys2Proof.Machine.execRetnAnswerRetry core cmd s
  | .copyNodeCompletion copy => Sys2Proof.Machine.execCopyNodeCompletion copy s
  | .haltCleared queue => Sys2Proof.Machine.execHaltCleared queue s
  | .mgmtSession anchor => Sys2Proof.Machine.execMgmtSession anchor s
  | .mgmtMalformedRequest session num => Sys2Proof.Machine.execMgmtMalformedRequest session num s

end Sys2Proof.Machine
end

