-- ==== Sys2Proof/Machine/Progress.lean ====
section
/-! DEFINITION. The machine's own progress (log 3): which events can happen in a state, which one does, which strip issues
next, and what a step does. Where the spec gives no order the choice is a free value. -/
namespace Sys2Proof.Machine

/-- A list numbered from 0. -/
def numbered {α : Type} (l : List α) : List (Nat × α) := (List.range l.length).zip l

/-! ## Events that can happen -/

/-- Events of a strip: a trap to take, results to arrive, its retirement. -/
def stripEvents (s : State) (id : Nat) (p : Strip) : List Instr :=
  let free := p.waits.isEmpty
  (if p.asyncDue && free && !savingStrip s p then [Instr.asyncTrapEntry id] else []) ++
  (if free then ((numbered p.flights).filter fun f => f.2.undone != 0 || (f.2.long && !f.2.arrived)).map fun f =>
    .longLatencyResultArrival id f.1 ⟨wholeSet, wholeSet⟩ else []) ++
  (if stripDone s id p then [.stripRetirement id] else [])

/-- Events of an engine command of a core. -/
def cmdEvents (s : State) (core : Nat) (k : Cmd) : List Instr :=
  if k.shadow then []
  else if k.failed.isSome then [.commandCompletion core k.id]
  else if !k.started then (if cmdClear s core k.id then [.engineCommandStart core k.id] else [])
  else match k.instr with
    | .route _ => []
    | .retn _ => if k.data.contains ansRefused then [.retnAnswerRetry core k.id] else [.commandCompletion core k.id]
    | _ => [.commandCompletion core k.id]

/-- Events of an escrow entry. -/
def escrowEvents (s : State) (core n : Nat) (e : Escrow) : List Instr :=
  if e.st != .open then []
  else
    ((numbered e.slots).filter fun q => match q.2 with
      | .waiting t => t ≤ s.clk
      | _ => false).map (fun q => .routeRetry core n q.1) ++
    (match e.deadline with
      | some t => if t < s.clk then [.escrowDeadline core n] else []
      | none => [])

/-- Events of a core: drains that are due, posted writes, commands, escrow entries, claims. -/
def coreEvents (s : State) (id : Nat) (c : Core) : List Instr :=
  ((numbered c.scb).filter fun e => scbDue s e.2).map (fun e => .scbDrain id e.1) ++
  ((List.range c.posted.length).filter (postedFirst c)).map (fun k => .scbDrain id (c.scb.length + k)) ++
  c.rsb.flatMap (cmdEvents s id) ++ c.escrow.flatMap (fun e => escrowEvents s id e.1 e.2) ++
  (c.claims.filter fun q => !q.2.isEmpty).map fun q => .growClaimGrant id q.1

/-- Events of messages, halo entries and counts on their way. -/
def netEvents (s : State) : List Instr :=
  ((numbered s.net).filter fun m => !overtakes s m.1).map (fun m => match m.2 with
    | .delivery _ _ _ _ _ => .routeDeliveryArrival m.1
    | .answer _ _ _ _ => .routeAnswerArrival m.1
    | .drop _ => .dropNoticeArrival m.1) ++
  ((numbered s.halos).filter fun h => !h.2.sent).map (fun h => .haloEntryDelivery h.1) ++ (List.range s.phaseEvents.length).map .phaseCountEvent

/-- Events of a package queue in use. -/
def queueEvents (s : State) (q : Nat) (u : Queue) : List Instr :=
  (if u.bell && mayAccept s q then [.qbell q] else []) ++
  (if queueHaltBit s q != u.halted then [if u.halted then .haltCleared q else .queueHalted q] else []) ++
  (match nextCommand s q with
    | none => []
    | some c => if dieWaiting s (.queue q) then []
      else if isKind c 1 then [.launchCommand q]
      else if isKind c 2 then [.graphCommand q]
      else if isKind c 3 then [.copyCommand q]
      else if isKind c 4 then [.cancelCommand q]
      else [.closeCommand q])

/-- The queues whose entry has HALT set (R485, R488) and that nothing has used yet, found by their listed bytes of memory. -/
def freshHalts (s : State) : List Nat := s.mem.filterMap fun c =>
  let q := (c.1 - queueAt s 0 - 0x0E) / 64
  if queueAt s 0 + 0x0E ≤ c.1 ∧ (c.1 - queueAt s 0 - 0x0E) % 64 = 0 ∧ q < 1024 ∧ c.2.getLsbD 2 = true ∧
    (tableGet s.queues q).isNone = true then some q else none

/-- Dispatch and watch events of a launch on a die. -/
def launchEvents (s : State) (id : Nat) (l : Launch) (die : Nat) : List Instr :=
  (if mayForward l die then [.launchForward die id] else []) ++
  (if l.open_ && !l.badRecord && l.consumerOf == 0 && (hasTodo l die || (l.work[die]?.map fun w => !w.batches.isEmpty).getD false) then
    (targetsOf l.lrec).map fun t => .workgroupDispatch die id t else []) ++
  (if heartbeatOver s die id l then [.watchdogHeartbeatExpiry die id] else []) ++
  (if die = 0 && wallClockOver s l then [.watchdogWallClockExpiry id] else [])

/-- Steal requests of idle clusters (R187). -/
def stealEvents (s : State) (die : Nat) : List Instr :=
  let held := (List.range 24).map (heldBy s die)
  (List.range 24).flatMap fun v => if held.getD v 0 < 2 then [] else
    (List.range 24).filterMap fun t =>
      if t / 6 = v / 6 ∧ held.getD t 0 = 0 then some (.stealRequest die t v) else none

/-- Events of a die: Mint, slices, saved workgroups, stealing. -/
def dieEvents (s : State) (die : Nat) (d : Die) : List Instr :=
  (List.range d.mint.length).map (.mintOperation die) ++
  (d.slices.filter fun x => sliceOver s die x.job).map (fun x => .timeSliceExpiry die x.job) ++
  d.images.flatMap (fun m => match tableGet s.launches m.wg.launch with
    | some la => if mayRestore s m la && versionOk s m then (List.range 4).map (.workgroupRestore m.wgId) else []
    | none => []) ++
  stealEvents s die

/-- Everything that can happen of itself (log 3). -/
def events (s : State) : List Instr :=
  s.strips.flatMap (fun p => stripEvents s p.1 p.2) ++ s.cores.flatMap (fun c => coreEvents s c.1 c.2) ++ netEvents s ++
  s.queues.flatMap (fun q => queueEvents s q.1 q.2) ++ (freshHalts s).map .queueHalted ++
  s.launches.flatMap (fun l => (List.range 4).flatMap (launchEvents s l.1 l.2)) ++
  (numbered s.dies).flatMap (fun d => dieEvents s d.1 d.2) ++
  (s.wgs.filter fun w => w.2.saving.isSome).map (fun w => .workgroupSave w.1) ++
  s.copies.map (fun c => .copyNodeCompletion c.1) ++
  s.nodeQueues.flatMap (fun q => (List.range 24).map (.workGraphConsumerDispatch q.1)) ++
  (s.conns.filter fun c => c.2.up && c.2.unacked.any fun u => u.2.2.2 + retryCycles ≤ s.clk).map fun c => .scaleOutRetransmit c.1

/-- How much of an access an arrival performs is free: any of its strands and, where it is not single-copy atomic, any of its
bytes (R239, R240; log 6). -/
def freePart (e : Instr) (s : State) : Instr × State := match e with
  | .longLatencyResultArrival id win _ =>
    let mask := fun k => (Config.freeWord s.free k).setWidth 16
    (.longLatencyResultArrival id win ⟨mask 0, mask 1⟩, { s with free := s.free + 1 })
  | e => (e, s)

/-- The event that happens next: a free choice among several. -/
def nextEvent (s : State) : Option (Instr × State) :=
  match events s with
  | [] => none
  | [e] => some (freePart e s)
  | e :: rest =>
    let k := (Config.freeWord s.free 0).toNat % (rest.length + 1)
    some (freePart ((e :: rest).getD k e) { s with free := s.free + 1 })

/-! ## The strip that issues -/

/-- A strip has something to issue now. -/
def ready (s : State) (p : Strip) : Bool := canIssue s p && (p.issueSet.isSome || p.asyncDue)

/-- The strip to issue: round robin after the last one (log 3). -/
def pickStrip (s : State) : Option Nat :=
  let l := (s.strips.filter fun p => ready s p.2).map fun p => p.1
  match l.find? (s.cur < ·) with
  | some id => some id
  | none => l.head?

/-! ## A step -/

/-- The cycle counter goes on (R25): by 1, or by the next of `ticks`, and out of a cycle that is over. -/
def tick (s : State) : State :=
  let n := s.ticks.headD 1
  { s with
    clk := s.clk + if s.cycleOver then max 1 n else n
    ticks := s.ticks.drop 1
    cycleOver := false }

/-- The start of a step: the cycle counter goes on, and every strand whose PHWAIT condition now holds is released (R470). -/
def begun (s : State) : State := releasePhases (tick s)

/-- What a step does: an instruction or event to perform, or nothing more. -/
inductive Doing where
  | perform (i : Instr) (s : State)
  | nothing (s : State)

/-- A strip issues: a pending asynchronous trap first (R400), else the word it fetches. -/
def doIssue (s : State) (id : Nat) : Doing :=
  let s := { s with cur := id, turn := true }
  match tableGet s.strips id with
  | none => .nothing s
  | some p =>
    if p.asyncDue then .perform (.asyncTrapEntry id) s
    else match fetchNext s with
      | .issue i s => .perform i s
      | .none s => .nothing s

/-- An event, or nothing. -/
def doEvent (s : State) : Doing :=
  match nextEvent s with
  | some (e, s) => .perform e { s with turn := false }
  | none => .nothing { s with turn := false }

/-- A store of the runtime on an RV64 core (R1, R456): to a register, or to memory, where each line's bytes are written at home
as one event. -/
def runtimeStore (s : State) (pa : Nat) (b : List Byte) : State :=
  (linePieces (b.length / 128 + 2) pa b.length).foldl (fun s p => outerStore s p.1 ((b.drop (p.1 - pa)).take p.2)) s

/-- The runtime opens a connection for a job of the job table (R471, R489, R495). -/
def runtimeConnect (s : State) (conn job : Nat) (base : DWord) (size : Nat) : State :=
  let (b, bad) := jobEntry s 0 job
  if bad || !jobOk (parseJob job b).part job b then s else openConn s conn (parseJob job b) base size

/-- What an input makes the machine do. -/
def doInput (s : State) : Input → Doing
  | .event i => .perform i s
  | .issue id => match tableGet s.strips id with
    | some p => if ready s p then doIssue s id else .nothing s
    | none => .nothing s
  | .store pa b => .nothing (runtimeStore s pa b)
  | .connect conn job base size => .nothing (runtimeConnect s conn job base size)

/-- What the machine does in a step: an input first; else a strip issues and events happen, in turns. -/
def doing (s : State) : Doing :=
  let s := begun s
  match s.inputs with
  | i :: rest => doInput { s with inputs := rest } i
  | [] =>
    if s.turn && (nextEvent s).isSome then doEvent s
    else match pickStrip s with
      | some id => doIssue s id
      | none => doEvent s

/-! ## A word to fetch -/

/-- Where `withFetchWord` puts the word, its tables and its strip's launch (log 5). -/
def probePc : Nat := 0x10000
def probeRoot : Nat := 0x2000
def probeTable : Nat := 0x3000

/-- A job whose tables map the first 1 GiB to itself. -/
def probeJob : Job := { noJob with root := probeRoot }
/-- The record of the launch: a strip of 512 s registers that starts at the word. -/
def probeLrec : Lrec := { emptyLrec with
  code := BitVec.ofNat 64 probePc, strands := 16, sregs := 512, floor := 8, lease := 1, sweight := 1, span := 1, g0 := 1, g1 := 1, g2 := 1 }
/-- The launch, running on die 0. -/
def probeLaunch : Launch :=
  { newLaunch 0 0 probeLrec 0 probeJob (.command 0 0) 0 0 false true with status := .running, started := true }
/-- The workgroup, on core 0 of die 0. -/
def probeWg : Wg := ⟨0, 0, 0, 0, 0xFFFFFFFF, 0, 0, [⟨0, 0, 0⟩], [], (0, 0), 0, none⟩
/-- The strip: 16 strands at the word. -/
def probeStrip : Strip := freshStrip 0 0 0 0 0 probeLrec []

/-- Bytes placed in memory. -/
def placeBytes (m : Memory) (at_ : Nat) (b : List Byte) : Memory := cellPutAll (0 : Byte) m at_ b

/-- The state with a word stored where the next step fetches: the tables, the word, and one strip that runs it. -/
def placeWord (s : State) (w : Nat) : State :=
  let m := placeBytes s.mem probeRoot (leBytes 8 (probeTable + 3))
  let m := placeBytes m probeTable (leBytes 8 0x1D)
  let m := placeBytes m probePc (leBytes 8 w)
  { s with
    mem := m
    strips := tablePut s.strips 0 probeStrip
    wgs := tablePut s.wgs 0 probeWg
    launches := tablePut s.launches 0 { probeLaunch with wrote := s.wrote }
    inputs := [.issue 0]
    turn := false }

end Sys2Proof.Machine
end

