-- ==== Sys2Proof/Machine/Step.lean ====
section
/-! DEFINITION. One step of the machine, and the placing of a word where the next step fetches it. -/
namespace Sys2Proof.Machine

/-- One step: what the machine does next is performed (log 3). -/
def step (s : State) : Host.Outcome State Fault Refusal :=
  match doing s with
  | .perform i s => exec i s
  | .nothing s => .next s

/-- The state with an instruction word where the next step fetches its instruction (log 5). -/
def State.withFetchWord (s : State) (_nbits w : Nat) : State := placeWord s w

end Sys2Proof.Machine
end

