-- ==== Sys2Proof/Safety.lean ====
section
/-! DEFINITION. The terms in which claims are made: when a strip is ready to issue an instruction, what an issue does to
the strip before its own effect, and what a safe strip is. -/
namespace Sys2Proof.Machine

/-- The strip that issues next (`s.cur`) is `p`, nothing holds it back, no result of it is outstanding, and its next
executing set is `x`, at `pc` (R124, R125, R132). -/
structure Issues (s : State) (p : Strip) (pc : VA) (x : Strands) : Prop where
  strip : tableGet s.strips s.cur = some p
  free : canIssue s p = true
  noAsync : p.asyncs = [] ∨ p.inTrap = true
  noResult : p.flights = []
  chosen : p.issueSet = some (pc, x)
  nonempty : x ≠ 0

/-- An empty entry that the issue reads takes no STALE trap (R143, R181): it reads none, or STALE_TRAP is clear. -/
def noStale (s : State) (p : Strip) (sh : Shape) (x : Strands) : Bool :=
  (emptyReads p sh x).1 == 0 || !staleTraps s p

/-- The strip can issue `i` now: the instruction is legal on it, the v registers it reads are not spilled, and no empty
entry traps. -/
structure Ready (i : Instr) (s : State) (p : Strip) (pc : VA) (x : Strands) : Prop extends Issues s p pc x where
  legal : issueCode i s p = none
  mapped : ∀ r ∈ readsV (shape i), ∀ e, tableGet p.v r = some e → e.spilled = false
  stale : noStale s p (shape i) x = true

/-- As `Ready`, with no poisoned register among those read (R423). -/
structure Clean (i : Instr) (s : State) (p : Strip) (pc : VA) (x : Strands) : Prop extends Ready i s p pc x where
  clean : poisonReads p (shape i) x = []

/-- The rows of `n` v registers from `first` on are there: none of them is spilled, and the strip's floor has room for
those that are unmapped (R142, R146). -/
def RoomFor (p : Strip) (first n : Nat) : Prop :=
  p.rows + n ≤ p.floor ∧ ∀ k < n, ∀ e, tableGet p.v (first + k) = some e → e.spilled = false

/-- What an issue does to its strip before its own effect: UREAD for an empty entry read (R143), the marks and the
starvation counts (R125, R176), and the last-use releases (R53, R73). -/
def Strip.issued (p : Strip) (sh : Shape) (x : Strands) : Strip :=
  releaseAll ((p.setStatus (if (emptyReads p sh x).1 ≠ 0 then stUREAD else 0)).countIssueOf x) x sh

/-- `n` v registers from `first` on take the words of their strands (R72). -/
def Strip.putVs (p : Strip) (first n : Nat) (x : Strands) (vals : List (List Word)) : Strip :=
  (List.range n).foldl (fun p k => p.putV (first + k) x (vals.map fun l => l.getD k 0)) p

/-- The issue of an instruction that only reads and writes v registers of its strip, as it leaves the machine: the
results `r` in the destination, their flags raised, the executing set one word on. -/
def afterLane (s : State) (p : Strip) (x : Strands) (sh : Shape) (r : Results) : State :=
  putStrip s s.cur (match destOf sh with
    | .v first n => (((p.issued sh x).raise r.2).putVs first n x r.1).advance x
    | _ => ((p.issued sh x).raise r.2).advance x)

/-- The issue of a scalar instruction, as it leaves the machine. -/
def afterUniform (s : State) (p : Strip) (x : Strands) (sh : Shape) (r : Result) : State :=
  putStrip s s.cur ((((p.issued sh x).raise r.2).writeS x sh.d.toNat r.1).advance x)

/-- The issue of a long-latency instruction with nothing performed yet: the flight `f` is the strip's only outstanding
result, with the mark of a handler, and the executing set is one word on (R136, R137). -/
def afterLong (s : State) (p : Strip) (x : Strands) (sh : Shape) (f : Flight) : State :=
  (putStrip s s.cur (((p.issued sh x).addFlight f).advance x)).bumpId

/-! ## What the register instructions compute -/

/-- The value and flags of each strand's result, for the lane instructions that compute every strand by itself, in the
words of R78-R92 and R94-R106: `o.aOf i` is operand A of strand i, a list of words, lowest first. -/
def laneValue : Instr → Option (Operands → Nat → Result)
  | .iadd f => some fun o i => intResult f.fn f.sat (tyVal f.fn (o.aOf i) + tyVal f.fn (o.bOf i))
  | .isub f => some fun o i => intResult f.fn f.sat (tyVal f.fn (o.aOf i) - tyVal f.fn (o.bOf i))
  | .imul f => some fun o i => intResult f.fn f.sat (tyVal f.fn (o.aOf i) * tyVal f.fn (o.bOf i))
  | .imad f => some fun o i =>
    intResult f.fn f.sat (tyVal f.fn (o.aOf i) * tyVal f.fn (o.bOf i) + tyVal f.fn (o.cOf i))
  | .imin f => some fun o i => intResult f.fn f.sat (min (tyVal f.fn (o.aOf i)) (tyVal f.fn (o.bOf i)))
  | .imax f => some fun o i => intResult f.fn f.sat (max (tyVal f.fn (o.aOf i)) (tyVal f.fn (o.bOf i)))
  | .iabs f => some fun o i => intResult f.fn f.sat ((tyVal f.fn (o.aOf i)).natAbs : Int)
  | .ineg f => some fun o i => intResult f.fn f.sat (-tyVal f.fn (o.aOf i))
  | .imulh f => some fun o i => intMulh f (o.aOf i) (o.bOf i)
  | .icmp f => some fun o i => intCmp f (o.aOf i) (o.bOf i)
  | .isel _ => some fun o i => (if word0 (o.aOf i) ≠ 0 then o.bOf i else o.cOf i, 0)
  | .iand _ => some fun o i => ((o.aOf i).zipWith (· &&& ·) (o.bOf i), 0)
  | .ior _ => some fun o i => ((o.aOf i).zipWith (· ||| ·) (o.bOf i), 0)
  | .ixor _ => some fun o i => ((o.aOf i).zipWith (· ^^^ ·) (o.bOf i), 0)
  | .iandn _ => some fun o i => ((o.aOf i).zipWith (fun a b => a &&& ~~~b) (o.bOf i), 0)
  | .ishl f => some fun o i => intShl f (o.aOf i) (o.bOf i)
  | .ishr f => some fun o i => intShr f (o.aOf i) (o.bOf i)
  | .isar f => some fun o i => intSar f (o.aOf i) (o.bOf i)
  | .ifshl _ => some fun o i => intFshl (o.aOf i) (o.bOf i) (o.cOf i)
  | .ifshr _ => some fun o i => intFshr (o.aOf i) (o.bOf i) (o.cOf i)
  | .bfx f => some fun o i => bfxOp f (o.aOf i) (o.bOf i)
  | .bfi _ => some fun o i => bfiOp (o.aOf i) (o.bOf i) (o.cOf i)
  | .popc f => some fun o i => popcOp f (o.aOf i)
  | .clz f => some fun o i => clzOp f (o.aOf i)
  | .ctz f => some fun o i => ctzOp f (o.aOf i)
  | .brev f => some fun o i => brevOp f (o.aOf i)
  | .bperm _ => some fun o i => bpermOp (o.aOf i) (o.bOf i) (o.cOf i)
  | .lea f => some fun o i => leaOp f (o.aOf i) (o.bOf i)
  | .isad f => some fun o i => isadOp f (o.aOf i) (o.bOf i) (o.cOf i)
  | .mov _ => some fun o i => (o.aOf i, 0)
  | .movi f => some fun _ _ => ([f.imm], 0)
  | .dot4 f => some fun o i => dotOp 4 6 7 f (o.aOf i) (o.bOf i) (o.cOf i)
  | .dot8 f => some fun o i => dotOp 8 14 15 f (o.aOf i) (o.bOf i) (o.cOf i)
  | .fadd f => some fun o i => fpAdd f (o.aOf i) (o.bOf i)
  | .fsub f => some fun o i => fpSub f (o.aOf i) (o.bOf i)
  | .fmul f => some fun o i => fpMul f (o.aOf i) (o.bOf i)
  | .ffma f => some fun o i => fpFma f (o.aOf i) (o.bOf i) (o.cOf i)
  | .fmin f => some fun o i => fpMinMax false f (o.aOf i) (o.bOf i)
  | .fmax f => some fun o i => fpMinMax true f (o.aOf i) (o.bOf i)
  | .fcmp f => some fun o i => fpCmp f (o.aOf i) (o.bOf i)
  | .fclass f => some fun o i => fpClass f (o.aOf i)
  | .frnd f => some fun o i => fpRnd f (o.aOf i)
  | .fscale f => some fun o i => fpScale f (o.aOf i) (o.bOf i)
  | .hfma2 f => some fun o i => hfma2Op f (o.aOf i) (o.bOf i) (o.cOf i)
  | .fdot2 f => some fun o i => fdot2Op f (o.aOf i) (o.bOf i) (o.cOf i)
  | .cvt f => some fun o i => cvtOp f (o.aOf i)
  | .cvtpk f => some fun o i => cvtpkOp f (o.aOf i) (o.cOf i)
  | .cvtxp f => some fun o i => cvtxpOp f (o.aOf i) (o.cOf i)
  | _ => none

/-- The results of the cross-strand lane instructions (R157-R167): the words of all 16 strands, from the executing set
and the operands of all strands. -/
def groupValue : Instr → Option (Strands → Operands → Results)
  | .shfl f => some (shuffleOp shflSource f)
  | .gshfl f => some (shuffleOp gshflSource f)
  | .vote f => some (voteOp f)
  | .red f => some (reduceOp false f)
  | .scan f => some (reduceOp true f)
  | .isect f => some (isectOp f)
  | .smerge f => some (smergeOp f)
  | .matchKeys f => some (matchOp f)
  | _ => none

/-- The results of the long-latency lane computations (R76, R80, R94, R100, R165). -/
def longValue : Instr → Option (Strands → Operands → Results)
  | .idiv f => some (each fun o i => intDiv f (o.aOf i) (o.bOf i))
  | .irem f => some (each fun o i => intRem f (o.aOf i) (o.bOf i))
  | .frcp f => some (each fun o i => fpFun fRcp f (o.aOf i))
  | .frsq f => some (each fun o i => fpFun fRsq f (o.aOf i))
  | .fsqrt f => some (each fun o i => fpSqrt f (o.aOf i))
  | .fdiv f => some (each fun o i => fpDiv f (o.aOf i) (o.bOf i))
  | .fex2 f => some (each fun o i => fpFun fEx2 f (o.aOf i))
  | .flg2 f => some (each fun o i => fpFun fLg2 f (o.aOf i))
  | .fsinpi f => some (each fun o i => fpFun fSinPi f (o.aOf i))
  | .fcospi f => some (each fun o i => fpFun fCosPi f (o.aOf i))
  | .ftanh f => some (each fun o i => fpFun fTanh f (o.aOf i))
  | .sort16 f => some (sort16Op f)
  | _ => none

/-- The value and flags of a scalar instruction (R170): the lane instruction's, computed once. -/
def scalarValue : Instr → Option (Operands → Result)
  | .sadd f => some fun o => intResult f.fn f.sat (tyVal f.fn o.ua + tyVal f.fn o.ub)
  | .ssub f => some fun o => intResult f.fn f.sat (tyVal f.fn o.ua - tyVal f.fn o.ub)
  | .smul f => some fun o => intResult f.fn f.sat (tyVal f.fn o.ua * tyVal f.fn o.ub)
  | .smad f => some fun o => intResult f.fn f.sat (tyVal f.fn o.ua * tyVal f.fn o.ub + tyVal f.fn o.uc)
  | .smin f => some fun o => intResult f.fn f.sat (min (tyVal f.fn o.ua) (tyVal f.fn o.ub))
  | .smax f => some fun o => intResult f.fn f.sat (max (tyVal f.fn o.ua) (tyVal f.fn o.ub))
  | .smulh f => some fun o => intMulh f o.ua o.ub
  | .scmp f => some fun o => intCmp f o.ua o.ub
  | .ssel _ => some fun o => (if word0 o.ua ≠ 0 then o.ub else o.uc, 0)
  | .sand _ => some fun o => (o.ua.zipWith (· &&& ·) o.ub, 0)
  | .sor _ => some fun o => (o.ua.zipWith (· ||| ·) o.ub, 0)
  | .sxor _ => some fun o => (o.ua.zipWith (· ^^^ ·) o.ub, 0)
  | .sshl f => some fun o => intShl f o.ua o.ub
  | .sshr f => some fun o => intShr f o.ua o.ub
  | .ssar f => some fun o => intSar f o.ua o.ub
  | .sbfx f => some fun o => bfxOp f o.ua o.ub
  | .spopc f => some fun o => popcOp f o.ua
  | .slea f => some fun o => leaOp f o.ua o.ub
  | .smov _ => some fun o => (o.ua, 0)
  | .smovi f => some fun _ => ([f.imm], 0)
  | .sfadd f => some fun o => fpAdd f o.ua o.ub
  | .sfmul f => some fun o => fpMul f o.ua o.ub
  | .sffma f => some fun o => fpFma f o.ua o.ub o.uc
  | .scvt f => some fun o => cvtOp f o.ua
  | _ => none

/-! ## Control -/

/-- The strands of `x` go on (R12): those of `taken` to their targets, the others to the next word. -/
def Strip.jump (p : Strip) (x taken : Strands) (target : Nat → VA) : Strip :=
  { p with strands := (strandIxs.zip p.strands).map fun it =>
      if !x.getLsbD it.1 then it.2
      else if taken.getLsbD it.1 then { it.2 with pc := target it.1 }
      else { it.2 with pc := it.2.pc + 8 } }

/-- The strands of `x` whose word `w` meets a branch condition (R63). -/
def meeting (x : Strands) (fn : BitVec 4) (w : Nat → Word) : Strands :=
  strandSet fun i => x.getLsbD i && condition fn (w i)

/-- The machine after an issue whose whole effect is on its strip. -/
def afterStrip (s : State) (p : Strip) (x : Strands) (sh : Shape) (g : Strip → Strip) : State :=
  putStrip s s.cur (g (p.issued sh x))

/-- No strand of a strip waits at a barrier. -/
def noBar (p : Strip) : Bool := p.strands.all fun t => match t.st with
  | .blocked (.bar _ _) => false
  | _ => true

/-- A core's record stands in the table and it has no store on its way: nothing for a release to perform. -/
structure CoreQuiet (s : State) (core : Nat) (c : Core) : Prop where
  here : tableGet s.cores core = some c
  scb : c.scb = []
  posted : c.posted = []

/-! ## Memory -/

/-- The issue of a ready strip: its strip, PC, set, shape and operands. -/
def ctxOf (i : Instr) (s : State) (p : Strip) (pc : VA) (x : Strands) : Ctx :=
  ⟨s.cur, i, pc, x, shape i, operandsOf s p x (shape i), poisonReads p (shape i) x⟩

/-- The lane instructions whose result comes from accesses that are performed after the issue (R137, R242). -/
def laneAccess : Instr → Bool
  | .ldg _ => true
  | .ldc _ => true
  | .ldga _ => true
  | .atomg _ => true
  | .vlook _ => true
  | .vsten _ => true
  | .vprobe _ => true
  | .vact _ => true
  | .enq _ => true
  | _ => false

/-- The uniform instructions whose result comes from an access that is performed after the issue. -/
def uniformLater : Instr → Bool
  | .sld _ => true
  | .dgst _ => true
  | .ccnt _ => true
  | _ => false

/-- A byte of memory as the strands of a core find it below their caches: in the core's store buffer, else at its home
(R225). -/
def coreByte (s : State) (core pa : Nat) : Byte :=
  match scbFind (coreOf s core) (lineOf pa) with
  | some e => (tableGet e.bytes (pa % 128)).getD (cellGet (0 : Byte) s.mem pa)
  | none => cellGet (0 : Byte) s.mem pa

/-- An address translates for an access by one entry, whatever the free values (no contiguous block), its core and die hold
that translation already and no other of the address: to translate it changes nothing (R412-R417). -/
structure Held (s : State) (ag : Agent) (va : Nat) (acc : Access) (lf : Leaf) (e : DWord) (b : Nat) : Prop where
  walked : ∀ n, walk { s with free := n } ag.root va = .ok (e, b)
  used : useEntry e b va acc = .ok lf
  single : b ≠ 65536
  core : (coreOf s ag.core).tlb.contains ⟨ag.asid, va / b * b, b, e⟩ = true
  die : (dieOf s ag.die).tlb.contains ⟨ag.asid, va / b * b, b, e⟩ = true
  only : olderEntries s ag va (.ok (e, b)) = []

/-- No line of an L2 hides what HBM holds: where HBM's contents are another's than the home value and no write-back of the
line is queued, the L2 holds the line modified (R231, R235). An L2 line found bad breaks it until it is dropped (R422). -/
def Unhidden (s : State) : Prop := ∀ l h, tableGet s.hbm l = some h → h.queued = none →
  ∃ e, tableGet s.l2 l = some e ∧ e.dirty = true

/-- Contents of a line as the machine keeps them: 128 bytes, and marks for its 16 words. -/
def LineData.Sound (d : LineData) : Prop := d.bytes.length = 128 ∧ ∀ w ∈ d.poison, w < 16

/-- What stands behind the L2 is in order: one entry a line, each of a line's size (R235). -/
structure HbmSound (s : State) : Prop where
  table : tableWf s.hbm = true
  held : ∀ l h, tableGet s.hbm l = some h → h.held.Sound
  queued : ∀ l h d, tableGet s.hbm l = some h → h.queued = some d → d.Sound

/-- The tables of a job translate an address alike whatever stands in some lines: those lines hold no entry of the walk. -/
def WalkApart (s : State) (root va : Nat) (lines : Nat → Prop) : Prop := ∀ t : State,
  (∀ q, ¬lines (lineOf q) → cellGet (0 : Byte) t.mem q = cellGet (0 : Byte) s.mem q) →
  (∀ w, ¬lines (w / 16) → (w ∈ t.poison ↔ w ∈ s.poison)) → walk t root va = walk { s with free := t.free } root va

/-- A translation of a piece of a line in memory: not a register, in the populated window, without a stored poison
mark. -/
def Leaf.plain (lf : Leaf) (n : Nat) : Prop :=
  isDevice lf.pa = false ∧ populated lf.pa = true ∧ lf.pr = false ∧ lf.pa % 128 + n ≤ 128

/-- An acquire at a scope by a strip, on a die whose translation log has nothing new (R245, R457): the core's read cache but
for its constant lines, and at PKG and SYS the die's remote lines of the job. -/
def acquired (s : State) (p : Strip) (scope : Nat) : State :=
  let s := if 1 ≤ scope then modCore s p.coreId fun c => { c with rc := c.rc.filter fun l => l.2.constant } else s
  if 3 ≤ scope then dropRdcJob s p.die (stripJob s p).asid fun _ => true else s

/-! ## Engine commands -/

/-- The commands that enter the region scoreboard at their issue without an escrow entry, with what they need there
(R276): format E fields and plan. -/
def enginePlan : Instr → Option (FmtE × (State → Strip → Ctx → Plan))
  | .cpyin f => some (f, planCpyin)
  | .cpyout f => some (f, planCpyout)
  | .cpygg f => some (f, fun _ _ c => if c.ops.nc = 0 then planEmpty else planGlobal)
  | .cpymc f => some (f, planCpymc)
  | .cpyt f => some (f, planCpyt)
  | .cpytn f => some (f, planCpytn)
  | .mma f => some (f, planMac)
  | .mmasp f => some (f, planMac)
  | .mzero f => some (f, planMzero)
  | .mloadb f => some (f, planMloadb)
  | .mdrain f => some (f, planMdrain f)
  | .spproj f => some (f, planSpproj)
  | .spsort f => some (f, planSpsort)
  | .spblnd f => some (f, planSpblnd)
  | .spback f => some (f, planSpback)
  | .rxreg f => some (f, fun _ _ _ => planNone)
  | .rxdereg f => some (f, fun _ _ _ => planNone)
  | .retn f => some (f, planRetn)
  | .launch f => some (f, fun _ _ _ => planGlobal)
  | .cancel f => some (f, fun _ _ _ => planNone)
  | .halo f => some (f, fun _ _ _ => planGlobal)
  | _ => none

/-- The window range that a copy checks at its issue: first offset and bytes (R288, R289). -/
def engineRange (i : Instr) (o : Operands) : Nat × Nat :=
  match i with
  | .cpyin _ => (o.nb, o.nc)
  | .cpyout _ => (o.nb, o.nc)
  | .cpymc _ => (o.bAt 0, o.bAt 1)
  | _ => (0, 0)

/-- The launch of a strip's workgroup. -/
def launchIdOf (s : State) (p : Strip) : Nat := match tableGet s.wgs p.wg with
  | some w => w.launch
  | none => 0

/-- A command as it enters a scoreboard. -/
def newCmd (s : State) (p : Strip) (pc : VA) (x : Strands) (i : Instr) (f : FmtE) (pl : Plan) : Cmd where
  id := s.nextId
  strip := s.cur
  wg := p.wg
  instr := i
  pc := pc
  x := x
  ops := operandsOf s p x (shape i)
  token := tokenOf f
  reads := pl.reads
  writes := pl.writes
  shadow := false
  started := false
  failed := pl.failed
  launch := launchIdOf s p
  job := stripJob s p
  stage := 0
  data := []

/-- The issuing strip of a command: its token counts one more. -/
def Strip.tokened (p : Strip) (f : FmtE) : Strip := match tokenOf f with
  | some k => p.modToken k Token.issue
  | none => p

/-- Nothing of the dies' own agents is left to go on: no write is owed, no graph runs and no work-graph queue is in use. -/
structure Settled (s : State) : Prop where
  owed : s.owed = []
  graphs : s.graphs = []
  nodeQueues : s.nodeQueues = []

/-! ## Rings of a die -/

/-- The 32 bytes of the error record that a die appends now (R425). -/
def errorRecord (s : State) (die unit : Nat) (sev : Severity) (pos : Nat) : List Byte :=
  leBytes 8 (dieOf s die).elseq ++ leBytes 8 s.clk ++ leBytes 2 unit ++ leBytes 2 sev.code ++ leBytes 4 0 ++ leBytes 8 pos

/-- A die's error log takes a new record at `at_`: the ring has room there, in memory that is present, and the last record
was not of the same event (R425, R426). -/
structure LogOpen (s : State) (die : Nat) (at_ : Nat) : Prop where
  here : die < s.dies.length
  fresh : (dieOf s die).lastErr = none
  room : (dieOf s die).elprod.toNat - (dieOf s die).elcons.toNat < (dieOf s die).elcap.toNat
  place : at_ = (dieOf s die).elbase.toNat + 32 * ((dieOf s die).elprod.toNat % (dieOf s die).elcap.toNat)
  present : populated at_ = true
  canonical : s.mem.wf = true
  sound : Unhidden s

/-- A record of an error stands in a die's log, counted, and no other byte of memory has changed. -/
def Logged (s t : State) (die at_ unit : Nat) (sev : Severity) (pos : Nat) : Prop :=
  (dieOf t die).elprod = (dieOf s die).elprod + 1 ∧ (dieOf t die).elseq = (dieOf s die).elseq + 1 ∧
    (∀ k < 32, cellGet (0 : Byte) t.mem (at_ + k) = (errorRecord s die unit sev pos).getD k 0) ∧
    ∀ a, (a < at_ ∨ at_ + 32 ≤ a) → cellGet (0 : Byte) t.mem a = cellGet (0 : Byte) s.mem a

/-- The die a link's records go to (log 31). -/
def linkHome (link : Nat) : Nat := if link < 16 then link / 4 else 0

/-! ## The canonical form -/

/-- The tables of a state are canonical: strips by rising identifier, each with 16 strands and with its registers by
rising number, no s register 0, 16 entries in every v register (R9, R10, R11). -/
structure StripsWf (s : State) : Prop where
  strips : tableWf s.strips = true
  strands : ∀ q ∈ s.strips, q.2.strands.length = 16
  sRegs : ∀ q ∈ s.strips, cellsWf (0 : Word) q.2.s = true
  vRegs : ∀ q ∈ s.strips, tableWf q.2.v = true ∧ ∀ r ∈ q.2.v, r.2.vals.length = 16

end Sys2Proof.Machine
end

