-- ==== Sys2Proof/WellFormed.lean ====
section
/-! DEFINITION. When an instruction is well formed: it is a legal form (R69 codes 1-7, 9, 10 do not apply; code 8
depends on the strip and is tested at issue). -/
namespace Sys2Proof

/-- A well-formed instruction: no detail code of R69 applies to it on a strip with 512 s registers. Machine events
carry no fields that a word could hold wrong; ILLEGAL_INSTRUCTION is the one constructor that is never well formed. -/
def Instr.WellFormed (i : Instr) : Prop := illegalCode i maxSregs = none

/-- The Bool form of `Instr.WellFormed`. -/
def wellFormed (i : Instr) : Bool := illegalCode i maxSregs == none

theorem wellFormed_iff (i : Instr) : wellFormed i = true ↔ i.WellFormed := by
  simp [wellFormed, Instr.WellFormed]

end Sys2Proof
end

