-- ==== Sys2Proof/Certificates/Slice0/Obligations.lean ====
section
/-! DEFINITION. The statements for the provers. A strip that is `Ready` or `Clean` can issue now; `afterLane` and the
like write out the whole next state, so a statement that names one says what changes and that nothing else does. -/
open Sys2Proof Sys2Proof.Machine

/-- Round trip of the encoding (R50, R52, R56, R66-R68): every well-formed instruction that has a word is read back whole. -/
def Obligations.EncodeThenDecode : Prop :=
  ∀ i : Instr, i.WellFormed → ∀ w, encode i = some w → decode w = .ok i

/-- The other direction of the round trip: the decoder ignores no bit of a word (R50, R56, R57). -/
def Obligations.DecodeThenEncode : Prop :=
  ∀ (w : DWord) (i : Instr), decode w = .ok i → encode i = some w

/-- Words written out in the spec (04 R111 and R112, 07, 09, 12) and what they spell. -/
def Obligations.SpecWordsDecode : Prop :=
  decode 0x5500000000000000 = .ok (.nop ⟨0, 0, ⟨false, 0⟩, ⟨false, 0⟩, ⟨false, 0⟩, 0, 0, false, 0⟩) ∧
  decode 0x5400000000000000 = .ok (.exit ⟨0, 0, ⟨false, 0⟩, ⟨false, 0⟩, ⟨false, 0⟩, 0, 0, false, 0⟩) ∧
  decode 0x4000280460200003 = .ok (.shfl ⟨0, 5, ⟨false, 4⟩, ⟨false, 0x301⟩, ⟨false, 0⟩, 0, 0, false, 3⟩) ∧
  decode 0x4A00010C00000000 = .ok (.jwait ⟨0, 0, ⟨false, 0x10C⟩, ⟨false, 0⟩, ⟨false, 0⟩, 0, 0, false, 0⟩) ∧
  decode 0x0D003806602C0000 = .ok (.isel ⟨0, 7, ⟨false, 6⟩, ⟨false, 0x301⟩, ⟨false, 0x300⟩, 0, 0, false, 0⟩) ∧
  decode 0x5920000121D01C08 = .ok (.stg ⟨2, 0, ⟨false, 1⟩, ⟨false, 0x10E⟩, ⟨true, 7⟩, 0, 0, 2, false, false⟩) ∧
  decode 0x8100A11460200000 = .ok (.sadd ⟨0, 20, ⟨false, 0x114⟩, ⟨false, 0x301⟩, ⟨false, 0⟩, 0, 0, false, 0⟩) ∧
  decode 0xAA00000000000016 = .ok (.fence ⟨0, 0, ⟨false, 0⟩, ⟨false, 0⟩, ⟨false, 0⟩, 0, 2, 3, false⟩)

/-- R69: when several conditions hold at once, the lowest code applies; `shapeCodes` lists the codes that hold. -/
def Obligations.LowestDetailCode : Prop :=
  ∀ (i : Instr) (n : Nat), (∀ w, i ≠ .illegalInstruction w) →
    (illegalCode i n = none ↔ shapeCodes (shape i) n = []) ∧
    ∀ c, illegalCode i n = some c → c ∈ shapeCodes (shape i) n ∧ ∀ d ∈ shapeCodes (shape i) n, c ≤ d

/-- A step runs the decoded instruction: `step` is `exec` of the instruction whose eight little-endian bytes stand at the PC (R18), after the tick of the cycle counter (R25) and the release of PHWAITs (R470), the choice of the strip, the translation of the PC and the fill of the instruction cache, when that cache has no word for the place. An input comes first. What picks the strip is the model's own (log 3). -/
def Obligations.StepRunsDecodedInstruction : Prop :=
  (∀ (s : State) (i : Instr) (rest : List Input), (begun s).inputs = .event i :: rest →
    step s = exec i { begun s with inputs := rest }) ∧
  (∀ (s : State) (pa : Nat) (b : List Byte) (rest : List Input), (begun s).inputs = .store pa b :: rest →
    step s = .next (runtimeStore { begun s with inputs := rest } pa b)) ∧
  (∀ (s : State) (conn job size : Nat) (base : DWord) (rest : List Input),
    (begun s).inputs = .connect conn job base size :: rest →
    step s = .next (runtimeConnect { begun s with inputs := rest } conn job base size)) ∧
  (∀ (i : Instr) (s : State), ∃ t, exec i s = .next t) ∧
  ∀ (s s1 s2 : State) (id : Nat) (p : Strip) (pc : VA) (x : Strands) (lf : Leaf) (b : List Byte) (i : Instr),
    ((begun s).inputs = [] ∧ (begun s).turn = false ∧ pickStrip (begun s) = some id ∧ s1 = begun s ∨
      ∃ rest, (begun s).inputs = .issue id :: rest ∧ s1 = { begun s with inputs := rest } ∧ ready s1 p = true) →
    tableGet s1.strips id = some p → (p.asyncs = [] ∨ p.inTrap = true) → p.zeroFetch = false →
    p.issueSet = some (pc, x) →
    xlate { s1 with cur := id, turn := true } (stripAgent { s1 with cur := id, turn := true } p) pc.toNat .exec
      = (.ok lf, s2) →
    readHome s2 lf.pa 8 = (b, false) → lf.pr = false → wordVersions s2 (openedAt s2 p) lf.pa = [b] →
    cachedWord s2 p.coreId lf.pa = none →
    decode (BitVec.ofNat 64 (leNat b)) = .ok i →
    step s = exec i (fillIc s2 p.coreId lf.pa (BitVec.ofNat 64 (leNat b)))

/-- The machine right after package reset: the cycle counter counts from 0 (R25), nothing runs, each die's power cap is 650 W (R499), the module waits for BOOT (R492). Two clauses are the model's choice and no rule of the spec: that memory lists nothing, so that every byte reads as zero (log 1), and that no die holds back issue and the module stands in recovery (log 10, with the other registers that have no stated reset value). -/
def Obligations.ResetLeaves : Prop :=
  State.reset.clk = 0 ∧ State.reset.mem = [] ∧ State.reset.strips = [] ∧ State.reset.wgs = [] ∧
  State.reset.launches = [] ∧ State.reset.dies.length = 4 ∧
  (∀ d ∈ State.reset.dies, d.cap = 650 ∧ d.held = false) ∧ State.reset.boot.recovery = true

/-- Result, completion and frame of the lane instructions that compute each strand by itself (`laneValue` gives the value of each, in the words of R78-R92 and R94-R106). `afterLane` is the whole next state: only the issuing strip changes, and of it only the destination, the released sources, the flags, the PCs and the counts of the executing set. -/
def Obligations.LaneResults : Prop :=
  ∀ (i : Instr) (g : Operands → Nat → Result) (s : State) (p : Strip) (pc : VA) (x : Strands),
    laneValue i = some g → Clean i s p pc x →
    (∀ first n, destOf (shape i) = .v first n → RoomFor (p.issued (shape i) x) first n) →
    exec i s = .next (afterLane s p x (shape i) (each g x (operandsOf s p x (shape i))))

/-- Result, completion and frame of the cross-strand lane instructions; `groupValue` gives the words of all 16 strands from the executing set and its operands. -/
def Obligations.CrossStrandResults : Prop :=
  ∀ (i : Instr) (g : Strands → Operands → Results) (s : State) (p : Strip) (pc : VA) (x : Strands),
    groupValue i = some g → Clean i s p pc x →
    (∀ first n, destOf (shape i) = .v first n → RoomFor (p.issued (shape i) x) first n) →
    exec i s = .next (afterLane s p x (shape i) (g x (operandsOf s p x (shape i))))

/-- Issue, completion and frame of the long-latency lane computations: the result is outstanding with its window (R137), its flags wait for the arrival (R501). -/
def Obligations.LongLaneResults : Prop :=
  ∀ (i : Instr) (g : Strands → Operands → Results) (s : State) (p : Strip) (pc : VA) (x : Strands),
    longValue i = some g → Clean i s p pc x →
    exec i s = .next (afterLong s p x (shape i) (newFlight s (ctxOf i s p pc x)
      (destOf (shape i)) 0 (g x (operandsOf s p x (shape i))).1 (g x (operandsOf s p x (shape i))).2 true))

/-- Result, completion and frame of the uniform scalar instructions (R170); `scalarValue` gives the value of each. -/
def Obligations.ScalarResults : Prop :=
  ∀ (i : Instr) (g : Operands → Result) (s : State) (p : Strip) (pc : VA) (x : Strands),
    scalarValue i = some g → Clean i s p pc x →
    exec i s = .next (afterUniform s p x (shape i) (g (operandsOf s p x (shape i))))

/-- R78 for the 32-bit types, said in the arithmetic of words. -/
def Obligations.WordArithmetic : Prop :=
  ∀ (f : FmtR) (a b c : Word),
    ((f.fn = 0 ∨ f.fn = 1) → f.sat = false →
      intAdd f [a] [b] = ([a + b], 0) ∧ intSub f [a] [b] = ([a - b], 0) ∧ intMul f [a] [b] = ([a * b], 0) ∧
      intMad f [a] [b] [c] = ([a * b + c], 0) ∧ intNeg f [a] = ([-a], 0)) ∧
    (f.fn = 1 → f.sat = true →
      intAdd f [a] [b] = (if a.toNat + b.toNat < 2 ^ 32 then ([a + b], 0) else ([0xFFFFFFFF], flagSAT)) ∧
      intSub f [a] [b] = (if b.toNat ≤ a.toNat then ([a - b], 0) else ([0], flagSAT)))

/-- R78 for the 64-bit types: operands and results are pairs, the lower register holding bits [31:0] (R10). -/
def Obligations.PairArithmetic : Prop :=
  ∀ (f : FmtR) (a a' b b' c c' : Word), (f.fn = 2 ∨ f.fn = 3) → f.sat = false →
    intMul f [a, a'] [b, b'] = ([lo32 (pair64 a a' * pair64 b b'), hi32 (pair64 a a' * pair64 b b')], 0) ∧
    intMad f [a, a'] [b, b'] [c, c'] = ([lo32 (pair64 a a' * pair64 b b' + pair64 c c'),
      hi32 (pair64 a a' * pair64 b b' + pair64 c c')], 0) ∧
    intNeg f [a, a'] = ([lo32 (-pair64 a a'), hi32 (-pair64 a a')], 0) ∧
    intAdd f [a, a'] [b, b'] = ([lo32 (pair64 a a' + pair64 b b'), hi32 (pair64 a a' + pair64 b b')], 0) ∧
    intSub f [a, a'] [b, b'] = ([lo32 (pair64 a a' - pair64 b b'), hi32 (pair64 a a' - pair64 b b')], 0)

/-- R80 in I32, N32, I64 and N64, corner by corner; no flag is ever raised. -/
def Obligations.DivisionCorners : Prop :=
  (∀ (f : FmtR) (a b : Word), f.fn = 0 →
    (intDiv f [a] [b] = ([if b = 0 then 0xFFFFFFFF else if a = 0x80000000 ∧ b = 0xFFFFFFFF then 0x80000000
      else a.sdiv b], 0)) ∧
    (intRem f [a] [b] = ([if b = 0 then a else if a = 0x80000000 ∧ b = 0xFFFFFFFF then 0 else a.srem b], 0))) ∧
  (∀ (f : FmtR) (a b : Word), f.fn = 1 →
    intDiv f [a] [b] = ([if b = 0 then 0xFFFFFFFF else a / b], 0) ∧
    intRem f [a] [b] = ([if b = 0 then a else a % b], 0)) ∧
  ∀ (f : FmtR) (a a' b b' : Word) (x y q r : DWord), x = pair64 a a' → y = pair64 b b' →
    (f.fn = 2 ∧ q = (if y = 0 then 0xFFFFFFFFFFFFFFFF else if x = 0x8000000000000000 ∧ y = 0xFFFFFFFFFFFFFFFF then x
        else x.sdiv y) ∧ r = (if y = 0 then x else if x = 0x8000000000000000 ∧ y = 0xFFFFFFFFFFFFFFFF then 0 else x.srem y) ∨
      f.fn = 3 ∧ q = (if y = 0 then 0xFFFFFFFFFFFFFFFF else x / y) ∧ r = (if y = 0 then x else x % y)) →
    intDiv f [a, a'] [b, b'] = ([lo32 q, hi32 q], 0) ∧ intRem f [a, a'] [b, b'] = ([lo32 r, hi32 r], 0)

/-- R82. The values are those `LaneResults` writes: word k of a result depends on word k of the operands alone, bit by bit, and an operand has 1 word with FN = 0 and 2 with FN = 2. -/
def Obligations.LogicalWords : Prop :=
  ∀ (f : FmtR), (f.fn = 0 ∨ f.fn = 2) →
    tyRegs f.fn = (if f.fn = 0 then 1 else 2) ∧
    ∀ (g : Bool → Bool → Bool) (i : Instr),
      (i, g) ∈ [(Instr.iand f, fun a b => a && b), (.ior f, fun a b => a || b), (.ixor f, fun a b => a != b),
        (.iandn f, fun a b => a && !b)] →
      (∃ v, laneValue i = some v ∧ ∀ (o : Operands) (j : Nat),
        (o.aOf j).length = tyRegs f.fn → (o.bOf j).length = tyRegs f.fn →
        (v o j).2 = 0 ∧ (v o j).1.length = tyRegs f.fn ∧
        ∀ k < tyRegs f.fn, ∀ n < 32, ((v o j).1.getD k 0).getLsbD n =
          g (((o.aOf j).getD k 0).getLsbD n) (((o.bOf j).getD k 0).getLsbD n)) ∧
      ∀ (s : State) (p : Strip) (pc : VA) (x : Strands) (v : Operands → Nat → Result),
        laneValue i = some v → Clean i s p pc x →
        RoomFor (p.issued (shape i) x) f.d.toNat (tyRegs f.fn) →
        exec i s = .next (afterLane s p x (shape i) (each v x (operandsOf s p x (shape i))))

/-- R83 over 32 bits and over pairs. A count of the width or more is not reduced. -/
def Obligations.ShiftCounts : Prop :=
  (∀ (f : FmtR) (a b : Word), f.fn = 0 →
    intShl f [a] [b] = ([if b.toNat < 32 then a <<< b.toNat else 0], 0) ∧
    intShr f [a] [b] = ([if b.toNat < 32 then a >>> b.toNat else 0], 0) ∧
    intSar f [a] [b] = ([if b.toNat < 32 then a.sshiftRight b.toNat else if a.msb then 0xFFFFFFFF else 0], 0)) ∧
  ∀ (f : FmtR) (a a' b : Word) (x l r m : DWord), f.fn = 2 → x = pair64 a a' →
    l = (if b.toNat < 64 then x <<< b.toNat else 0) → r = (if b.toNat < 64 then x >>> b.toNat else 0) →
    m = (if b.toNat < 64 then x.sshiftRight b.toNat else if x.msb then 0xFFFFFFFFFFFFFFFF else 0) →
    intShl f [a, a'] [b] = ([lo32 l, hi32 l], 0) ∧ intShr f [a, a'] [b] = ([lo32 r, hi32 r], 0) ∧
    intSar f [a, a'] [b] = ([lo32 m, hi32 m], 0)

/-- R84, with `pair64 b a` the 64-bit w whose high word is A. -/
def Obligations.FunnelShifts : Prop :=
  (∀ (a b c : Word),
    intFshl [a] [b] [c] = ([hi32 (pair64 b a <<< (c.toNat % 32))], 0) ∧
    intFshr [a] [b] [c] = ([lo32 (pair64 b a >>> (c.toNat % 32))], 0) ∧
    intFshl [a] [a] [c] = ([a.rotateLeft (c.toNat % 32)], 0) ∧ intFshr [a] [a] [c] = ([a.rotateRight (c.toNat % 32)], 0)) ∧
  ∀ (f : FmtR) (i : Instr) (g : Operands → Nat → Result) (s : State) (p : Strip) (pc : VA) (x : Strands),
    (i, g) ∈ [(Instr.ifshl f, fun o j => intFshl (o.aOf j) (o.bOf j) (o.cOf j)),
      (.ifshr f, fun o j => intFshr (o.aOf j) (o.bOf j) (o.cOf j))] →
    Clean i s p pc x → RoomFor (p.issued (shape i) x) f.d.toNat 1 →
    exec i s = .next (afterLane s p x (shape i) (each g x (operandsOf s p x (shape i))))

/-- R86 over 32 bits and over pairs; POPC counts the k with bit k set. -/
def Obligations.BitCounts : Prop :=
  (∀ (f : FmtR) (a : Word), f.fn = 0 →
    (∃ n : Word, clzOp f [a] = ([n], 0) ∧ n.toNat ≤ 32 ∧ (a = 0 ↔ n = 32) ∧
      (∀ k, 32 - n.toNat ≤ k → a.getLsbD k = false) ∧ (n.toNat < 32 → a.getLsbD (31 - n.toNat) = true)) ∧
    (∃ n : Word, ctzOp f [a] = ([n], 0) ∧ n.toNat ≤ 32 ∧ (a = 0 ↔ n = 32) ∧
      (∀ k < n.toNat, a.getLsbD k = false) ∧ (n.toNat < 32 → a.getLsbD n.toNat = true)) ∧
    (∃ n : Word, popcOp f [a] = ([n], 0) ∧ n.toNat = ((List.range 32).filter fun k => a.getLsbD k).length) ∧
    (∃ r : Word, brevOp f [a] = ([r], 0) ∧ ∀ n < 32, r.getLsbD n = a.getLsbD (31 - n))) ∧
  ∀ (f : FmtR) (a a' : Word) (x : DWord), f.fn = 2 → x = pair64 a a' →
    (∃ n : Word, clzOp f [a, a'] = ([n], 0) ∧ n.toNat ≤ 64 ∧ (x = 0 ↔ n = 64) ∧
      (∀ k, 64 - n.toNat ≤ k → x.getLsbD k = false) ∧ (n.toNat < 64 → x.getLsbD (63 - n.toNat) = true)) ∧
    (∃ n : Word, ctzOp f [a, a'] = ([n], 0) ∧ n.toNat ≤ 64 ∧ (x = 0 ↔ n = 64) ∧
      (∀ k < n.toNat, x.getLsbD k = false) ∧ (n.toNat < 64 → x.getLsbD n.toNat = true)) ∧
    (∃ n : Word, popcOp f [a, a'] = ([n], 0) ∧ n.toNat = ((List.range 64).filter fun k => x.getLsbD k).length) ∧
    ∃ r r' : Word, brevOp f [a, a'] = ([r, r'], 0) ∧ ∀ n < 64, (pair64 r r').getLsbD n = x.getLsbD (63 - n)

/-- R34, for the types of codes 0-7; `tyVal` reads words as a value of the type, `intResult` writes one. -/
def Obligations.IntegerResultsWrapOrSaturate : Prop :=
  ∀ (t : BitVec 4) (x : Int), t.toNat < 8 →
    (∃ k : Int, tyVal t (intResult t false x).1 = x + k * (2 ^ intBits t.toNat : Nat)) ∧
    (intMin t.toNat ≤ tyVal t (intResult t false x).1 ∧ tyVal t (intResult t false x).1 ≤ intMax t.toNat) ∧
    (intResult t false x).2 = 0 ∧
    tyVal t (intResult t true x).1 = max (intMin t.toNat) (min x (intMax t.toNat)) ∧
    (intResult t true x).2 = (if intMin t.toNat ≤ x ∧ x ≤ intMax t.toNat then 0 else flagSAT) ∧
    (∀ sat, intBits t.toNat < 32 →
      (intResult t sat x).1 = [BitVec.ofInt 32 (tyVal t (intResult t sat x).1)]) ∧
    (∀ w v : Word, intBits t.toNat < 32 → w.toNat % 2 ^ intBits t.toNat = v.toNat % 2 ^ intBits t.toNat →
      tyVal t [w] = tyVal t [v])

/-- R41 on values a format represents (R36): no subnormal is flushed (R38), nothing is inexact; a NaN becomes the canonical one (R37). -/
def Obligations.RoundingKeepsRepresentables : Prop :=
  ∀ (f : Flt) (b rm : Nat), f ∈ [f64, f32, f16, bf16, e4m3, e5m2] → b < 2 ^ f.bits → rm < 4 →
    f.round (f.val b) rm false = (if (f.val b).isNan then (f.qnan, 0) else (b, 0))

/-- R125, with the marks of YIELD (R176) left out of the lowest-PC clause, and its counts, with the frozen strands of R401 and the set that a faulting fetch records (R421). -/
def Obligations.ExecutingSetChoice : Prop :=
  (∀ (p : Strip),
    (p.chooseX = none ↔ p.runnable = 0) ∧
    ∀ pc x, p.chooseX = some (pc, x) →
      x ≠ 0 ∧ (∀ i < 16, x.getLsbD i = (p.runnable.getLsbD i && p.pcOf i == pc)) ∧
      (∀ i < 16, p.runnable.getLsbD i = true → (p.strands[i]?.map (·.starve)) = some 256 →
        (∀ j < i, p.runnable.getLsbD j = true → (p.strands[j]?.map (·.starve)) ≠ some 256) → pc = p.pcOf i) ∧
      ((∀ i < 16, p.runnable.getLsbD i = true → (p.strands[i]?.map (·.starve)) ≠ some 256 ∧
          (p.strands[i]?.map (·.deferred)) = some false) →
        ∀ i < 16, p.runnable.getLsbD i = true → pc.toNat ≤ (p.pcOf i).toNat)) ∧
  (∀ (p : Strip) (x : Strands), (p.fetchX = 0 → p.issueSet = p.chooseX) ∧
    (p.fetchX ≠ 0 → ∃ pc, p.issueSet = some (pc, p.fetchX)) ∧ (p.countIssueOf x).fetchX = 0) ∧
  ∀ (p : Strip) (x : Strands) (i : Nat) (t : Strand), p.strands.length = 16 → p.strands[i]? = some t →
    ∃ u, (p.countIssueOf x).strands[i]? = some u ∧ u.pc = t.pc ∧ u.st = t.st ∧ u.frozen = t.frozen ∧
      u.starve = (if t.frozen then t.starve else if x.getLsbD i then 0 else min 256 (t.starve + 1))

/-- R143: the value, and UREAD as an issue of MOV leaves it (any instruction's next state above is built on the same `Strip.issued`). -/
def Obligations.EmptyEntryReadsZero : Prop :=
  (∀ (p : Strip) (r i : Nat), p.validAt r i = false → p.readV r i = 0) ∧
  ∀ (f : FmtR) (s : State) (p : Strip) (pc : VA) (x : Strands), Clean (.mov f) s p pc x → f.fn = 0 →
    RoomFor (p.issued (shape (.mov f)) x) f.d.toNat 1 → selClass f.a.sel = .v →
    ∃ t q, exec (.mov f) s = .next t ∧ tableGet t.strips s.cur = some q ∧
      q.status = (if ∃ i < 16, x.getLsbD i = true ∧ p.validAt (selNum f.a.sel) i = false then p.status ||| stUREAD
        else p.status)

/-- R73 and R142: what a last-use bit does to the register map of a strip whose map is in order. -/
def Obligations.LastUseKillsEntries : Prop :=
  ∀ (p : Strip) (r : Nat) (x : Strands), tableWf p.v = true →
    (∀ i < 16, (p.killV r x).validAt r i = (p.validAt r i && !x.getLsbD i)) ∧
    (∀ n i, n ≠ r → (p.killV r x).validAt n i = p.validAt n i ∧ (p.killV r x).readV n i = p.readV n i) ∧
    (∀ i < 16, x.getLsbD i = false → (p.killV r x).readV r i = p.readV r i) ∧
    (tableGet (p.killV r x).v r = none ↔ ∀ i < 16, x.getLsbD i = false → p.validAt r i = false) ∧
    tableWf (p.killV r x).v = true

/-- The ILLEGAL trap (R69-R71, R411) of every instruction with a word, the reserved ones too, and its entry (R399, R401, R404-R406). That a trapping issue counts in the starvation counts is the model's reading (log 19). -/
def Obligations.IllegalInstructionTrap : Prop :=
  ∀ (i : Instr) (w : DWord) (s : State) (p : Strip) (pc : VA) (x : Strands) (c : Nat),
    encode i = some w → Issues s p pc x → issueCode i s p = some c → p.inTrap = false → handlerOf s p ≠ 0 →
    exec i s = .next (putStrip s s.cur
      ((p.countIssueOf x).enterHandler (handlerOf s p) ⟨causeILLEGAL, c, x, x, pc, w, 0, 0⟩))

/-- The STALE trap (R143, R399) for the instructions of `laneValue` and `scalarValue`. That a trapping issue counts in the starvation counts is the model's reading (log 19). -/
def Obligations.StaleReadTrap : Prop :=
  ∀ (i : Instr) (w : DWord) (s : State) (p : Strip) (pc : VA) (x : Strands),
    encode i = some w → ((laneValue i).isSome ∨ (scalarValue i).isSome) → Issues s p pc x → issueCode i s p = none →
    (∀ r ∈ readsV (shape i), ∀ e, tableGet p.v r = some e → e.spilled = false) →
    (emptyReads p (shape i) x).1 ≠ 0 → staleTraps s p = true → p.inTrap = false → handlerOf s p ≠ 0 →
    exec i s = .next (putStrip s s.cur (((p.setStatus stUREAD).countIssueOf x).enterHandler (handlerOf s p)
      ⟨causeSTALE, 0, x, (emptyReads p (shape i) x).1, pc, w, (emptyReads p (shape i) x).2.setWidth 32, 0⟩))

/-- Trap entry as R401 gives it, with the register layouts of R404 and R405. -/
def Obligations.TrapEntryState : Prop :=
  ∀ (p : Strip) (h : VA) (t : TrapEntry), p.strands.length = 16 →
    let q := p.enterHandler h t
    q.cause.toNat = (t.detail * 256 + t.cause) % 2 ^ 32 ∧
    lowMask q.mask = t.v ∧ lowMask (q.mask >>> 16) = t.fail ∧
    q.trapPc = t.pc ∧ q.trapWord = t.word ∧ q.info0 = t.info0 ∧ q.info1 = t.info1 ∧
    q.status = p.status ||| stINTRAP ∧ q.inTrap = true ∧
    (∀ i u, p.strands[i]? = some u → ∃ r, q.strands[i]? = some r ∧
      if t.v.getLsbD i then r.pc = h ∧ r.st = .runnable ∧ r.frozen = false ∧ r.starve = u.starve
      else r = { u with frozen := true }) ∧
    q.v = p.v ∧ q.s = p.s ∧ q.fpflags = p.fpflags ∧ q.tokens = p.tokens ∧ q.flights = p.flights

/-- Result, completion and frame of the branches. `Strip.jump` moves the taken strands to their targets and the others of the set one word on. -/
def Obligations.BranchResults : Prop :=
  (∀ (f : FmtB) (s : State) (p : Strip) (pc : VA) (x : Strands), Clean (.bra f) s p pc x →
    exec (.bra f) s = .next (afterStrip s p x (shape (.bra f)) fun q =>
      q.jump x (meeting x f.fn fun i => word0 ((operandsOf s p x (shape (.bra f))).aOf i))
        fun _ => pc + 8 + BitVec.ofInt 48 (8 * f.off.toInt))) ∧
  (∀ (f : FmtR) (s : State) (p : Strip) (pc : VA) (x : Strands), Clean (.brx f) s p pc x →
    exec (.brx f) s = .next (afterStrip s p x (shape (.brx f)) fun q =>
      q.jump x (meeting x f.fn fun i => word0 ((operandsOf s p x (shape (.brx f))).bOf i))
        fun i => BitVec.ofNat 48 ((dword0 ((operandsOf s p x (shape (.brx f))).aOf i)).toNat / 8 * 8))) ∧
  (∀ (f : FmtR) (s : State) (p : Strip) (pc : VA) (x : Strands), Clean (.ret f) s p pc x →
    exec (.ret f) s = .next (afterStrip s p x (shape (.ret f)) fun q =>
      q.jump x x fun i => BitVec.ofNat 48 ((dword0 ((operandsOf s p x (shape (.ret f))).aOf i)).toNat / 8 * 8))) ∧
  (∀ (f : FmtB) (s : State) (p : Strip) (pc : VA) (x : Strands), Clean (.sbra f) s p pc x →
    exec (.sbra f) s = .next (afterStrip s p x (shape (.sbra f)) fun q =>
      q.jump x (if condition f.fn (word0 (operandsOf s p x (shape (.sbra f))).ua) then x else 0)
        fun _ => pc + 8 + BitVec.ofInt 48 (8 * f.off.toInt))) ∧
  (∀ (f : FmtR) (s : State) (p : Strip) (pc : VA) (x : Strands), Clean (.sbrx f) s p pc x →
    exec (.sbrx f) s = .next (afterStrip s p x (shape (.sbrx f)) fun q =>
      q.jump x (if condition f.fn (word0 (operandsOf s p x (shape (.sbrx f))).ub) then x else 0)
        fun _ => BitVec.ofNat 48 ((dword0 (operandsOf s p x (shape (.sbrx f))).ua).toNat / 8 * 8))) ∧
  ∀ (f : FmtB) (s : State) (p : Strip) (pc : VA) (x taken : Strands), Clean (.call f) s p pc x →
    taken = meeting x f.fn (fun i => word0 ((operandsOf s p x (shape (.call f))).aOf i)) →
    RoomFor (p.issued (shape (.call f)) x) f.d.toNat 2 →
    exec (.call f) s = .next (afterStrip s p x (shape (.call f)) fun q =>
      (if taken = 0 then q else q.putVs f.d.toNat 2 taken (strandIxs.map fun _ =>
          [BitVec.ofNat 32 (pc + 8).toNat, BitVec.ofNat 32 ((pc + 8).toNat / 2 ^ 32)])).jump x taken
        fun _ => pc + 8 + BitVec.ofInt 48 (8 * f.off.toInt))

/-- R112, and PREF, which changes no value (R265); PREF may always be dropped, which is what the model does. -/
def Obligations.NopAndPrefetchOnlyAdvance : Prop :=
  (∀ (f : FmtR) (s : State) (p : Strip) (pc : VA) (x : Strands), Clean (.nop f) s p pc x →
    exec (.nop f) s = .next (putStrip s s.cur ((p.countIssueOf x).advance x))) ∧
  ∀ (f : FmtM) (s : State) (p : Strip) (pc : VA) (x : Strands), Clean (.pref f) s p pc x →
    exec (.pref f) s = .next (afterStrip s p x (shape (.pref f)) fun q => q.advance x)

/-- R111 with R142 (an exited strand counts as dead for every register) and R128 (an exit re-evaluates the JWAITs). The first clause is EXIT with barriers that it releases (R177) and a handler that it ends (R409). -/
def Obligations.ExitEndsStrands : Prop :=
  (∀ (f : FmtR) (s : State) (p : Strip) (pc : VA) (x : Strands), Clean (.exit f) s p pc x → StripsWf s →
    ∃ t q, exec (.exit f) s = .next t ∧ tableGet t.strips s.cur = some q ∧
      (∀ i < 16, x.getLsbD i = true → q.stOf i = .exited ∧ ∀ r, q.validAt r i = false) ∧
      t.mem = s.mem ∧ t.dies = s.dies ∧ t.launches = s.launches ∧ t.wgs = s.wgs) ∧
  ∀ (f : FmtR) (s : State) (p : Strip) (pc : VA) (x : Strands), Clean (.exit f) s p pc x → p.inTrap = false →
    tableWf p.v = true → (∀ q ∈ s.strips, q.2.wg = p.wg → noBar q.2 = true) → noBar p = true →
    ∃ q, exec (.exit f) s = .next (putStrip s s.cur q) ∧
      (∀ i < 16, x.getLsbD i = true → p.strands.length = 16 → q.stOf i = .exited ∧ ∀ r, q.validAt r i = false) ∧
      (∀ i < 16, x.getLsbD i = false → ∀ r, q.validAt r i = p.validAt r i ∧ q.readV r i = p.readV r i) ∧
      (∀ i t, i < 16 → x.getLsbD i = false → p.strands[i]? = some t →
        q.stOf i = t.st ∨ ∃ reg, t.st = .blocked (.join reg) ∧ q.stOf i = .runnable ∧ q.pcOf i = t.pc + 8) ∧
      q.s = p.s ∧ q.fpflags = p.fpflags ∧ q.tokens = p.tokens ∧ q.floor = p.floor

/-- R127-R129 with R168 and R169. A write of an s register (`Strip.writeS`) re-evaluates the rejoins; the last clause says what a re-evaluation of one register does. -/
def Obligations.RejoinRegisters : Prop :=
  (∀ (f : FmtR) (s : State) (p : Strip) (pc : VA) (x : Strands), Clean (.jinit f) s p pc x →
    exec (.jinit f) s = .next (afterStrip s p x (shape (.jinit f)) fun q =>
      (q.writeS x f.d.toNat [maskWord 0 x]).advance x)) ∧
  (∀ (f : FmtR) (s : State) (p : Strip) (pc : VA) (x : Strands), Clean (.jarv f) s p pc x →
    exec (.jarv f) s = .next (afterStrip s p x (shape (.jarv f)) fun q =>
      (q.writeS x (selNum f.a.sel) [q.readS (selNum f.a.sel) ||| maskWord x 0]).advance x)) ∧
  (∀ (f : FmtR) (s : State) (p : Strip) (pc : VA) (x : Strands), Clean (.jwait f) s p pc x →
    exec (.jwait f) s = .next (afterStrip s p x (shape (.jwait f)) fun q =>
      (q.block x (.join (selNum f.a.sel))).writeS x (selNum f.a.sel) [q.readS (selNum f.a.sel) ||| maskWord x 0])) ∧
  ∀ (p : Strip) (x : Strands) (reg : Nat) (w : Word) (i : Nat) (t : Strand), cellsWf (0 : Word) p.s = true →
    p.strands[i]? = some t → t.st = .blocked (.join reg) →
    (p.writeS x reg [w]).readS reg = w ∧
    (p.writeS x reg [w]).strands[i]? = some (
      if lowMask w &&& ~~~(lowMask (w >>> 16) ||| p.exited) = 0 then { t with st := .runnable, pc := t.pc + 8 } else t)

/-- Result, completion and frame of the strip-control instructions (R175, R176, R178, R179). Three points are the model's choice (log 39): that SGETM counts a frozen strand by its state, that YIELD of n holds the strip back until n + 1 cycles later, and where a GROW claim stands among the claims of one cycle. -/
def Obligations.StripControlResults : Prop :=
  (∀ (f : FmtR) (s : State) (p : Strip) (pc : VA) (x : Strands), Clean (.sgetm f) s p pc x →
    exec (.sgetm f) s = .next (afterStrip s p x (shape (.sgetm f)) fun q =>
      (q.writeS x f.d.toNat [maskWord 0 (if f.mod = 0 then x else if f.mod = 1 then q.live
        else strandSet fun i => if f.mod = 2 then q.stOf i == .runnable else match q.stOf i with
          | .blocked _ => true
          | _ => false)]).advance x)) ∧
  (∀ (f : FmtR) (s : State) (p : Strip) (pc : VA) (x : Strands), Clean (.yield f) s p pc x →
    exec (.yield f) s = .next (afterStrip s p x (shape (.yield f)) fun q =>
      ({ q.onStrands x (fun t => { t with deferred := true }) with
        yieldUntil := s.clk + min (word0 (operandsOf s p x (shape (.yield f))).ua).toNat 1023 + 1 } : Strip).advance x)) ∧
  (∀ (f : FmtR) (s : State) (p : Strip) (pc : VA) (x : Strands), Clean (.shrink f) s p pc x →
    exec (.shrink f) s = .next (afterStrip s p x (shape (.shrink f)) fun q =>
      ({ q with floor := max 8 (p.floor - (word0 (operandsOf s p x (shape (.shrink f))).ua).toNat) } : Strip).advance x)) ∧
  (∀ (f : FmtR) (s : State) (p : Strip) (pc : VA) (x : Strands), Clean (.grow f) s p pc x →
    ∃ t q, exec (.grow f) s = .next t ∧ tableGet t.strips s.cur = some q ∧
      q = (p.issued (shape (.grow f)) x).block x (.grow s.nextId) ∧
      claimsOf t p.coreId p.sliceKey = joinClaim (.grow s.nextId s.cur
        (min 384 (p.floor + (word0 (operandsOf s p x (shape (.grow f))).ua).toNat)) p.slot s.clk)
        (claimsOf s p.coreId p.sliceKey) ∧
      t.mem = s.mem ∧ t.dies = s.dies ∧ t.wgs = s.wgs ∧ t.launches = s.launches ∧
      (∀ id, id ≠ s.cur → tableGet t.strips id = tableGet s.strips id)) ∧
  (∀ (k : Claim) (l : List Claim), ∃ a b, l = a ++ b ∧ joinClaim k l = a ++ k :: b ∧
    (∀ c ∈ a, c.made = k.made → c.rank ≤ k.rank) ∧
    ∀ c rest, b = c :: rest → c.made = k.made ∧ k.rank < c.rank) ∧
  (∀ (f : FmtR) (s : State) (p : Strip) (pc : VA) (x : Strands), Clean (.hbeat f) s p pc x → ∀ id l, launchOfStrip s p = some (id, l) →
    exec (.hbeat f) s = .next { afterStrip s p x (shape (.hbeat f)) (fun q => q.advance x) with
      launches := if l.lrec.persistent then tableMod s.launches id (fun l => { l with
        work := listMod l.work p.die fun w => { w with beat := s.clk } }) else s.launches })

/-- R177: arrival and release; with AR the arrival is a release and the resumption an acquire at GROUP scope, which on a quiet core changes nothing but its read cache. -/
def Obligations.BarrierArrivalAndRelease : Prop :=
  (∀ (f : FmtR) (s : State) (p : Strip) (pc : VA) (x : Strands), Clean (.bar f) s p pc x → ∀ (c : Core) (k : Nat × Strip) (t : Strand), CoreQuiet s p.coreId c →
    k ∈ s.strips → k.2.wg = p.wg → k.1 ≠ s.cur → t ∈ k.2.strands → atBar f.fn.toNat t = false → t.st ≠ .exited →
    exec (.bar f) s = .next (afterStrip s p x (shape (.bar f)) fun q => q.block x (.bar f.fn.toNat (f.mod == 1)))) ∧
  (∀ (f : FmtR) (s : State) (p : Strip) (pc : VA) (x : Strands), Clean (.bar f) s p pc x → ∀ (c : Core), CoreQuiet s p.coreId c →
    s.strips.filter (fun k => k.2.wg == p.wg) = [(s.cur, p)] → p.strands.length = 16 →
    (∀ i u, p.strands[i]? = some u → x.getLsbD i = false → u.st = .exited ∨ atBar f.fn.toNat u = true) →
    ∃ t q, exec (.bar f) s = .next t ∧ tableGet t.strips s.cur = some q ∧ q.v = (p.issued (shape (.bar f)) x).v ∧
      q.s = p.s ∧ t.mem = s.mem ∧
      ∀ i u, p.strands[i]? = some u →
        (u.st = .exited → x.getLsbD i = false → q.stOf i = .exited) ∧
        ((x.getLsbD i = true ∨ atBar f.fn.toNat u = true) → q.stOf i = .runnable ∧ q.pcOf i = u.pc + 8))

/-- R284 with the token table of R281. -/
def Obligations.WaitOnTokens : Prop :=
  (∀ (f : FmtR) (s : State) (p : Strip) (pc : VA) (x : Strands), Clean (.wait f) s p pc x → p.tokensFree ((word0 (operandsOf s p x (shape (.wait f))).ua).setWidth 8) = true →
    exec (.wait f) s = .next (
      let t := afterStrip s p x (shape (.wait f)) fun q => q.advance x
      if (word0 (operandsOf s p x (shape (.wait f))).ua).setWidth 8 = (0 : BitVec 8) then t
      else modCore t p.coreId fun c => { c with rc := c.rc.filter fun l => l.2.constant })) ∧
  (∀ (f : FmtR) (s : State) (p : Strip) (pc : VA) (x : Strands), Clean (.wait f) s p pc x → p.tokensFree ((word0 (operandsOf s p x (shape (.wait f))).ua).setWidth 8) = false →
    exec (.wait f) s = .next (afterStrip s p x (shape (.wait f)) fun q =>
      q.block x (.wait ((word0 (operandsOf s p x (shape (.wait f))).ua).setWidth 8)))) ∧
  (∀ (p : Strip) (m : BitVec 8), p.tokensFree m = true ↔
    ∀ k < 8, m.getLsbD k = true → (p.tokens.getD k ⟨0, 0⟩).count = 0) ∧
  ∀ (k : Token) (code : Nat), (k.count = 0 → k.issue = ⟨1, 0⟩) ∧ (k.count ≠ 0 → k.issue = ⟨k.count + 1, k.code⟩) ∧
    k.finish code = ⟨k.count - 1, max k.code code⟩

/-- R408 and R409. When the vectored strands reach RTEs in several sets, the last one's SKIP holds (the model's choice, log 22). -/
def Obligations.TrapAndReturn : Prop :=
  (∀ (f : FmtI) (w : DWord) (s : State) (p : Strip) (pc : VA) (x : Strands), Clean (.trap f) s p pc x →
    encode (.trap f) = some w → p.inTrap = false → handlerOf s p ≠ 0 →
    exec (.trap f) s = .next (afterStrip s p x (shape (.trap f)) fun q =>
      q.enterHandler (handlerOf s p) ⟨causeSOFTWARE, 0, x, x, pc + 8, w, f.imm, 0⟩)) ∧
  (∀ (f : FmtR) (s : State) (p : Strip) (pc : VA) (x : Strands), Clean (.rte f) s p pc x → p.vec &&& ~~~(p.atRte ||| x ||| p.exited) = 0 →
    exec (.rte f) s = .next (afterStrip s p x (shape (.rte f)) fun q =>
      (q.block x (.rte (f.mod == 1))).endHandler (f.mod == 1))) ∧
  (∀ (f : FmtR) (s : State) (p : Strip) (pc : VA) (x : Strands), Clean (.rte f) s p pc x → p.vec &&& ~~~(p.atRte ||| x ||| p.exited) ≠ 0 →
    exec (.rte f) s = .next (afterStrip s p x (shape (.rte f)) fun q => q.block x (.rte (f.mod == 1)))) ∧
  ∀ (p : Strip) (skip : Bool), p.strands.length = 16 →
    (p.endHandler skip).inTrap = false ∧ (p.endHandler skip).v = p.v ∧ (p.endHandler skip).s = p.s ∧
    (p.endHandler skip).fpflags = p.fpflags ∧
    ∀ i t, p.strands[i]? = some t → ∃ u, (p.endHandler skip).strands[i]? = some u ∧ u.frozen = false ∧
      (if p.vec.getLsbD i = true ∧ t.st ≠ .exited then u.st = .runnable ∧ u.pc = (if skip then p.trapPc + 8 else p.trapPc)
        else u.st = t.st ∧ u.pc = t.pc)

/-- R410 with the register table of R404; `sprRead` and `Strip.sprWrite` are spelled out clause by clause. -/
def Obligations.SpecialRegisterAccess : Prop :=
  (∀ (f : FmtI) (s : State) (p : Strip) (pc : VA) (x : Strands), Clean (.sprr f) s p pc x →
    exec (.sprr f) s = .next (afterStrip s p x (shape (.sprr f)) fun q =>
      (q.writeS x f.d.toNat [sprRead s q f.imm.toNat]).advance x)) ∧
  (∀ (f : FmtI) (s : State) (p : Strip) (pc : VA) (x : Strands), Clean (.sprw f) s p pc x →
    exec (.sprw f) s = .next (afterStrip s p x (shape (.sprw f)) fun q =>
      (q.sprWrite f.imm.toNat (word0 (operandsOf s p x (shape (.sprw f))).ua)).advance x)) ∧
  ∀ (s : State) (p : Strip) (w : Word),
    sprRead s p 0x000 = p.status ∧ sprRead s p 0x001 = p.fpflags ∧ sprRead s p 0x010 = p.cause ∧
    sprRead s p 0x011 = p.mask ∧ sprRead s p 0x012 = p.trapPc.setWidth 32 ∧
    sprRead s p 0x013 = (p.trapPc >>> 32).setWidth 32 ∧ sprRead s p 0x014 = lo32 p.trapWord ∧
    sprRead s p 0x015 = hi32 p.trapWord ∧ sprRead s p 0x016 = p.info0 ∧ sprRead s p 0x017 = p.info1 ∧
    sprRead s p 0x020 = (coreOf s p.coreId).engevt ∧ sprRead s p 0x021 = (coreOf s p.coreId).psncnt ∧
    p.sprWrite 0x000 w = { p with status := p.status &&& ~~~(w &&& 7) } ∧
    p.sprWrite 0x001 w = { p with fpflags := p.fpflags &&& ~~~(w &&& 63) } ∧
    (p.inTrap = true → ∃ a b : VA, p.sprWrite 0x012 w = { p with trapPc := a } ∧
      a.extractLsb' 0 32 = w &&& 0xFFFFFFF8 ∧ a.extractLsb' 32 16 = p.trapPc.extractLsb' 32 16 ∧
      p.sprWrite 0x013 w = { p with trapPc := b } ∧
      b.extractLsb' 0 32 = p.trapPc.extractLsb' 0 32 ∧ b.extractLsb' 32 16 = w.extractLsb' 0 16) ∧
    (p.inTrap = false → p.sprWrite 0x012 w = p ∧ p.sprWrite 0x013 w = p) ∧
    ∀ n ∈ [0x010, 0x011, 0x014, 0x015, 0x016, 0x017, 0x020, 0x021], p.sprWrite n w = p

/-- Issue, completion and frame of the accesses that deliver later (R136, R137): what they deliver, and when, is the arrival's (log 6). -/
def Obligations.AccessesGoInFlight : Prop :=
  (∀ (i : Instr) (s : State) (p : Strip) (pc : VA) (x : Strands), laneAccess i = true → Clean i s p pc x →
    alignFails i x (operandsOf s p x (shape i)) = 0 →
    exec i s = .next (afterLong s p x (shape i)
      (newFlight s (ctxOf i s p pc x) (destOf (shape i)) x noResults 0 true))) ∧
  (∀ (f : FmtR) (s : State) (p : Strip) (pc : VA) (x : Strands), Clean (.vmarch f) s p pc x →
    exec (.vmarch f) s = .next (afterLong s p x (shape (.vmarch f))
      (newFlight s (ctxOf (.vmarch f) s p pc x) (.march f.d.toNat (selNum f.a.sel)) x noResults 0 true))) ∧
  ∀ (i : Instr) (s : State) (p : Strip) (pc : VA) (x : Strands), uniformLater i = true → Clean i s p pc x →
    ((∃ f, i = .ccnt f) → pairEa (operandsOf s p x (shape i)).ua % 32 = 0) →
    exec i s = .next (afterLong s p x (shape i)
      (newFlight s (ctxOf i s p pc x) (destOf (shape i)) 1 [[]] 0 true))

/-- Checks 3 and 4 of R256 and R210's, with the trap entries of R405 and R406. That a trapping issue counts in the starvation counts is the model's reading (log 19). -/
def Obligations.AddressTraps : Prop :=
  (∀ (i : Instr) (w : DWord) (s : State) (p : Strip) (pc : VA) (x fails : Strands) (o : Operands), encode i = some w →
    Ready i s p pc x → p.inTrap = false → handlerOf s p ≠ 0 → o = operandsOf s p x (shape i) →
    alignFails i x o = fails → fails ≠ 0 →
    exec i s = .next (putStrip s s.cur ((p.countIssueOf x).enterHandler (handlerOf s p)
      ⟨causeMISALIGN, 0, x, fails, pc, w, BitVec.ofNat 32 (pairEa (o.bOf (lowStrand fails))),
        BitVec.ofNat 32 (pairEa (o.bOf (lowStrand fails)) / 2 ^ 32)⟩))) ∧
  (∀ (f : FmtMA) (x : Strands) (o : Operands) (k : Nat), k < 16 →
    (alignFails (.ldga f) x o).getLsbD k = (x.getLsbD k && pairEa (o.bOf k) % sizeBytes f.fn != 0) ∧
    (alignFails (.stgr f) x o).getLsbD k = (x.getLsbD k && pairEa (o.bOf k) % sizeBytes f.fn != 0) ∧
    (alignFails (.atomg f) x o).getLsbD k = (x.getLsbD k && pairEa (o.bOf k) % (if f.w then 8 else 4) != 0) ∧
    (alignFails (.redg f) x o).getLsbD k = (x.getLsbD k && pairEa (o.bOf k) % (if f.w then 8 else 4) != 0)) ∧
  (∀ (f : FmtMA) (w : DWord) (s : State) (p : Strip) (pc : VA) (x fails : Strands) (o : Operands),
    encode (.atoml f) = some w → Ready (.atoml f) s p pc x → p.inTrap = false → handlerOf s p ≠ 0 →
    o = operandsOf s p x (shape (.atoml f)) → fails ≠ 0 →
    fails = strandSet (fun k => x.getLsbD k && (word0 (o.bOf k)).toNat % (if f.w then 8 else 4) != 0) →
    exec (.atoml f) s = .next (putStrip s s.cur ((p.countIssueOf x).enterHandler (handlerOf s p)
      ⟨causeMISALIGN, 0, x, fails, pc, w, word0 (o.bOf (lowStrand fails)), 0⟩))) ∧
  (∀ (f : FmtE) (w : DWord) (s : State) (p : Strip) (pc : VA) (x : Strands) (a : Nat), encode (.ccnt f) = some w →
    Ready (.ccnt f) s p pc x → p.inTrap = false → handlerOf s p ≠ 0 →
    a = pairEa (operandsOf s p x (shape (.ccnt f))).ua → a % 32 ≠ 0 →
    exec (.ccnt f) s = .next (putStrip s s.cur ((p.countIssueOf x).enterHandler (handlerOf s p)
      ⟨causeMISALIGN, 0, x, x, pc, w, BitVec.ofNat 32 a, BitVec.ofNat 32 (a / 2 ^ 32)⟩))) ∧
  ∀ (i : Instr) (w : DWord) (s : State) (p : Strip) (pc : VA) (x fails : Strands) (o : Operands) (a : Int) (n : Nat),
    encode i = some w → Ready i s p pc x → p.inTrap = false → handlerOf s p ≠ 0 → o = operandsOf s p x (shape i) →
    ((∃ f, i = .ldl f) ∨ (∃ f, i = .stl f) ∨
      ∃ f : FmtMA, i = .atoml f ∧ ∀ k < 16, x.getLsbD k = true → (word0 (o.bOf k)).toNat % (if f.w then 8 else 4) = 0) →
    (∀ k < 16, fails.getLsbD k = (x.getLsbD k && match scratchAccess i o k with
      | some (a, n) => decide (a < 0 ∨ (scratchSize s p : Int) < a + n)
      | none => false)) → fails ≠ 0 → scratchAccess i o (lowStrand fails) = some (a, n) →
    exec i s = .next (putStrip s s.cur ((p.countIssueOf x).enterHandler (handlerOf s p)
      ⟨causeSCRATCH, 0, x, fails, pc, w, BitVec.ofInt 32 a, BitVec.ofNat 32 (scratchSize s p)⟩))

/-- R114 with R225: what one strand of a load reads (`coreByte`), and the extension by the size code (R64). Where a copy that differs from the home is held, which of the two serves is free (the model's choice, log 8); a poisoned read gives zero in its whole destination (R118). -/
def Obligations.LoadReadsCoreView : Prop :=
  (∀ (s : State) (id : Nat) (p : Strip) (f : Flight) (i ea n : Nat) (lf : Leaf) (e : DWord) (b : Nat),
    flightEa f i = some (ea, n) →
    ((∃ m, f.instr = .ldg m) ∨ (∃ m, f.instr = .ldc m) ∨ (∃ m, f.instr = .sld m) ∨ ∃ m, f.instr = .ldga m) →
    ea < 2 ^ 48 → ea % 128 + n ≤ 128 → lf.plain n → Unhidden s → tableGet f.part i = none → f.partBad.getLsbD i = false →
    (∀ k < n, Held s (stripAgent s p) (ea + k) .read { lf with pa := lf.pa + k } e b) →
    (∀ k < n, s.poison.contains ((lf.pa + k) / 8) = false) →
    (∀ en, scbFind (coreOf s p.coreId) (lineOf lf.pa) = some en → en.poison = []) →
    tableGet (coreOf s p.coreId).rc (lineOf lf.pa) = none → tableGet (dieOf s p.die).rdc (lineOf lf.pa) = none →
    ∃ t, loadOne wholeSet id s p f i = (.done (loadWords (flightSize f)
        ((List.range n).map fun k => coreByte s p.coreId (lf.pa + k))) [], t) ∧
      t.mem = s.mem ∧ t.poison = s.poison ∧ t.strips = s.strips ∧
      ∀ core, (coreOf t core).scb = (coreOf s core).scb) ∧
  (∀ (s : State) (id : Nat) (p : Strip) (f : Flight) (i ea n : Nat) (lf : Leaf) (e : DWord) (b : Nat),
    flightEa f i = some (ea, n) →
    ((∃ m, f.instr = .ldg m) ∨ (∃ m, f.instr = .ldc m) ∨ (∃ m, f.instr = .sld m) ∨ ∃ m, f.instr = .ldga m) →
    ea < 2 ^ 48 → n ≤ 8 → ea % n = 0 → ea % 128 + n ≤ 128 → Unhidden s →
    Held s (stripAgent s p) ea .read lf e b → scbFind (coreOf s p.coreId) (lineOf lf.pa) = none →
    lf.plain n → (∀ k < n, s.poison.contains ((lf.pa + k) / 8) = false) →
    (∀ l, tableGet (coreOf s p.coreId).rc (lineOf lf.pa) = some l → l.poison = []) →
    (∀ l, tableGet (dieOf s p.die).rdc (lineOf lf.pa) = some l → l.poison = []) →
    ∃ (d : List Byte) (t : State), loadOne wholeSet id s p f i = (.done (loadWords (flightSize f)
        ((List.range n).map fun k => d.getD (lf.pa % 128 + k) 0)) [], t) ∧ t.mem = s.mem ∧
      (d = readLine s (lineOf lf.pa) ∨
        (∃ l, tableGet (coreOf s p.coreId).rc (lineOf lf.pa) = some l ∧ d = l.bytes ∧ lf.cls ≠ 2 ∧ onSdie lf.pa = false ∧
          ((∃ m, f.instr = .ldg m ∧ m.fn.getLsbD 3 = false) ∨ (∃ m, f.instr = .sld m ∧ m.fn.getLsbD 3 = false) ∨
            ∃ m, f.instr = .ldc m)) ∨
        ∃ l, tableGet (dieOf s p.die).rdc (lineOf lf.pa) = some l ∧ d = l.bytes ∧ lf.cls ≠ 2 ∧ onSdie lf.pa = false ∧
          homeDie lf.pa ≠ p.die ∧ ∀ m, f.instr = .ldga m → m.scope.toNat < 3)) ∧
  (∀ (s : State) (id : Nat) (p : Strip) (f : Flight) (i ea n : Nat) (lf : Leaf) (e : DWord) (b : Nat),
    flightEa f i = some (ea, n) →
    ((∃ m, f.instr = .ldg m) ∨ (∃ m, f.instr = .ldc m) ∨ (∃ m, f.instr = .sld m) ∨ ∃ m, f.instr = .ldga m) →
    ea < 2 ^ 48 → n ≤ 8 → ea % n = 0 → ea % 128 + n ≤ 128 → Unhidden s →
    Held s (stripAgent s p) ea .read lf e b → scbFind (coreOf s p.coreId) (lineOf lf.pa) = none →
    isDevice lf.pa = false → populated lf.pa = true →
    (lf.pr = true ∨ ∃ k < n, s.poison.contains ((lf.pa + k) / 8) = true) →
    tableGet (coreOf s p.coreId).rc (lineOf lf.pa) = none → tableGet (dieOf s p.die).rdc (lineOf lf.pa) = none →
    ∃ t, loadOne wholeSet id s p f i = (.done ((loadWords (flightSize f)
        ((List.range n).map fun k => coreByte s p.coreId (lf.pa + k))).map fun _ => 0) [badMemory ea lf.pa], t) ∧
      t.mem = s.mem ∧ t.poison = s.poison ∧ t.strips = s.strips) ∧
  ∀ (b0 b1 b2 b3 b4 b5 b6 b7 : Byte),
    loadWords 0 [b0] = [b0.setWidth 32] ∧ loadWords 1 [b0, b1] = [(b1 ++ b0).setWidth 32] ∧
    loadWords 2 [b0, b1, b2, b3] = [b3 ++ b2 ++ b1 ++ b0] ∧
    loadWords 3 [b0, b1, b2, b3, b4, b5, b6, b7] = [b3 ++ b2 ++ b1 ++ b0, b7 ++ b6 ++ b5 ++ b4] ∧
    loadWords 5 [b0] = [b0.signExtend 32] ∧ loadWords 6 [b0, b1] = [(b1 ++ b0).signExtend 32]

/-- R115, R116 and R171 through the store buffer (R224): the address is `globalEa` of the operands (R58), its place the translation's. -/
def Obligations.StoresEnterTheBuffer : Prop :=
  (∀ (f : FmtM) (s : State) (p : Strip) (pc : VA) (x : Strands) (c : Core) (o : Operands) (lf : Nat → Leaf)
    (e : Nat → DWord) (b : Nat → Nat), Clean (.stg f) s p pc x → CoreQuiet s p.coreId c →
    o = operandsOf s p x (shape (.stg f)) →
    (∀ k < 16, x.getLsbD k = true → globalEa f (o.aOf k) (o.bOf k) % 128 + sizeBytes f.fn ≤ 128 ∧
      Held s (stripAgent s p) (globalEa f (o.aOf k) (o.bOf k)) .write (lf k) (e k) (b k) ∧
      (lf k).plain (sizeBytes f.fn)) →
    ∃ t, exec (.stg f) s = .next t ∧
      t.strips = tablePut s.strips s.cur ((p.issued (shape (.stg f)) x).advance x) ∧
      (∀ k < 16, x.getLsbD k = true → ∀ j < sizeBytes f.fn,
        (∀ m < 16, k < m → x.getLsbD m = true → (lf k).pa + j < (lf m).pa ∨ (lf m).pa + sizeBytes f.fn ≤ (lf k).pa + j) →
        coreByte t p.coreId ((lf k).pa + j) = (wordsBytes (o.cOf k)).getD j 0) ∧
      (∀ a, (∀ k < 16, x.getLsbD k = true → a < (lf k).pa ∨ (lf k).pa + sizeBytes f.fn ≤ a) →
        coreByte t p.coreId a = coreByte s p.coreId a) ∧
      t.mem = s.mem ∧ t.dies = s.dies ∧ t.wgs = s.wgs ∧ t.launches = s.launches ∧
      ∀ core, core ≠ p.coreId → coreOf t core = coreOf s core) ∧
  ∀ (f : FmtM) (s : State) (p : Strip) (pc : VA) (x : Strands) (c : Core) (o : Operands) (lf : Leaf) (e : DWord) (b : Nat),
    Clean (.sst f) s p pc x → CoreQuiet s p.coreId c → o = operandsOf s p x (shape (.sst f)) →
    globalEa f o.ua o.ub % 128 + sizeBytes f.fn ≤ 128 →
    Held s (stripAgent s p) (globalEa f o.ua o.ub) .write lf e b → lf.plain (sizeBytes f.fn) →
    ∃ t, exec (.sst f) s = .next t ∧
      t.strips = tablePut s.strips s.cur ((p.issued (shape (.sst f)) x).advance x) ∧
      (∀ j < sizeBytes f.fn, coreByte t p.coreId (lf.pa + j) = (wordsBytes o.uc).getD j 0) ∧
      (∀ a, (a < lf.pa ∨ lf.pa + sizeBytes f.fn ≤ a) → coreByte t p.coreId a = coreByte s p.coreId a) ∧
      t.mem = s.mem ∧ t.dies = s.dies ∧ t.wgs = s.wgs ∧ t.launches = s.launches ∧
      ∀ core, core ≠ p.coreId → coreOf t core = coreOf s core

/-- R258 and R263: what an ordered store leaves in the core; SCB_DRAIN performs it at the home. -/
def Obligations.OrderedStoresArePosted : Prop :=
  (∀ (f : FmtMA) (s : State) (p : Strip) (pc : VA) (x : Strands) (c : Core) (o : Operands) (lf : Nat → Leaf)
    (e : Nat → DWord) (b : Nat → Nat), Clean (.stgr f) s p pc x → CoreQuiet s p.coreId c →
    alignFails (.stgr f) x o = 0 → o = operandsOf s p x (shape (.stgr f)) →
    (∀ k < 16, x.getLsbD k = true → pairEa (o.bOf k) % 128 + sizeBytes f.fn ≤ 128 ∧
      Held s (stripAgent s p) (pairEa (o.bOf k)) .write (lf k) (e k) (b k) ∧ (lf k).plain (sizeBytes f.fn)) →
    (∀ j < 16, ∀ k < 16, x.getLsbD j = true → x.getLsbD k = true → j ≠ k →
      (lf j).pa + sizeBytes f.fn ≤ (lf k).pa ∨ (lf k).pa + sizeBytes f.fn ≤ (lf j).pa) →
    ∃ t, exec (.stgr f) s = .next t ∧
      t.strips = tablePut s.strips s.cur ((p.issued (shape (.stgr f)) x).advance x) ∧
      t.mem = s.mem ∧ t.dies = s.dies ∧ (∀ core, core ≠ p.coreId → coreOf t core = coreOf s core) ∧
      (narrowScope s p f.scope.toNat = false → (coreOf t p.coreId).scb = [] ∧
        ((x = 0xFFFF ∧ sizeBytes f.fn = 8 ∧ pairEa (o.bOf 0) % 128 = 0 ∧
            ∀ k < 16, pairEa (o.bOf k) = pairEa (o.bOf 0) + 8 * k) →
          (coreOf t p.coreId).posted = [⟨s.cur, 0xFFFF, (stripAgent s p).launches,
            [.write (lf 0).pa (if (lf 0).cls = 1 then 1 else 0) (strandIxs.flatMap fun k => (wordsBytes (o.cOf k)).take 8)]⟩]) ∧
        (¬(x = 0xFFFF ∧ sizeBytes f.fn = 8 ∧ pairEa (o.bOf 0) % 128 = 0 ∧
            ∀ k < 16, pairEa (o.bOf k) = pairEa (o.bOf 0) + 8 * k) →
          (coreOf t p.coreId).posted = (strandsOf x).map fun k =>
            ⟨s.cur, oneStrand k, (stripAgent s p).launches, [.write (lf k).pa (if (lf k).cls = 1 then 1 else 0) ((wordsBytes (o.cOf k)).take (sizeBytes f.fn))]⟩)) ∧
      (narrowScope s p f.scope.toNat = true → (coreOf t p.coreId).posted = [] ∧
        (∀ k < 16, x.getLsbD k = true → ∀ j < sizeBytes f.fn,
          coreByte t p.coreId ((lf k).pa + j) = (wordsBytes (o.cOf k)).getD j 0) ∧
        ∀ a, (∀ k < 16, x.getLsbD k = true → a < (lf k).pa ∨ (lf k).pa + sizeBytes f.fn ≤ a) →
          coreByte t p.coreId a = coreByte s p.coreId a)) ∧
  ∀ (f : FmtMA) (s : State) (p : Strip) (pc : VA) (x : Strands) (c : Core) (o : Operands) (lf : Nat → Leaf)
    (e : Nat → DWord) (b : Nat → Nat), Clean (.redg f) s p pc x → CoreQuiet s p.coreId c →
    alignFails (.redg f) x o = 0 → o = operandsOf s p x (shape (.redg f)) →
    (∀ k < 16, x.getLsbD k = true → Held s (stripAgent s p) (pairEa (o.bOf k)) .both (lf k) (e k) (b k) ∧
      (lf k).plain (if f.w then 8 else 4)) →
    ∃ t, exec (.redg f) s = .next t ∧
      t.strips = tablePut s.strips s.cur ((p.issued (shape (.redg f)) x).advance x) ∧
      t.mem = s.mem ∧ t.dies = s.dies ∧ (∀ core, core ≠ p.coreId → coreOf t core = coreOf s core) ∧
      (coreOf t p.coreId).scb = [] ∧
      (coreOf t p.coreId).posted = (strandsOf x).map fun k =>
        ⟨s.cur, oneStrand k, (stripAgent s p).launches, [.red (lf k).pa (if (lf k).cls = 1 then 1 else 0) f.fn.toNat f.w false (wordsNat (o.aOf k))]⟩

/-- R259 and R264; `scratchEa` is the window offset and `(partOf s p).scratch` the window's first byte on the core. -/
def Obligations.ScratchAccesses : Prop :=
  (∀ (f : FmtM) (s : State) (p : Strip) (pc : VA) (x : Strands) (o : Operands), Clean (.ldl f) s p pc x →
    o = operandsOf s p x (shape (.ldl f)) → scratchFails s p (.ldl f) x o = 0 → (coreOf s p.coreId).rsb = [] →
    (coreOf s p.coreId).scratchPoison = [] →
    exec (.ldl f) s = .next (afterLong s p x (shape (.ldl f))
      { newFlight s (ctxOf (.ldl f) s p pc x) (destOf (shape (.ldl f))) x noResults 0 true with
        undone := 0
        got := strandIxs.map fun k => if x.getLsbD k then loadWords f.fn ((List.range (sizeBytes f.fn)).map fun j =>
          cellGet (0 : Byte) (coreOf s p.coreId).scratch
            ((partOf s p).scratch + (scratchEa f (o.aOf k) (o.bOf k)).toNat + j)) else [] })) ∧
  (∀ (f : FmtM) (s : State) (p : Strip) (pc : VA) (x : Strands) (o : Operands), Clean (.stl f) s p pc x →
    o = operandsOf s p x (shape (.stl f)) → scratchFails s p (.stl f) x o = 0 → (coreOf s p.coreId).rsb = [] →
    cellsWf (0 : Byte) (coreOf s p.coreId).scratch = true →
    ∃ t, exec (.stl f) s = .next t ∧
      t.strips = tablePut s.strips s.cur ((p.issued (shape (.stl f)) x).advance x) ∧ t.mem = s.mem ∧ t.dies = s.dies ∧
      t.wgs = s.wgs ∧ t.launches = s.launches ∧ (∀ core, core ≠ p.coreId → coreOf t core = coreOf s core) ∧
      (coreOf t p.coreId).scb = (coreOf s p.coreId).scb ∧
      (∀ k < 16, x.getLsbD k = true → ∀ j < sizeBytes f.fn, ∀ a,
        a = (partOf s p).scratch + (scratchEa f (o.aOf k) (o.bOf k)).toNat + j →
        (∀ h, k < h → h < 16 → x.getLsbD h = true →
          a < (partOf s p).scratch + (scratchEa f (o.aOf h) (o.bOf h)).toNat ∨
          (partOf s p).scratch + (scratchEa f (o.aOf h) (o.bOf h)).toNat + sizeBytes f.fn ≤ a) →
        cellGet (0 : Byte) (coreOf t p.coreId).scratch a = (wordsBytes (o.cOf k)).getD j 0) ∧
      ∀ a, (∀ h < 16, x.getLsbD h = true →
          a < (partOf s p).scratch + (scratchEa f (o.aOf h) (o.bOf h)).toNat ∨
          (partOf s p).scratch + (scratchEa f (o.aOf h) (o.bOf h)).toNat + sizeBytes f.fn ≤ a) →
        cellGet (0 : Byte) (coreOf t p.coreId).scratch a = cellGet (0 : Byte) (coreOf s p.coreId).scratch a) ∧
  ∀ (f : FmtMA) (s : State) (p : Strip) (pc : VA) (x : Strands) (c : Core) (o : Operands) (n : Nat) (at_ old : Nat → Nat),
    Clean (.atoml f) s p pc x → CoreQuiet s p.coreId c → o = operandsOf s p x (shape (.atoml f)) →
    n = (if f.w then 8 else 4) → (∀ k < 16, x.getLsbD k = true → (word0 (o.bOf k)).toNat % n = 0) →
    scratchFails s p (.atoml f) x o = 0 → (coreOf s p.coreId).rsb = [] → (coreOf s p.coreId).scratchPoison = [] →
    cellsWf (0 : Byte) (coreOf s p.coreId).scratch = true →
    (∀ k < 16, at_ k = (partOf s p).scratch + (word0 (o.bOf k)).toNat) →
    (∀ j < 16, ∀ k < 16, x.getLsbD j = true → x.getLsbD k = true → j ≠ k → at_ j + n ≤ at_ k ∨ at_ k + n ≤ at_ j) →
    (∀ k < 16, old k = leNat ((List.range n).map fun j => cellGet (0 : Byte) (coreOf s p.coreId).scratch (at_ k + j))) →
    ∃ t, exec (.atoml f) s = .next t ∧
      t.strips = tablePut s.strips s.cur (((p.issued (shape (.atoml f)) x).addFlight
        { newFlight s (ctxOf (.atoml f) s p pc x) (destOf (shape (.atoml f))) x noResults 0 true with
          undone := 0
          got := strandIxs.map fun k => if x.getLsbD k then wordsOf (n / 4) (old k) else [] }).advance x) ∧
      (f.ord.getLsbD 0 = false ∨ f.scope.toNat < 3 → t.dies = s.dies) ∧
      (f.ord.getLsbD 0 = false ∨ f.scope.toNat < 3 ∨ (dieOf s p.die).tiPending = false →
        t.mem = s.mem ∧ ∀ core, core ≠ p.coreId → coreOf t core = coreOf s core) ∧
      (∀ k < 16, x.getLsbD k = true →
        leNat ((List.range n).map fun j => cellGet (0 : Byte) (coreOf t p.coreId).scratch (at_ k + j)) =
          ((atomNew f.fn.toNat f.w (old k) (wordsNat (o.aOf k)) (wordsNat (o.cOf k))).getD (old k)) % 256 ^ n) ∧
      ∀ a, (∀ k < 16, x.getLsbD k = true → a < at_ k ∨ at_ k + n ≤ a) →
        cellGet (0 : Byte) (coreOf t p.coreId).scratch a = cellGet (0 : Byte) (coreOf s p.coreId).scratch a

/-- The integer rows of R261's table, said in the arithmetic of words; FADD, FMIN and FMAX are `Flt.add` and `Flt.minmax`. -/
def Obligations.AtomicFunctions : Prop :=
  (∀ a b c : Word, let f := fun n => atomNew n false a.toNat b.toNat c.toNat
    f 0 = some (a + b).toNat ∧ f 1 = some (if b.slt a then b else a).toNat ∧ f 2 = some (if a.slt b then b else a).toNat ∧
    f 3 = some (if b.ult a then b else a).toNat ∧ f 4 = some (if a.ult b then b else a).toNat ∧
    f 5 = some (a &&& b).toNat ∧ f 6 = some (a ||| b).toNat ∧ f 7 = some (a ^^^ b).toNat ∧ f 8 = some b.toNat ∧
    f 9 = (if a = c then some b.toNat else none)) ∧
  ∀ a b c : DWord, let f := fun n => atomNew n true a.toNat b.toNat c.toNat
    f 0 = some (a + b).toNat ∧ f 1 = some (if b.slt a then b else a).toNat ∧ f 2 = some (if a.slt b then b else a).toNat ∧
    f 3 = some (if b.ult a then b else a).toNat ∧ f 4 = some (if a.ult b then b else a).toNat ∧
    f 5 = some (a &&& b).toNat ∧ f 6 = some (a ||| b).toNat ∧ f 7 = some (a ^^^ b).toNat ∧ f 8 = some b.toNat ∧
    f 9 = (if a = c then some b.toNat else none)

/-- R246 with the duties of R245 and R457, R346 and R460. -/
def Obligations.FencesOrder : Prop :=
  (∀ (f : FmtMA) (s : State) (p : Strip) (pc : VA) (x : Strands) (c : Core), Clean (.fence f) s p pc x →
    CoreQuiet s p.coreId c → (3 ≤ f.scope.toNat → (dieOf s p.die).tiPending = false) →
    exec (.fence f) s = .next (let t := afterStrip s p x (shape (.fence f)) fun q => q.advance x
      if f.ord.getLsbD 0 then acquired t p f.scope.toNat else t)) ∧
  (∀ (f : FmtMA) (s : State) (p : Strip) (pc : VA) (x : Strands), Clean (.fence f) s p pc x → f.ord.getLsbD 1 = true →
    (coreOf s p.coreId).posted = [] → narrowScope s p f.scope.toNat = false → (dieOf s p.die).tiPending = false →
    ∃ t, exec (.fence f) s = .next t ∧ (coreOf t p.coreId).scb = [] ∧
      t.strips = tablePut s.strips s.cur ((p.issued (shape (.fence f)) x).advance x)) ∧
  (∀ (f : FmtMA) (s : State) (p : Strip) (pc : VA) (x : Strands) (c : Core), Clean (.wfence f) s p pc x →
    CoreQuiet s p.coreId c → (3 ≤ f.scope.toNat → (dieOf s p.die).tiPending = false) →
    exec (.wfence f) s = .next (
      let t := modCore (afterStrip s p x (shape (.wfence f)) fun q => q.advance x) p.coreId fun c =>
        { c with wleaf := [], wnode := [], wdata := [] }
      if f.ord.getLsbD 0 then acquired t p f.scope.toNat else t)) ∧
  ∀ (f : FmtMA) (s : State) (p : Strip) (pc : VA) (x : Strands) (c : Core) (d : Nat), Clean (.fencePromote f) s p pc x →
    CoreQuiet s p.coreId c → d = (word0 (operandsOf s p x (shape (.fencePromote f))).ua).toNat % 4 →
    (∀ k ∈ s.cores, k.1 / 96 = d → k.2.scb = []) → tableWf s.cores = true →
    exec (.fencePromote f) s = .next (
      let t := afterStrip s p x (shape (.fencePromote f)) fun q => q.advance x
      let u := if f.ord.getLsbD 0 then acquired t p 2 else t
      if d ≠ p.die ∧ holdsSector s (stripJob s p).part d then
        dropRdcJob u p.die (stripJob s p).asid fun line => homeDie (line * 128) == d
      else u)

/-- R267 with R235 and R237 (which of the two a dropped line reads is free, log 13), and R226: the drain of an entry as one event. Which entry drains, and which posted write is performed, is the input's (log 3), but for the order of the writes of one line (R258). `Unhidden`: no clean line of an L2 hides other contents of HBM. -/
def Obligations.DiscardAndDrain : Prop :=
  (∀ (f : FmtR) (s : State) (p : Strip) (pc : VA) (x : Strands), Clean (.discard f) s p pc x →
    word0 (operandsOf s p x (shape (.discard f))).ub = 0 →
    exec (.discard f) s = .next (afterStrip s p x (shape (.discard f)) fun q => q.advance x).bumpId) ∧
  (∀ (f : FmtR) (s : State) (p : Strip) (pc : VA) (x : Strands) (o : Operands) (a n m : Nat) (lf : Nat → Leaf)
    (e : Nat → DWord) (b : Nat → Nat), Clean (.discard f) s p pc x → o = operandsOf s p x (shape (.discard f)) →
    a = (dword0 o.ua).toNat → n = (word0 o.ub).toNat → 0 < n → m = (a % 128 + n + 127) / 128 →
    (∀ k < m, Held s (stripAgent s p) (vaOf (a / 128 * 128 + 128 * k)) .write (lf k) (e k) (b k)) →
    s.mem.wf = true → HbmSound s →
    (m ≤ 1 ∨ (∀ k < m, tableGet s.hbm (lineOf (lf k).pa) = none) ∨
      ∀ k < m, WalkApart s (stripAgent s p).root (vaOf (a / 128 * 128 + 128 * k)) fun l => ∃ j < m, l = lineOf (lf j).pa) →
    ∃ t, exec (.discard f) s = .next t ∧
      t.strips = tablePut s.strips s.cur ((p.issued (shape (.discard f)) x).advance x) ∧
      (∀ q, (∀ k < m, lineOf q ≠ lineOf (lf k).pa) ∨ tableGet s.hbm (lineOf q) = none →
        cellGet (0 : Byte) t.mem q = cellGet (0 : Byte) s.mem q) ∧
      (∀ w, (∀ k < m, w / 16 ≠ lineOf (lf k).pa) ∨ tableGet s.hbm (w / 16) = none → (w ∈ t.poison ↔ w ∈ s.poison)) ∧
      (∀ k < m, ∀ l h, l = lineOf (lf k).pa → tableGet s.hbm l = some h → onSdie (l * 128) = false →
        populated (l * 128) = true → ∃ d, (d = h.held ∨ h.queued = some d) ∧
          (∀ j < 128, cellGet (0 : Byte) t.mem (l * 128 + j) = d.bytes.getD j 0) ∧
          ∀ j < 16, l * 16 + j ∈ t.poison ↔ j ∈ d.poison) ∧
      (tableWf (coreOf s p.coreId).rc = true → ∀ k < m, tableGet (coreOf t p.coreId).rc (lineOf (lf k).pa) = none) ∧
      (tableWf (dieOf s p.die).rdc = true → ∀ k < m, tableGet (dieOf t p.die).rdc (lineOf (lf k).pa) = none) ∧
      (coreOf t p.coreId).scb = (coreOf s p.coreId).scb ∧ t.mem.wf = true ∧
      t.wgs = s.wgs ∧ t.launches = s.launches ∧ ∀ core, core ≠ p.coreId → coreOf t core = coreOf s core) ∧
  (∀ (s : State) (core n : Nat) (en : ScbEntry), (coreOf s core).scb[n]? = some en →
    (scbDue s en = false → exec (.scbDrain core n) s = .next s) ∧
    (scbDue s en = true → ∃ t, exec (.scbDrain core n) s = .next t ∧
      (coreOf t core).scb = (coreOf s core).scb.filter (fun h => h.line != en.line) ∧ t.strips = s.strips ∧
      t.wgs = s.wgs ∧
      (populated (en.line * 128) = true → (∀ h ∈ (coreOf s core).scb, h.line = en.line → h = en) →
        tableWf en.bytes = true → (∀ k ∈ en.bytes, k.1 < 128) → s.mem.wf = true → Unhidden s →
        (∀ k < 128, cellGet (0 : Byte) t.mem (en.line * 128 + k) =
          (tableGet en.bytes k).getD (cellGet (0 : Byte) s.mem (en.line * 128 + k))) ∧
        (∀ a, lineOf a ≠ en.line → cellGet (0 : Byte) t.mem a = cellGet (0 : Byte) s.mem a) ∧ t.mem.wf = true ∧
        ∀ a, coreByte t core a = coreByte s core a))) ∧
  (∀ (s : State) (core n : Nat), (coreOf s core).scb.length + (coreOf s core).posted.length ≤ n →
    exec (.scbDrain core n) s = .next s) ∧
  ∀ (s : State) (core k : Nat) (q : Posted), (coreOf s core).posted[k]? = some q →
    ((∃ j r l, j < k ∧ (coreOf s core).posted[j]? = some r ∧ l ∈ postedLines q ∧ l ∈ postedLines r) →
      exec (.scbDrain core ((coreOf s core).scb.length + k)) s = .next s) ∧
    ((∀ j r l, j < k → (coreOf s core).posted[j]? = some r → l ∈ postedLines q → l ∉ postedLines r) →
    ∃ t, exec (.scbDrain core ((coreOf s core).scb.length + k)) s = .next t ∧
      (coreOf t core).posted = (coreOf s core).posted.eraseIdx k ∧
      (coreOf t core).scb = (coreOf s core).scb ∧
      (∀ pa cp bytes, q.ops = [.write pa cp bytes] → isDevice pa = false → populated pa = true → s.mem.wf = true →
        Unhidden s →
        (∀ k < bytes.length, cellGet (0 : Byte) t.mem (pa + k) = bytes.getD k 0) ∧
        (∀ a, (a < pa ∨ pa + bytes.length ≤ a) → cellGet (0 : Byte) t.mem a = cellGet (0 : Byte) s.mem a) ∧
        t.strips = s.strips) ∧
      ∀ pa cp fn w a v m, q.ops = [.red pa cp fn w false a] → isDevice pa = false → populated pa = true →
        s.mem.wf = true → Unhidden s → m = (if w then 8 else 4) → anyPoison s pa m = false →
        atomNew fn w (leNat (cellRange (0 : Byte) s.mem pa m)) a 0 = some v →
        (∀ j < m, cellGet (0 : Byte) t.mem (pa + j) = (leBytes m v).getD j 0) ∧
        (∀ a, (a < pa ∨ pa + m ≤ a) → cellGet (0 : Byte) t.mem a = cellGet (0 : Byte) s.mem a) ∧
        t.strips = s.strips)

/-- R339: requests of strips to Mint, in order; `giveIndex` is R342's event. That each executing strand has a request of its own, which MINT_OPERATION performs, is the model's choice (log 21): R339 leaves open the order in which requests reach Mint. -/
def Obligations.MintInstructions : Prop :=
  (∀ (f : FmtMA) (s : State) (p : Strip) (pc : VA) (x : Strands) (sh : Shape), Clean (.vins f) s p pc x →
    sh = shape (.vins f) →
    exec (.vins f) s = .next (modDie (afterLong s p x sh
      (newFlight s (ctxOf (.vins f) s p pc x) (destOf sh) x noResults 0 true)) p.die fun d =>
        { d with mint := d.mint ++ (strandsOf x).map fun k =>
          ⟨s.cur, p.coreId, stripJob s p, some s.nextId, k, .vins f, operandsOf s p x sh, false, .fresh⟩ })) ∧
  (∀ (f : FmtR) (s : State) (p : Strip) (pc : VA) (x : Strands) (sh : Shape), Clean (.valloc f) s p pc x →
    sh = shape (.valloc f) →
    exec (.valloc f) s = .next (modDie (afterLong s p x sh
      (newFlight s (ctxOf (.valloc f) s p pc x) (destOf sh) 1 [[]] 0 true)) p.die fun d =>
        { d with mint := d.mint ++ [⟨s.cur, p.coreId, stripJob s p, some s.nextId, 0, .valloc f,
          operandsOf s p x sh, false, .fresh⟩] })) ∧
  (∀ (f : FmtR) (s : State) (p : Strip) (pc : VA) (x : Strands) (c : Core) (sh : Shape), Clean (.vfree f) s p pc x →
    CoreQuiet s p.coreId c → sh = shape (.vfree f) →
    exec (.vfree f) s = .next (modDie (afterStrip s p x sh fun q => q.advance x) p.die fun d =>
      { d with mint := d.mint ++ [⟨s.cur, p.coreId, stripJob s p, none, 0, .vfree f, operandsOf s p x sh, false, .fresh⟩] })) ∧
  ∀ (s : State) (die n : Nat) (m : MintReq) (f : FmtR) (w : Walker) (v : Vdesc) (k k' : Walk),
    (dieOf s die).mint[n]? = some m → m.instr = .vfree f → m.flight = none → m.core / 96 = die →
    dieWaiting s (.mint m.strip) = false → w = ⟨mintAgent m, .mint⟩ →
    readVdesc w (dword0 m.ops.ua).toNat (Walk.start s) = (some v, k) →
    giveIndex w v (f.mod.getLsbD 0) (word0 m.ops.ub).toNat k = k' → k'.fault = none → k'.bad = [] →
    exec (.mintOperation die n) s = .next (modDie k'.s die fun d => { d with mint := d.mint.erase m })

/-- R138, R153 and R501: the arrival and the end of the window; R150: a refill. -/
def Obligations.ResultsArrive : Prop :=
  (∀ (s : State) (strip : Nat) (part : AccessPart) (p : Strip) (f : Flight), tableGet s.strips strip = some p → p.waits = [] →
    p.flights = [f] → f.undone = 0 → f.long = true → f.arrived = false → acquireOf f.instr = none →
    (f.left ≠ 0 → exec (.longLatencyResultArrival strip 0 part) s = .next (putStrip s strip { p.raise f.flags with
      flights := [{ f with arrived := true, staged := f.dest.vRegs.length != 0 && canStage s p f.dest.vRegs.length }] })) ∧
    (∀ first len, f.left = 0 → f.spoilt = [] → f.dest = .v first len → f.lost = List.replicate len 0 → len ≤ 16 →
      f.x &&& p.live ≠ 0 → RoomFor p first len → f.staged = false →
      exec (.longLatencyResultArrival strip 0 part) s =
        .next (putStrip s strip { (p.raise f.flags).putVs first len (f.x &&& p.live) f.got with flights := [] })) ∧
    (∀ first len ws, f.left = 0 → f.dest = .s first len → f.lost = List.replicate len 0 → f.got = [ws] →
      ws.length = len →
      exec (.longLatencyResultArrival strip 0 part) s = .next (putStrip s strip
        ((List.range len).foldl (fun (q : Strip) k => q.putS (first + k) (ws.getD k 0))
          { p.raise f.flags with flights := [] }).rejoin))) ∧
  ∀ (s : State) (strip reg : Nat) (p : Strip) (r : VReg) (i : Instr) (step : List Nat) (lf : Leaf) (e : DWord) (b : Nat),
    tableGet s.strips strip = some p → p.waits = [] → savingStrip s p = false → nextInstr s p = some i →
    (stepsOf 4 (readsV (shape i))).find? (fun l => l.contains reg) = some step →
    tableGet p.v reg = some r → r.spilled = true → rowFree s p = true → spillSlot s p reg % 128 + 64 ≤ 128 →
    Held s (stripAgent s p) (spillSlot s p reg) .read lf e b → lf.plain 64 →
    (∀ k < 64, s.poison.contains ((lf.pa + k) / 8) = false) →
    (∀ en, scbFind (coreOf s p.coreId) (lineOf lf.pa) = some en → en.poison = []) →
    Unhidden s →
    ∃ t, exec (.spillRefillArrival strip reg) s = .next t ∧ t.strips = tablePut s.strips strip { p with
      v := tablePut p.v reg { r with
        spilled := false
        vals := bytesWords 16 ((List.range 64).map fun k => coreByte s p.coreId (lf.pa + k)) } } ∧
      t.mem = s.mem ∧ t.poison = s.poison ∧ t.wgs = s.wgs ∧ t.launches = s.launches

/-- The issue of the format E commands (R276, R281; R288 and R307 for those that complete at once): `enginePlan` gives the ranges of each, `newCmd` the entry. What a command does is its start's and its completion's (log 7). -/
def Obligations.CommandsEnterTheScoreboard : Prop :=
  (∀ (i : Instr) (f : FmtE) (plan : State → Strip → Ctx → Plan) (s : State) (p : Strip) (pc : VA) (x : Strands) (c : Core)
    (pl : Plan), enginePlan i = some (f, plan) → Clean i s p pc x → CoreQuiet s p.coreId c →
    pl = plan s p (ctxOf i s p pc x) → pl.empty = false → rsbRoom s p.coreId = true → (∀ o ∈ pl.others, rsbRoom s o.1 = true) →
    ((engineRange i (operandsOf s p x (shape i))).2 = 0 ∨ (engineRange i (operandsOf s p x (shape i))).1 +
      (engineRange i (operandsOf s p x (shape i))).2 ≤ scratchSize s p) →
    ∃ t, exec i s = .next t ∧
      t.strips = tablePut s.strips s.cur (((p.issued (shape i) x).tokened f).advance x) ∧
      (coreOf t p.coreId).rsb = (coreOf s p.coreId).rsb ++ [newCmd s p pc x i f pl] ∧
      (∀ o ∈ pl.others, ∃ k ∈ (coreOf t o.1).rsb, k.id = s.nextId ∧ k.shadow = true ∧ k.writes = o.2) ∧
      (∀ core, core ≠ p.coreId → (∀ o ∈ pl.others, o.1 ≠ core) → coreOf t core = coreOf s core) ∧
      t.mem = s.mem ∧ t.dies = s.dies ∧ t.wgs = s.wgs ∧ t.launches = s.launches ∧ t.nextId = s.nextId + 1) ∧
  (∀ (i : Instr) (f : FmtE) (plan : State → Strip → Ctx → Plan) (s : State) (p : Strip) (pc : VA) (x : Strands)
    (o : Operands), enginePlan i = some (f, plan) → Clean i s p pc x → o = operandsOf s p x (shape i) →
    (((∃ g, i = .cpyin g) ∨ (∃ g, i = .cpyout g) ∨ ∃ g, i = .cpygg g) ∧ word0 o.uc = 0 ∨
      (∃ g, i = .mzero g) ∧ word0 o.ua = 0) →
    (∀ t ∈ p.strands, ∀ m, t.st ≠ .blocked (.wait m)) →
    exec i s = .next (afterStrip s p x (shape i) fun q => (match tokenOf f with
      | some k => q.modToken k fun t => if t.count = 0 then ⟨0, 0⟩ else t
      | none => q).advance x)) ∧
  ∀ (i : Instr) (w : DWord) (s : State) (p : Strip) (pc : VA) (x : Strands) (off n : Nat), encode i = some w →
    Ready i s p pc x → p.inTrap = false → handlerOf s p ≠ 0 →
    engineRange i (operandsOf s p x (shape i)) = (off, n) → n ≠ 0 → scratchSize s p < off + n →
    exec i s = .next (putStrip s s.cur ((p.countIssueOf x).enterHandler (handlerOf s p)
      ⟨causeSCRATCH, 0, x, x, pc, w, BitVec.ofNat 32 off, BitVec.ofNat 32 (scratchSize s p)⟩))

/-- R384 and R385 (issue of ROUTE), R381, R391, R315 and R470. Which free escrow entry is taken is the model's (the lowest, log 8). -/
def Obligations.RouteLeaseAndPhaseInstructions : Prop :=
  (∀ (f : FmtE) (s : State) (p : Strip) (pc : VA) (x : Strands) (c : Core) (pl : Plan) (n : Nat), Clean (.route f) s p pc x →
    CoreQuiet s p.coreId c → pl = planRoute f s p (ctxOf (.route f) s p pc x) → rsbRoom s p.coreId = true →
    freeEscrow s p.coreId = some n →
    exec (.route f) s = .next (
      let t := putStrip { s with nextId := s.nextId + 1 } s.cur (((p.issued (shape (.route f)) x).tokened f).advance x)
      let t := modCore t p.coreId fun c => { c with rsb := c.rsb ++ [newCmd s p pc x (.route f) f pl] }
      if pl.failed = none then putEscrow t p.coreId n
        { escrowOf s p.coreId n with st := .held, cmd := s.nextId, origin := p.coreId } else t)) ∧
  (∀ (f : FmtE) (s : State) (p : Strip) (pc : VA) (x : Strands) (sh : Shape) (o : Operands) (slot fre k : Nat) (b : Inbox),
    Clean (.recv f) s p pc x → sh = shape (.recv f) → o = operandsOf s p x sh →
    inboxFind s p.coreId p.wg (word0 o.ua).toNat = some (slot, b) →
    fre = min b.clm (b.fre + (word0 o.ub).toNat / 2 ^ 16) → k = min ((word0 o.ub).toNat % 2 ^ 16) (b.arr - b.clm) →
    exec (.recv f) s = .next (modCore (afterLong s p x sh (newFlight s (ctxOf (.recv f) s p pc x) (destOf sh) 0
      [[b.clm % b.cap, k, b.arr - (b.clm + k), 0].map (BitVec.ofNat 32)] 0 true)) p.coreId fun q =>
        { q with inboxes := tablePut q.inboxes slot { b with fre := fre, clm := b.clm + k } })) ∧
  (∀ (f : FmtE) (s : State) (p : Strip) (pc : VA) (x : Strands) (sh : Shape), Clean (.recv f) s p pc x →
    sh = shape (.recv f) → inboxFind s p.coreId p.wg (word0 (operandsOf s p x sh).ua).toNat = none →
    exec (.recv f) s = .next (afterLong s p x sh (newFlight s (ctxOf (.recv f) s p pc x) (destOf sh) 0
      [[0, 0, 0, 1]] 0 true))) ∧
  (∀ (f : FmtE) (s : State) (p : Strip) (pc : VA) (x : Strands) (sh : Shape), Clean (.escq f) s p pc x →
    sh = shape (.escq f) →
    (∀ e ∈ (coreOf s p.coreId).escrow, ∀ t, e.2.deadline = some t → s.clk ≤ t) →
    exec (.escq f) s = .next (afterLong s p x sh (newFlight s (ctxOf (.escq f) s p pc x) (destOf sh) 0
      [(let t := (word0 (operandsOf s p x sh).ua).toNat % 8
        (p.tokens.getD t ⟨0, 0⟩).field :: match oldestRoute s p.coreId s.cur t with
        | none => [0, 0, (coreOf s p.coreId).discards.toNat]
        | some (k, e) =>
          let r := match k.instr with
            | .route g => (routeArgs g k.ops).n * (routeArgs g k.ops).k
            | _ => 0
          if e.st = .open then [e.rowsDone.length, (e.slots.filter fun q => !q.resolved).length,
            (coreOf s p.coreId).discards.toNat]
          else [0, r, (coreOf s p.coreId).discards.toNat]).map (BitVec.ofNat 32)] 0 true))) ∧
  (∀ (f : FmtR) (s : State) (p : Strip) (pc : VA) (x : Strands) (mine : List Cmd), Clean (.mlease f) s p pc x →
    mine = (coreOf s p.coreId).rsb.filter (fun k =>
      k.strip == s.cur && isMatrix k.instr && k.failed.isNone && !k.shadow) →
    (mine = [] → (coreOf s p.coreId).holder ≠ s.cur + 1 →
      exec (.mlease f) s = .next (afterStrip s p x (shape (.mlease f)) fun q => q.advance x)) ∧
    ((coreOf s p.coreId).rsb = [] → (coreOf s p.coreId).holder = s.cur + 1 →
      exec (.mlease f) s = .next (modCore (afterStrip s p x (shape (.mlease f)) fun q =>
        ({ q with lease := 0 } : Strip).advance x) p.coreId fun c => { c with holder := 0 })) ∧
    ∀ k, mine.getLast? = some k → exec (.mlease f) s = .next (modCmd (afterStrip s p x (shape (.mlease f)) fun q =>
      q.advance x) p.coreId k.id fun k => { k with stage := k.stage / 2 * 2 + 1 })) ∧
  (∀ (f : FmtR) (s : State) (p : Strip) (pc : VA) (x : Strands) (o : Operands) (a : Nat) (lf : Leaf) (e : DWord) (b : Nat)
    (q : Phase), Clean (.phwait f) s p pc x → o = operandsOf s p x (shape (.phwait f)) → a = vaOf (dword0 o.ua).toNat →
    a % 64 = 0 → Held s (stripAgent s p) a .read lf e b → lf.plain 64 → (dieOf s p.die).tiPending = false →
    q = parsePhase (readHome s lf.pa 64).1 →
    Unhidden s →
    ∃ t, exec (.phwait f) s = .next t ∧ t.mem = s.mem ∧ t.wgs = s.wgs ∧ t.launches = s.launches ∧
      t.strips = tablePut s.strips s.cur (if phaseMet q (word0 o.ub) then (p.issued (shape (.phwait f)) x).advance x
        else (p.issued (shape (.phwait f)) x).block x (.phase (dword0 o.ua) (word0 o.ub))) ∧
      (coreOf t p.coreId).rc = (if phaseMet q (word0 o.ub) then (coreOf s p.coreId).rc.filter fun l => l.2.constant
        else (coreOf s p.coreId).rc) ∧
      (dieOf t p.die).rdc = (if phaseMet q (word0 o.ub) then (dieOf (acquired s p 3) p.die).rdc else (dieOf s p.die).rdc)) ∧
  ∀ (f : FmtR) (w : DWord) (s : State) (p : Strip) (pc : VA) (x : Strands) (a : Nat), encode (.phwait f) = some w →
    Ready (.phwait f) s p pc x → p.inTrap = false → handlerOf s p ≠ 0 →
    a = pairEa (operandsOf s p x (shape (.phwait f))).ua → a % 64 ≠ 0 →
    exec (.phwait f) s = .next (putStrip s s.cur ((p.countIssueOf x).enterHandler (handlerOf s p)
      ⟨causeMISALIGN, 0, x, x, pc, w, BitVec.ofNat 32 a, BitVec.ofNat 32 (a / 2 ^ 32)⟩))

/-- R277 and the starts of R208 and R288; `startEffect` gives the start of every command. Which command starts next, among those that may, is the input's (log 3); how much a copy does at its start is free (log 7). That LAUNCH finds the queue's entry and its ring by physical addresses, and so writes PROD and the command's 64 bytes at home, is the model's choice (log 18): R208 and R485 do not say it. -/
def Obligations.CommandStartOrder : Prop :=
  (∀ (s : State) (core cmd : Nat) (k : Cmd), cmdOf s core cmd = some k → k.started = false → cmdClear s core cmd = true →
    exec (.engineCommandStart core cmd) s = .next (startEffect (modCmd s core cmd fun k => { k with started := true })
      core k) ∧
    ((k.failed.isSome = true ∨ (∃ f, k.instr = .rxreg f) ∨ ∃ f, k.instr = .rxdereg f) →
      exec (.engineCommandStart core cmd) s = .next (modCmd s core cmd fun k => { k with started := true }))) ∧
  (∀ (s : State) (core cmd base : Nat) (k : Cmd) (f : FmtE) (lf : Leaf) (e : DWord) (b : Nat),
    cmdOf s core cmd = some k → k.started = false → cmdClear s core cmd = true → k.failed = none → k.stage = 0 →
    k.instr = .cpyin f → cmdBase s k.wg core = some base → 0 < k.ops.nc → k.ops.addrA % 128 + k.ops.nc ≤ 128 →
    Held s (cmdAgent core k) k.ops.addrA .read lf e b → lf.plain k.ops.nc →
    (∀ w ∈ s.poison, w / 16 ≠ lineOf lf.pa) → cellsWf (0 : Byte) (coreOf s core).scratch = true → Unhidden s →
    ∃ t q, exec (.engineCommandStart core cmd) s = .next t ∧ cmdOf t core cmd = some q ∧ q.started = true ∧
      q.failed = none ∧ t.mem = s.mem ∧ t.strips = s.strips ∧
      (q.stage = 0 ∧ (coreOf t core).scratch = (coreOf s core).scratch ∨
        q.stage = 1 ∧ (∀ j < k.ops.nc, cellGet (0 : Byte) (coreOf t core).scratch (base + k.ops.nb + j) =
            cellGet (0 : Byte) s.mem (lf.pa + j)) ∧
          ∀ a, (a < base + k.ops.nb ∨ base + k.ops.nb + k.ops.nc ≤ a) →
            cellGet (0 : Byte) (coreOf t core).scratch a = cellGet (0 : Byte) (coreOf s core).scratch a)) ∧
  (∀ (s : State) (core cmd base : Nat) (k : Cmd) (f : FmtE) (lf : Leaf) (e : DWord) (b : Nat),
    cmdOf s core cmd = some k → k.started = false → cmdClear s core cmd = true → k.failed = none → k.stage = 0 →
    k.instr = .cpyout f → cmdBase s k.wg core = some base → 0 < k.ops.nc → k.ops.addrA % 128 + k.ops.nc ≤ 128 →
    Held s (cmdAgent core k) k.ops.addrA .write lf e b → lf.plain k.ops.nc →
    (coreOf s core).scratchPoison = [] → s.mem.wf = true → Unhidden s →
    ∃ t q, exec (.engineCommandStart core cmd) s = .next t ∧ cmdOf t core cmd = some q ∧ q.started = true ∧
      q.failed = none ∧ (coreOf t core).scratch = (coreOf s core).scratch ∧ t.strips = s.strips ∧
      (q.stage = 0 ∧ t.mem = s.mem ∨
        q.stage = 1 ∧ (∀ j < k.ops.nc, cellGet (0 : Byte) t.mem (lf.pa + j) =
            cellGet (0 : Byte) (coreOf s core).scratch (base + k.ops.nb + j)) ∧
          ∀ a, (a < lf.pa ∨ lf.pa + k.ops.nc ≤ a) → cellGet (0 : Byte) t.mem a = cellGet (0 : Byte) s.mem a)) ∧
  (∀ (s : State) (core cmd q prod cap at_ : Nat) (k : Cmd) (f : FmtE), cmdOf s core cmd = some k → k.started = false →
    cmdClear s core cmd = true → k.failed = none → k.instr = .launch f → q = 64 * k.job.part + k.ops.nb →
    (k.ops.nb < 64 → populated (queueAt s q) = true) →
    prod = queueField s q 0x20 8 → cap = queueField s q 0x08 4 → at_ = queueField s q 0x00 8 + 64 * (prod % cap) →
    (let bars := 64 ≤ k.ops.nb ∨ queueOpen s q = false ∨ queueDevlaunch s q = false ∨ queueField s q 0x10 2 ≠ k.job.index
    let full := queueField s q 0x28 8 + cap ≤ prod
    ∃ t e, exec (.engineCommandStart core cmd) s = .next t ∧ cmdOf t core cmd = some e ∧ e.started = true ∧
      e.failed = some (if bars then codeFAULT else if full then codeDROPPED else codeOK) ∧ t.strips = s.strips ∧
      ((bars ∨ full) → t.mem = s.mem ∧ t.queues = s.queues) ∧
      (¬bars → ¬full → populated (queueAt s q + 0x20) = true → populated at_ = true → s.mem.wf = true → Unhidden s →
        (at_ + 64 ≤ queueAt s q ∨ queueAt s q + 64 ≤ at_) → prod + 1 < 2 ^ 64 →
        queueField t q 0x20 8 = prod + 1 ∧ (queueOf t q).bell = true ∧
        (∀ j < 64, cellGet (0 : Byte) t.mem (at_ + j) =
          (leBytes 8 (queueField s q 0x18 8 + prod) ++ leBytes 8 1 ++ leBytes 8 (dword0 k.ops.ua).toNat).getD j 0) ∧
        ∀ a, (a < at_ ∨ at_ + 64 ≤ a) → (a < queueAt s q + 0x20 ∨ queueAt s q + 0x28 ≤ a) →
          cellGet (0 : Byte) t.mem a = cellGet (0 : Byte) s.mem a))) ∧
  (∀ (s : State) (core cmd : Nat) (k : Cmd), cmdOf s core cmd = some k → k.started = true →
    exec (.engineCommandStart core cmd) s = .next s) ∧
  (∀ (s : State) (core cmd n m : Nat) (k e : Cmd), cmdOf s core cmd = some k →
    ((coreOf s core).rsb.find? fun q => q.id == cmd) = some k → (coreOf s core).rsb[n]? = some k →
    (coreOf s core).rsb[m]? = some e → m < n → (∀ j < n, ∀ q, (coreOf s core).rsb[j]? = some q → q.id ≠ cmd) →
    conflicts e k = true →
    exec (.engineCommandStart core cmd) s = .next s) ∧
  ∀ (e k : Cmd), conflicts e k = true ↔ ∃ a b : Region, a.slot = b.slot ∧ a.lo < b.hi ∧ b.lo < a.hi ∧
    (accumulates e.instr = true → accumulates k.instr = true → b.slot = false) ∧
    ((a ∈ e.writes ∧ b ∈ k.reads) ∨ (a ∈ e.reads ∧ b ∈ k.writes) ∨ (a ∈ e.writes ∧ b ∈ k.writes))

/-- R281 and R282 for the completion, R288 for the bytes of CPYIN and CPYOUT, R377 for RXREG. What a command has left to its completion is the model's (log 7), and so is counting the legs of a CPYMC that find no part in ENGEVT, its reading of "dropped and counted" (log 40). -/
def Obligations.CommandCompletions : Prop :=
  (∀ (s u : State) (core cmd code tok lost : Nat) (k : Cmd) (p : Strip), cmdOf s core cmd = some k →
    k.failed = some code → isMatrix k.instr = false → k.token = some tok → tableGet s.strips k.strip = some p →
    (∀ t ∈ p.strands, ∀ m, t.st ≠ .blocked (.wait m)) →
    lost = (match k.instr with
      | .cpymc _ => lostLegs s core k
      | _ => 0) →
    u = (if lost = 0 then s else modCore s core fun c => { c with engevt := c.engevt + BitVec.ofNat 32 lost }) →
    exec (.commandCompletion core cmd) s = .next (putStrip
      (mapCores u fun c => { c with rsb := c.rsb.filter fun e => e.id != k.id }) k.strip
      (p.modToken tok fun t => ⟨t.count - 1, max t.code (if lost = 0 then code else max code codeDROPPED)⟩))) ∧
  (∀ (s : State) (core cmd code : Nat) (k : Cmd), cmdOf s core cmd = some k → k.failed = some code →
    isMatrix k.instr = false → (∀ f, k.instr ≠ .cpymc f) → k.token = none →
    exec (.commandCompletion core cmd) s = .next (
      let t := mapCores s fun c => { c with rsb := c.rsb.filter fun e => e.id != k.id }
      if code = 0 then t else modCore t core fun c => { c with engevt := c.engevt + 1 })) ∧
  (∀ (s : State) (core cmd code : Nat) (k : Cmd) (p : Strip), cmdOf s core cmd = some k → k.failed = some code →
    isMatrix k.instr = true → k.data = [] → tableGet s.strips k.strip = some p →
    ∃ t q, exec (.commandCompletion core cmd) s = .next t ∧ (∀ e ∈ (coreOf t core).rsb, e.id ≠ k.id) ∧
      tableGet t.strips k.strip = some q ∧ q.tokens = (match k.token with
        | some tok => (p.modToken tok fun t => ⟨t.count - 1, max t.code code⟩).tokens
        | none => p.tokens)) ∧
  (∀ (s : State) (core cmd base : Nat) (k : Cmd) (f : FmtE) (lf : Leaf) (e : DWord) (b : Nat),
    cmdOf s core cmd = some k → k.failed = none → k.started = true → k.stage = 0 → k.instr = .cpyin f → k.token = none →
    cmdBase s k.wg core = some base → 0 < k.ops.nc → k.ops.addrA % 128 + k.ops.nc ≤ 128 →
    Held s (cmdAgent core k) k.ops.addrA .read lf e b → lf.plain k.ops.nc →
    (∀ w ∈ s.poison, w / 16 ≠ lineOf lf.pa) → cellsWf (0 : Byte) (coreOf s core).scratch = true → Unhidden s →
    ∃ t, exec (.commandCompletion core cmd) s = .next t ∧ t.mem = s.mem ∧ t.strips = s.strips ∧
      (∀ j < k.ops.nc, cellGet (0 : Byte) (coreOf t core).scratch (base + k.ops.nb + j) =
        cellGet (0 : Byte) s.mem (lf.pa + j)) ∧
      (∀ a, (a < base + k.ops.nb ∨ base + k.ops.nb + k.ops.nc ≤ a) →
        cellGet (0 : Byte) (coreOf t core).scratch a = cellGet (0 : Byte) (coreOf s core).scratch a) ∧
      (coreOf t core).engevt = (coreOf s core).engevt ∧ ∀ e ∈ (coreOf t core).rsb, e.id ≠ k.id) ∧
  (∀ (s : State) (core cmd base : Nat) (k : Cmd) (f : FmtE) (lf : Leaf) (e : DWord) (b : Nat),
    cmdOf s core cmd = some k → k.failed = none → k.started = true → k.stage = 0 → k.instr = .cpyout f → k.token = none →
    cmdBase s k.wg core = some base → 0 < k.ops.nc → k.ops.addrA % 128 + k.ops.nc ≤ 128 →
    Held s (cmdAgent core k) k.ops.addrA .write lf e b → lf.plain k.ops.nc → (coreOf s core).scratchPoison = [] →
    s.mem.wf = true → Unhidden s →
    ∃ t, exec (.commandCompletion core cmd) s = .next t ∧ t.strips = s.strips ∧ t.mem.wf = true ∧
      (∀ j < k.ops.nc, cellGet (0 : Byte) t.mem (lf.pa + j) =
        cellGet (0 : Byte) (coreOf s core).scratch (base + k.ops.nb + j)) ∧
      (∀ a, (a < lf.pa ∨ lf.pa + k.ops.nc ≤ a) → cellGet (0 : Byte) t.mem a = cellGet (0 : Byte) s.mem a) ∧
      (coreOf t core).scratch = (coreOf s core).scratch ∧ ∀ e ∈ (coreOf t core).rsb, e.id ≠ k.id) ∧
  ∀ (s : State) (core cmd n : Nat) (k : Cmd) (f : FmtE) (o : Operands), cmdOf s core cmd = some k → k.failed = none →
    k.started = true → k.instr = .rxreg f → k.token = none → o = k.ops →
    rxregOk o (cmdScratch s k) = true → dirFind s (o.aAt 0) = none →
    (List.range 8).find? (fun n => (tableGet (coreOf s core).inboxes n).isNone) = some n → s.dies.length = 4 →
    ∃ t, exec (.commandCompletion core cmd) s = .next t ∧ t.strips = s.strips ∧ t.mem = s.mem ∧
      tableGet (coreOf t core).inboxes n = some ⟨o.aAt 0, k.job.index, k.wg, (cmdSlots s k.wg core).2,
        o.aAt 1, o.aAt 2, o.aAt 3, 0, 0, 0, 0⟩ ∧
      dirFind t (o.aAt 0) = some ⟨o.aAt 0, k.job.index, core / 96, core % 96, n, k.wg, true⟩ ∧
      ∀ e ∈ (coreOf t core).rsb, e.id ≠ k.id

/-- R418, R420, R424 and R426. Premises name the state of the queue. Model's choices: an answer with nothing of the dies' agents left to go on (`Settled`) ends there (log 3), an entry that waits for room has its SEQ from the time it was made (log 38), and what the dies' agents wait for, and in what order they go on, is kept as waiters and owed operations (log 29). -/
def Obligations.FaultsAreReportedAndAnswered : Prop :=
  (∀ (s : State) (strip : Nat) (va : BitVec 48) (kind access : BitVec 8) (p : Strip) (at_ : Nat) (d : Die) (f : FaultEntry),
    tableGet s.strips strip = some p → p.die < s.dies.length → d = dieOf s p.die →
    (∀ g ∈ d.faults, g.written = true ∧
      ¬(g.asid = (stripAgent s p).asid ∧ g.page = va.toNat / 4096 ∧ g.kind = kind.toNat)) →
    d.fqprod.toNat - d.fqcons.toNat < d.fqcap.toNat → p.waits.contains d.fseq = false →
    at_ = d.fqbase.toNat + 32 * (d.fqprod.toNat % d.fqcap.toNat) → populated at_ = true → s.mem.wf = true →
    f = ⟨d.fseq, (stripAgent s p).asid, va.toNat / 4096, kind.toNat, va.toNat, access.toNat,
      faultSource p.die p.core p.bay p.slice p.slot, 1, [2 * strip], true⟩ → Unhidden s →
    ∃ t, exec (.translationFault strip va kind access) s = .next t ∧
      t.strips = tablePut s.strips strip { p with waits := p.waits ++ [d.fseq] } ∧
      (dieOf t p.die).faults = d.faults ++ [f] ∧ (dieOf t p.die).fqprod = d.fqprod + 1 ∧
      (dieOf t p.die).fseq = d.fseq + 1 ∧
      (∀ k < 32, cellGet (0 : Byte) t.mem (at_ + k) = (faultBytes f).getD k 0) ∧
      (∀ a, (a < at_ ∨ at_ + 32 ≤ a) → cellGet (0 : Byte) t.mem a = cellGet (0 : Byte) s.mem a) ∧
      t.cores = s.cores ∧ t.wgs = s.wgs ∧ t.launches = s.launches) ∧
  (∀ (s : State) (strip : Nat) (va : BitVec 48) (kind access : BitVec 8) (p : Strip) (d : Die) (f : FaultEntry),
    tableGet s.strips strip = some p → p.die < s.dies.length → d = dieOf s p.die →
    d.faults.find? (fun g => g.asid == (stripAgent s p).asid && g.page == va.toNat / 4096 && g.kind == kind.toNat) = some f →
    ∃ t, exec (.translationFault strip va kind access) s = .next t ∧
      t.strips = tablePut s.strips strip
        { p with waits := if p.waits.contains f.seq then p.waits else p.waits ++ [f.seq] } ∧
      (dieOf t p.die).faults = d.faults.map (fun g =>
        if g.seq ≠ f.seq then g
        else if f.who.contains (2 * strip) then f
        else { f with waiters := min (f.waiters + 1) (2 ^ 32 - 1), who := f.who ++ [2 * strip] }) ∧
      (dieOf t p.die).fqprod = d.fqprod ∧ (dieOf t p.die).fseq = d.fseq ∧
      t.cores = s.cores ∧ t.wgs = s.wgs ∧ t.launches = s.launches) ∧
  (∀ (s : State) (strip : Nat) (va : BitVec 48) (kind access : BitVec 8) (p : Strip) (d : Die),
    tableGet s.strips strip = some p → p.die < s.dies.length → d = dieOf s p.die →
    (∀ g ∈ d.faults, ¬(g.asid = (stripAgent s p).asid ∧ g.page = va.toNat / 4096 ∧ g.kind = kind.toNat)) →
    d.fqcap.toNat ≤ d.fqprod.toNat - d.fqcons.toNat →
    ∃ t, exec (.translationFault strip va kind access) s = .next t ∧ t.mem = s.mem ∧ t.cores = s.cores ∧
      t.strips = tablePut s.strips strip
        { p with waits := if p.waits.contains d.fseq then p.waits else p.waits ++ [d.fseq] } ∧
      (dieOf t p.die).faults = d.faults ++ [⟨d.fseq, (stripAgent s p).asid, va.toNat / 4096, kind.toNat, va.toNat,
        access.toNat, faultSource p.die p.core p.bay p.slice p.slot, 1, [2 * strip], false⟩] ∧
      (dieOf t p.die).fqprod = d.fqprod ∧ (dieOf t p.die).fseq = d.fseq + 1) ∧
  (∀ (s : State) (strip : Nat) (va : BitVec 48) (kind access : BitVec 8) (p : Strip),
    tableGet s.strips strip = some p → p.die < s.dies.length →
    ∃ t g, exec (.translationFault strip va kind access) s = .next t ∧ g ∈ (dieOf t p.die).faults ∧
      g.asid = (stripAgent s p).asid ∧ g.page = va.toNat / 4096 ∧ g.kind = kind.toNat ∧
      t.strips = tablePut s.strips strip
        { p with waits := if p.waits.contains g.seq then p.waits else p.waits ++ [g.seq] }) ∧
  (∀ (s : State) (die : Nat) (seq : BitVec 64) (f : FaultEntry), outstanding s die seq.toNat = some f → Settled s →
    ∃ t, exec (.fqansRetry die seq) s = .next t ∧ t.mem = s.mem ∧ t.launches = s.launches ∧
      (dieOf t die).faults = (dieOf s die).faults.filter (fun g => g.seq != seq.toNat) ∧
      ∀ id p, tableGet s.strips id = some p → tableGet t.strips id = some
        (if p.die = die then { p with waits := p.waits.filter (· != seq.toNat) } else p)) ∧
  (∀ (s : State) (die : Nat) (seq : BitVec 64) (f : FaultEntry), outstanding s die seq.toNat = some f →
    (f.kind ≠ kindPoison → exec (.fqansZero die seq) s = .next s) ∧
    (f.kind = kindPoison → Settled s →
      ∃ t, exec (.fqansZero die seq) s = .next t ∧ t.mem = s.mem ∧
        (dieOf t die).faults = (dieOf s die).faults.filter (fun g => g.seq != seq.toNat) ∧
        ∀ id p, tableGet s.strips id = some p → tableGet t.strips id = some
          (if p.die = die ∧ p.waits.contains seq.toNat then
            { p.zeroed f with waits := p.waits.filter (· != seq.toNat) } else p))) ∧
  (∀ (s : State) (die : Nat) (seq : BitVec 64) (f : FaultEntry), outstanding s die seq.toNat = some f →
    exec (.fqansRetry die seq) s = .next (resumeAgents (settleEntry s die seq.toNat)) ∧
    (f.kind = kindPoison → exec (.fqansZero die seq) s = .next (resumeAgents (settleEntry
      (zeroMint (onWaiters s die seq.toNat fun p => p.zeroed f) die seq.toNat) die seq.toNat))) ∧
    exec (.fqansAbort die seq) s = .next (resumeAgents
      (((s.dieWaits.filter fun w => w.die == die && w.seq == seq.toNat).map fun w => w.who).foldl
        (fun s w => abortWaiter s die w)
        ((waitingLaunches s die seq.toNat).foldl (fun s l => stopLaunch s l .aborted) (settleEntry s die seq.toNat))))) ∧
  (∀ (s : State) (die : Nat) (seq : BitVec 64) (f : FaultEntry), outstanding s die seq.toNat = some f →
    (∀ id c g n, waitingLaunches s die seq.toNat = [] →
      s.dieWaits.filter (fun w => w.die == die && w.seq == seq.toNat) = [⟨die, seq.toNat, .copy id⟩] →
      tableGet s.copies id = some c → c.origin = .node g n → Settled s →
      ∃ t, exec (.fqansAbort die seq) s = .next t ∧ t.copies = tableDel s.copies id ∧
        (dieOf t die).faults = (dieOf s die).faults.filter (fun g => g.seq != seq.toNat) ∧
        t.strips = (settleEntry s die seq.toNat).strips ∧ t.launches = s.launches) ∧
    ∀ l u, waitingLaunches s die seq.toNat = [l] →
      s.dieWaits.filter (fun w => w.die == die && w.seq == seq.toNat) = [] →
      u = stopLaunch (settleEntry s die seq.toNat) l .aborted → Settled u →
      exec (.fqansAbort die seq) s = .next u) ∧
  (∀ (s : State) (die : Nat) (seq : BitVec 64), outstanding s die seq.toNat = none →
    exec (.fqansRetry die seq) s = .next s ∧ exec (.fqansZero die seq) s = .next s ∧
      exec (.fqansAbort die seq) s = .next s) ∧
  ∀ (s : State) (die at_ : Nat) (v : BitVec 64) (d : Die) (old : List FaultEntry) (f : FaultEntry),
    d = dieOf s die → die < s.dies.length →
    ((∀ g ∈ d.faults, g.written = true) →
      exec (.fqcons die v) s = .next (modDie s die fun d => { d with fqcons := v })) ∧
    (d.faults = old ++ [f] → (∀ g ∈ old, g.written = true) → f.written = false →
      d.fqprod.toNat - v.toNat < d.fqcap.toNat → at_ = d.fqbase.toNat + 32 * (d.fqprod.toNat % d.fqcap.toNat) →
      populated at_ = true → s.mem.wf = true → Unhidden s →
      ∃ t, exec (.fqcons die v) s = .next t ∧ (dieOf t die).fqcons = v ∧ (dieOf t die).fqprod = d.fqprod + 1 ∧
        (∀ g ∈ (dieOf t die).faults, g.written = true) ∧
        (∀ k < 32, cellGet (0 : Byte) t.mem (at_ + k) = (faultBytes f).getD k 0) ∧
        (∀ a, (a < at_ ∨ at_ + 32 ≤ a) → cellGet (0 : Byte) t.mem a = cellGet (0 : Byte) s.mem a) ∧
        t.strips = s.strips)

/-- R147, R400, R428, R429, R431 and SAVEREQ (R431). When such an event comes, once it may, is the input's (log 3). That strips that are done retire before a watchdog or a slice expiry acts, and that what follows falls in a later cycle (`cycleOver`), is the model's reading (log 55); the turn order of slices is its choice (log 37), and so is which messages find a deadline passed before a save begins (log 40). -/
def Obligations.GrantsTrapsAndWatches : Prop :=
  (∀ (s : State) (core slice c id floor slot made : Nat) (rest : List Claim) (p : Strip),
    claimsOf s core slice = .grow c id floor slot made :: rest → tableGet s.strips id = some p →
    (claimedWith s p floor ≤ 384 → ∃ t, exec (.growClaimGrant core slice) s = .next t ∧ claimsOf t core slice = rest ∧
      t.mem = s.mem ∧ t.dies = s.dies ∧
      t.strips = tablePut s.strips id { p with
        floor := floor
        strands := p.strands.map fun x => if x.st = .blocked (.grow c) then { x with st := .runnable, pc := x.pc + 8 } else x }) ∧
    (384 < claimedWith s p floor → exec (.growClaimGrant core slice) s = .next s)) ∧
  (∀ (s : State) (core slice : Nat),
    (claimsOf s core slice = [] → exec (.growClaimGrant core slice) s = .next s) ∧
    ∀ id who floor made rest, claimsOf s core slice = .admission id who floor made :: rest →
      exec (.growClaimGrant core slice) s = .next (grantAdmission s who) ∧
      (∀ die launch target, who = .launch die launch target → tableGet s.launches launch = none →
        exec (.growClaimGrant core slice) s = .next (dropAdmissions s fun a => a == who))) ∧
  (∀ (s : State) (strip : Nat) (p : Strip) (a : AsyncTrap) (rest : List AsyncTrap) (pc : VA) (x : Strands),
    tableGet s.strips strip = some p → p.asyncs = a :: rest → savingStrip s p = false →
    (p.inTrap = true ∨ p.waits ≠ [] ∨ p.zeroFetch = true → exec (.asyncTrapEntry strip) s = .next s) ∧
    (p.inTrap = false → p.waits = [] → p.zeroFetch = false → p.chooseX = some (pc, x) → handlerOf s p ≠ 0 →
      ∃ t, exec (.asyncTrapEntry strip) s = .next t ∧ t.mem = s.mem ∧ t.dies = s.dies ∧ t.launches = s.launches ∧
        t.strips = tablePut s.strips strip (({ p with asyncs := rest } : Strip).enterHandler (handlerOf s p)
          ⟨a.cause, 0, x, 0, pc, a.word, a.info0, a.info1⟩))) ∧
  (∀ (s : State) (strip : Nat) (p : Strip), tableGet s.strips strip = some p →
    (p.asyncs = [] ∨ savingStrip s p = true → exec (.asyncTrapEntry strip) s = .next s) ∧
    (savingStrip s p = false → exec (.asyncTrapEntry strip) s = .next (takeAsync s strip))) ∧
  (∀ (s v u : State) (die launch : Nat) (l : Launch) (w : DieWork) (q : Nat × Strip) (g : Wg),
    tableGet s.launches launch = some l → l.lrec.persistent = true → q ∈ s.strips → q.2.die = die →
    tableGet s.wgs q.2.wg = some g → g.launch = launch → l.work[die]? = some w →
    (l.job.watchdog = true → w.beat + 2 * l.lrec.hbperiod * 1400 ≤ s.clk →
      v = completeFirst s (fun m => m.address == l.address && m.seq == l.seq && m.origin == l.origin) →
      u = stopLaunch { v with notices := v.notices ++ [(l.seq, .watchdog, [])], cycleOver := true } launch .watchdog →
      ((∀ q ∈ s.strips, stripDone s q.1 q.2 = false) → v = s) ∧
      (tableGet v.launches launch = none → exec (.watchdogHeartbeatExpiry die launch) s = .next v) ∧
      ((tableGet v.launches launch).isSome = true → exec (.watchdogHeartbeatExpiry die launch) s = .next (pumpAll u) ∧
        (Settled u → exec (.watchdogHeartbeatExpiry die launch) s = .next u))) ∧
    (l.job.watchdog = false ∨ s.clk < w.beat + 2 * l.lrec.hbperiod * 1400 →
      exec (.watchdogHeartbeatExpiry die launch) s = .next s)) ∧
  (∀ (s v u : State) (launch : Nat) (l : Launch), tableGet s.launches launch = some l →
    (l.job.watchdog = true → l.lrec.persistent = false → l.lrec.walllim ≠ 0 → l.started = true →
      l.start + l.lrec.walllim * 1400 ≤ s.clk →
      v = completeFirst s (fun m => m.address == l.address && m.seq == l.seq && m.origin == l.origin) →
      u = stopLaunch { v with notices := v.notices ++ [(l.seq, .watchdog, [])], cycleOver := true } launch .watchdog →
      ((∀ q ∈ s.strips, stripDone s q.1 q.2 = false) → v = s) ∧
      (tableGet v.launches launch = none → exec (.watchdogWallClockExpiry launch) s = .next v) ∧
      ((tableGet v.launches launch).isSome = true → exec (.watchdogWallClockExpiry launch) s = .next (pumpAll u) ∧
        (Settled u → exec (.watchdogWallClockExpiry launch) s = .next u))) ∧
    (l.job.watchdog = false ∨ l.lrec.persistent = true ∨ l.started = false ∨ l.lrec.walllim = 0 ∨ s.clk < l.start + l.lrec.walllim * 1400 →
      exec (.watchdogWallClockExpiry launch) s = .next s)) ∧
  (∀ (s : State) (launch : Nat) (st : Status), tableWf s.wgs = true → (tableGet s.launches launch).isSome = true →
    (∀ c ∈ s.cores, ∀ k ∈ c.2.rsb, k.launch = launch → k.shadow = true ∨ k.failed.isSome = true ∨
      (∀ f, k.instr ≠ .launch f) ∧ ∀ f, k.instr ≠ .cancel f) →
    (stopLaunch s launch st).launches = tableDel s.launches launch ∧
      ∀ w ∈ (stopLaunch s launch st).wgs, w.2.launch ≠ launch) ∧
  (∀ (s : State) (die job : Nat), (sliceOver s die job = false → exec (.timeSliceExpiry die job) s = .next s) ∧
    (sliceOver s die job = true → (∀ q ∈ s.strips, stripDone s q.1 q.2 = false) →
      (othersWait s die job (residentPrio s die job) = false →
        exec (.timeSliceExpiry die job) s = .next (modDie s die fun d => { d with
          slices := d.slices.map fun x => if x.job = job then { x with since := s.clk } else x
          expired := d.expired.filter (· != job) ++ [job] })) ∧
      (othersWait s die job (residentPrio s die job) = true →
        ∃ t, exec (.timeSliceExpiry die job) s = .next t ∧ (dieOf t die).expired = (dieOf s die).expired.filter (· != job) ++ [job] ∧
          t.cycleOver = true ∧
          ((∀ c ∈ s.cores, c.2.posted = [] ∧ ∀ e ∈ c.2.escrow, ∀ n, e.2.deadline = some n → s.clk ≤ n) →
            t.strips = s.strips) ∧
          ∀ id w, (∀ c ∈ s.cores, ∀ e ∈ c.2.escrow, ∀ n, e.2.deadline = some n → s.clk ≤ n) →
            tableGet s.wgs id = some w → w.die = die → (launchJob s w.launch).index = job →
            tableGet t.wgs id = some { w with saving := some (w.saving.getD s.clk) })) ∧
    (sliceOver s die job = true → ∀ t, t = completeFirst s (fun l => l.job.index == job) →
      exec (.timeSliceExpiry die job) s = .next (if sliceOver t die job then expireSlice t die job else t))) ∧
  ∀ (s : State) (die part : Nat), ∃ t, exec (.savereq die part) s = .next t ∧
    ((∀ c ∈ s.cores, c.2.posted = [] ∧ ∀ e ∈ c.2.escrow, ∀ n, e.2.deadline = some n → s.clk ≤ n) →
      t.strips = s.strips) ∧
    ∀ id w, (∀ c ∈ s.cores, ∀ e ∈ c.2.escrow, ∀ n, e.2.deadline = some n → s.clk ≤ n) →
      tableGet s.wgs id = some w → tableGet t.wgs id = some
      (if (w.die = die ∨ (launchCoop s w.launch = true ∧ ∃ v ∈ s.wgs, v.2.launch = w.launch ∧ v.2.die = die)) ∧
        (launchJob s w.launch).part = part then { w with saving := some (w.saving.getD s.clk) } else w)

/-- R422, R425 and R426. Unit codes and positions of the records are the model's (log 17), as are the numbers of the links (log 31). That an unmodified L2 line takes the sector copies of it away when it is fetched again is log 57. -/
def Obligations.ErrorsAreMaskedOrRecorded : Prop :=
  (∀ (s : State) (die at_ : Nat) (site : ErrSite), LogOpen s die at_ → siteCorrects site = true →
    ∃ t, exec (.correctableError die site) s = .next t ∧
      Logged s t die at_ (siteRecord site).1 .corrected (siteRecord site).2 ∧ t.strips = s.strips ∧ t.cores = s.cores) ∧
  (∀ (s : State) (die : Nat) (site : ErrSite), (dieOf s die).lastErr = none → siteCorrects site = true →
    (dieOf s die).elcap.toNat ≤ (dieOf s die).elprod.toNat - (dieOf s die).elcons.toNat →
    exec (.correctableError die site) s = .next (modDie s die fun d => { d with ellost := d.ellost + 1 })) ∧
  (∀ (s : State) (die at_ p r k : Nat), LogOpen s die at_ →
    ∃ t, exec (.uncorrectableError die (.coffer p r k)) s = .next t ∧
      Logged s t die at_ 1 .poisoned (p * 2 ^ 16 + r * 16 + k) ∧ t.cores = s.cores ∧
      t.strips = tableMod s.strips p fun q => { q with
        v := tableMod q.v r fun e => { e with poison := e.poison ||| (oneStrand k &&& e.valid) } }) ∧
  (∀ (s : State) (die at_ line : Nat) (pa : BitVec 44), LogOpen s die at_ → populated pa.toNat = true →
    (pa.toNat / 8 * 8 + 8 ≤ at_ ∨ at_ + 32 ≤ pa.toNat / 8 * 8) → line = pa.toNat / 128 →
    (tableGet s.hbm line = none → tableGet s.l2 line = none →
      (∃ t, exec (.uncorrectableError die (.hbm pa)) s = .next t ∧ Logged s t die at_ 13 .poisoned pa.toNat ∧
        pa.toNat / 8 ∈ t.poison ∧ t.strips = s.strips ∧ t.cores = s.cores) ∧
      ∃ t, exec (.hbmScrub die ⟨[], [.hbm pa]⟩) s = .next t ∧ Logged s t die at_ 13 .poisoned pa.toNat ∧
        pa.toNat / 8 ∈ t.poison ∧ (dieOf t die).hbmScrubs = (dieOf s die).hbmScrubs + 1) ∧
    (∀ h, tableGet s.hbm line = some h → exec (.uncorrectableError die (.hbm pa)) s = .next (logSite { s with
      hbm := tablePut s.hbm line { h with
        held := { h.held with poison := setAdd h.held.poison (pa.toNat % 128 / 8) } } } die (.hbm pa) .poisoned)) ∧
    (∀ l, tableGet s.l2 line = some l → l.dirty = true →
      ∃ t, exec (.uncorrectableError die (.l2 pa)) s = .next t ∧ Logged s t die at_ 12 .poisoned pa.toNat ∧
        pa.toNat / 8 ∈ t.poison ∧ t.strips = s.strips ∧ t.cores = s.cores) ∧
    (∀ l, tableGet s.l2 line = some l → l.dirty = false → tableGet s.hbm line = none →
      ∃ t, exec (.uncorrectableError die (.l2 pa)) s = .next t ∧ Logged s t die at_ 12 .masked pa.toNat ∧
        t.strips = s.strips ∧ t.cores = s.cores) ∧
    ∃ t, exec (.hbmScrub die ⟨[.hbm pa], []⟩) s = .next t ∧ Logged s t die at_ 13 .corrected pa.toNat ∧
      (dieOf t die).hbmScrubs = (dieOf s die).hbmScrubs + 1 ∧ t.strips = s.strips ∧ t.cores = s.cores) ∧
  (∀ (s : State) (die at_ core : Nat) (pa : BitVec 44), LogOpen s die at_ →
    ∃ t, exec (.uncorrectableError die (.readCache core pa)) s = .next t ∧ Logged s t die at_ 7 .masked pa.toNat ∧
      t.strips = s.strips ∧ (coreOf t core).rc = tableDel (coreOf s core).rc (pa.toNat / 128) ∧
      ∀ c, c ≠ core → coreOf t c = coreOf s c) ∧
  (∀ (s : State) (die core slot e : Nat) (flips : Word),
    exec (.uncorrectableError die (.matrixArray core slot e flips)) s = .next (modCore s core fun q => { q with
      acc := cellPut (0 : Word) q.acc (slotKey slot 0 0 + e)
        (cellGet (0 : Word) q.acc (slotKey slot 0 0 + e) ^^^ flips) })) ∧
  (∀ (s : State) (die : Nat) (found : ScrubErrors),
    (s.scrubOn = false → exec (.patrolScrub die found) s = .next s) ∧
    (s.scrubOn = true → exec (.patrolScrub die ⟨[], []⟩) s =
      .next (modDie s die fun d => { d with scrubs := d.scrubs + 1 })) ∧
    (s.scrubOn = true → exec (.patrolScrub die found) s = .next ((found.bad.filter siteScrubbed).foldl
      (fun s e => uncorrectable s die e) ((found.good.filter siteScrubbed).foldl (fun s e => correctable s die e)
        (modDie s die fun d => { d with scrubs := d.scrubs + 1 }))))) ∧
  (∀ (s : State) (die : Nat) (site : ErrSite),
    (siteCorrects site = true → exec (.correctableError die site) s = .next (logSite s die site .corrected)) ∧
    (siteCorrects site = false → exec (.correctableError die site) s = .next s) ∧
    (∀ sev u, errorEffect s die site = (some sev, u) → exec (.uncorrectableError die site) s = .next (logSite u die site sev)) ∧
    ∀ u, errorEffect s die site = (none, u) → exec (.uncorrectableError die site) s = .next u) ∧
  ∀ (s : State) (link at_ n : Nat), n = (tableGet s.links link).getD 0 + 1 →
    (linkOk link = false ∨ s.linksDown.contains link = true → ∀ good, exec (.linkFlitRetry link good) s = .next s) ∧
    (linkOk link = true → s.linksDown.contains link = false → n < 16 →
      exec (.linkFlitRetry link false) s = .next { s with links := tablePut s.links link n }) ∧
    (linkOk link = true → s.linksDown.contains link = false → LogOpen s (linkHome link) at_ →
      ∃ t, exec (.linkFlitRetry link true) s = .next t ∧ Logged s t (linkHome link) at_ 16 .corrected link ∧
        t.links = tableDel s.links link ∧ t.linksDown = s.linksDown ∧ t.strips = s.strips) ∧
    (linkOk link = true → s.linksDown.contains link = false → 16 ≤ n → LogOpen s (linkHome link) at_ → linkJobs s link = [] → s.conns = [] →
      Settled s → ∃ t, exec (.linkFlitRetry link false) s = .next t ∧ Logged s t (linkHome link) at_ 16 .fatal link ∧
        t.linksDown = setAdd s.linksDown link ∧ t.strips = s.strips ∧ t.launches = s.launches) ∧
    ∀ j u, linkOk link = true → s.linksDown.contains link = false → 16 ≤ n → linkJobs s link = [j] → s.conns = [] →
      u = abortJob (logSite { s with linksDown := setAdd s.linksDown link, links := tableDel s.links link } (linkHome link)
        (.link link) .fatal) (linkHome link) j →
      exec (.linkFlitRetry link false) s = .next (pumpAll u) ∧
      (Settled u → exec (.linkFlitRetry link false) s = .next u)

/-- R378, R379, R382 and R385-R390. Three points are the model's choices and no rule of the spec: that a delivery waits while an earlier first attempt of its ROUTE is on its way to the same inbox (`overtakes`, log 25), how deadlines and handles count (`expireOf`, `handleOk`, log 40), and that a delivery to an inbox that is not resident is refused before its length is looked at (log 67). `resolveSlot` and `settleRoute` are what follows when a slot resolves (R386, R388): rows whose slots are all resolved are written. -/
def Obligations.RouteMessagesArrive : Prop :=
  (∀ (s : State) (h : DWord), (∀ core n e time, escrowHome s h = some (core, n, e) →
    (escrowOf s core n).deadline = some time → s.clk ≤ time) → expireOf s h = s) ∧
  (∀ (s v : State) (m core pos : Nat) (h : DWord) (ident job : Nat) (first : Bool) (bytes : List Byte) (d : DirEntry) (b : Inbox)
    (at_ : Nat × Nat × Nat), s.net[m]? = some (.delivery h ident bytes job first) → overtakes s m = false →
    v = expireOf { s with net := s.net.eraseIdx m } h → dirFind v ident = some d → d.job = job →
    d.resident = true → core = d.die * 96 + d.core → tableGet (coreOf v core).inboxes d.slot = some b →
    bytes.length ≤ b.rb → b.rsv ≠ b.fre + b.cap → 0 < b.cap → pos = b.rsv % b.cap →
    handleSlotOf v h = some (at_.1, at_.2.1, at_.2.2, .inFlight) → cellsWf (0 : Byte) (coreOf v core).scratch = true →
    ∃ t base, exec (.routeDeliveryArrival m) s = .next t ∧ base = (cmdBase v b.wg core).getD 0 ∧
      t.net = v.net ∧ t.strips = v.strips ∧ t.mem = v.mem ∧
      tableGet (coreOf t core).inboxes d.slot = some { b with rsv := b.rsv + 1, arr := b.arr + 1 } ∧
      (∀ k < b.rb, cellGet (0 : Byte) (coreOf t core).scratch (base + b.ring + pos * b.rb + k) = bytes.getD k 0) ∧
      (∀ k < 8, cellGet (0 : Byte) (coreOf t core).scratch (base + b.ring + b.cap * b.rb + 8 * pos + k) =
        (leBytes 8 h.toNat).getD k 0) ∧
      (escrowOf t at_.1 at_.2.1).slots = listPut (escrowOf v at_.1 at_.2.1).slots at_.2.2 .sent) ∧
  (∀ (s : State) (m : Nat), overtakes s m = true ∨ s.net[m]? = none → exec (.routeDeliveryArrival m) s = .next s) ∧
  (∀ (s v : State) (m : Nat) (h : DWord) (ident job : Nat) (first : Bool) (bytes : List Byte) (core n q : Nat),
    s.net[m]? = some (.delivery h ident bytes job first) → overtakes s m = false →
    v = expireOf { s with net := s.net.eraseIdx m } h → handleSlotOf v h = some (core, n, q, .inFlight) →
    ((dirFind v ident = none ∨ ∃ d, dirFind v ident = some d ∧ d.job ≠ job) →
      exec (.routeDeliveryArrival m) s = .next (resolveSlot v core n q .dropped true)) ∧
    ∀ d, dirFind v ident = some d → d.job = job →
      (d.resident = false ∨ ∃ b, tableGet (coreOf v (d.die * 96 + d.core)).inboxes d.slot = some b ∧
        bytes.length ≤ b.rb ∧ b.rsv = b.fre + b.cap) →
      ∀ k a base, routeCmd v core (escrowOf v core n).cmd = some (k, a, base) →
        exec (.routeDeliveryArrival m) s = .next (if a.drop then resolveSlot v core n q .dropped true
          else putSlot v core n q (.waiting (s.clk + 64)))) ∧
  (∀ (s : State) (core n q time : Nat) (k : Cmd) (a : RouteArgs) (base ident w : Nat),
    (escrowOf s core n).slots[q]? = some (.waiting time) → routeCmd s core (escrowOf s core n).cmd = some (k, a, base) →
    (∀ due, (escrowOf s core n).deadline = some due → s.clk ≤ due) →
    (s.clk < time ∨ wgSaving s k.wg = true → exec (.routeRetry core n q) s = .next s) ∧
    (time ≤ s.clk → wgSaving s k.wg = false → (escrowOf s core n).st = .open → routeEntry s core base a q = some (ident, 0, w) →
      ∃ t, exec (.routeRetry core n q) s = .next t ∧ t.mem = s.mem ∧ t.strips = s.strips ∧
        t.net = s.net ++ [.delivery (makeHandle (escrowOf s core n).gen (escrowOf s core n).origin (n % 32) (q % a.k) (q / a.k))
          ident (windowBytes s core base (a.tile + q / a.k * a.sent) a.sent).1 k.job.index false] ∧
        ((tableGet (coreOf s core).escrow n).isSome = true →
          (escrowOf t core n).slots = listPut (escrowOf s core n).slots q .inFlight))) ∧
  (∀ (s v : State) (m cmd i : Nat) (h : DWord) (bytes : List Byte), s.net[m]? = some (.answer h bytes cmd i) →
    v = expireOf { s with net := s.net.eraseIdx m } h →
    (escrowSaved v h = true → exec (.routeAnswerArrival m) s = .next (markAnswer v cmd i ansRefused)) ∧
    (escrowSaved v h = false → (∀ core n q, handleSlotOf v h ≠ some (core, n, q, .sent)) →
      exec (.routeAnswerArrival m) s = .next (markAnswer (countDiscard v (handleOrigin h)) cmd i ansGone)) ∧
    ∀ core n q k a base, escrowSaved v h = false → handleSlotOf v h = some (core, n, q, .sent) →
      routeCmd v core (escrowOf v core n).cmd = some (k, a, base) →
      (bytes.length = 4 * a.e → exec (.routeAnswerArrival m) s = .next (resolveSlot
        (markAnswer (writeScratch v core (base + a.staging + 4 * a.e * q) bytes) cmd i ansTaken) core n q .returned false)) ∧
      (bytes.length ≠ 4 * a.e →
        exec (.routeAnswerArrival m) s = .next (markAnswer (countDiscard v (handleOrigin h)) cmd i ansGone))) ∧
  (∀ (s v : State) (m : Nat) (h : DWord), s.net[m]? = some (.drop h) → v = expireOf { s with net := s.net.eraseIdx m } h →
    (escrowSaved s h = true → exec (.dropNoticeArrival m) s = .next s) ∧
    (∀ core n q, escrowSaved s h = false → handleSlotOf v h = some (core, n, q, .sent) →
      exec (.dropNoticeArrival m) s = .next (resolveSlot v core n q .dropped false)) ∧
    (escrowSaved s h = false → (∀ core n q, handleSlotOf v h ≠ some (core, n, q, .sent)) →
      exec (.dropNoticeArrival m) s = .next (if handleOk h then
        modCore v (handleOrigin h) fun c => { c with discards := c.discards + 1 } else v))) ∧
  (∀ (s : State) (core n time : Nat) (k : Cmd) (a : RouteArgs) (base : Nat) (w : Wg),
    (escrowOf s core n).deadline = some time → (escrowOf s core n).st = .open →
    routeCmd s core (escrowOf s core n).cmd = some (k, a, base) → tableGet s.wgs k.wg = some w →
    (s.clk ≤ time ∨ w.saving ≠ none → exec (.escrowDeadline core n) s = .next s) ∧
    (time < s.clk → w.saving = none → exec (.escrowDeadline core n) s = .next (settleRoute (putEscrow s core n
      { escrowOf s core n with
        deadline := none
        slots := (escrowOf s core n).slots.map fun q => if q.resolved then q else .timedOut }) core n))) ∧
  ∀ (s : State) (core cmd : Nat) (k : Cmd) (f : FmtE), cmdOf s core cmd = some k → k.instr = .retn f →
    (k.data.contains ansRefused = false ∨ wgSaving s k.wg = true → exec (.retnAnswerRetry core cmd) s = .next s) ∧
    (wgSaving s k.wg = false → exec (.retnAnswerRetry core cmd) s = .next
      (((List.range k.data.length).filter fun i => k.data.getD i 0 == ansRefused).foldl
        (sendAnswer core k ((cmdBase s k.wg core).getD 0)) s)) ∧
    ∀ i hb b base, wgSaving s k.wg = false → (∀ j < k.data.length, k.data.getD j 0 = ansRefused ↔ j = i) → i < k.data.length →
      base = (cmdBase s k.wg core).getD 0 →
      hb = BitVec.ofNat 64 (leNat (windowBytes s core base (k.ops.aAt 1 + 8 * i) 8).1) → handleOk hb = true →
      b = (windowBytes s core base (k.ops.aAt 0 + i * k.ops.nb) k.ops.nb).1 →
      ∃ t, exec (.retnAnswerRetry core cmd) s = .next t ∧ t.net = s.net ++ [.answer hb b k.id i] ∧
        t.strips = s.strips ∧ t.mem = s.mem ∧
        cmdOf t core cmd = some { k with data := listPut k.data i ansFlying }

/-- R484-R489 and R503. Three points are the model's choices: rings and entries are at physical addresses (log 18), a command is accepted when its turn comes (`mayAccept`, log 24), and an entry or job table entry that reads poisoned makes its command INVALID (`endsOf` with `bad` or without `okJob`, log 35). -/
def Obligations.QueueAcceptance : Prop :=
  (∀ (s : State) (q : Nat), q < 1024 →
    populated (queueAt s q) = true → (queueOpen s q = false ∨ queueHaltBit s q = true ∨ queueField s q 0x20 8 ≤ queueField s q 0x28 8) →
    exec (.qbell q) s = .next (modQueue s q fun u => { u with bell := false })) ∧
  (∀ (s : State) (q : Nat), (1024 ≤ q → exec (.qbell q) s = .next s) ∧
    (q < 1024 → ∀ u t, u = noteBeyond s (queueOwner s q) (queueAt s q) →
      t = (if mayAccept u q && !dieWaiting u (.queue q) then acceptOne u q else u) →
      exec (.qbell q) s = .next (modQueue t q fun u => { u with bell := entriesWait t q }))) ∧
  (∀ (s u v : State) (q pos : Nat) (b jb : List Byte) (bad jbad okJob : Bool) (j : Job) (ends : Option Status), q < 1024 →
    (queueOf s q).accepted = [] → s.phaseEvents = [] → queueOpen s q = true →
    queueHaltBit s q = false → pos = queueField s q 0x28 8 → queueField s q 0x20 8 = pos + 1 →
    1 ≤ queueField s q 0x08 4 → populated (queueAt s q) = true → populated (queueAt s q + 0x28) = true →
    populated (ringAt s q pos) = true → populated (jobAt s (queueOwner s q) (queueField s q 0x10 2)) = true →
    s.mem.wf = true → (dieOf s (queueOwner s q)).tiPending = false →
    dieWaiting s (.queue q) = false →
    readHome s (ringAt s q pos) 64 = (b, bad) → jobEntry s (queueOwner s q) (queueField s q 0x10 2) = (jb, jbad) →
    okJob = (!jbad && jobOk (q / 64) (queueField s q 0x10 2) jb) →
    j = (if okJob then parseJob (queueField s q 0x10 2) jb else noJob) →
    u = acquireScope s (dieAgent (queueOwner s q) j) 4 →
    endsOf u q b bad ((queueField s q 0x18 8 + pos) % 2 ^ 64) j okJob = (some ends, v) → v.mem = s.mem → Unhidden v →
    ∃ t, exec (.qbell q) s = .next t ∧ (queueOf t q).bell = false ∧ queueField t q 0x28 8 = pos + 1 ∧
      (queueOf t q).accepted = [⟨pos, j, BitVec.ofNat 64 (field b 0 8), field b 8 1, field b 9 1,
        BitVec.ofNat 64 (field b 16 8), BitVec.ofNat 64 (field b 24 8),
        ends, false, 0⟩] ∧
      (∀ r, r ≠ q → queueOf t r = queueOf s r) ∧ t.strips = s.strips ∧ t.launches = s.launches) ∧
  (∀ (s : State) (q : Nat) (b : List Byte) (bad okJob : Bool) (seq : Nat) (j : Job),
    (bad = true ∨ field b 0 8 ≠ seq ∨ field b 8 1 = 0 ∨ 5 < field b 8 1 ∨ okJob = false ∨
      j.ceil < queueField s q 0x0C 1 → endsOf s q b bad seq j okJob = (some (some .invalid), s))) ∧
  (∀ (s : State) (q : Nat), q < 1024 → populated (queueAt s q) = true → populated (queueAt s q + 0x0E) = true →
    s.mem.wf = true → Unhidden s →
    (queueHaltBit s q = true → (queueOf s q).halted = false →
      ∃ t, exec (.queueHalted q) s = .next t ∧ queueField t q 0x0E 1 = queueField s q 0x0E 1 ||| 8 ∧
        queueField t q 0x28 8 = queueField s q 0x28 8 ∧ (queueOf t q).halted = true ∧
        (queueOf t q).accepted = (queueOf s q).accepted ∧ t.strips = s.strips) ∧
    (queueHaltBit s q = false → (queueOf s q).halted = true → queueField s q 0x20 8 ≤ queueField s q 0x28 8 →
      ∃ t, exec (.haltCleared q) s = .next t ∧ queueField t q 0x0E 1 = queueField s q 0x0E 1 &&& 0xF7 ∧
        (queueOf t q).halted = false ∧ (queueOf t q).accepted = (queueOf s q).accepted ∧ t.strips = s.strips)) ∧
  (∀ (s : State) (q : Nat), q < 1024 →
    (queueHaltBit s q = false ∨ (queueOf s q).halted = true → exec (.queueHalted q) s = .next s) ∧
    (queueHaltBit s q = true → (queueOf s q).halted = false → exec (.queueHalted q) s = .next (setHalted s q true)) ∧
    (queueHaltBit s q = true ∨ (queueOf s q).halted = false → exec (.haltCleared q) s = .next s) ∧
    (queueHaltBit s q = false → (queueOf s q).halted = true →
      exec (.haltCleared q) s = .next (ringBell (setHalted s q false) q))) ∧
  (∀ (s : State) (q : Nat), nextCommand s q = none → exec (.launchCommand q) s = .next s ∧
    exec (.graphCommand q) s = .next s ∧ exec (.copyCommand q) s = .next s ∧ exec (.cancelCommand q) s = .next s ∧
    exec (.closeCommand q) s = .next s) ∧
  (∀ (s : State) (q : Nat) (c : Accepted), nextCommand s q = some c → dieWaiting s (.queue q) = true →
    exec (.launchCommand q) s = .next s ∧ exec (.graphCommand q) s = .next s ∧ exec (.copyCommand q) s = .next s ∧
    exec (.cancelCommand q) s = .next s ∧ exec (.closeCommand q) s = .next s) ∧
  ∀ (s u : State) (q : Nat) (c : Accepted) (i : Instr), nextCommand s q = some c → dieWaiting s (.queue q) = false →
    (i, c.kind) ∈ [(Instr.launchCommand q, 1), (.graphCommand q, 2), (.copyCommand q, 3), (.cancelCommand q, 4),
      (.closeCommand q, 5)] → c.ends = some .invalid → u = completeCommand s q c.pos 0 .invalid 0 →
    exec i s = .next (pumpAll u) ∧ (Settled u → exec i s = .next u)

/-- R182, R189, R198, R202-R204, R484 and R504. The premises say that the reads of the dispatcher answer; `Settled` leaves out the graphs that would go on at once. These points are the model's choices and no rule of the spec: entries of rings and of queues at physical addresses (log 18), when phase and job records become RUNNING or final and which address is a phase's (log 20), an entry or record that reads poisoned (log 35), the order in which nodes, queues and consumers go on (log 44), how long an admission claim stays (`dropAdmissions`, log 48), and that what is done completes before a cancellation, after which a new cycle begins (`completeFirst`, `cycleOver`, log 55). -/
def Obligations.QueueCommandsRun : Prop :=
  (∀ (s u : State) (q : Nat) (c : Accepted) (r : Lrec) (d : Nat) (now : Word), nextCommand s q = some c → c.kind = 1 →
    c.ends = none → c.started = false → dieWaiting s (.queue q) = false →
    readLrec s (queueOwner s q) c.job (.queue q) c.arg = (some (r, false), s) → Settled s → d < 4 →
    (r.range.getD d (0, 0)).1 < (r.range.getD d (0, 0)).2 →
    u = modCommand (addLaunch s (newLaunch c.arg (queueOwner s q) r c.seq c.job (.command q c.pos) c.phase
      (queueField s q 0x0C 1) false false)).2 q c.pos (fun c => { c with started := true, runs := s.nextId + 1 }) →
    phaseRead u (queueOwner s q) c.job (.queue q) c.phase = (some now, u) →
    ∃ t l, exec (.launchCommand q) s = .next t ∧ tableGet t.launches s.nextId = some l ∧ l.address = c.arg ∧ l.lrec = r ∧
      l.seq = c.seq ∧ l.job = c.job ∧ l.origin = .command q c.pos ∧ l.status = .pending ∧ l.count = 0 ∧
      l.open_ = (prevDone (queueOf s q) c || r.overlap) ∧ l.phaseCount = (if l.open_ then now else 0) ∧
      t.nextId = s.nextId + 1 ∧ t.strips = s.strips ∧ t.wgs = s.wgs) ∧
  (∀ (s : State) (q : Nat) (c : Accepted), nextCommand s q = some c → c.ends = none → dieWaiting s (.queue q) = false →
    (c.kind = 1 → c.started = false → exec (.launchCommand q) s = .next (pumpAll (startLaunch s q c))) ∧
    (c.kind = 1 → c.started = true → exec (.launchCommand q) s = .next (pumpAll (openLaunch s q (c.runs - 1) c))) ∧
    (∀ id l, c.started = true → tableGet s.launches id = some l → l.badRecord = true →
      openLaunch s q id c = closeLaunch s id .invalid) ∧
    (c.kind = 2 → exec (.graphCommand q) s = .next (pumpAll (startGraph s q c))) ∧
    (c.kind = 3 → exec (.copyCommand q) s = .next (pumpAll (startCopyCommand s q c))) ∧
    (c.kind = 4 → c.level ≤ 3 → exec (.cancelCommand q) s = .next (pumpAll (actedOn q c (cancelAfter
      (startRecord s (queueOwner s q) c.job c.job.jrec) (queueOwner s q) c.job (.queue q) c.level c.arg)))) ∧
    (c.kind = 4 → 3 < c.level → exec (.cancelCommand q) s = .next (pumpAll (completeCommand
      (startRecord s (queueOwner s q) c.job c.job.jrec) q c.pos 0 .invalid 0))) ∧
    (c.kind = 5 → exec (.closeCommand q) s = .next (pumpAll (actedOn q c (closeLevel
      (startRecord s (queueOwner s q) c.job c.job.jrec) (queueOwner s q) c.job (.queue q) c.level c.arg))))) ∧
  (∀ (s : State) (q : Nat) (c : Accepted) (h : List Byte) (nodes : List Node), nextCommand s q = some c → c.kind = 2 →
    c.ends = none → dieWaiting s (.queue q) = false →
    dieRead s (dieAgent (queueOwner s q) c.job) (.queue q) (vaOf c.arg.toNat) 32 = (some (h, false), s) →
    recordOk (BitVec.ofNat 64 (field h 0 8)) = true → 1 ≤ field h 8 4 → field h 8 4 ≤ 4096 → zeroBytes h 0x0C 4 = true →
    readNodes s (dieAgent (queueOwner s q) c.job) (.queue q) (field h 0x10 8) (field h 0x18 8)
      (List.range (field h 8 4)) = (some (nodes, true), s) → edgesOk nodes = true →
    ∃ u, exec (.graphCommand q) s = .next (pumpAll u) ∧ u.strips = s.strips ∧
      tableGet u.graphs s.nextId = some ⟨queueOwner s q, BitVec.ofNat 64 (field h 0 8), c.seq, c.job, .command q c.pos,
        c.phase, queueField s q 0x0C 1, nodes, 0, .running⟩) ∧
  (∀ (s : State) (q : Nat) (c : Accepted) (b : List Byte) (bad : Bool), nextCommand s q = some c → c.kind = 3 →
    c.ends = none → dieWaiting s (.queue q) = false → Settled s →
    dieRead s (dieAgent (queueOwner s q) c.job) (.queue q) (vaOf c.arg.toNat) 32 = (some (b, bad), s) →
    ∃ t d, exec (.copyCommand q) s = .next t ∧ t.nextId = s.nextId + 1 ∧ t.strips = s.strips ∧
      t.copies = tablePut s.copies s.nextId ⟨.command q c.pos, c.job, BitVec.ofNat 64 (field b 0 8),
        BitVec.ofNat 64 (field b 8 8), field b 16 8, d⟩) ∧
  (∀ (s s0 s1 s2 u v : State) (q : Nat) (c : Accepted) (found : State → Option (Nat × Launch)), nextCommand s q = some c →
    c.kind = 4 → c.ends = none → dieWaiting s (.queue q) = false → c.level = 0 →
    s0 = startRecord s (queueOwner s q) c.job c.job.jrec → s1 = completeFirst s0 (underLevel s0 c.job 0 c.arg) →
    s2 = drainFor (fun _ l => underLevel s1 c.job 0 c.arg l) s1 →
    found = (fun s => s.launches.find? fun l => l.2.lrec.done == c.arg && l.2.job.index == c.job.index && c.arg != 0) →
    (∀ l m, found s1 = some l → found s2 = some m → v = haltLaunch s2 m.1 .cancelled → Settled v →
      u = completeCommand { v with cycleOver := true } q c.pos 1 .done 0 0 true →
      Settled u → exec (.cancelCommand q) s = .next u) ∧
    (∀ l, found s1 = some l → found s2 = none → u = completeCommand { s2 with cycleOver := true } q c.pos 1 .done 0 0 true →
      Settled u → exec (.cancelCommand q) s = .next u) ∧
    (found s1 = none → u = completeCommand s1 q c.pos 0 .invalid 0 → Settled u → exec (.cancelCommand q) s = .next u)) ∧
  (∀ (s s1 s2 u : State) (q : Nat) (c : Accepted), nextCommand s q = some c → c.kind = 5 → c.ends = none →
    dieWaiting s (.queue q) = false → c.level = 3 → c.job.jrec = c.arg → c.arg ≠ 0 →
    s1 = startRecord s (queueOwner s q) c.job c.job.jrec →
    (recordFinal s1 (queueOwner s q) c.job (.queue q) c.arg = (some false, s2) →
      u = completeCommand (putStatus (putDigest s2 (queueOwner s q) c.job c.arg 0) (queueOwner s q) c.job c.arg .done)
        q c.pos 1 .done 0 0 true → Settled u → exec (.closeCommand q) s = .next u) ∧
    (recordFinal s1 (queueOwner s q) c.job (.queue q) c.arg = (some true, s2) →
      u = completeCommand s2 q c.pos 0 .invalid 0 → Settled u → exec (.closeCommand q) s = .next u)) ∧
  (∀ (s : State) (copy : Nat), (tableGet s.copies copy = none → exec (.copyNodeCompletion copy) s = .next s) ∧
    ∀ c, tableGet s.copies copy = some c →
      (dieWaiting s (.copy copy) = true → exec (.copyNodeCompletion copy) s = .next s) ∧
      (c.len = 0 → dieWaiting s (.copy copy) = false → ∃ t, exec (.copyNodeCompletion copy) s = .next t ∧
        (Settled s → t.copies = tableDel s.copies copy))) ∧
  (∀ (s : State) (copy src dst g n : Nat) (c : Copy) (ag : Agent) (ls ld : Leaf) (es ed : DWord) (bs bd : Nat),
    tableGet s.copies copy = some c → c.origin = .node g n → dieWaiting s (.copy copy) = false → Settled s →
    ag = { dieAgent (c.home s) c.job with poisonTrap := false } → src = vaOf c.src.toNat → dst = vaOf c.dst.toNat → 0 < c.len →
    src % 128 + c.len ≤ 128 → dst % 128 + c.len ≤ 128 → (src + c.len ≤ dst ∨ dst + c.len ≤ src) →
    Held s ag src .read ls es bs → Held s ag dst .write ld ed bd → ls.plain c.len → ld.plain c.len →
    (dieOf s (c.home s)).tiPending = false → s.mem.wf = true → Unhidden s → (∀ w ∈ s.poison, w / 16 ≠ lineOf ls.pa) →
    ∃ t, exec (.copyNodeCompletion copy) s = .next t ∧ t.copies = tableDel s.copies copy ∧ t.strips = s.strips ∧
      (∀ j < c.len, cellGet (0 : Byte) t.mem (ld.pa + j) = cellGet (0 : Byte) s.mem (ls.pa + j)) ∧
      ∀ a, (a < ld.pa ∨ ld.pa + c.len ≤ a) → cellGet (0 : Byte) t.mem a = cellGet (0 : Byte) s.mem a) ∧
  ∀ (s : State) (queue target k : Nat) (nq : NodeQueue) (b : List Byte),
    (tableGet s.nodeQueues queue = none → exec (.workGraphConsumerDispatch queue target) s = .next s) ∧
    (tableGet s.nodeQueues queue = some nq → dieWaiting s (.nodeQueue queue) = true →
      exec (.workGraphConsumerDispatch queue target) s = .next s) ∧
    (tableGet s.nodeQueues queue = some nq → dieWaiting s (.nodeQueue queue) = false →
      exec (.workGraphConsumerDispatch queue target) s = .next (dispatchConsumer s queue target nq)) ∧
    (tableGet s.nodeQueues queue = some nq → dieWaiting s (.nodeQueue queue) = false → nqRead s queue nq = (some b, s) →
      k = min (field b 0x38 4) (field b 0x20 8 - field b 0x28 8) →
      (field b 0x20 8 ≤ field b 0x28 8 → exec (.workGraphConsumerDispatch queue target) s = .next s) ∧
      ∀ id l u v, field b 0x28 8 < field b 0x20 8 → nq.launch = id + 1 → tableGet s.launches id = some l →
        mayTake s nq.die id l = true →
        placeWg s (ownClaim (.consumer queue target)) nq.die id l (targetCores nq.die l.lrec.span target)
          ⟨nq.next, 0, 0, noLeaf, (field b 0x28 8, k), field b 0 8, field b 8 4, nq.next⟩ = some u →
        v = takeTurn u nq.die l.prio (turnOf s nq.die l.prio) →
        exec (.workGraphConsumerDispatch queue target) s = .next (dieWrite { dropAdmissions v (fun a => match a with
            | .consumer q _ => q == queue
            | _ => false) with
          nodeQueues := tableMod v.nodeQueues queue fun q => { q with
            consumers := q.consumers ++ [(nq.next, field b 0x28 8 + k, false)]
            next := nq.next + 1 } } nq.die nq.job (vaOf (nq.desc.toNat + 0x28)) (leBytes 8 (field b 0x28 8 + k))))

/-- R183-R194, R433, R439, R462 and R487. These points are the model's choices and no rule of the spec: which target takes a workgroup first is the input's and where on a core it goes the model's (logs 3, 9), the layout of what an image holds (log 16), which images come back together and in which turn (log 37), from which end of its batches a victim of a steal gives (log 44), when an admission claim leaves its queue (`dropClaims`, log 48), a descriptor found invalid at the forwarding (`subGrid`, log 51), and that what a cluster holds in a batch waits for no COOP launch and no queue's turn (log 63). -/
def Obligations.WorkgroupsAreDispatchedStolenAndRetired : Prop :=
  (∀ (s : State) (die launch : Nat) (l : Launch), tableGet s.launches launch = some l → mayForward l die = true → die < 4 →
    l.lrec.sparse = false → dieWaiting s (.launch launch) = false → Settled s →
    (l.lrec.range.getD die (0, 0)).1 < (l.lrec.range.getD die (0, 0)).2 →
    exec (.launchForward die launch) s = .next (modLaunch s launch fun l => { l with
      work := listMod l.work die fun _ => ⟨[l.lrec.range.getD die (0, 0)], [], true, s.clk, some s.clk⟩ })) ∧
  (∀ (s : State) (die launch : Nat),
    (tableGet s.launches launch = none → exec (.launchForward die launch) s = .next s) ∧
    ∀ l, tableGet s.launches launch = some l →
      (mayForward l die = false ∨ dieWaiting s (.launch launch) = true → exec (.launchForward die launch) s = .next s) ∧
      (mayForward l die = true → dieWaiting s (.launch launch) = false →
        (∀ u, subGrid s die launch l = (none, u) → exec (.launchForward die launch) s = .next u) ∧
        ∀ todo u, subGrid s die launch l = (some todo, u) →
          exec (.launchForward die launch) s = .next (pumpAll (forwarded (modLaunch u launch fun l => { l with
            work := listMod l.work die fun _ => ⟨todo, [], true, u.clk, some u.clk⟩ }) launch)))) ∧
  (∀ (s : State) (launch : Nat) (l : Launch), tableGet s.launches launch = some l →
    (l.lrec.countsFirst = false ∨ l.work.all (·.forwarded) = false → forwarded s launch = checkLaunch s launch) ∧
    ∀ q pos c, l.lrec.countsFirst = true → l.work.all (·.forwarded) = true → l.origin = .command q pos →
      (queueOf s q).accepted.find? (fun c => c.pos == pos) = some c →
      (sparseMisfit s l = false → forwarded s launch = checkLaunch (startLevels s q c) launch) ∧
      (sparseMisfit s l = true → prevDone (queueOf s q) c = true → forwarded s launch = closeLaunch s launch .invalid) ∧
      (sparseMisfit s l = true → prevDone (queueOf s q) c = false →
        forwarded s launch = modLaunch s launch fun l => { l with badRecord := true, open_ := false })) ∧
  (∀ (s u : State) (own : Claim → Bool) (die launch : Nat) (l : Launch) (cores : List Nat) (w : WgPlan),
    placeWg s own die launch l cores w = some u → (∀ q ∈ s.strips, q.2.wg ≠ s.nextId) →
    (∀ c ∈ s.cores, ∀ q ∈ c.2.posted, q.strip < s.nextId) →
    ∃ g, tableGet u.wgs s.nextId = some g ∧ g.launch = launch ∧ g.die = die ∧ g.wg0 = BitVec.ofNat 32 w.wg0 ∧
      g.wg1 = BitVec.ofNat 32 w.wg1 ∧ g.wg2 = BitVec.ofNat 32 w.wg2 ∧ g.parts.length = l.lrec.span ∧
      (∀ p ∈ g.parts, p.core ∈ cores ∧ ownsCore s l.job.part p.core = true) ∧
      (g.parts.map fun p => p.core).Pairwise (· ≠ ·) ∧
      ∀ q ∈ u.strips, q.2.wg = s.nextId → q.2.v = [] ∧ q.2.floor = l.lrec.floor ∧ q.2.status = 0 ∧ q.2.fpflags = 0 ∧
        ∀ t ∈ q.2.strands, t.pc = BitVec.ofNat 48 l.lrec.code.toNat ∧ t.st = .runnable) ∧
  (∀ (s : State) (die launch target : Nat) (l : Launch), tableGet s.launches launch = some l → l.open_ = true →
    l.badRecord = false → l.consumerOf = 0 →
    (l.lrec.coop = true → exec (.workgroupDispatch die launch target) s = .next (dispatchCoop s launch l)) ∧
    (∀ u w, l.lrec.coop = false → placeNext s die launch target l w = some u →
      (l.lrec.span ≤ 4 → batchAt l die target = none → firstTodo l die = some w → mayTake s die launch l = true →
        exec (.workgroupDispatch die launch target) s = .next (modWork
          (takeTurn (dropClaims u launch (some die)) die l.prio (turnOf s die l.prio)) die launch (handBatch target))) ∧
      (4 < l.lrec.span → firstTodo l die = some w → mayTake s die launch l = true →
        exec (.workgroupDispatch die launch target) s = .next (modWork
          (takeTurn (dropClaims u launch (some die)) die l.prio (turnOf s die l.prio)) die launch
          fun k => { k with todo := dropFirst k.todo })) ∧
      (l.lrec.span ≤ 4 → batchAt l die target = some w → dieDispatches s die = true → hasImages s die launch = false →
        noneAhead s die l = true →
        exec (.workgroupDispatch die launch target) s = .next (modWork (dropClaims u launch (some die)) die launch
          fun k => { k with batches := dropBatch target k.batches }))) ∧
    (∀ w, l.lrec.coop = false → (l.lrec.span ≤ 4 → batchAt l die target = none) → firstTodo l die = some w →
      placeNext s die launch target l w = none →
      exec (.workgroupDispatch die launch target) s = .next
        (if dieDispatches s die && !coopBlocks s die launch l.prio false && !hasImages s die launch then
          placeClaims s die launch target l w else s)) ∧
    ∀ w, l.lrec.coop = false → l.lrec.span ≤ 4 → batchAt l die target = some w →
      (dieDispatches s die = false ∨ hasImages s die launch = true ∨ noneAhead s die l = false →
        exec (.workgroupDispatch die launch target) s = .next s) ∧
      (dieDispatches s die = true → hasImages s die launch = false → noneAhead s die l = true →
        placeNext s die launch target l w = none →
        exec (.workgroupDispatch die launch target) s = .next (placeClaims s die launch target l w))) ∧
  (∀ (s : State) (die launch target w : Nat) (l : Launch),
    (claimWaits s (launchOwn die launch target) = true ∨ placeNext (unclaimed s) die launch target l w = none →
      placeClaims s die launch target l w = s) ∧
    (placeClaims s die launch target l w).strips = s.strips ∧ (placeClaims s die launch target l w).mem = s.mem) ∧
  (∀ (s : State) (die launch target : Nat), (tableGet s.launches launch = none ∨
    (∃ l, tableGet s.launches launch = some l ∧ (l.open_ = false ∨ l.badRecord = true ∨ l.consumerOf ≠ 0))) →
    exec (.workgroupDispatch die launch target) s = .next s) ∧
  (∀ (w : DieWork) (cluster : Nat) (flat : List (Nat × Nat) → List Nat),
    flat = (fun l => l.flatMap fun e => (List.range (e.2 - e.1)).map (e.1 + ·)) →
    (takeWork 8 w.todo).1 = (flat w.todo).take 8 ∧ flat (takeWork 8 w.todo).2 = (flat w.todo).drop 8 ∧
    handBatch cluster w = { w with
      todo := (takeWork 8 w.todo).2
      batches := if 1 < (takeWork 8 w.todo).1.length then w.batches ++ [(cluster, (takeWork 8 w.todo).1.drop 1)]
        else w.batches }) ∧
  (∀ (s : State) (die thief victim : Nat), tableWf s.launches = true → thief < 24 → victim < 24 → thief ≠ victim →
    thief / 6 = victim / 6 → heldBy s die thief = 0 → 2 ≤ heldBy s die victim →
    ∃ t, exec (.stealRequest die thief victim) s = .next t ∧ heldBy t die thief = heldBy s die victim / 2 ∧
      heldBy t die victim = heldBy s die victim - heldBy s die victim / 2 ∧ t.strips = s.strips ∧ t.wgs = s.wgs ∧
      ∀ c, c ≠ thief → c ≠ victim → heldBy t die c = heldBy s die c) ∧
  (∀ (s : State) (die thief victim : Nat), (24 ≤ thief ∨ 24 ≤ victim ∨ thief = victim ∨ thief / 6 ≠ victim / 6 ∨
    heldBy s die thief ≠ 0 ∨ heldBy s die victim < 2) → exec (.stealRequest die thief victim) s = .next s) ∧
  (∀ (s : State) (strip : Nat) (p : Strip) (w : Wg), tableGet s.strips strip = some p → tableGet s.wgs p.wg = some w →
    (stripDone s strip p = false → exec (.stripRetirement strip) s = .next s) ∧
    (stripDone s strip p = true → stripsOf (leaveStrip s strip p) p.wg ≠ [] →
      exec (.stripRetirement strip) s = .next (leaveStrip s strip p)) ∧
    (stripDone s strip p = true → stripsOf (leaveStrip s strip p) p.wg = [] →
      exec (.stripRetirement strip) s = .next (retireWg (leaveStrip s strip p) p.wg w))) ∧
  (∀ (s : State) (strip : Nat) (p : Strip), (leaveStrip s strip p).strips = tableDel s.strips strip ∧
    (leaveStrip s strip p).mem = s.mem ∧ (leaveStrip s strip p).wgs = s.wgs) ∧
  (∀ (s u : State) (wg since : Nat) (w : Wg) (la : Launch), tableGet s.wgs wg = some w → tableWf s.wgs = true →
    (w.saving = none → exec (.workgroupSave wg) s = .next s) ∧
    (w.saving = some since → tableGet s.launches w.launch = some la → la.lrec.coop = false →
      stopWg s wg w = s → wgStopped s wg = true → dieWaiting s (.launch w.launch) = false → w.die < s.dies.length →
      (saveWg s wg since w la = .saved u → exec (.workgroupSave wg) s = .next u ∧ tableGet u.wgs wg = none ∧
        (∀ q ∈ u.strips, q.2.wg ≠ wg) ∧ ∃ m ∈ (dieOf u w.die).images, m.wgId = wg ∧ m.savedAt = since) ∧
      (saveWg s wg since w la = .noRoom → exec (.workgroupSave wg) s = .next (giveUpSave s [wg] w)) ∧
      ∀ die va kind, saveWg s wg since w la = .waits die va kind → exec (.workgroupSave wg) s =
        .next (dieFault s (dieAgent die la.job) (.launch w.launch) va kind accRead)) ∧
    (w.saving = some since → ∀ v, v = (saveSet s wg w).foldl (fun s id => match tableGet s.wgs id with
        | some g => stopWg s id g
        | none => s) s →
      ((tableGet v.wgs wg = none ∨ (saveSet v wg w).all (wgStopped v) = false ∨ dieWaiting v (.launch w.launch) = true) →
        exec (.workgroupSave wg) s = .next v) ∧
      ((tableGet v.wgs wg).isSome = true → (saveSet v wg w).all (wgStopped v) = true →
        dieWaiting v (.launch w.launch) = false →
        exec (.workgroupSave wg) s = .next (finishSave v (saveSet v wg w) w)))) ∧
  (∀ (s : State) (wg : Nat), tableGet s.wgs wg = none → exec (.workgroupSave wg) s = .next s) ∧
  (∀ (s : State) (wg target : Nat), allImages s = s.dies.flatMap (fun d => d.images) ∧
    ((allImages s).find? (fun m => m.wgId == wg) = none → exec (.workgroupRestore wg target) s = .next s) ∧
    ∀ m la, (allImages s).find? (fun m => m.wgId == wg) = some m → tableGet s.launches m.wg.launch = some la →
      exec (.workgroupRestore wg target) s = .next (restoreWg s m la target) ∧
      (mayRestore s m la = false → exec (.workgroupRestore wg target) s = .next s)) ∧
  (∀ (s : State) (wg target : Nat) (m : Image) (la : Launch) (dies : List Nat),
    (s.dies.flatMap fun d => d.images).find? (fun m => m.wgId == wg) = some m →
    tableGet s.launches m.wg.launch = some la → la.lrec.coop = false → mayRestore s m la = true →
    dies = (List.range 4).filter (fun d => m.wg.die == d) →
    (versionOk s m = false → exec (.workgroupRestore wg target) s = .next (noteBeyond s m.wg.die m.addr)) ∧
    (versionOk s m = true →
      (restoreAll (dies.foldl applyTi s) la [(m, [target])] = .noPlace → exec (.workgroupRestore wg target) s = .next s) ∧
      (restoreAll (dies.foldl applyTi s) la [(m, [target])] = .noRows →
        exec (.workgroupRestore wg target) s = .next (restoreClaims s la [(m, [target])])) ∧
      (∀ die va kind, restoreAll (dies.foldl applyTi s) la [(m, [target])] = .fault die va kind →
        exec (.workgroupRestore wg target) s = .next
          (dieFault s (dieAgent die la.job) (.launch m.wg.launch) va kind (accRead + accWrite))) ∧
      ∀ u, restoreAll (dies.foldl applyTi s) la [(m, [target])] = .done u →
        exec (.workgroupRestore wg target) s = .next u)) ∧
  ∀ (s : State) (la : Launch) (m : Image) (target : Nat) (set_ : List (Image × List Nat)),
    set_ = [(loadImage s la.lrec m, [target])] →
    (∀ v placed, placeImages (restoreOwn [m.wgId]) la set_ [] s = some (v, placed) →
      restoreAll s la [(m, [target])] = resumeAll la placed (dropRestores v [m.wgId])) ∧
    (placeImages (restoreOwn [m.wgId]) la set_ [] s = none → (placeImages (restoreOwn [m.wgId]) la set_ [] (unclaimed s)).isSome →
      restoreAll s la [(m, [target])] = .noRows) ∧
    (placeImages (restoreOwn [m.wgId]) la set_ [] s = none → placeImages (restoreOwn [m.wgId]) la set_ [] (unclaimed s) = none →
      restoreAll s la [(m, [target])] = .noPlace)

/-- R205, R467, R468 and R471. These points are the model's choices and no rule of the spec: the outcome of a refused or faulting packet, and the bytes of an entry that a fault cuts short (log 32), that the runtime opens a connection by an input with its first sequence number 0, and what an acknowledgement carries to the command (log 41), and which port carries a connection (`connPort`, log 61). -/
def Obligations.PhasesHalosAndPackets : Prop :=
  (∀ (p : Phase) (step : Option Word) (m a h y : Nat), p.status < 2 → p.mdone + 1 < 2 ^ 32 → p.arrived + 1 < 2 ^ 32 →
    p.ahead + 1 < 2 ^ 32 → p.stray + 1 < 2 ^ 32 → p.count + 1 < 2 ^ 64 →
    m = (if step = none then p.mdone + 1 else p.mdone) →
    a = (if step.map BitVec.toNat = some (p.count % 2 ^ 32) then p.arrived + 1 else p.arrived) →
    h = (if step.map BitVec.toNat = some ((p.count + 1) % 2 ^ 32) then p.ahead + 1 else p.ahead) →
    y = (if step = none ∨ step.map BitVec.toNat = some (p.count % 2 ^ 32) ∨
      step.map BitVec.toNat = some ((p.count + 1) % 2 ^ 32) then p.stray else p.stray + 1) →
    ((m ≠ p.members ∨ a < p.expect) →
      p.event step = { p with status := 1, mdone := m, arrived := a, ahead := h, stray := y }) ∧
    (m = p.members → p.expect ≤ a →
      p.event step = { p with
        status := if p.steps ≠ 0 ∧ p.count + 1 = p.steps then 2 else 1
        count := p.count + 1, mdone := 0, arrived := h, ahead := 0, stray := y })) ∧
  (∀ (s : State) (ev : Nat) (e : PhaseEvent) (lf : Leaf) (ent : DWord) (n : Nat) (old : List Byte) (p : Phase),
    s.phaseEvents[ev]? = some e → dieWaiting s (.phase e.record e.job.index) = false → Unhidden s →
    vaOf e.record.toNat % 64 = 0 → Held s (dieAgent e.die e.job) (vaOf e.record.toNat) .both lf ent n → lf.plain 64 →
    s.mem.wf = true → (∀ k < 64, s.poison.contains ((lf.pa + k) / 8) = false) →
    old = (readHome s lf.pa 64).1 → p = parsePhase old →
    (2 ≤ p.status → ∃ t, exec (.phaseCountEvent ev) s = .next t ∧ t.phaseEvents = s.phaseEvents.eraseIdx ev ∧
      t.mem = s.mem ∧ t.strips = s.strips ∧ t.launches = s.launches) ∧
    (p.status < 2 → ∃ t, exec (.phaseCountEvent ev) s = .next t ∧ t.phaseEvents = s.phaseEvents.eraseIdx ev ∧
      t.strips = s.strips ∧ t.launches = s.launches ∧
      (∀ k < 64, cellGet (0 : Byte) t.mem (lf.pa + k) = ((p.event e.step).bytes old).getD k 0) ∧
      ∀ a, (a < lf.pa ∨ lf.pa + 64 ≤ a) → cellGet (0 : Byte) t.mem a = cellGet (0 : Byte) s.mem a)) ∧
  (∀ (s : State) (ev : Nat), (s.phaseEvents[ev]? = none → exec (.phaseCountEvent ev) s = .next s) ∧
    ∀ e, s.phaseEvents[ev]? = some e →
      (dieWaiting s (.phase e.record e.job.index) = true → exec (.phaseCountEvent ev) s = .next s) ∧
      ∀ va kind u, dieWaiting s (.phase e.record e.job.index) = false →
        xlateRange s (dieAgent e.die e.job) (vaOf e.record.toNat) 64 .both = (.error (va, kind), u) →
        exec (.phaseCountEvent ev) s = .next (match e.halo with
          | some id => fillAll (haloLanded (failHalo (engineFault { u with phaseEvents := u.phaseEvents.eraseIdx ev }
              (dieAgent e.die e.job) va kind (accRead + accWrite)) id) id)
          | none => dieFault u (dieAgent e.die e.job) (.phase e.record e.job.index) va kind (accRead + accWrite))) ∧
  (∀ (s : State) (n : Nat), (s.halos[n]? = none → exec (.haloEntryDelivery n) s = .next s) ∧
    (∀ h, s.halos[n]? = some h → h.sent = true → exec (.haloEntryDelivery n) s = .next s) ∧
    ∀ h u, s.halos[n]? = some h → h.sent = false → u = { s with halos := s.halos.eraseIdx n } →
      exec (.haloEntryDelivery n) s = .next (fillHalos (deliverEntry u h) (h.core / 96)) ∧
      (∀ k, openEntry h (.start u false) = (.refused, k) → deliverEntry u h = worsen k.s h.cmd codeDROPPED) ∧
      (∀ k c m, openEntry h (.start u false) = (.far c m, k) → deliverEntry u h = stayInFlight (sendPacket k.s c h.cmd (.halo m)) h) ∧
      (∀ k ag va kind access, openEntry h (.start u false) = (.stopped ag, k) → k.fault = some (va, kind, access) →
        deliverEntry u h = failHalo (engineFault (cutEntry u h) ag va kind access) h.cmd) ∧
      ∀ k e v p w, openEntry h (.start u false) = (.near e v p, k) →
        writeEntry k.s (haloThere h e.ddie) (destWrites v e.dleaf p) e.dphase = (true, w) →
        deliverEntry u h = if e.dphase = 0 then w else stayInFlight { w with
          phaseEvents := w.phaseEvents ++ [⟨BitVec.ofNat 64 e.dphase, h.job, e.ddie, some h.step, some h.cmd⟩] } h) ∧
  (∀ (h : HaloFlight) (e : HaloEntry) (v : Vdesc) (k : Spl),
    (leafInside e.sleaf v = false ∨ (e.conn ≠ 0 ∧ connOf k.s (e.conn - 1) h.job.index = none) ∨
      (e.conn = 0 ∧ holdsSector k.s h.job.part e.ddie = false) → haloRead h e v k = (.refused, k)) ∧
    ∀ c q, leafInside e.sleaf v = true → e.conn = 0 → holdsSector k.s h.job.part e.ddie = true →
      splVdesc k (haloThere h e.ddie) e.dvdesc = (some c, q) → q.stop = false →
      (leafInside e.dleaf c = false ∨ c.etype ≠ v.etype → haloRead h e v k = (.refused, q)) ∧
      ∀ pt r, leafInside e.dleaf c = true → c.etype = v.etype → sourceParts (haloAgent h) v e q = (some pt, r) →
        haloRead h e v k = (.near e c pt, r)) ∧
  (∀ (s : State) (n : Nat) (c : Conn) (pkt : Packet), tableGet s.conns n = some c →
    (c.up = false ∨ pkt.seq.toNat ≠ c.recvSeq → exec (.scaleOutPacketReceive n pkt) s = .next s) ∧
    ∀ off b, c.up = true → pkt.seq.toNat = c.recvSeq → pkt.body = .writes off b →
      (c.size < off.toNat + b.length → exec (.scaleOutPacketReceive n pkt) s =
        .next { s with conns := tablePut s.conns n { c with
          recvSeq := c.recvSeq + 1
          reports := c.reports ++ [(pkt.seq.toNat, packetRefused)] } }) ∧
      ∀ va lf ent m, off.toNat + b.length ≤ c.size → va = vaOf (c.base.toNat + off.toNat) → 0 < b.length →
        va % 128 + b.length ≤ 128 → Held s (dieAgent 0 c.job) va .write lf ent m → lf.plain b.length → s.mem.wf = true → Unhidden s →
        ∃ t, exec (.scaleOutPacketReceive n pkt) s = .next t ∧ t.strips = s.strips ∧
          t.conns = tablePut s.conns n { c with recvSeq := c.recvSeq + 1 } ∧
          (∀ j < b.length, cellGet (0 : Byte) t.mem (lf.pa + j) = b.getD j 0) ∧
          ∀ a, (a < lf.pa ∨ lf.pa + b.length ≤ a) → cellGet (0 : Byte) t.mem a = cellGet (0 : Byte) s.mem a) ∧
  (∀ (s v : State) (n out : Nat) (c : Conn) (pkt : Packet) (m : HaloMsg), tableGet s.conns n = some c → c.up = true →
    pkt.seq.toNat = c.recvSeq → pkt.body = .halo m →
    receiveHalo { s with conns := tablePut s.conns n { c with recvSeq := c.recvSeq + 1 } } c m = (out, v) →
    exec (.scaleOutPacketReceive n pkt) s = .next (if out = packetDone then v else
      { v with conns := tableMod v.conns n fun c => { c with reports := c.reports ++ [(pkt.seq.toNat, out)] } })) ∧
  (∀ (s : State) (n : Nat) (pkt : Packet) (seq out : Nat), tableGet s.conns n = none →
    exec (.scaleOutPacketReceive n pkt) s = .next s ∧ exec (.scaleOutAck n ⟨seq, out⟩) s = .next s ∧
      exec (.scaleOutRetransmit n) s = .next s) ∧
  (∀ (s v w : State) (n seq out : Nat) (c : Conn), tableGet s.conns n = some c →
    v = { s with conns := tablePut s.conns n { c with unacked := c.unacked.filter fun u => seq < u.1.seq.toNat } } →
    w = (match c.unacked.find? fun u => u.1.seq.toNat == seq with
      | none => v
      | some u => packetEnd v u.2.1 u.1.body out) →
    exec (.scaleOutAck n ⟨seq, out⟩) s = .next (fillAll ((c.unacked.filter fun u => u.1.seq.toNat ≤ seq).foldl
      (fun s u => landPacket s u.1.body u.2.1) w)) ∧
    ∀ cmd off b m, packetEnd v cmd (.writes off b) packetDone = v ∧ packetEnd v cmd (.halo m) packetDone = v ∧
      (out ≠ packetDone → packetEnd v cmd (.writes off b) out = worsen v cmd codeFAULT) ∧
      packetEnd v cmd (.halo m) packetRefused = worsen v cmd codeDROPPED ∧
      packetEnd v cmd (.halo m) packetFault = failHalo v cmd) ∧
  (∀ (s : State) (n : Nat) (j : Job) (base : DWord) (size : Nat),
    (256 ≤ n ∨ (∃ c, tableGet s.conns n = some c ∧ c.up = true) ∨ s.linksDown.contains (16 + connPort n) = true →
      openConn s n j base size = s) ∧
    (n < 256 → (∀ c, tableGet s.conns n = some c → c.up = false) → s.linksDown.contains (16 + connPort n) = false →
      openConn s n j base size = { s with conns := tablePut s.conns n ⟨true, j, base, size, 0, 0, [], []⟩ })) ∧
  ∀ (s : State) (n : Nat) (c : Conn), tableGet s.conns n = some c →
    (c.up = false ∨ (∀ u ∈ c.unacked, s.clk < u.2.2.2 + 28000) → exec (.scaleOutRetransmit n) s = .next s) ∧
    (c.up = true → (∃ u ∈ c.unacked, u.2.2.2 + 28000 ≤ s.clk) →
      (∀ u ∈ c.unacked, u.2.2.2 + 28000 ≤ s.clk → u.2.2.1 < 64) →
      exec (.scaleOutRetransmit n) s = .next { s with conns := tablePut s.conns n { c with
        unacked := c.unacked.map fun u =>
          if u.2.2.2 + 28000 ≤ s.clk then (u.1, u.2.1, u.2.2.1 + 1, s.clk) else u } }) ∧
    (c.up = true → (∃ u ∈ c.unacked, u.2.2.2 + 28000 ≤ s.clk ∧ 64 ≤ u.2.2.1) →
      ∃ t, exec (.scaleOutRetransmit n) s = .next t ∧ t.mem = s.mem ∧ t.strips = s.strips ∧
        t.conns = tablePut s.conns n { c with up := false, unacked := [] } ∧
        ∀ u ∈ c.unacked, ∀ core k, cmdOf s core u.2.1 = some k → ∃ k', cmdOf t core u.2.1 = some k' ∧ codeFAULT ≤ k'.stage)

/-- R482, R483 and R494-R498. These points are the model's choices and no rule of the spec: the bytes and cycles of the encoder and the filter of the colour differences are free values (logs 2, 12, 36), the unit codes and positions of the records and the log of the S-die's (log 17), what offsets without a register do (log 28), the numbers in a frame's header, the turns of the heads and the moment of the scan (log 36), and a requester's entry with other bits set (log 54). -/
def Obligations.DeviceRegistersAct : Prop :=
  (∀ (s : State) (pa : BitVec 44) (v : BitVec 64) (die off : Nat), pa.toNat = 2 * 2 ^ 40 + die * 0x1000 + off → die < 4 →
    off < 0x1000 →
    (off = 0x00 → exec (.registerWrite pa v) s = .next (modDie s die fun d => { d with fqbase := v })) ∧
    (off = 0x08 → exec (.registerWrite pa v) s = .next (modDie s die fun d => { d with fqcap := v })) ∧
    (off = 0x18 → exec (.registerWrite pa v) s = .next (modDie s die fun d => { d with fqans := v })) ∧
    (off = 0x28 → exec (.registerWrite pa v) s = .next (modDie s die fun d => { d with elbase := v })) ∧
    (off = 0x30 → exec (.registerWrite pa v) s = .next (modDie s die fun d => { d with elcap := v })) ∧
    (off = 0x40 → exec (.registerWrite pa v) s = .next (modDie s die fun d => { d with tilog := v })) ∧
    (off = 0x50 → exec (.registerWrite pa v) s = .next (modDie s die fun d => { d with jobtab := v })) ∧
    (off = 0x58 → exec (.registerWrite pa v) s = .next (modDie s die fun d => { d with qtab := v })) ∧
    (off = 0x78 → exec (.registerWrite pa v) s = .next (modDie s die fun d => { d with elcons := v })) ∧
    (off = 0x10 ∨ off = 0x38 ∨ off = 0x80 ∨ off = 0x88 → exec (.registerWrite pa v) s = .next s) ∧
    (off = 0x20 → v.toNat = 1 → exec (.registerWrite pa v) s = exec (.fqansRetry die (dieOf s die).fqans) s) ∧
    (off = 0x20 → v.toNat = 2 → exec (.registerWrite pa v) s = exec (.fqansZero die (dieOf s die).fqans) s) ∧
    (off = 0x20 → v.toNat = 3 → exec (.registerWrite pa v) s = exec (.fqansAbort die (dieOf s die).fqans) s) ∧
    (off = 0x48 → exec (.registerWrite pa v) s = exec (.tibell die) s) ∧
    (off = 0x60 → v.toNat < 1024 → exec (.registerWrite pa v) s = exec (.qbell v.toNat) s) ∧
    (off = 0x68 → exec (.registerWrite pa v) s = exec (.savereq die v.toNat) s) ∧
    (off = 0x70 → exec (.registerWrite pa v) s = exec (.fqcons die v) s)) ∧
  (∀ (s : State) (pa : BitVec 44) (v : BitVec 64),
    exec (.registerWrite pa v) s = .next (writeRegister s pa.toNat v) ∧
    (pa.toNat = 2 * 2 ^ 40 + 0x4000 →
      exec (.registerWrite pa v) s = .next { s with iommu := { s.iommu with iotab := v } }) ∧
    ∀ h off, h < 16 → off < 256 → off % 8 = 0 → pa.toNat = 2 * 2 ^ 40 + 0x10000 + h * 256 + off →
      exec (.registerWrite pa v) s = .next (modHead s h fun g => g.write off v)) ∧
  (∀ (s : State) (pa : BitVec 44) (v : BitVec 64) (h : Nat), h < 16 →
    (pa.toNat = 2 * 2 ^ 40 + 0x10000 + h * 256 + 0x20 → exec (.registerWrite pa v) s = exec (.flip h v) s) ∧
    (pa.toNat = 2 * 2 ^ 40 + 0x10000 + h * 256 + 0x78 → exec (.registerWrite pa v) s = exec (.keyreq h) s) ∧
    (pa.toNat = 2 * 2 ^ 40 + 0x4008 → v.toNat < 2 ^ 16 →
      exec (.registerWrite pa v) s = exec (.ioinvAsid (v.setWidth 16)) s) ∧
    (pa.toNat = 2 * 2 ^ 40 + 0x4008 → v.getLsbD 16 = true → exec (.registerWrite pa v) s = exec .ioinvAll s) ∧
    (pa.toNat / 2 ^ 40 ≠ 2 → exec (.registerWrite pa v) s = .next s) ∧
    (pa.toNat / 2 ^ 40 = 2 → pa.toNat % 8 ≠ 0 →
      exec (.registerWrite pa v) s = .next (logError s 0 unitDevice .masked pa.toNat)) ∧
    ∀ at_, pa.toNat / 2 ^ 40 = 2 → pa.toNat % 8 ≠ 0 → LogOpen s 0 at_ →
      ∃ t, exec (.registerWrite pa v) s = .next t ∧ Logged s t 0 at_ 33 .masked pa.toNat ∧ t.heads = s.heads ∧
        t.iommu = s.iommu ∧ t.strips = s.strips ∧ t.cores = s.cores) ∧
  (∀ (s : State) (h die : Nat) (v : BitVec 64) (asid : BitVec 16), s.heads.length = 16 → h < 16 →
    (∃ t, exec (.flip h v) s = .next t ∧ headOf t h = { headOf s h with flipTo := some v } ∧
      (∀ g, g ≠ h → headOf t g = headOf s g) ∧ t.mem = s.mem ∧ t.strips = s.strips) ∧
    (∃ t, exec (.keyreq h) s = .next t ∧ headOf t h = { headOf s h with keyreq := true } ∧
      (∀ g, g ≠ h → headOf t g = headOf s g) ∧ t.mem = s.mem ∧ t.strips = s.strips) ∧
    (∃ t, exec (.tibell die) s = .next t ∧ (die < s.dies.length → dieOf t die = { dieOf s die with tiPending := true }) ∧
      (∀ d, d ≠ die → dieOf t d = dieOf s d) ∧ t.mem = s.mem ∧ t.strips = s.strips ∧ t.cores = s.cores) ∧
    (∃ t, exec (.ioinvAsid asid) s = .next t ∧ t.iommu.iotab = s.iommu.iotab ∧
      ∀ e, e ∈ t.iommu.cached ↔ e ∈ s.iommu.cached ∧ e.asid ≠ asid.toNat) ∧
    ∃ t, exec .ioinvAll s = .next t ∧ t.iommu.iotab = s.iommu.iotab ∧ t.iommu.cached = []) ∧
  (∀ (s : State) (n : Nat) (h k : Head), s.heads.length = 16 → n < 16 → h = headOf s n →
    (h.enabled = false → exec (.displayFrameStart n) s = .next s) ∧
    (h.enabled = true → k = { h with
        fbaddr := h.flipTo.getD h.fbaddr
        flipTo := none
        flipped := h.flipTo.getD h.fbaddr
        live := h.config } →
      ∃ t, exec (.displayFrameStart n) s = .next t ∧ t.strips = s.strips ∧ (∀ g, g ≠ n → headOf t g = headOf s g) ∧
        (headOf t n).flipped = k.flipped ∧ (headOf t n).fbaddr = k.fbaddr ∧ (headOf t n).flipTo = none ∧
        (headOf t n).live = h.config ∧ (headOf t n).frames = h.frames + 1 ∧
        (headOf t n).skipped = (if h.frame.isSome then h.skipped + 1 else h.skipped) ∧
        (headOf t n).frame = some (h.frames.toNat, s.clk, h.keyreq || h.frame.isSome || h.live != h.config,
          h.live != h.config) ∧
        (frameInside s k = true → t.mem = s.mem ∧ t.dies = s.dies ∧
          (headOf t n).scan = convertFrame k.tenBit k.width k.height (framePixels s k)) ∧
        (frameInside s k = false → (headOf t n).scan =
          convertFrame k.tenBit k.width k.height (List.replicate (k.width * k.height) ⟨0, 0, 0⟩)) ∧
        (∀ at_, frameInside s k = false → LogOpen s 0 at_ → Logged s t 0 at_ 21 .masked k.flipped.toNat) ∧
        (frameInside s k = true ↔ ∀ j < k.height, inShare s k.part (s.shares.length + 1)
          (k.flipped.toNat + j * k.liveAt 1) (k.flipped.toNat + j * k.liveAt 1 + 4 * k.width) = true ∧
          populated (k.flipped.toNat + j * k.liveAt 1) = true ∧
          populated (k.flipped.toNat + j * k.liveAt 1 + 4 * k.width - 1) = true) ∧
        (framePixels s k).length = k.width * k.height ∧
        ∀ x y, x < k.width → y < k.height → (framePixels s k)[y * k.width + x]? = some (pixelOf k.tenBit
          (leNat (readHome s (k.flipped.toNat + y * k.liveAt 1 + 4 * x) 4).1)))) ∧
  (∀ (b g r : Nat) (b8 g8 r8 x8 : Byte), b < 1024 → g < 1024 → r < 1024 →
    pixelOf false (leNat [b8, g8, r8, x8]) = ⟨r8.toNat, g8.toNat, b8.toNat⟩ ∧
    (∀ x, pixelOf true (b + 2 ^ 10 * g + 2 ^ 20 * r + 2 ^ 30 * x) = ⟨r, g, b⟩)) ∧
  (∀ (w h : Nat) (px : List Rgb) (ten : Bool),
    (convertFrame ten w h px).length = px.length + 2 * ((h / 2) * (w / 2)) ∧
    (convertFrame ten w h px).take px.length = px.map (lumaSample ten)) ∧
  (∀ (p : Rgb) (n : Nat), n < 256 → p.r < 256 → p.g < 256 → p.b < 256 →
    16 ≤ lumaSample false p ∧ lumaSample false p ≤ 235 ∧
    16 ≤ chromaSample false 18556 p.b p ∧ chromaSample false 18556 p.b p ≤ 240 ∧
    16 ≤ chromaSample false 15748 p.r p ∧ chromaSample false 15748 p.r p ≤ 240 ∧
    chromaSample false 18556 n ⟨n, n, n⟩ = 128 ∧ chromaSample false 15748 n ⟨n, n, n⟩ = 128) ∧
  (∀ (s u : State) (enc n turn frame clock : Nat) (asked first key : Bool), s.heads.length = 16 → n < 16 →
    nextHead s enc = some (n, turn) → (headOf s n).frame = some (frame, clock, asked, first) →
    key = keyDue (headOf s n) (asked || (headOf s n).keyreq) →
    u = { s with
      free := s.free + 1
      encoders := listMod s.encoders enc fun e => ⟨e.busy + (Config.freeWord s.free 0).setWidth 64, turn⟩ } →
    exec (.encodedFrameWrite enc) s = .next ((putFrame u n ((if key then 1 else 0) + (if first then 2 else 0)) frame clock
        (Config.encodeFrame (headOf s n).live key (codedSamples (headOf s n)))).elim
      (modHead u n fun h => { h with frame := none, scan := [], skipped := h.skipped + 1, keyreq := true })
      fun w => modHead w n fun h => { h with
        frame := none, scan := [], keyreq := false, sinceKey := if key then 0 else h.sinceKey + 1 }) ∧
    (∀ e, nextHead s e = none → exec (.encodedFrameWrite e) s = .next s) ∧
    ((headOf s n).liveAt 5 = 0 → exec (.encodedFrameWrite enc) s = .next (modHead u n fun h => { h with
      frame := none, scan := [], skipped := h.skipped + 1, keyreq := true }))) ∧
  (∀ h : Head, codedSamples h = if h.tenBit = true ∧ h.liveAt 2 % 4 = 1 then h.scan.map (· / 4) else h.scan) ∧
  (∀ (s : State) (at_ len : Nat) (bdf : BitVec 16) (va : BitVec 48) (w : Option (List Byte)), LogOpen s 0 at_ →
    populated (requesterAt s bdf.toNat) = true → requesterJob s bdf.toNat = none →
    ∃ t, exec (.deviceDmaAccess bdf va len w) s = .next t ∧
      Logged s t 0 at_ 22 .masked (bdf.toNat * 2 ^ 48 + va.toNat) ∧ t.strips = s.strips ∧ t.cores = s.cores) ∧
  (∀ (s v : State) (len n : Nat) (bdf : BitVec 16) (va : BitVec 48) (w : Option (List Byte)),
    n = (w.map List.length).getD len → v = noteBeyond s 0 (requesterAt s bdf.toNat) →
    (requesterJob v bdf.toNat = none → exec (.deviceDmaAccess bdf va len w) s = .next (refuseDma v bdf va)) ∧
    ∀ j, requesterJob v bdf.toNat = some j →
      (∀ u, ioXlateAll v j (if w.isSome then .write else .read) (linePieces (n / 128 + 2) va.toNat n) = (none, u) →
        exec (.deviceDmaAccess bdf va len w) s = .next (refuseDma u bdf va)) ∧
      ∀ ps u, ioXlateAll v j (if w.isSome then .write else .read) (linePieces (n / 128 + 2) va.toNat n) = (some ps, u) →
        exec (.deviceDmaAccess bdf va len w) s = .next (match w with
          | none => ps.foldl outerRead u
          | some b => (splitBytes ps b).foldl (fun s q => outerStore s q.1 q.2) u)) ∧
  (∀ (s : State) (pa : Nat) (b : List Byte) (p : Piece),
    (isDevice pa = true → b.length = 8 → outerStore s pa b = writeRegister s pa (BitVec.ofNat 64 (leNat b))) ∧
    (isDevice pa = true → b.length ≠ 8 → outerStore s pa b = logError s 0 unitDevice .masked pa) ∧
    (isDevice pa = false → outerStore s pa b = hardWrite s (if onSdie pa then 0 else homeDie pa) pa b) ∧
    (populated p.leaf.pa = true → outerRead s p = s)) ∧
  ∀ (s u : State) (len : Nat) (bdf : BitVec 16) (va : BitVec 48) (b : List Byte) (j : Job) (lf : Leaf),
    populated (requesterAt s bdf.toNat) = true → requesterJob s bdf.toNat = some j → 0 < b.length →
    va.toNat % 128 + b.length ≤ 128 →
    ioXlate s j va.toNat .write = (some lf, u) → populated lf.pa = true → u.mem.wf = true → Unhidden u →
    ∃ t, exec (.deviceDmaAccess bdf va len (some b)) s = .next t ∧ t.strips = u.strips ∧
      (∀ k < b.length, cellGet (0 : Byte) t.mem (lf.pa + k) = b.getD k 0) ∧
      ∀ a, (a < lf.pa ∨ lf.pa + b.length ≤ a) → cellGet (0 : Byte) t.mem a = cellGet (0 : Byte) u.mem a

/-- R3, R490-R493, R499 and R500. These points are the model's choices and no rule of the spec: what a module reset keeps (log 10), report and status bytes (log 12), unit codes of records (log 17), that dispatch goes on in the throttle band and that the S-die is die 4 with its records in die 0's log (log 33), and that a failed core is one record with its 12 bays fenced and an entry in `Boot.failures` (log 56). -/
def Obligations.ManagementBootAndLimits : Prop :=
  (∀ (s : State) (x : Session) (n op : Nat) (i : Instr) (num after : BitVec 64) (map owners weights : List Nat)
    (shares : List (Nat × Nat × Nat)) (on : Bool) (die watts : Nat) (image : FwImage) (nonce : BitVec 256),
    tableGet s.sessions n = some x →
    (i, op) ∈ [(Instr.mgmtReadStatus n num, 1), (.mgmtReadErrorLog n num after, 2),
      (.mgmtSetPartitions n num map owners weights shares, 3), (.mgmtPatrolScrub n num on, 4),
      (.mgmtSetPowerCap n num die watts, 5), (.mgmtLoadFirmware n num image, 6), (.mgmtAttestation n num nonce, 7),
      (.mgmtModuleReset n num, 8), (.mgmtRaiseSecurityVersion n num, 9)] →
    (x.answered.any (fun a => a.1 == num) = true → exec i s = .next s) ∧
    (x.answered.any (fun a => a.1 == num) = false → served s x op = false → exec i s = .next (respond s n num 1 [])) ∧
    ∃ t, exec i s = .next t ∧ s.boot.fuseMin ≤ t.boot.fuseMin) ∧
  (∀ (s : State) (x : Session) (n : Nat) (num after : BitVec 64) (map owners weights : List Nat)
    (shares : List (Nat × Nat × Nat)) (on : Bool) (die watts : Nat) (image : FwImage) (nonce : BitVec 256),
    tableGet s.sessions n = some x → x.answered.any (fun a => a.1 == num) = false →
    (served s x 1 = true → exec (.mgmtReadStatus n num) s = .next (respond s n num 0 (Config.statusBody
      (s.dies.map (·.temp) ++ [s.sTemp] ++ s.dies.map (·.power) ++
        [if s.alarm then 1 else 0, s.coolant.1, s.coolant.2] ++ s.fenced)))) ∧
    (served s x 2 = true → exec (.mgmtReadErrorLog n num after) s =
      .next (respond ((List.range 4).foldl noteLogReads s) n num 0 (s.dies.flatMap fun d => recordsAfter s d after.toNat)) ∧
      ((∀ d < 4, ∀ k < (dieOf s d).elcap.toNat, populated ((dieOf s d).elbase.toNat + 32 * k) = true) →
        (List.range 4).foldl noteLogReads s = s)) ∧
    (served s x 3 = true → map.length = 16 → owners.length = 16 → weights.length = 16 → (∀ m ∈ map, m < 16) →
      (jobsRun s = true → exec (.mgmtSetPartitions n num map owners weights shares) s = .next (respond s n num 2 [])) ∧
      (jobsRun s = false → ∃ t, exec (.mgmtSetPartitions n num map owners weights shares) s = .next t ∧ t.parts = map ∧
        t.weights = weights ∧ t.shares = shares ∧ t.mem = s.mem ∧ t.dies = s.dies ∧
        t.sessions = (respond s n num 0 []).sessions)) ∧
    (served s x 4 = true → exec (.mgmtPatrolScrub n num on) s = .next { respond s n num 0 [] with scrubOn := on }) ∧
    (served s x 5 = true → die < 4 → exec (.mgmtSetPowerCap n num die watts) s =
      .next (modDie (respond s n num 0 []) die fun d => { d with cap := watts, held := watts < d.power })) ∧
    (served s x 6 = true → exec (.mgmtLoadFirmware n num image) s = .next (if imageRuns s.boot image = true then
        { respond s n num 0 [] with boot := { s.boot with recovery := false, image := some image } }
      else respond s n num 2 [])) ∧
    (served s x 7 = true → ∃ sigs, exec (.mgmtAttestation n num nonce) s =
      .next (respond s n num 0 (reportBytes s nonce ++ sigs))) ∧
    (served s x 8 = true → ∃ t, exec (.mgmtModuleReset n num) s = .next t ∧ t.strips = [] ∧ t.launches = [] ∧
      t.clk = 0 ∧ t.boot.recovery = true ∧ t.boot.image = none ∧ t.boot.fuseMin = s.boot.fuseMin) ∧
    (served s x 9 = true → ∀ i, s.boot.image = some i → s.boot.fuseMin ≤ i.version → i.version ≤ 64 →
      exec (.mgmtRaiseSecurityVersion n num) s =
        .next { respond s n num 0 [] with boot := { s.boot with fuseMin := i.version } }) ∧
    exec (.mgmtMalformedRequest n num) s = .next (respond s n num 3 [])) ∧
  (∀ (s : State) (k : Nat) (i : FwImage) (r : Role) (anchor : Option Nat),
    (s.boot.recovery = true → exec (.mgmtSession anchor) s = .next { s with
      sessions := tablePut s.sessions s.nextId ⟨none, []⟩, nextId := s.nextId + 1 }) ∧
    (s.boot.recovery = false → s.boot.image = some i → i.anchors[k]? = some r → exec (.mgmtSession (some k)) s = .next
      { s with sessions := tablePut s.sessions s.nextId ⟨some r, []⟩, nextId := s.nextId + 1 }) ∧
    (s.boot.recovery = false → s.boot.image = some i → i.anchors[k]? = none → exec (.mgmtSession (some k)) s = .next s) ∧
    (s.boot.recovery = false → (anchor = none ∨ s.boot.image = none) → exec (.mgmtSession anchor) s = .next s)) ∧
  (∀ (s : State) (i : FwImage) (image : Option FwImage) (bays cores : List Nat) (at_ u : Nat),
    (s.boot.image.isSome = true → exec (.boot image ⟨bays, cores⟩) s = .next s) ∧
    (s.boot.image = none → exec (.boot (some i) ⟨[], []⟩) s = .next (if imageRuns s.boot i = true then
      { s with boot := { s.boot with recovery := false, image := some i } } else s)) ∧
    (s.boot.image = none → ∃ t, exec (.boot image ⟨bays, cores⟩) s = .next t ∧ t.boot.fuseMin = s.boot.fuseMin ∧
      t.strips = s.strips ∧ (∀ n ∈ bays, n < 4608 → n ∉ (s.boot.failures.flatMap FailedUnit.bays) → n ∈ t.fenced) ∧
      (image = none → t.boot.image = none ∧ t.boot.recovery = s.boot.recovery)) ∧
    (s.boot.image = none → s.boot.failures.contains (.bay u) = false → u < 4608 → LogOpen s (u / 1152) at_ →
      ∃ t, exec (.boot none ⟨[u], []⟩) s = .next t ∧ Logged s t (u / 1152) at_ 19 .fatal u ∧ t.fenced = setAdd s.fenced u ∧
        t.boot = { s.boot with failures := s.boot.failures ++ [.bay u] }) ∧
    (s.boot.image = none → s.boot.failures.contains (.core u) = false → u < 384 → LogOpen s (u / 96) at_ →
      ∃ t, exec (.boot none ⟨[], [u]⟩) s = .next t ∧ Logged s t (u / 96) at_ 23 .fatal u ∧
        (∀ b < 12, u * 12 + b ∈ t.fenced) ∧ t.boot = { s.boot with failures := s.boot.failures ++ [.core u] })) ∧
  (∀ (s : State) (die watts : Nat), die < s.dies.length → ∃ t, exec (.powerCapThrottle die watts) s = .next t ∧
    dieOf t die = { dieOf s die with power := watts, held := (dieOf s die).cap < watts } ∧
    (∀ d, d ≠ die → dieOf t d = dieOf s d) ∧ t.strips = s.strips ∧ t.mem = s.mem ∧
    ((dieOf s die).cap < watts → ∀ p : Strip, p.die = die → canIssue t p = false)) ∧
  (∀ (s : State) (die temp at_ : Nat), die < s.dies.length → die ≠ 4 →
    (temp ≤ 105 → (dieOf s die).band = bandOf temp → exec (.thermalThrottleBand die temp) s =
      .next (modDie s die fun d => { d with temp := temp })) ∧
    (exec (.thermalThrottleBand die temp) s = .next (if temp ≤ 105 then setBand s die temp else s)) ∧
    (exec (.thermalCriticalBand die temp) s = .next (if temp < 110 then setBand s die temp else s)) ∧
    (95 < temp → temp ≤ 105 → (dieOf s die).band = .normal → LogOpen s die at_ →
      ∃ t, exec (.thermalThrottleBand die temp) s = .next t ∧ (dieOf t die).band = .throttle ∧ (dieOf t die).temp = temp ∧
        Logged s t die at_ 18 .corrected temp ∧ dieDispatches t die = true) ∧
    (105 < temp → temp < 110 → (dieOf s die).band ≠ .critical → LogOpen s die at_ →
      ∃ t, exec (.thermalCriticalBand die temp) s = .next t ∧ (dieOf t die).band = .critical ∧
        Logged s t die at_ 18 .fatal temp ∧ dieDispatches t die = false ∧ t.strips = s.strips) ∧
    (temp < 110 → exec (.thermalReset die temp) s = .next s) ∧
    (110 ≤ temp → ∃ t, exec (.thermalReset die temp) s = .next t ∧ t.strips = [] ∧ t.launches = [] ∧ t.wgs = [] ∧
      t.clk = 0 ∧ t.boot.recovery = true ∧ t.boot.fuseMin = s.boot.fuseMin)) ∧
  (∀ (s : State) (temp at_ : Nat),
    (temp ≤ 105 → s.sBand = bandOf temp → exec (.thermalThrottleBand 4 temp) s = .next { s with sTemp := temp }) ∧
    (95 < temp → temp ≤ 105 → s.sBand = .normal → LogOpen s 0 at_ →
      ∃ t, exec (.thermalThrottleBand 4 temp) s = .next t ∧ t.sBand = .throttle ∧ t.sTemp = temp ∧
        Logged s t 0 at_ 25 .corrected temp ∧ ∀ d, (dieOf t d).band = (dieOf s d).band) ∧
    (105 < temp → temp < 110 → s.sBand ≠ .critical → LogOpen s 0 at_ →
      ∃ t, exec (.thermalCriticalBand 4 temp) s = .next t ∧ t.sBand = .critical ∧ t.sTemp = temp ∧
        Logged s t 0 at_ 25 .fatal temp ∧ t.strips = s.strips ∧ ∀ d, (dieOf t d).band = (dieOf s d).band) ∧
    (110 ≤ temp → ∃ t, exec (.thermalReset 4 temp) s = .next t ∧ t.strips = [] ∧ t.clk = 0 ∧ t.boot.recovery = true)) ∧
  ∀ (s : State) (inlet flow at_ : Nat),
    (inlet ≤ 40 → 4 ≤ flow → exec (.coolantAlarm inlet flow) s =
      .next { s with coolant := (inlet, flow), alarm := false }) ∧
    (40 < inlet ∨ flow < 4 → exec (.coolantAlarm inlet flow) s = .next (logError
      { s with coolant := (inlet, flow), alarm := true } 0 unitCoolant .masked (inlet * 2 ^ 16 + flow))) ∧
    (40 < inlet ∨ flow < 4 → LogOpen s 0 at_ → ∃ t, exec (.coolantAlarm inlet flow) s = .next t ∧ t.alarm = true ∧
      t.coolant = (inlet, flow) ∧ Logged s t 0 at_ 20 .masked (inlet * 2 ^ 16 + flow) ∧ t.strips = s.strips)

/-- Two invariants of the model's data: the form of the strips' own tables (identifiers, strands, v and s registers; R9, R10, R11, R142), which the register instructions keep, and the canonical form of memory (rising addresses, no byte listed that reads as 0: log 1), which `exec` keeps for every constructor and every state, and `step` for every state. -/
def Obligations.RegisterInstructionsKeepTheForm : Prop :=
  StripsWf State.reset ∧
  (∀ (i : Instr) (g : Operands → Nat → Result) (s t : State) (p : Strip) (pc : VA) (x : Strands),
    laneValue i = some g → Clean i s p pc x → StripsWf s → exec i s = .next t →
    (∀ first n, destOf (shape i) = .v first n → RoomFor (p.issued (shape i) x) first n) → StripsWf t) ∧
  (∀ (i : Instr) (g : Strands → Operands → Results) (s t : State) (p : Strip) (pc : VA) (x : Strands),
    groupValue i = some g → Clean i s p pc x → StripsWf s → exec i s = .next t →
    (∀ first n, destOf (shape i) = .v first n → RoomFor (p.issued (shape i) x) first n) → StripsWf t) ∧
  (∀ (i : Instr) (g : Operands → Result) (s t : State) (p : Strip) (pc : VA) (x : Strands),
    scalarValue i = some g → Clean i s p pc x → StripsWf s → exec i s = .next t → StripsWf t) ∧
  State.reset.mem.wf = true ∧
  (∀ (i : Instr) (s t : State), s.mem.wf = true → exec i s = .next t → t.mem.wf = true) ∧
  ∀ s t : State, s.mem.wf = true → step s = .next t → t.mem.wf = true
end

