-- ==== Sys2Proof/Laws/Bits.lean ====
section
/-! SUPPORT. Strand sets bit by bit, and bytes and numbers as each other. -/
namespace Sys2Proof.Machine

theorem strandSum (p : Nat → Bool) (n : Nat) :
    (List.range n).foldl (fun n i => if p i then n + 2 ^ i else n) 0 < 2 ^ n ∧
    ∀ i, ((List.range n).foldl (fun n i => if p i then n + 2 ^ i else n) 0).testBit i = (decide (i < n) && p i) := by
  induction n with
  | zero => simp
  | succ n ih =>
    obtain ⟨h1, h2⟩ := ih
    rw [List.range_succ, List.foldl_append]
    simp only [List.foldl_cons, List.foldl_nil]
    generalize (List.range n).foldl (fun n i => if p i then n + 2 ^ i else n) 0 = acc at h1 h2
    constructor
    · split
      · rw [Nat.pow_succ]; omega
      · rw [Nat.pow_succ]; omega
    · intro i
      split
      · rename_i hp
        rcases Nat.lt_trichotomy i n with hi | hi | hi
        · rw [Nat.add_comm, Nat.testBit_two_pow_add_gt hi, h2]; simp [hi, Nat.lt_succ_of_lt hi]
        · subst hi
          rw [Nat.add_comm, Nat.testBit_two_pow_add_eq, h2]; simp [hp]
        · have : (acc + 2 ^ n).testBit i = false := by
            apply Nat.testBit_lt_two_pow
            calc acc + 2 ^ n < 2 ^ (n + 1) := by rw [Nat.pow_succ]; omega
              _ ≤ 2 ^ i := Nat.pow_le_pow_right (by omega) hi
          rw [this]; simp; omega
      · rename_i hp
        rw [h2]
        by_cases hi : i = n
        · subst hi; simp [hp]
        · by_cases h : i < n
          · simp [h, Nat.lt_succ_of_lt h]
          · simp [h]; omega

/-- A strand is in a set exactly when it passes the test. -/
theorem strandSet_bit (p : Nat → Bool) (i : Nat) (h : i < 16) : (strandSet p).getLsbD i = p i := by
  have := (strandSum p 16).2 i
  simp only [strandSet, strandIxs, BitVec.getLsbD_ofNat, this]
  simp [h]

/-- Two sets with the same strands are one. -/
theorem strands_ext {x y : Strands} (h : ∀ i < 16, x.getLsbD i = y.getLsbD i) : x = y :=
  BitVec.eq_of_getLsbD_eq h

theorem strandSet_eq_zero {p : Nat → Bool} (h : ∀ i < 16, p i = false) : strandSet p = 0 :=
  strands_ext fun i hi => by rw [strandSet_bit p i hi, h i hi]; simp

@[simp] theorem strandSet_false : strandSet (fun _ => false) = 0 := strandSet_eq_zero fun _ _ => rfl

theorem mem_strandsOf (x : Strands) (i : Nat) : i ∈ strandsOf x ↔ i < 16 ∧ x.getLsbD i = true := by
  simp [strandsOf, strandIxs]

@[simp] theorem length_strandIxs : strandIxs.length = 16 := rfl

/-- A number written as bytes and read back. -/
theorem leNat_leBytes (n x : Nat) : leNat (leBytes n x) = x % 256 ^ n := by
  induction n generalizing x with
  | zero => simp [leBytes, leNat, Nat.mod_one]
  | succ n ih =>
    show (BitVec.ofNat 8 x).toNat + 256 * leNat (leBytes n (x / 256)) = x % 256 ^ (n + 1)
    rw [ih, BitVec.toNat_ofNat, show 256 ^ (n + 1) = 256 * 256 ^ n from Nat.pow_succ', Nat.mod_mul]

@[simp] theorem length_leBytes (n x : Nat) : (leBytes n x).length = n := by
  induction n generalizing x with
  | zero => rfl
  | succ n ih => simp [leBytes, ih]

end Sys2Proof.Machine
end

