-- ==== Sys2Proof/Laws/Cells.lean ====
section
/-! SUPPORT. The laws of the sparse tables: a read after a write, the canonical form, and writes that fold into one. -/
namespace Sys2Proof.Machine

/-! ## Tables without default -/

@[simp] theorem tableGet_tablePut_same {α : Type} (m : Table α) (a : Nat) (x : α) :
    tableGet (tablePut m a x) a = some x := by
  induction m with
  | nil => simp [tablePut, tableGet]
  | cons c m ih =>
    obtain ⟨k, v⟩ := c
    simp only [tablePut]
    split
    · simp [tableGet]
    · split
      · simp [tableGet]
      · rename_i h1 h2
        simp [tableGet, h1, h2, ih]

theorem tableGet_tablePut_ne {α : Type} (m : Table α) (a b : Nat) (x : α) (h : b ≠ a) :
    tableGet (tablePut m a x) b = tableGet m b := by
  induction m with
  | nil => simp only [tablePut, tableGet]; split <;> simp_all
  | cons c m ih =>
    obtain ⟨k, v⟩ := c
    simp only [tablePut]
    split
    · simp only [tableGet]; split
      · rw [if_pos (by omega)]
      · simp [h]
    · split
      · rename_i hk; subst hk
        simp only [tableGet]; simp [h]
      · simp only [tableGet]; rw [ih]

/-- Writing back what stands there changes nothing. -/
theorem tablePut_self {α : Type} (m : Table α) (a : Nat) (x : α) (h : tableGet m a = some x) : tablePut m a x = m := by
  induction m with
  | nil => simp [tableGet] at h
  | cons c m ih =>
    obtain ⟨k, v⟩ := c
    simp only [tableGet] at h
    simp only [tablePut]
    split
    · rename_i hk; simp [hk] at h
    · rename_i hk
      split
      · rename_i e; simp [e] at h; simp [e, h]
      · rename_i e; rw [if_neg hk, if_neg e] at h; rw [ih h]

@[simp] theorem tablePut_tablePut {α : Type} (m : Table α) (a : Nat) (x y : α) :
    tablePut (tablePut m a x) a y = tablePut m a y := by
  induction m with
  | nil => simp [tablePut]
  | cons c m ih =>
    obtain ⟨k, v⟩ := c
    simp only [tablePut]
    split
    · simp [tablePut]
    · split
      · simp [tablePut]
      · rename_i h1 h2
        simp [tablePut, h1, h2, ih]

theorem tableMod_some {α : Type} (m : Table α) (a : Nat) (f : α → α) (x : α) (h : tableGet m a = some x) :
    tableMod m a f = tablePut m a (f x) := by simp [tableMod, h]

@[simp] theorem tableMod_tablePut {α : Type} (m : Table α) (a : Nat) (x : α) (f : α → α) :
    tableMod (tablePut m a x) a f = tablePut m a (f x) := by simp [tableMod]

theorem tableMod_none {α : Type} (m : Table α) (a : Nat) (f : α → α) (h : tableGet m a = none) :
    tableMod m a f = m := by simp [tableMod, h]

theorem tableGet_tableMod_ne {α : Type} (m : Table α) (a b : Nat) (f : α → α) (h : b ≠ a) :
    tableGet (tableMod m a f) b = tableGet m b := by
  unfold tableMod
  split
  · exact tableGet_tablePut_ne _ _ _ _ h
  · rfl

theorem tableAbove_tablePut {α : Type} (m : Table α) (a : Nat) (x : α) (lo : Option Nat)
    (h : tableAbove lo m = true) (hlo : ∀ l, lo = some l → l < a) : tableAbove lo (tablePut m a x) = true := by
  induction m generalizing lo with
  | nil => cases lo <;> simp_all [tablePut, tableAbove]
  | cons c m ih =>
    obtain ⟨k, v⟩ := c
    simp only [tableAbove, Bool.and_eq_true] at h
    simp only [tablePut]
    split
    · rename_i hk
      simp only [tableAbove, Bool.and_eq_true, decide_eq_true_eq]
      exact ⟨by cases lo <;> simp_all, hk, h.2⟩
    · split
      · rename_i e; subst e
        simp only [tableAbove, Bool.and_eq_true]
        exact ⟨h.1, h.2⟩
      · simp only [tableAbove, Bool.and_eq_true]
        exact ⟨h.1, ih _ h.2 (fun l e => by simp at e; omega)⟩

/-- A write keeps the keys of a table rising. -/
theorem tableWf_tablePut {α : Type} (m : Table α) (a : Nat) (x : α) (h : tableWf m = true) :
    tableWf (tablePut m a x) = true := tableAbove_tablePut m a x none h (by simp)

/-! ## Tables with a default -/

section
variable {β : Type} [DecidableEq β] (dflt : β)

theorem cellsAbove_cellPut (m : List (Nat × β)) (a : Nat) (x : β) (lo : Option Nat)
    (h : cellsAbove dflt lo m = true) (hlo : ∀ l, lo = some l → l < a) :
    cellsAbove dflt lo (cellPut dflt m a x) = true := by
  have weaken : ∀ (m : List (Nat × β)) (l k : Nat), l < k → cellsAbove dflt (some k) m = true →
      cellsAbove dflt (some l) m = true := by
    intro m l k hl hm
    cases m with
    | nil => rfl
    | cons c m =>
      simp only [cellsAbove, Bool.and_eq_true, decide_eq_true_eq] at hm ⊢
      exact ⟨⟨by omega, hm.1.2⟩, hm.2⟩
  induction m generalizing lo with
  | nil =>
    simp only [cellPut]
    split
    · rfl
    · cases lo <;> simp_all [cellsAbove]
  | cons c m ih =>
    obtain ⟨k, v⟩ := c
    have h0 := h
    simp only [cellsAbove, Bool.and_eq_true] at h
    obtain ⟨⟨h1, h2⟩, h3⟩ := h
    simp only [cellPut]
    split
    · rename_i hk
      split
      · exact h0
      · rename_i hx
        simp only [cellsAbove, Bool.and_eq_true, decide_eq_true_eq]
        exact ⟨⟨by cases lo <;> simp_all, hx⟩, ⟨hk, by simpa using h2⟩, h3⟩
    · split
      · rename_i e; subst e
        split
        · cases lo with
          | none =>
            cases m with
            | nil => rfl
            | cons c m =>
              simp only [cellsAbove, Bool.and_eq_true] at h3 ⊢
              exact ⟨⟨trivial, h3.1.2⟩, h3.2⟩
          | some l => exact weaken m l _ (hlo l rfl) h3
        · rename_i hx
          simp only [cellsAbove, Bool.and_eq_true]
          exact ⟨⟨h1, by simpa using hx⟩, h3⟩
      · simp only [cellsAbove, Bool.and_eq_true]
        exact ⟨⟨h1, h2⟩, ih _ h3 (fun l e => by simp at e; omega)⟩

/-- A write keeps the canonical form of a table with a default. -/
theorem cellsWf_cellPut (m : List (Nat × β)) (a : Nat) (x : β) (h : cellsWf dflt m = true) :
    cellsWf dflt (cellPut dflt m a x) = true := cellsAbove_cellPut dflt m a x none h (by simp)

theorem cellsWf_cellPutAll (l : List β) (m : List (Nat × β)) (a : Nat) (h : cellsWf dflt m = true) :
    cellsWf dflt (cellPutAll dflt m a l) = true := by
  induction l generalizing m a with
  | nil => exact h
  | cons x l ih => exact ih _ _ (cellsWf_cellPut dflt m a x h)

theorem cellGet_above (m : List (Nat × β)) (a : Nat) (h : cellsAbove dflt (some a) m = true) :
    cellGet dflt m a = dflt := by
  cases m with
  | nil => rfl
  | cons c m =>
    simp only [cellsAbove, Bool.and_eq_true, decide_eq_true_eq] at h
    simp [cellGet, h.1.1]

theorem cellGet_cellPut_same_above (m : List (Nat × β)) (a : Nat) (x : β) (lo : Option Nat)
    (h : cellsAbove dflt lo m = true) : cellGet dflt (cellPut dflt m a x) a = x := by
  induction m generalizing lo with
  | nil => simp only [cellPut]; split <;> simp_all [cellGet]
  | cons c m ih =>
    obtain ⟨k, v⟩ := c
    simp only [cellsAbove, Bool.and_eq_true] at h
    simp only [cellPut]
    split
    · rename_i hk; split
      · rename_i hx; simp [cellGet, hk, hx]
      · simp [cellGet]
    · split
      · rename_i e; subst e
        split
        · rename_i hx; rw [hx]; exact cellGet_above dflt m _ h.2
        · simp [cellGet]
      · rename_i h1 h2
        simp only [cellGet]; rw [if_neg h1, if_neg h2]; exact ih _ h.2

/-- A read of what was written. -/
theorem cellGet_cellPut_same (m : List (Nat × β)) (a : Nat) (x : β) (h : cellsWf dflt m = true) :
    cellGet dflt (cellPut dflt m a x) a = x := cellGet_cellPut_same_above dflt m a x none h

theorem cellGet_cellPut_ne_above (m : List (Nat × β)) (a b : Nat) (x : β) (hne : b ≠ a) (lo : Option Nat)
    (h : cellsAbove dflt lo m = true) : cellGet dflt (cellPut dflt m a x) b = cellGet dflt m b := by
  induction m generalizing lo with
  | nil =>
    simp only [cellPut]; split
    · rfl
    · simp [cellGet, hne]
  | cons c m ih =>
    obtain ⟨k, v⟩ := c
    simp only [cellsAbove, Bool.and_eq_true] at h
    simp only [cellPut]
    split
    · split
      · rfl
      · simp only [cellGet]; split
        · rw [if_pos (by omega)]
        · simp [hne]
    · split
      · rename_i e; subst e
        split
        · simp only [cellGet]
          split
          · rename_i hb
            cases m with
            | nil => rfl
            | cons c m =>
              have := h.2
              simp only [cellsAbove, Bool.and_eq_true, decide_eq_true_eq] at this
              simp only [cellGet]; rw [if_pos (by omega)]
          · simp [hne]
        · simp only [cellGet]; simp [hne]
      · simp only [cellGet]; rw [ih _ h.2]

/-- A write leaves every other place alone. -/
theorem cellGet_cellPut_ne (m : List (Nat × β)) (a b : Nat) (x : β) (hne : b ≠ a) (h : cellsWf dflt m = true) :
    cellGet dflt (cellPut dflt m a x) b = cellGet dflt m b := cellGet_cellPut_ne_above dflt m a b x hne none h

/-- A write of a list leaves every place outside it alone. -/
theorem cellGet_cellPutAll_ne (l : List β) (m : List (Nat × β)) (a b : Nat) (hne : b < a ∨ a + l.length ≤ b)
    (h : cellsWf dflt m = true) : cellGet dflt (cellPutAll dflt m a l) b = cellGet dflt m b := by
  induction l generalizing m a with
  | nil => rfl
  | cons x l ih =>
    simp only [List.length_cons] at hne
    rw [cellPutAll, ih _ _ (by omega) (cellsWf_cellPut dflt m a x h), cellGet_cellPut_ne dflt m a b x (by omega) h]

/-- A read of a list that was written. -/
theorem cellGet_cellPutAll (l : List β) (m : List (Nat × β)) (a k : Nat) (hk : k < l.length)
    (h : cellsWf dflt m = true) : cellGet dflt (cellPutAll dflt m a l) (a + k) = l[k] := by
  induction l generalizing m a k with
  | nil => simp at hk
  | cons x l ih =>
    cases k with
    | zero =>
      rw [Nat.add_zero, cellPutAll, cellGet_cellPutAll_ne dflt l _ _ _ (by omega) (cellsWf_cellPut dflt m a x h)]
      exact cellGet_cellPut_same dflt m a x h
    | succ k =>
      have := ih (cellPut dflt m a x) (a + 1) k (by simpa using hk) (cellsWf_cellPut dflt m a x h)
      rw [cellPutAll, show a + (k + 1) = a + 1 + k by omega, this]
      rfl

omit [DecidableEq β] in
/-- Cells below an address do not count for it. -/
theorem cellGet_dropBelow (m : List (Nat × β)) (a b : Nat) (h : a ≤ b) : cellGet dflt (dropBelow m a) b = cellGet dflt m b := by
  induction m with
  | nil => rfl
  | cons q m ih =>
    obtain ⟨k, v⟩ := q
    simp only [dropBelow]
    split
    · rw [ih, cellGet, if_neg (by omega), if_neg (by omega)]
    · rfl

omit [DecidableEq β] in
/-- A range is read byte by byte. -/
theorem cellRange_eq (m : List (Nat × β)) (a n : Nat) :
    cellRange dflt m a n = (List.range n).map fun i => cellGet dflt m (a + i) := by
  induction n generalizing m a with
  | zero => rfl
  | succ n ih =>
    have step : ∀ m' : List (Nat × β), (∀ b, a < b → cellGet dflt m' b = cellGet dflt m b) →
        cellRange dflt m' (a + 1) n = (List.range n).map fun i => cellGet dflt m (a + (i + 1)) := fun m' h => by
      rw [ih]
      refine List.map_congr_left fun i _ => ?_
      rw [show a + 1 + i = a + (i + 1) by omega]
      exact h _ (by omega)
    rw [List.range_succ_eq_map, List.map_cons, List.map_map]
    show cellRange dflt m a (n + 1) = cellGet dflt m a :: (List.range n).map fun i => cellGet dflt m (a + (i + 1))
    have drop : ∀ b, a ≤ b → cellGet dflt m b = cellGet dflt (dropBelow m a) b := fun b h => (cellGet_dropBelow dflt m a b h).symm
    rw [cellRange, drop a (Nat.le_refl a)]
    match hd : dropBelow m a with
    | [] =>
      refine (List.replicate_succ).trans (congrArg _ ?_)
      rw [← step [] fun b h => by rw [drop b (by omega), hd]]
      cases n <;> rfl
    | (k, v) :: m' =>
      have hk : a ≤ k := by
        have : ∀ l : List (Nat × β), ∀ q l', dropBelow l a = q :: l' → a ≤ q.1 := fun l => by
          induction l with
          | nil => intro q l' h; cases h
          | cons c l ih =>
            obtain ⟨j, u⟩ := c
            intro q l' h
            simp only [dropBelow] at h
            split at h
            · exact ih q l' h
            · cases h; omega
        exact this m _ _ hd
      by_cases h : k = a
      · subst h
        simp only [cellGet, if_true, Nat.lt_irrefl, if_false]
        refine congrArg _ (step m' fun b hb => ?_)
        rw [drop b (by omega), hd, cellGet, if_neg (by omega), if_neg (by omega)]
      · simp only [cellGet, h, if_false, show a < k by omega, if_true]
        exact congrArg _ (step _ fun b hb => by rw [drop b (by omega), hd])

end

end Sys2Proof.Machine
end

