-- ==== Sys2Proof/Laws/Decode.lean ====
section
/-! SUPPORT. The fields of an encoded word are the fields it was made from, format by format. -/
namespace Sys2Proof

theorem Src.num_lt (s : Src) : s.num < 2 ^ 11 := by
  have h1 := s.sel.isLt
  have h2 := Bool.toNat_le s.last
  unfold Src.num; omega

theorem pack_toNat (p : Bool) (m n : Nat) (hm : m < 128) (hn : n < 2 ^ 56) :
    (pack p m n).toNat = p.toNat * 2 ^ 63 + m * 2 ^ 56 + n := by
  have h := Bool.toNat_le p
  simp only [pack, BitVec.toNat_ofNat]
  omega

theorem bitAt_eq (w : DWord) (lo : Nat) (b : Bool) (h : w.toNat / 2 ^ lo % 2 = b.toNat) : bitAt w lo = b := by
  unfold bitAt; rw [h]; cases b <;> rfl

theorem fieldAt_eq (w : DWord) (lo n : Nat) (x : BitVec n) (h : w.toNat / 2 ^ lo % 2 ^ n = x.toNat) :
    fieldAt w lo n = x :=
  BitVec.eq_of_toNat_eq (by simpa [fieldAt] using h)

theorem srcAt_eq (w : DWord) (lo : Nat) (x : Src) (h : w.toNat / 2 ^ lo % 2 ^ 11 = x.num) : srcAt w lo = x := by
  have h1 := x.sel.isLt
  have h2 := Bool.toNat_le x.last
  unfold Src.num at h
  unfold srcAt
  rw [bitAt_eq w (lo + 10) x.last (by rw [Nat.pow_add, ← Nat.div_div_eq_div_mul]; omega),
    fieldAt_eq w lo 10 x.sel (by omega)]

theorem pipeOf_pack (p : Bool) (m n : Nat) (hm : m < 128) (hn : n < 2 ^ 56) : pipeOf (pack p m n) = p :=
  bitAt_eq _ 63 p (by have h := Bool.toNat_le p; rw [pack_toNat p m n hm hn]; omega)

theorem majorOf_pack (p : Bool) (m n : Nat) (hm : m < 128) (hn : n < 2 ^ 56) : majorOf (pack p m n) = m := by
  have h := Bool.toNat_le p
  unfold majorOf
  rw [pack_toNat p m n hm hn]; omega

theorem FmtR.num_lt (f : FmtR) : f.num < 2 ^ 56 := by
  have h0 := f.fn.isLt
  have h1 := f.d.isLt
  have h2 := f.a.num_lt
  have h3 := f.b.num_lt
  have h4 := f.c.num_lt
  have h5 := f.la.isLt
  have h6 := f.rm.isLt
  have h7 := Bool.toNat_le f.sat
  have h8 := f.mod.isLt
  unfold FmtR.num; omega

/-- A packed format R word has the fields it was packed from. -/
theorem fmtR_pack (p : Bool) (m : Nat) (hm : m < 128) (f : FmtR) : fmtR (pack p m f.num) = f := by
  have hw := pack_toNat p m f.num hm f.num_lt
  have h0 := f.fn.isLt
  have h1 := f.d.isLt
  have h2 := f.a.num_lt
  have h3 := f.b.num_lt
  have h4 := f.c.num_lt
  have h5 := f.la.isLt
  have h6 := f.rm.isLt
  have h7 := Bool.toNat_le f.sat
  have h8 := f.mod.isLt
  simp only [FmtR.num] at hw ⊢
  unfold fmtR
  rw [fieldAt_eq _ 52 4 f.fn (by rw [hw]; omega), fieldAt_eq _ 43 9 f.d (by rw [hw]; omega),
    srcAt_eq _ 32 f.a (by rw [hw]; omega), srcAt_eq _ 21 f.b (by rw [hw]; omega),
    srcAt_eq _ 10 f.c (by rw [hw]; omega), fieldAt_eq _ 6 4 f.la (by rw [hw]; omega),
    fieldAt_eq _ 4 2 f.rm (by rw [hw]; omega), bitAt_eq _ 3 f.sat (by rw [hw]; omega),
    fieldAt_eq _ 0 3 f.mod (by rw [hw]; omega)]

theorem FmtI.num_lt (f : FmtI) : f.num < 2 ^ 56 := by
  have h0 := f.fn.isLt
  have h1 := f.d.isLt
  have h2 := f.a.num_lt
  have h3 := f.imm.isLt
  unfold FmtI.num; omega

/-- A packed format I word has the fields it was packed from. -/
theorem fmtI_pack (p : Bool) (m : Nat) (hm : m < 128) (f : FmtI) : fmtI (pack p m f.num) = f := by
  have hw := pack_toNat p m f.num hm f.num_lt
  have h0 := f.fn.isLt
  have h1 := f.d.isLt
  have h2 := f.a.num_lt
  have h3 := f.imm.isLt
  simp only [FmtI.num] at hw ⊢
  unfold fmtI
  rw [fieldAt_eq _ 52 4 f.fn (by rw [hw]; omega), fieldAt_eq _ 43 9 f.d (by rw [hw]; omega),
    srcAt_eq _ 32 f.a (by rw [hw]; omega), fieldAt_eq _ 0 32 f.imm (by rw [hw]; omega)]

theorem FmtM.num_lt (f : FmtM) : f.num < 2 ^ 56 := by
  have h0 := f.fn.isLt
  have h1 := f.d.isLt
  have h2 := f.a.num_lt
  have h3 := f.b.num_lt
  have h4 := f.c.num_lt
  have h5 := f.la.isLt
  have h6 := f.cp.isLt
  have h7 := f.sc.isLt
  have h8 := Bool.toNat_le f.iw
  have h9 := Bool.toNat_le f.isg
  unfold FmtM.num; omega

/-- A packed format M word has the fields it was packed from. -/
theorem fmtM_pack (p : Bool) (m : Nat) (hm : m < 128) (f : FmtM) : fmtM (pack p m f.num) = f := by
  have hw := pack_toNat p m f.num hm f.num_lt
  have h0 := f.fn.isLt
  have h1 := f.d.isLt
  have h2 := f.a.num_lt
  have h3 := f.b.num_lt
  have h4 := f.c.num_lt
  have h5 := f.la.isLt
  have h6 := f.cp.isLt
  have h7 := f.sc.isLt
  have h8 := Bool.toNat_le f.iw
  have h9 := Bool.toNat_le f.isg
  simp only [FmtM.num] at hw ⊢
  unfold fmtM
  rw [fieldAt_eq _ 52 4 f.fn (by rw [hw]; omega), fieldAt_eq _ 43 9 f.d (by rw [hw]; omega),
    srcAt_eq _ 32 f.a (by rw [hw]; omega), srcAt_eq _ 21 f.b (by rw [hw]; omega),
    srcAt_eq _ 10 f.c (by rw [hw]; omega), fieldAt_eq _ 6 4 f.la (by rw [hw]; omega),
    fieldAt_eq _ 4 2 f.cp (by rw [hw]; omega), fieldAt_eq _ 2 2 f.sc (by rw [hw]; omega),
    bitAt_eq _ 1 f.iw (by rw [hw]; omega), bitAt_eq _ 0 f.isg (by rw [hw]; omega)]

theorem FmtMA.num_lt (f : FmtMA) : f.num < 2 ^ 56 := by
  have h0 := f.fn.isLt
  have h1 := f.d.isLt
  have h2 := f.a.num_lt
  have h3 := f.b.num_lt
  have h4 := f.c.num_lt
  have h5 := f.la.isLt
  have h6 := f.scope.isLt
  have h7 := f.ord.isLt
  have h8 := Bool.toNat_le f.w
  unfold FmtMA.num; omega

/-- A packed format MA word has the fields it was packed from. -/
theorem fmtMA_pack (p : Bool) (m : Nat) (hm : m < 128) (f : FmtMA) : fmtMA (pack p m f.num) = f := by
  have hw := pack_toNat p m f.num hm f.num_lt
  have h0 := f.fn.isLt
  have h1 := f.d.isLt
  have h2 := f.a.num_lt
  have h3 := f.b.num_lt
  have h4 := f.c.num_lt
  have h5 := f.la.isLt
  have h6 := f.scope.isLt
  have h7 := f.ord.isLt
  have h8 := Bool.toNat_le f.w
  simp only [FmtMA.num] at hw ⊢
  unfold fmtMA
  rw [fieldAt_eq _ 52 4 f.fn (by rw [hw]; omega), fieldAt_eq _ 43 9 f.d (by rw [hw]; omega),
    srcAt_eq _ 32 f.a (by rw [hw]; omega), srcAt_eq _ 21 f.b (by rw [hw]; omega),
    srcAt_eq _ 10 f.c (by rw [hw]; omega), fieldAt_eq _ 6 4 f.la (by rw [hw]; omega),
    fieldAt_eq _ 3 3 f.scope (by rw [hw]; omega), fieldAt_eq _ 1 2 f.ord (by rw [hw]; omega),
    bitAt_eq _ 0 f.w (by rw [hw]; omega)]

theorem FmtB.num_lt (f : FmtB) : f.num < 2 ^ 56 := by
  have h0 := f.fn.isLt
  have h1 := f.d.isLt
  have h2 := f.a.num_lt
  have h3 := f.off.isLt
  unfold FmtB.num; omega

/-- A packed format B word has the fields it was packed from. -/
theorem fmtB_pack (p : Bool) (m : Nat) (hm : m < 128) (f : FmtB) : fmtB (pack p m f.num) = f := by
  have hw := pack_toNat p m f.num hm f.num_lt
  have h0 := f.fn.isLt
  have h1 := f.d.isLt
  have h2 := f.a.num_lt
  have h3 := f.off.isLt
  simp only [FmtB.num] at hw ⊢
  unfold fmtB
  rw [fieldAt_eq _ 52 4 f.fn (by rw [hw]; omega), fieldAt_eq _ 43 9 f.d (by rw [hw]; omega),
    srcAt_eq _ 32 f.a (by rw [hw]; omega), fieldAt_eq _ 0 32 f.off (by rw [hw]; omega)]

theorem FmtE.num_lt (f : FmtE) : f.num < 2 ^ 56 := by
  have h0 := f.fn.isLt
  have h1 := f.d.isLt
  have h2 := f.a.num_lt
  have h3 := f.b.num_lt
  have h4 := f.c.num_lt
  have h5 := f.la.isLt
  have h6 := Bool.toNat_le f.tv
  have h7 := f.tok.isLt
  have h8 := f.mod.isLt
  unfold FmtE.num; omega

/-- A packed format E word has the fields it was packed from. -/
theorem fmtE_pack (p : Bool) (m : Nat) (hm : m < 128) (f : FmtE) : fmtE (pack p m f.num) = f := by
  have hw := pack_toNat p m f.num hm f.num_lt
  have h0 := f.fn.isLt
  have h1 := f.d.isLt
  have h2 := f.a.num_lt
  have h3 := f.b.num_lt
  have h4 := f.c.num_lt
  have h5 := f.la.isLt
  have h6 := Bool.toNat_le f.tv
  have h7 := f.tok.isLt
  have h8 := f.mod.isLt
  simp only [FmtE.num] at hw ⊢
  unfold fmtE
  rw [fieldAt_eq _ 52 4 f.fn (by rw [hw]; omega), fieldAt_eq _ 43 9 f.d (by rw [hw]; omega),
    srcAt_eq _ 32 f.a (by rw [hw]; omega), srcAt_eq _ 21 f.b (by rw [hw]; omega),
    srcAt_eq _ 10 f.c (by rw [hw]; omega), fieldAt_eq _ 6 4 f.la (by rw [hw]; omega),
    bitAt_eq _ 5 f.tv (by rw [hw]; omega), fieldAt_eq _ 2 3 f.tok (by rw [hw]; omega),
    fieldAt_eq _ 0 2 f.mod (by rw [hw]; omega)]

/-- A well-formed instruction earns no detail code. -/
theorem Instr.WellFormed.codes {i : Instr} (h : i.WellFormed) : shapeCodes (shape i) maxSregs = [] := by
  have none_nil : ∀ l, leastCode l = none → l = [] := by
    intro l hl
    cases l with
    | nil => rfl
    | cons c l => simp only [leastCode] at hl; split at hl <;> simp at hl
  apply none_nil
  unfold Instr.WellFormed illegalCode at h
  split at h
  · simp at h
  · exact h

/-- A well-formed instruction has an accepted FN and accepted control fields. -/
theorem Instr.WellFormed.ok {i : Instr} (h : i.WellFormed) : (shape i).fnOk = true ∧ (shape i).ctlOk = true := by
  have hc := h.codes
  unfold shapeCodes at hc
  simp only [List.append_eq_nil_iff] at hc
  constructor
  · have := hc.1.1.1.1.1.1.1; revert this; cases (shape i).fnOk <;> simp
  · have := hc.1.1.1.1.1.1.2; revert this; cases (shape i).ctlOk <;> simp

end Sys2Proof
end

