-- ==== Sys2Proof/Laws/Issue.lean ====
section
/-! SUPPORT. What one issue does on a strip that is ready (`Ready`): the checks pass straight to the instruction's own
effect, so every claim about an instruction starts from `issue_ready` and never unfolds the issue again. -/
namespace Sys2Proof.Machine

theorem canIssue_waits {s : State} {p : Strip} (h : canIssue s p = true) : p.waits.isEmpty = true := by
  simp only [canIssue, Bool.and_eq_true] at h
  exact h.1.1.1

theorem Issues.waits {s : State} {p : Strip} {pc : VA} {x : Strands} (h : Issues s p pc x) : p.waits.isEmpty = true :=
  canIssue_waits h.free

theorem reissue_quiet {s : State} {p : Strip} (hs : tableGet s.strips s.cur = some p) (hw : p.waits.isEmpty = true)
    (hf : p.flights = []) : reissue s s.cur = (true, s) := by
  simp [reissue, forceList, hs, hf, hw]

theorem settle_quiet {s : State} {p : Strip} (pick : Strip → Flight → Bool) (hs : tableGet s.strips s.cur = some p)
    (hw : p.waits.isEmpty = true) (hf : p.flights = []) : settle s s.cur pick = (true, s) := by
  simp [settle, hs, hf, hw]

theorem modStrip_self {s : State} {p : Strip} {id : Nat} {g : Strip → Strip} (hs : tableGet s.strips id = some p)
    (hg : g p = p) : modStrip s id g = s := by
  simp [modStrip, tableMod_some _ _ _ _ hs, hg, tablePut_self _ _ _ hs]

theorem arriveAll_quiet {s : State} {p : Strip} (hs : tableGet s.strips s.cur = some p) (hw : p.waits.isEmpty = true)
    (hf : p.flights = []) : arriveAll s s.cur = (true, s) := by
  simp [arriveAll, hs, hf, hw]

theorem closeWindows_quiet {s : State} {p : Strip} (hs : tableGet s.strips s.cur = some p) (hf : p.flights = []) :
    closeWindows s s.cur = (true, s) := by
  unfold closeWindows
  rw [modStrip_self hs (by cases p; simp_all)]
  simp [hs, hf]

theorem Issues.choose {s : State} {p : Strip} {pc : VA} {x : Strands} (h : Issues s p pc x) :
    chooseIssue s = .ok (s.cur, pc, x, s) := by
  have ha : p.asyncDue = false := by
    rcases h.noAsync with e | e <;> simp [Strip.asyncDue, e]
  unfold chooseIssue
  simp only [h.strip, h.free, ha, h.chosen, reissue_quiet h.strip h.waits h.noResult]
  simp [settleTouching, settle_quiet _ h.strip h.waits h.noResult]

/-- Nothing is noted where no refill has met poison since. -/
theorem noteRefills_kept {s t : State} {id : Nat} {p q : Strip} (hs : tableGet s.strips id = some p)
    (ht : tableGet t.strips id = some q) (hn : q.noted = p.noted) : noteRefills s t id = t := by
  simp [noteRefills, hs, ht, hn]

/-- Refilling registers that are not spilled does nothing. -/
theorem refillRegs_mapped {s : State} {id : Nat} {p : Strip} (hs : tableGet s.strips id = some p) (instr step : List Nat)
    (l : List Nat) (h : ∀ r ∈ l, ∀ e, tableGet p.v r = some e → e.spilled = false) :
    refillRegs s id instr step l = (true, s) := by
  induction l with
  | nil => rfl
  | cons r l ih =>
    have hr : refillReg s id r instr step = (true, s) := by
      unfold refillReg
      rw [hs]; dsimp only
      split
      · rfl
      · rename_i e he; simp [h r (by simp) e he]
    simp only [refillRegs, hr]
    exact ih fun r hr => h r (by simp [hr])

/-- The captured registers are registers of the strip. -/
def Captures (p : Strip) (cap : Table VReg) : Prop := ∀ c ∈ cap, tableGet p.v c.1 = some c.2

theorem captures_put {p : Strip} {cap : Table VReg} (h : Captures p cap) {r : Nat} {e : VReg}
    (he : tableGet p.v r = some e) : Captures p (tablePut cap r e) := by
  induction cap with
  | nil => intro c hc; simp [tablePut] at hc; simpa [hc] using he
  | cons d cap ih =>
    obtain ⟨k, v⟩ := d
    have h1 : tableGet p.v k = some v := h (k, v) (by simp)
    have h2 : Captures p cap := fun c hc => h c (by simp [hc])
    simp only [tablePut]
    split
    · intro c hc; simp at hc; rcases hc with rfl | rfl | hc
      · exact he
      · exact h1
      · exact h2 c hc
    · split
      · intro c hc; simp at hc; rcases hc with rfl | hc
        · exact he
        · exact h2 c hc
      · intro c hc; simp at hc; rcases hc with rfl | hc
        · exact h1
        · exact ih h2 c hc

theorem captured_self {p : Strip} {cap : Table VReg} (h : Captures p cap) : p.captured cap = p := by
  have : ∀ cap, Captures p cap → cap.foldl (fun v c => tablePut v c.1 c.2) p.v = p.v := by
    intro cap
    induction cap with
    | nil => intro _; rfl
    | cons c cap ih =>
      intro h
      rw [List.foldl_cons, tablePut_self _ _ _ (h c (by simp))]
      exact ih fun d hd => h d (by simp [hd])
  simp [Strip.captured, this cap h]

theorem readSteps_mapped {s : State} {id : Nat} {p : Strip} (hs : tableGet s.strips id = some p) (instr : List Nat)
    (steps : List (List Nat)) (cap : Table VReg) (hc : Captures p cap)
    (h : ∀ l ∈ steps, ∀ r ∈ l, ∀ e, tableGet p.v r = some e → e.spilled = false) :
    ∃ cap', readSteps s id instr steps cap = (true, cap', s) ∧ Captures p cap' := by
  induction steps generalizing cap with
  | nil => exact ⟨cap, rfl, hc⟩
  | cons l steps ih =>
    have hcap : Captures p (l.foldl (fun c r => match tableGet p.v r with
        | some v => tablePut c r v
        | none => c) cap) := by
      clear ih h
      induction l generalizing cap with
      | nil => exact hc
      | cons r l ih2 =>
        rw [List.foldl_cons]
        apply ih2
        split
        · rename_i e he; exact captures_put hc he
        · exact hc
    obtain ⟨cap', e1, e2⟩ := ih _ hcap fun l' hl => h l' (by simp [hl])
    refine ⟨cap', ?_, e2⟩
    rw [readSteps, refillRegs_mapped hs instr l l (h l (by simp))]
    simp only [hs]
    exact e1

theorem mem_stepsOf (n : Nat) (l t : List Nat) (ht : t ∈ stepsOf n l) : ∀ r ∈ t, r ∈ l := by
  induction n generalizing l with
  | zero => simp [stepsOf] at ht
  | succ n ih =>
    simp only [stepsOf] at ht
    split at ht
    · simp at ht
    · simp at ht
      rcases ht with rfl | ht
      · exact fun r hr => List.mem_of_mem_take hr
      · exact fun r hr => List.mem_of_mem_drop (ih _ ht r hr)

theorem prepare_ready {i : Instr} {s : State} {p : Strip} {pc : VA} {x : Strands} (h : Ready i s p pc x) :
    prepare i s = .go s (ctxOf i s p pc x) := by
  obtain ⟨cap, hr, hc⟩ := readSteps_mapped h.strip (instrRegs (shape i)) (stepsOf 4 (readsV (shape i))) []
    (by intro c hc; simp at hc) (fun l hl r hr => h.mapped r (mem_stepsOf 4 _ l hl r hr))
  have hst := h.stale
  unfold noStale at hst
  have hw : (if closesWindows i then arriveAll s s.cur else (true, s)) = (true, s) := by
    split
    · exact arriveAll_quiet h.strip h.waits h.noResult
    · rfl
  have hv : (if closesWindows i then closeWindows s s.cur else (true, s)) = (true, s) := by
    split
    · exact closeWindows_quiet h.strip h.noResult
    · rfl
  unfold prepare
  simp only [h.toIssues.choose, h.strip, h.legal, hw, hv, hr, noteRefills_kept h.strip h.strip rfl, captured_self hc]
  rw [if_neg (by
    simp only [Bool.or_eq_true, beq_iff_eq, Bool.not_eq_true'] at hst
    rcases hst with e | e <;> simp [e])]
  rfl

/-- One issue on a ready strip: a check's trap, a wait, or the effect. -/
theorem issue_ready {i : Instr} {s : State} {p : Strip} {pc : VA} {x : Strands} (h : Ready i s p pc x)
    (check : State → Ctx → Option TrapEntry) (hold : State → Ctx → Bool × State) (act : State → Ctx → Bool × State) :
    issue i check hold act s = (match check s (ctxOf i s p pc x) with
      | some t => issueTrap s s.cur x t
      | none => match hold s (ctxOf i s p pc x) with
        | (false, s') => s'.pass
        | (true, s') => match act (commence s' (ctxOf i s p pc x)) (ctxOf i s p pc x) with
          | (true, s'') => commitReady (match tableGet s'.strips s.cur with
            | some q => notePoisons (noteRefills s' s'' s.cur) s.cur q (poisonReads p (shape i) x)
            | none => noteRefills s' s'' s.cur) s.cur
          | (false, s'') => keepWaits s' s'' s.cur) := by
  simp only [issue, prepare_ready h]
  rfl

/-- The same where no register read is poisoned. -/
theorem issue_clean {i : Instr} {s : State} {p : Strip} {pc : VA} {x : Strands} (h : Clean i s p pc x)
    (check : State → Ctx → Option TrapEntry) (hold : State → Ctx → Bool × State) (act : State → Ctx → Bool × State) :
    issue i check hold act s = (match check s (ctxOf i s p pc x) with
      | some t => issueTrap s s.cur x t
      | none => match hold s (ctxOf i s p pc x) with
        | (false, s') => s'.pass
        | (true, s') => match act (commence s' (ctxOf i s p pc x)) (ctxOf i s p pc x) with
          | (true, s'') => commitReady (noteRefills s' s'' s.cur) s.cur
          | (false, s'') => keepWaits s' s'' s.cur) := by
  rw [issue_ready h.toReady, h.clean]
  have quiet : ∀ s' s'' : State, (match tableGet s'.strips s.cur with
      | some q => notePoisons s'' s.cur q []
      | none => s'') = s'' := fun s' s'' => by split <;> rfl
  simp only [quiet]

/-- What an issue does to its strip before its own effect. -/
theorem commence_clean {i : Instr} {s : State} {p : Strip} {pc : VA} {x : Strands} (h : Clean i s p pc x) :
    commence s (ctxOf i s p pc x) = putStrip s s.cur (p.issued (shape i) x) := by
  simp only [commence, ctxOf, h.strip]
  unfold modStrip putStrip Strip.issued
  rw [tableMod_some _ _ _ _ h.strip]
  rfl

theorem commitReady_quiet {s : State} {id : Nat} {p : Strip} (hs : tableGet s.strips id = some p) (hf : p.flights = []) :
    commitReady s id = s := by
  simp [commitReady, hs, hf]

@[simp] theorem putStrip_get (s : State) (id : Nat) (p : Strip) : tableGet (putStrip s id p).strips id = some p := by
  simp [putStrip]

@[simp] theorem modStrip_putStrip (s : State) (id : Nat) (p : Strip) (g : Strip → Strip) :
    modStrip (putStrip s id p) id g = putStrip s id (g p) := by
  simp [modStrip, putStrip]

@[simp] theorem putStrip_putStrip (s : State) (id : Nat) (p q : Strip) :
    putStrip (putStrip s id p) id q = putStrip s id q := by
  simp [putStrip]

/-! ## The strip after the issue's own bookkeeping -/

@[simp] theorem killV_flights (p : Strip) (r : Nat) (x : Strands) : (p.killV r x).flights = p.flights := by
  unfold Strip.killV
  split
  · rfl
  · dsimp only; split <;> rfl

theorem releaseField_flights (p : Strip) (x : Strands) (src : Src) (k : OpKind) :
    (releaseField p x src k).flights = p.flights := by
  unfold releaseField
  split
  · generalize vRange src k = l
    induction l generalizing p with
    | nil => rfl
    | cons r l ih => rw [List.foldl_cons, ih, killV_flights]
  · rfl

theorem releaseField_noted (p : Strip) (x : Strands) (src : Src) (k : OpKind) :
    (releaseField p x src k).noted = p.noted := by
  have hk : ∀ (p : Strip) r, (p.killV r x).noted = p.noted := by
    intro p r; unfold Strip.killV; split
    · rfl
    · dsimp only; split <;> rfl
  unfold releaseField
  split
  · generalize vRange src k = l
    induction l generalizing p with
    | nil => rfl
    | cons r l ih => rw [List.foldl_cons, ih, hk]
  · rfl

/-- The bookkeeping of an issue notes nothing. -/
@[simp] theorem issued_noted (p : Strip) (sh : Shape) (x : Strands) : (p.issued sh x).noted = p.noted := by
  unfold Strip.issued releaseAll
  rw [releaseField_noted, releaseField_noted, releaseField_noted]
  rfl

/-- No result is outstanding after the bookkeeping of an issue when none was before. -/
theorem issued_flights {p : Strip} (h : p.flights = []) (sh : Shape) (x : Strands) : (p.issued sh x).flights = [] := by
  unfold Strip.issued releaseAll
  rw [releaseField_flights, releaseField_flights, releaseField_flights]
  simp [Strip.countIssueOf, Strip.countWindows, Strip.setStatus, h]

theorem discardV_quiet {p : Strip} (h : p.flights = []) (r : Nat) (x : Strands) : p.discardV r x = p := by
  cases p; simp_all [Strip.discardV]

theorem discardVs_quiet {p : Strip} (h : p.flights = []) (first n : Nat) (x : Strands) :
    (List.range n).foldl (fun (p : Strip) k => p.discardV (first + k) x) p = p := by
  induction n with
  | zero => rfl
  | succ n ih => rw [List.range_succ, List.foldl_append, ih]; exact discardV_quiet h _ _

theorem mapped_tablePut (m : Table VReg) (a : Nat) (x : VReg) :
    ((tablePut m a x).filter fun r => !r.2.spilled).length ≤ (m.filter fun r => !r.2.spilled).length + 1 := by
  induction m with
  | nil => simp only [tablePut, List.filter_cons]; split <;> simp
  | cons c m ih =>
    obtain ⟨k, v⟩ := c
    simp only [tablePut]
    split
    · simp only [List.filter_cons]; split <;> split <;> simp <;> omega
    · split
      · simp only [List.filter_cons]; split <;> split <;> simp <;> omega
      · simp only [List.filter_cons]; split <;> simp_all

theorem rows_putV (p : Strip) (r : Nat) (x : Strands) (vals : List Word) : (p.putV r x vals).rows ≤ p.rows + 1 := by
  have := mapped_tablePut p.v r ⟨false, ((tableGet p.v r).getD ⟨false, 0, 0, List.replicate 16 0⟩).valid ||| x,
    ((tableGet p.v r).getD ⟨false, 0, 0, List.replicate 16 0⟩).poison &&& ~~~x,
    if ((tableGet p.v r).getD ⟨false, 0, 0, List.replicate 16 0⟩).spilled then
      mergeVals (List.replicate 16 0) vals x
    else mergeVals ((tableGet p.v r).getD ⟨false, 0, 0, List.replicate 16 0⟩).vals vals x⟩
  unfold Strip.rows Strip.putV Strip.staging
  simp only at this ⊢
  omega

/-- Writing registers whose rows are there: every destination takes its words. -/
theorem writeRegs_room {s : State} {id : Nat} {p : Strip} (hs : tableGet s.strips id = some p) (first : Nat)
    (x : Strands) (hx : x ≠ 0) (vals : List (List Word)) (instr : List Nat) (n k : Nat)
    (hr : p.rows + n ≤ p.floor) (hm : ∀ j < n, ∀ e, tableGet p.v (first + k + j) = some e → e.spilled = false) :
    writeRegs s id first x vals instr n k = (true, putStrip s id ((List.range n).foldl
      (fun p j => p.putV (first + k + j) x (vals.map fun l => l.getD (k + j) 0)) p)) := by
  induction n generalizing s p k with
  | zero => simp [writeRegs, putStrip, tablePut_self _ _ _ hs]
  | succ n ih =>
    have hw : ∀ step, writeReg s id (first + k) x (vals.map fun l => l.getD k 0) instr step
        = (true, putStrip s id (p.putV (first + k) x (vals.map fun l => l.getD k 0))) := by
      intro step
      unfold writeReg
      simp only [hs, hx, if_false]
      have ho : rowFor s id p (first + k) x instr step = (true, s) := by
        unfold rowFor
        split
        · unfold obtainRow
          rw [hs]; dsimp only
          rw [if_pos (by simp [rowFree]; left; omega)]
        · rename_i e he; simp [hm 0 (by omega) e he]
      rw [ho]
      simp [modStrip, tableMod_some _ _ _ _ hs, putStrip]
    rw [writeRegs]
    simp only [hw]
    rw [ih (s := putStrip s id (p.putV (first + k) x (vals.map fun l => l.getD k 0)))
        (p := p.putV (first + k) x (vals.map fun l => l.getD k 0)) (putStrip_get _ _ _) (k + 1)
        (by have := rows_putV p (first + k) x (vals.map fun l => l.getD k 0)
            have hf : (p.putV (first + k) x (vals.map fun l => l.getD k 0)).floor = p.floor := rfl
            omega)
        (by
          intro j hj e he
          have hv : tableGet p.v (first + (k + 1) + j) = some e := by
            have := tableGet_tablePut_ne p.v (first + k) (first + (k + 1) + j)
            unfold Strip.putV at he
            simp only at he
            rwa [this _ (by omega)] at he
          exact hm (j + 1) (by omega) e (by rwa [show first + k + (j + 1) = first + (k + 1) + j by omega]))]
    rw [putStrip_putStrip, List.range_succ_eq_map, List.foldl_cons, List.foldl_map]
    simp only [Nat.add_zero, Nat.succ_eq_add_one]
    congr 3
    funext q j
    rw [show first + (k + 1) + j = first + k + (j + 1) by omega, show k + 1 + j = k + (j + 1) by omega]

/-! ## The shapes of issue -/

@[simp] theorem advance_flights (p : Strip) (x : Strands) : (p.advance x).flights = p.flights := rfl
@[simp] theorem raise_flights (p : Strip) (fl : Flags) : (p.raise fl).flights = p.flights := rfl
@[simp] theorem putV_flights (p : Strip) (r : Nat) (x : Strands) (w : List Word) : (p.putV r x w).flights = p.flights :=
  rfl

@[simp] theorem putVs_flights (p : Strip) (first n : Nat) (x : Strands) (vals : List (List Word)) :
    (p.putVs first n x vals).flights = p.flights := by
  unfold Strip.putVs
  induction n with
  | zero => rfl
  | succ n ih => rw [List.range_succ, List.foldl_append]; exact ih

@[simp] theorem advance_noted (p : Strip) (x : Strands) : (p.advance x).noted = p.noted := rfl
@[simp] theorem raise_noted (p : Strip) (fl : Flags) : (p.raise fl).noted = p.noted := rfl

@[simp] theorem putVs_noted (p : Strip) (first n : Nat) (x : Strands) (vals : List (List Word)) :
    (p.putVs first n x vals).noted = p.noted := by
  unfold Strip.putVs
  induction n with
  | zero => rfl
  | succ n ih => rw [List.range_succ, List.foldl_append]; exact ih

/-- An instruction without checks or waits on a clean strip: its effect, after the issue's bookkeeping. -/
theorem issueSimple_clean {i : Instr} {s : State} {p : Strip} {pc : VA} {x : Strands} (h : Clean i s p pc x)
    {act : State → Ctx → Bool × State} {t : State} {q : Strip}
    (ha : act (putStrip s s.cur (p.issued (shape i) x)) (ctxOf i s p pc x) = (true, t))
    (ht : tableGet t.strips s.cur = some q) (hq : q.flights = []) (hn : q.noted = p.noted) : issueSimple i act s = t := by
  unfold issueSimple
  rw [issue_clean h]
  simp only [noCheck, noHold, commence_clean h, ha, noteRefills_kept h.strip ht hn]
  exact commitReady_quiet ht hq

/-- The destination's rows are there, for a lane destination. -/
def DestRoom (p : Strip) (sh : Shape) : Prop :=
  match destOf sh with
  | .v first n => RoomFor p first n
  | _ => True

theorem laneResult_room {s : State} {q : Strip} (sh : Shape) (c : Ctx) (hc : c.sh = sh) (hs : tableGet s.strips c.id = some q)
    (hx : c.x ≠ 0) (hf : q.flights = []) (hr : DestRoom q sh) (vals : List (List Word)) (fl : Flags) :
    laneResult s c vals fl = (true, putStrip s c.id (match destOf sh with
      | .v first n => ((q.raise fl).putVs first n c.x vals).advance c.x
      | _ => (q.raise fl).advance c.x)) := by
  subst hc
  have hm : modStrip s c.id (fun p => p.raise fl) = putStrip s c.id (q.raise fl) := by
    simp [modStrip, tableMod_some _ _ _ _ hs, putStrip]
  unfold laneResult writeLane advanceX
  rw [hm]
  unfold DestRoom at hr
  generalize hd : destOf c.sh = d at hr
  cases d with
  | v first n =>
    simp only at hr ⊢
    rw [modStrip_putStrip, discardVs_quiet (show (q.raise fl).flights = [] from hf),
      writeRegs_room (putStrip_get s c.id (q.raise fl)) first c.x hx vals (instrRegs c.sh) n 0 hr.1
        (fun j hj e he => hr.2 j hj e he)]
    simp only [putStrip_putStrip, modStrip_putStrip, Nat.add_zero, Nat.zero_add]
    rfl
  | none => simp
  | march d q => simp
  | s first n => simp

/-- A lane instruction on a clean strip with room: its results in the destination, its flags raised, its set one word on,
and nothing else. -/
theorem laneOp_clean {i : Instr} {s : State} {p : Strip} {pc : VA} {x : Strands} (h : Clean i s p pc x)
    (hr : DestRoom (p.issued (shape i) x) (shape i)) (g : Strands → Operands → Results) :
    laneOp i g s = .next (afterLane s p x (shape i) (g x (operandsOf s p x (shape i)))) := by
  unfold laneOp
  congr 1
  have hl := laneResult_room (s := putStrip s s.cur (p.issued (shape i) x)) (shape i) (ctxOf i s p pc x) rfl
    (putStrip_get _ _ _) h.nonempty (issued_flights h.noResult _ _) hr (g x (operandsOf s p x (shape i))).1
    (g x (operandsOf s p x (shape i))).2
  have hl' := hl
  rw [show (ctxOf i s p pc x).id = s.cur from rfl, putStrip_putStrip] at hl'
  rw [issueSimple_clean h hl' (putStrip_get _ _ _) (by split <;> simp [issued_flights h.noResult])
    (by split <;> simp)]
  rfl

theorem putS_flights (p : Strip) (r : Nat) (w : Word) : (p.putS r w).flights = p.flights := rfl

theorem discardS_quiet {p : Strip} (h : p.flights = []) (r : Nat) (x : Strands) : (p.discardS r x).flights = [] := by
  simp [Strip.discardS, h]

theorem writeS_flights {p : Strip} (h : p.flights = []) (x : Strands) (first : Nat) (ws : List Word) :
    (p.writeS x first ws).flights = [] := by
  unfold Strip.writeS Strip.rejoin
  generalize List.range ws.length = l
  dsimp only
  induction l generalizing p with
  | nil => exact h
  | cons k l ih => rw [List.foldl_cons]; exact ih (discardS_quiet h _ _)

theorem writeS_noted (p : Strip) (x : Strands) (first : Nat) (ws : List Word) : (p.writeS x first ws).noted = p.noted := by
  unfold Strip.writeS Strip.rejoin
  generalize List.range ws.length = l
  dsimp only
  induction l generalizing p with
  | nil => rfl
  | cons k l ih => rw [List.foldl_cons]; exact ih _

/-- A scalar instruction on a clean strip. -/
theorem uniformOp_clean {i : Instr} {s : State} {p : Strip} {pc : VA} {x : Strands} (h : Clean i s p pc x)
    (g : Operands → Result) :
    uniformOp i g s = .next (afterUniform s p x (shape i) (g (operandsOf s p x (shape i)))) := by
  unfold uniformOp
  congr 1
  apply issueSimple_clean (q := (((p.issued (shape i) x).raise (g (operandsOf s p x (shape i))).2).writeS
    x (shape i).d.toNat (g (operandsOf s p x (shape i))).1).advance x) h
  · simp only [modStrip_putStrip, ctxOf, afterUniform]
  · simp [afterUniform]
  · simp [writeS_flights, issued_flights h.noResult]
  · simp [writeS_noted]

/-- With no result outstanding there is room for one more (R138). -/
theorem makeRoom_quiet {s : State} {id : Nat} {p : Strip} (hs : tableGet s.strips id = some p) (hf : p.flights = []) :
    makeRoom s id = (true, s) := by
  simp [makeRoom, hs, hf]

theorem discardDest_quiet {p : Strip} (hf : p.flights = []) (d : Dest) (x : Strands) : p.discardDest d x = p := by
  have hv : ∀ l : List Nat, l.foldl (fun (p : Strip) r => p.discardV r x) p = p := by
    intro l
    induction l with
    | nil => rfl
    | cons r l ih => rw [List.foldl_cons, discardV_quiet hf]; exact ih
  have hd : ∀ r, p.discardS r x = p := by intro r; cases p; simp_all [Strip.discardS]
  unfold Strip.discardDest
  split
  · generalize List.range _ = l
    induction l with
    | nil => rfl
    | cons r l ih => rw [List.foldl_cons, hd]; exact ih
  · exact hv _

theorem addFlight_quiet {p : Strip} (hf : p.flights = []) (f : Flight) :
    p.addFlight f = { p with flights := [{ f with handler := p.inTrap }] } := by
  simp [Strip.addFlight, discardDest_quiet hf, hf]

@[simp] theorem modStrip_bump (s : State) (id : Nat) (g : Strip → Strip) :
    modStrip s.bumpId id g = (modStrip s id g).bumpId := rfl

/-- A result that has not arrived takes no place at the end of the issue. -/
theorem commitReady_unarrived {s : State} {id : Nat} {p : Strip} {f : Flight} (hs : tableGet s.strips id = some p)
    (hf : p.flights = [f]) (ha : f.arrived = false) : commitReady s id = s := by
  simp [commitReady, hs, hf, ha]

/-- An instruction that starts a long-latency access or computation on a clean strip. -/
theorem issueLong_clean {i : Instr} {s : State} {p : Strip} {pc : VA} {x : Strands} (h : Clean i s p pc x)
    {check : State → Ctx → Option TrapEntry} (hk : check s (ctxOf i s p pc x) = none) (dest : Dest) (undone : Strands)
    (got : List (List Word)) (fl : Flags) {act : State → Ctx → Bool × State}
    (ha : ∀ s', act s' (ctxOf i s p pc x) = launchFlight s' (ctxOf i s p pc x) dest undone got fl) :
    issue i check holdRoom act s =
      afterLong s p x (shape i) (newFlight s (ctxOf i s p pc x) dest undone got fl true) := by
  rw [issue_clean h]
  have hm : holdRoom s (ctxOf i s p pc x) = (true, s) := makeRoom_quiet h.strip h.noResult
  have ha' : act (putStrip s s.cur (p.issued (shape i) x)) (ctxOf i s p pc x)
      = (true, afterLong s p x (shape i) (newFlight s (ctxOf i s p pc x) dest undone got fl true)) := by
    rw [ha]
    unfold launchFlight advanceX pushFlight
    rw [show (ctxOf i s p pc x).id = s.cur from rfl, modStrip_putStrip, modStrip_bump, modStrip_putStrip]
    rfl
  have hg : tableGet (afterLong s p x (shape i) (newFlight s (ctxOf i s p pc x) dest undone got fl true)).strips s.cur
      = some (((p.issued (shape i) x).addFlight (newFlight s (ctxOf i s p pc x) dest undone got fl true)).advance x) :=
    putStrip_get _ _ _
  simp only [hk, hm, commence_clean h, ha']
  rw [noteRefills_kept h.strip hg (by rw [advance_noted, addFlight_quiet (issued_flights h.noResult _ _)]; simp)]
  exact commitReady_unarrived hg (by rw [advance_flights, addFlight_quiet (issued_flights h.noResult _ _)]) rfl

/-- A long-latency lane computation on a clean strip: its result is outstanding, known, and not yet raised. -/
theorem laneLong_clean {i : Instr} {s : State} {p : Strip} {pc : VA} {x : Strands} (h : Clean i s p pc x)
    (g : Strands → Operands → Results) :
    laneLong i g s = .next (afterLong s p x (shape i) (newFlight s (ctxOf i s p pc x) (destOf (shape i)) 0
      (g x (operandsOf s p x (shape i))).1 (g x (operandsOf s p x (shape i))).2 true)) := by
  unfold laneLong
  rw [issueLong_clean h rfl _ _ _ _ (fun s' => rfl)]
  rfl

/-- A long-latency access of the lane pipe on a clean strip: no strand of it is performed yet. -/
theorem memoryLoad_clean {i : Instr} {s : State} {p : Strip} {pc : VA} {x : Strands} (h : Clean i s p pc x)
    {check : State → Ctx → Option TrapEntry} (hk : check s (ctxOf i s p pc x) = none) :
    memoryLoad i check s = .next (afterLong s p x (shape i)
      (newFlight s (ctxOf i s p pc x) (destOf (shape i)) x noResults 0 true)) := by
  unfold memoryLoad
  rw [issueLong_clean h hk _ _ _ _ (fun s' => rfl)]
  rfl

/-- A long-latency access of the uniform pipe on a clean strip. -/
theorem uniformLoad_clean {i : Instr} {s : State} {p : Strip} {pc : VA} {x : Strands} (h : Clean i s p pc x)
    {check : State → Ctx → Option TrapEntry} (hk : check s (ctxOf i s p pc x) = none) :
    uniformLoad i check s = .next (afterLong s p x (shape i)
      (newFlight s (ctxOf i s p pc x) (destOf (shape i)) 1 [[]] 0 true)) := by
  unfold uniformLoad
  rw [issueLong_clean h hk _ _ _ _ (fun s' => rfl)]
  rfl

/-! ## Traps -/

theorem countIssueOf_flights {p : Strip} (h : p.flights = []) (x) : (p.countIssueOf x).flights = [] := by
  simp [Strip.countIssueOf, Strip.countWindows, h]

/-- A trap outside a handler, on a strip without outstanding results: the handler is entered. -/
theorem issueTrap_quiet {s : State} {p : Strip} {x : Strands} {t : TrapEntry} (hs : tableGet s.strips s.cur = some p)
   (hf : p.flights = []) (hi : p.inTrap = false) (hh : handlerOf s p ≠ 0) :
   issueTrap s s.cur x t = putStrip s s.cur ((p.countIssueOf x).enterHandler (handlerOf s p) t) := by
  unfold issueTrap
  have h1 : modStrip s s.cur (fun p => p.countIssueOf x) = putStrip s s.cur (p.countIssueOf x) := by
    unfold modStrip putStrip; rw [tableMod_some _ _ _ _ hs]
  rw [h1, commitReady_quiet (putStrip_get _ _ _) (countIssueOf_flights hf x)]
  unfold takeTrap
  rw [putStrip_get]
  have h2 : handlerOf (putStrip s s.cur (p.countIssueOf x)) (p.countIssueOf x) = handlerOf s p := rfl
  have h3 : (p.countIssueOf x).inTrap = false := hi
  simp only [h2, hh, h3, false_or]
  simp

/-- An illegal instruction traps before anything else (R70). -/
theorem issue_illegal {i : Instr} {s : State} {p : Strip} {pc : VA} {x : Strands} {c : Nat} (h : Issues s p pc x)
   (hc : issueCode i s p = some c) (hi : p.inTrap = false) (hh : handlerOf s p ≠ 0) (check hold act) :
   issue i check hold act s = putStrip s s.cur
      ((p.countIssueOf x).enterHandler (handlerOf s p) ⟨causeILLEGAL, c, x, x, pc, wordOf i, 0, 0⟩) := by
  unfold issue prepare
  simp only [h.choose, h.strip, hc]
  exact issueTrap_quiet h.strip h.noResult hi hh

/-- A stale read traps before the effect (R143). -/
theorem issue_stale {i : Instr} {s : State} {p : Strip} {pc : VA} {x : Strands} (h : Issues s p pc x)
   (hl : issueCode i s p = none) (hcl : closesWindows i = false)
   (hm : ∀ r ∈ readsV (shape i), ∀ e, tableGet p.v r = some e → e.spilled = false)
   (he : (emptyReads p (shape i) x).1 ≠ 0) (hst : staleTraps s p = true)
   (hi : p.inTrap = false) (hh : handlerOf s p ≠ 0) (check hold act) :
   issue i check hold act s = putStrip s s.cur (((p.setStatus stUREAD).countIssueOf x).enterHandler (handlerOf s p)
      ⟨causeSTALE, 0, x, (emptyReads p (shape i) x).1, pc, wordOf i, (emptyReads p (shape i) x).2.setWidth 32, 0⟩) := by
  obtain ⟨cap, hr, hc⟩ := readSteps_mapped h.strip (instrRegs (shape i)) (stepsOf 4 (readsV (shape i))) []
    (by intro c hc; simp at hc) (fun l hl r hr => hm r (mem_stepsOf 4 _ l hl r hr))
  unfold issue prepare
  simp only [h.choose, h.strip, hl, hcl]
  simp only [Bool.false_eq_true, if_false, hr, noteRefills_kept h.strip h.strip rfl, h.strip, captured_self hc]
  rw [if_pos (by rw [hst]; simpa using he)]
  dsimp only
  have h1 : modStrip s s.cur (fun p => p.setStatus stUREAD) = putStrip s s.cur (p.setStatus stUREAD) := by
    unfold modStrip putStrip; rw [tableMod_some _ _ _ _ h.strip]
  rw [h1]
  have := issueTrap_quiet (s := putStrip s s.cur (p.setStatus stUREAD)) (p := p.setStatus stUREAD) (x := x)
    (t := ⟨causeSTALE, 0, x, (emptyReads p (shape i) x).1, pc, wordOf i, (emptyReads p (shape i) x).2.setWidth 32, 0⟩)
    (putStrip_get _ _ _) h.noResult (by unfold Strip.inTrap Strip.setStatus stUREAD at *; simp_all) hh
  exact this.trans (putStrip_putStrip _ _ _ _)

/-- An instruction whose whole effect is on its strip, which keeps no outstanding result. -/
theorem strip_clean {i : Instr} {s : State} {p : Strip} {pc : VA} {x : Strands} (h : Clean i s p pc x)
    {act : State → Ctx → Bool × State} {g : Strip → Strip}
    (ha : act (putStrip s s.cur (p.issued (shape i) x)) (ctxOf i s p pc x) = (true, putStrip s s.cur (g (p.issued (shape i) x))))
    (hq : (g (p.issued (shape i) x)).flights = []) (hn : (g (p.issued (shape i) x)).noted = p.noted) :
    issueSimple i act s = afterStrip s p x (shape i) g :=
  issueSimple_clean h ha (putStrip_get _ _ _) hq hn

end Sys2Proof.Machine
end

