-- ==== Sys2Proof/Laws/State.lean ====
section
/-! SUPPORT. One lemma per field for every update of the state and of a strip, true by unfolding, so that no later proof
unfolds a record update. -/
namespace Sys2Proof.Machine

/-! `putStrip` changes strips only. -/

@[simp] theorem putStrip_clk (s : State) (id : Nat) (p : Strip) : (putStrip s id p).clk = s.clk := rfl
@[simp] theorem putStrip_mem (s : State) (id : Nat) (p : Strip) : (putStrip s id p).mem = s.mem := rfl
@[simp] theorem putStrip_poison (s : State) (id : Nat) (p : Strip) : (putStrip s id p).poison = s.poison := rfl
@[simp] theorem putStrip_l2 (s : State) (id : Nat) (p : Strip) : (putStrip s id p).l2 = s.l2 := rfl
@[simp] theorem putStrip_sectorCopies (s : State) (id : Nat) (p : Strip) : (putStrip s id p).sectorCopies = s.sectorCopies := rfl
@[simp] theorem putStrip_hbm (s : State) (id : Nat) (p : Strip) : (putStrip s id p).hbm = s.hbm := rfl
@[simp] theorem putStrip_past (s : State) (id : Nat) (p : Strip) : (putStrip s id p).past = s.past := rfl
@[simp] theorem putStrip_wrote (s : State) (id : Nat) (p : Strip) : (putStrip s id p).wrote = s.wrote := rfl
@[simp] theorem putStrip_cores (s : State) (id : Nat) (p : Strip) : (putStrip s id p).cores = s.cores := rfl
@[simp] theorem putStrip_dies (s : State) (id : Nat) (p : Strip) : (putStrip s id p).dies = s.dies := rfl
@[simp] theorem putStrip_wgs (s : State) (id : Nat) (p : Strip) : (putStrip s id p).wgs = s.wgs := rfl
@[simp] theorem putStrip_launches (s : State) (id : Nat) (p : Strip) : (putStrip s id p).launches = s.launches := rfl
@[simp] theorem putStrip_graphs (s : State) (id : Nat) (p : Strip) : (putStrip s id p).graphs = s.graphs := rfl
@[simp] theorem putStrip_copies (s : State) (id : Nat) (p : Strip) : (putStrip s id p).copies = s.copies := rfl
@[simp] theorem putStrip_nodeQueues (s : State) (id : Nat) (p : Strip) : (putStrip s id p).nodeQueues = s.nodeQueues := rfl
@[simp] theorem putStrip_queues (s : State) (id : Nat) (p : Strip) : (putStrip s id p).queues = s.queues := rfl
@[simp] theorem putStrip_net (s : State) (id : Nat) (p : Strip) : (putStrip s id p).net = s.net := rfl
@[simp] theorem putStrip_halos (s : State) (id : Nat) (p : Strip) : (putStrip s id p).halos = s.halos := rfl
@[simp] theorem putStrip_phaseEvents (s : State) (id : Nat) (p : Strip) : (putStrip s id p).phaseEvents = s.phaseEvents := rfl
@[simp] theorem putStrip_dieWaits (s : State) (id : Nat) (p : Strip) : (putStrip s id p).dieWaits = s.dieWaits := rfl
@[simp] theorem putStrip_owed (s : State) (id : Nat) (p : Strip) : (putStrip s id p).owed = s.owed := rfl
@[simp] theorem putStrip_phases (s : State) (id : Nat) (p : Strip) : (putStrip s id p).phases = s.phases := rfl
@[simp] theorem putStrip_conns (s : State) (id : Nat) (p : Strip) : (putStrip s id p).conns = s.conns := rfl
@[simp] theorem putStrip_links (s : State) (id : Nat) (p : Strip) : (putStrip s id p).links = s.links := rfl
@[simp] theorem putStrip_linksDown (s : State) (id : Nat) (p : Strip) : (putStrip s id p).linksDown = s.linksDown := rfl
@[simp] theorem putStrip_heads (s : State) (id : Nat) (p : Strip) : (putStrip s id p).heads = s.heads := rfl
@[simp] theorem putStrip_encoders (s : State) (id : Nat) (p : Strip) : (putStrip s id p).encoders = s.encoders := rfl
@[simp] theorem putStrip_iommu (s : State) (id : Nat) (p : Strip) : (putStrip s id p).iommu = s.iommu := rfl
@[simp] theorem putStrip_parts (s : State) (id : Nat) (p : Strip) : (putStrip s id p).parts = s.parts := rfl
@[simp] theorem putStrip_weights (s : State) (id : Nat) (p : Strip) : (putStrip s id p).weights = s.weights := rfl
@[simp] theorem putStrip_shares (s : State) (id : Nat) (p : Strip) : (putStrip s id p).shares = s.shares := rfl
@[simp] theorem putStrip_sessions (s : State) (id : Nat) (p : Strip) : (putStrip s id p).sessions = s.sessions := rfl
@[simp] theorem putStrip_scrubOn (s : State) (id : Nat) (p : Strip) : (putStrip s id p).scrubOn = s.scrubOn := rfl
@[simp] theorem putStrip_alarm (s : State) (id : Nat) (p : Strip) : (putStrip s id p).alarm = s.alarm := rfl
@[simp] theorem putStrip_coolant (s : State) (id : Nat) (p : Strip) : (putStrip s id p).coolant = s.coolant := rfl
@[simp] theorem putStrip_sTemp (s : State) (id : Nat) (p : Strip) : (putStrip s id p).sTemp = s.sTemp := rfl
@[simp] theorem putStrip_sBand (s : State) (id : Nat) (p : Strip) : (putStrip s id p).sBand = s.sBand := rfl
@[simp] theorem putStrip_boot (s : State) (id : Nat) (p : Strip) : (putStrip s id p).boot = s.boot := rfl
@[simp] theorem putStrip_fenced (s : State) (id : Nat) (p : Strip) : (putStrip s id p).fenced = s.fenced := rfl
@[simp] theorem putStrip_notices (s : State) (id : Nat) (p : Strip) : (putStrip s id p).notices = s.notices := rfl
@[simp] theorem putStrip_inputs (s : State) (id : Nat) (p : Strip) : (putStrip s id p).inputs = s.inputs := rfl
@[simp] theorem putStrip_ticks (s : State) (id : Nat) (p : Strip) : (putStrip s id p).ticks = s.ticks := rfl
@[simp] theorem putStrip_cycleOver (s : State) (id : Nat) (p : Strip) : (putStrip s id p).cycleOver = s.cycleOver := rfl
@[simp] theorem putStrip_free (s : State) (id : Nat) (p : Strip) : (putStrip s id p).free = s.free := rfl
@[simp] theorem putStrip_cur (s : State) (id : Nat) (p : Strip) : (putStrip s id p).cur = s.cur := rfl
@[simp] theorem putStrip_turn (s : State) (id : Nat) (p : Strip) : (putStrip s id p).turn = s.turn := rfl
@[simp] theorem putStrip_nextId (s : State) (id : Nat) (p : Strip) : (putStrip s id p).nextId = s.nextId := rfl

/-! `modStrip` changes strips only. -/

@[simp] theorem modStrip_clk (s : State) (id : Nat) (f : Strip → Strip) : (modStrip s id f).clk = s.clk := rfl
@[simp] theorem modStrip_mem (s : State) (id : Nat) (f : Strip → Strip) : (modStrip s id f).mem = s.mem := rfl
@[simp] theorem modStrip_poison (s : State) (id : Nat) (f : Strip → Strip) : (modStrip s id f).poison = s.poison := rfl
@[simp] theorem modStrip_l2 (s : State) (id : Nat) (f : Strip → Strip) : (modStrip s id f).l2 = s.l2 := rfl
@[simp] theorem modStrip_sectorCopies (s : State) (id : Nat) (f : Strip → Strip) : (modStrip s id f).sectorCopies = s.sectorCopies := rfl
@[simp] theorem modStrip_hbm (s : State) (id : Nat) (f : Strip → Strip) : (modStrip s id f).hbm = s.hbm := rfl
@[simp] theorem modStrip_past (s : State) (id : Nat) (f : Strip → Strip) : (modStrip s id f).past = s.past := rfl
@[simp] theorem modStrip_wrote (s : State) (id : Nat) (f : Strip → Strip) : (modStrip s id f).wrote = s.wrote := rfl
@[simp] theorem modStrip_cores (s : State) (id : Nat) (f : Strip → Strip) : (modStrip s id f).cores = s.cores := rfl
@[simp] theorem modStrip_dies (s : State) (id : Nat) (f : Strip → Strip) : (modStrip s id f).dies = s.dies := rfl
@[simp] theorem modStrip_wgs (s : State) (id : Nat) (f : Strip → Strip) : (modStrip s id f).wgs = s.wgs := rfl
@[simp] theorem modStrip_launches (s : State) (id : Nat) (f : Strip → Strip) : (modStrip s id f).launches = s.launches := rfl
@[simp] theorem modStrip_graphs (s : State) (id : Nat) (f : Strip → Strip) : (modStrip s id f).graphs = s.graphs := rfl
@[simp] theorem modStrip_copies (s : State) (id : Nat) (f : Strip → Strip) : (modStrip s id f).copies = s.copies := rfl
@[simp] theorem modStrip_nodeQueues (s : State) (id : Nat) (f : Strip → Strip) : (modStrip s id f).nodeQueues = s.nodeQueues := rfl
@[simp] theorem modStrip_queues (s : State) (id : Nat) (f : Strip → Strip) : (modStrip s id f).queues = s.queues := rfl
@[simp] theorem modStrip_net (s : State) (id : Nat) (f : Strip → Strip) : (modStrip s id f).net = s.net := rfl
@[simp] theorem modStrip_halos (s : State) (id : Nat) (f : Strip → Strip) : (modStrip s id f).halos = s.halos := rfl
@[simp] theorem modStrip_phaseEvents (s : State) (id : Nat) (f : Strip → Strip) : (modStrip s id f).phaseEvents = s.phaseEvents := rfl
@[simp] theorem modStrip_dieWaits (s : State) (id : Nat) (f : Strip → Strip) : (modStrip s id f).dieWaits = s.dieWaits := rfl
@[simp] theorem modStrip_owed (s : State) (id : Nat) (f : Strip → Strip) : (modStrip s id f).owed = s.owed := rfl
@[simp] theorem modStrip_phases (s : State) (id : Nat) (f : Strip → Strip) : (modStrip s id f).phases = s.phases := rfl
@[simp] theorem modStrip_conns (s : State) (id : Nat) (f : Strip → Strip) : (modStrip s id f).conns = s.conns := rfl
@[simp] theorem modStrip_links (s : State) (id : Nat) (f : Strip → Strip) : (modStrip s id f).links = s.links := rfl
@[simp] theorem modStrip_linksDown (s : State) (id : Nat) (f : Strip → Strip) : (modStrip s id f).linksDown = s.linksDown := rfl
@[simp] theorem modStrip_heads (s : State) (id : Nat) (f : Strip → Strip) : (modStrip s id f).heads = s.heads := rfl
@[simp] theorem modStrip_encoders (s : State) (id : Nat) (f : Strip → Strip) : (modStrip s id f).encoders = s.encoders := rfl
@[simp] theorem modStrip_iommu (s : State) (id : Nat) (f : Strip → Strip) : (modStrip s id f).iommu = s.iommu := rfl
@[simp] theorem modStrip_parts (s : State) (id : Nat) (f : Strip → Strip) : (modStrip s id f).parts = s.parts := rfl
@[simp] theorem modStrip_weights (s : State) (id : Nat) (f : Strip → Strip) : (modStrip s id f).weights = s.weights := rfl
@[simp] theorem modStrip_shares (s : State) (id : Nat) (f : Strip → Strip) : (modStrip s id f).shares = s.shares := rfl
@[simp] theorem modStrip_sessions (s : State) (id : Nat) (f : Strip → Strip) : (modStrip s id f).sessions = s.sessions := rfl
@[simp] theorem modStrip_scrubOn (s : State) (id : Nat) (f : Strip → Strip) : (modStrip s id f).scrubOn = s.scrubOn := rfl
@[simp] theorem modStrip_alarm (s : State) (id : Nat) (f : Strip → Strip) : (modStrip s id f).alarm = s.alarm := rfl
@[simp] theorem modStrip_coolant (s : State) (id : Nat) (f : Strip → Strip) : (modStrip s id f).coolant = s.coolant := rfl
@[simp] theorem modStrip_sTemp (s : State) (id : Nat) (f : Strip → Strip) : (modStrip s id f).sTemp = s.sTemp := rfl
@[simp] theorem modStrip_sBand (s : State) (id : Nat) (f : Strip → Strip) : (modStrip s id f).sBand = s.sBand := rfl
@[simp] theorem modStrip_boot (s : State) (id : Nat) (f : Strip → Strip) : (modStrip s id f).boot = s.boot := rfl
@[simp] theorem modStrip_fenced (s : State) (id : Nat) (f : Strip → Strip) : (modStrip s id f).fenced = s.fenced := rfl
@[simp] theorem modStrip_notices (s : State) (id : Nat) (f : Strip → Strip) : (modStrip s id f).notices = s.notices := rfl
@[simp] theorem modStrip_inputs (s : State) (id : Nat) (f : Strip → Strip) : (modStrip s id f).inputs = s.inputs := rfl
@[simp] theorem modStrip_ticks (s : State) (id : Nat) (f : Strip → Strip) : (modStrip s id f).ticks = s.ticks := rfl
@[simp] theorem modStrip_cycleOver (s : State) (id : Nat) (f : Strip → Strip) : (modStrip s id f).cycleOver = s.cycleOver := rfl
@[simp] theorem modStrip_free (s : State) (id : Nat) (f : Strip → Strip) : (modStrip s id f).free = s.free := rfl
@[simp] theorem modStrip_cur (s : State) (id : Nat) (f : Strip → Strip) : (modStrip s id f).cur = s.cur := rfl
@[simp] theorem modStrip_turn (s : State) (id : Nat) (f : Strip → Strip) : (modStrip s id f).turn = s.turn := rfl
@[simp] theorem modStrip_nextId (s : State) (id : Nat) (f : Strip → Strip) : (modStrip s id f).nextId = s.nextId := rfl

/-! `putCore` changes cores only. -/

@[simp] theorem putCore_clk (s : State) (id : Nat) (c : Core) : (putCore s id c).clk = s.clk := rfl
@[simp] theorem putCore_mem (s : State) (id : Nat) (c : Core) : (putCore s id c).mem = s.mem := rfl
@[simp] theorem putCore_poison (s : State) (id : Nat) (c : Core) : (putCore s id c).poison = s.poison := rfl
@[simp] theorem putCore_l2 (s : State) (id : Nat) (c : Core) : (putCore s id c).l2 = s.l2 := rfl
@[simp] theorem putCore_sectorCopies (s : State) (id : Nat) (c : Core) : (putCore s id c).sectorCopies = s.sectorCopies := rfl
@[simp] theorem putCore_hbm (s : State) (id : Nat) (c : Core) : (putCore s id c).hbm = s.hbm := rfl
@[simp] theorem putCore_past (s : State) (id : Nat) (c : Core) : (putCore s id c).past = s.past := rfl
@[simp] theorem putCore_wrote (s : State) (id : Nat) (c : Core) : (putCore s id c).wrote = s.wrote := rfl
@[simp] theorem putCore_dies (s : State) (id : Nat) (c : Core) : (putCore s id c).dies = s.dies := rfl
@[simp] theorem putCore_strips (s : State) (id : Nat) (c : Core) : (putCore s id c).strips = s.strips := rfl
@[simp] theorem putCore_wgs (s : State) (id : Nat) (c : Core) : (putCore s id c).wgs = s.wgs := rfl
@[simp] theorem putCore_launches (s : State) (id : Nat) (c : Core) : (putCore s id c).launches = s.launches := rfl
@[simp] theorem putCore_graphs (s : State) (id : Nat) (c : Core) : (putCore s id c).graphs = s.graphs := rfl
@[simp] theorem putCore_copies (s : State) (id : Nat) (c : Core) : (putCore s id c).copies = s.copies := rfl
@[simp] theorem putCore_nodeQueues (s : State) (id : Nat) (c : Core) : (putCore s id c).nodeQueues = s.nodeQueues := rfl
@[simp] theorem putCore_queues (s : State) (id : Nat) (c : Core) : (putCore s id c).queues = s.queues := rfl
@[simp] theorem putCore_net (s : State) (id : Nat) (c : Core) : (putCore s id c).net = s.net := rfl
@[simp] theorem putCore_halos (s : State) (id : Nat) (c : Core) : (putCore s id c).halos = s.halos := rfl
@[simp] theorem putCore_phaseEvents (s : State) (id : Nat) (c : Core) : (putCore s id c).phaseEvents = s.phaseEvents := rfl
@[simp] theorem putCore_dieWaits (s : State) (id : Nat) (c : Core) : (putCore s id c).dieWaits = s.dieWaits := rfl
@[simp] theorem putCore_owed (s : State) (id : Nat) (c : Core) : (putCore s id c).owed = s.owed := rfl
@[simp] theorem putCore_phases (s : State) (id : Nat) (c : Core) : (putCore s id c).phases = s.phases := rfl
@[simp] theorem putCore_conns (s : State) (id : Nat) (c : Core) : (putCore s id c).conns = s.conns := rfl
@[simp] theorem putCore_links (s : State) (id : Nat) (c : Core) : (putCore s id c).links = s.links := rfl
@[simp] theorem putCore_linksDown (s : State) (id : Nat) (c : Core) : (putCore s id c).linksDown = s.linksDown := rfl
@[simp] theorem putCore_heads (s : State) (id : Nat) (c : Core) : (putCore s id c).heads = s.heads := rfl
@[simp] theorem putCore_encoders (s : State) (id : Nat) (c : Core) : (putCore s id c).encoders = s.encoders := rfl
@[simp] theorem putCore_iommu (s : State) (id : Nat) (c : Core) : (putCore s id c).iommu = s.iommu := rfl
@[simp] theorem putCore_parts (s : State) (id : Nat) (c : Core) : (putCore s id c).parts = s.parts := rfl
@[simp] theorem putCore_weights (s : State) (id : Nat) (c : Core) : (putCore s id c).weights = s.weights := rfl
@[simp] theorem putCore_shares (s : State) (id : Nat) (c : Core) : (putCore s id c).shares = s.shares := rfl
@[simp] theorem putCore_sessions (s : State) (id : Nat) (c : Core) : (putCore s id c).sessions = s.sessions := rfl
@[simp] theorem putCore_scrubOn (s : State) (id : Nat) (c : Core) : (putCore s id c).scrubOn = s.scrubOn := rfl
@[simp] theorem putCore_alarm (s : State) (id : Nat) (c : Core) : (putCore s id c).alarm = s.alarm := rfl
@[simp] theorem putCore_coolant (s : State) (id : Nat) (c : Core) : (putCore s id c).coolant = s.coolant := rfl
@[simp] theorem putCore_sTemp (s : State) (id : Nat) (c : Core) : (putCore s id c).sTemp = s.sTemp := rfl
@[simp] theorem putCore_sBand (s : State) (id : Nat) (c : Core) : (putCore s id c).sBand = s.sBand := rfl
@[simp] theorem putCore_boot (s : State) (id : Nat) (c : Core) : (putCore s id c).boot = s.boot := rfl
@[simp] theorem putCore_fenced (s : State) (id : Nat) (c : Core) : (putCore s id c).fenced = s.fenced := rfl
@[simp] theorem putCore_notices (s : State) (id : Nat) (c : Core) : (putCore s id c).notices = s.notices := rfl
@[simp] theorem putCore_inputs (s : State) (id : Nat) (c : Core) : (putCore s id c).inputs = s.inputs := rfl
@[simp] theorem putCore_ticks (s : State) (id : Nat) (c : Core) : (putCore s id c).ticks = s.ticks := rfl
@[simp] theorem putCore_cycleOver (s : State) (id : Nat) (c : Core) : (putCore s id c).cycleOver = s.cycleOver := rfl
@[simp] theorem putCore_free (s : State) (id : Nat) (c : Core) : (putCore s id c).free = s.free := rfl
@[simp] theorem putCore_cur (s : State) (id : Nat) (c : Core) : (putCore s id c).cur = s.cur := rfl
@[simp] theorem putCore_turn (s : State) (id : Nat) (c : Core) : (putCore s id c).turn = s.turn := rfl
@[simp] theorem putCore_nextId (s : State) (id : Nat) (c : Core) : (putCore s id c).nextId = s.nextId := rfl

/-! `modCore` changes cores only. -/

@[simp] theorem modCore_clk (s : State) (id : Nat) (f : Core → Core) : (modCore s id f).clk = s.clk := rfl
@[simp] theorem modCore_mem (s : State) (id : Nat) (f : Core → Core) : (modCore s id f).mem = s.mem := rfl
@[simp] theorem modCore_poison (s : State) (id : Nat) (f : Core → Core) : (modCore s id f).poison = s.poison := rfl
@[simp] theorem modCore_l2 (s : State) (id : Nat) (f : Core → Core) : (modCore s id f).l2 = s.l2 := rfl
@[simp] theorem modCore_sectorCopies (s : State) (id : Nat) (f : Core → Core) : (modCore s id f).sectorCopies = s.sectorCopies := rfl
@[simp] theorem modCore_hbm (s : State) (id : Nat) (f : Core → Core) : (modCore s id f).hbm = s.hbm := rfl
@[simp] theorem modCore_past (s : State) (id : Nat) (f : Core → Core) : (modCore s id f).past = s.past := rfl
@[simp] theorem modCore_wrote (s : State) (id : Nat) (f : Core → Core) : (modCore s id f).wrote = s.wrote := rfl
@[simp] theorem modCore_dies (s : State) (id : Nat) (f : Core → Core) : (modCore s id f).dies = s.dies := rfl
@[simp] theorem modCore_strips (s : State) (id : Nat) (f : Core → Core) : (modCore s id f).strips = s.strips := rfl
@[simp] theorem modCore_wgs (s : State) (id : Nat) (f : Core → Core) : (modCore s id f).wgs = s.wgs := rfl
@[simp] theorem modCore_launches (s : State) (id : Nat) (f : Core → Core) : (modCore s id f).launches = s.launches := rfl
@[simp] theorem modCore_graphs (s : State) (id : Nat) (f : Core → Core) : (modCore s id f).graphs = s.graphs := rfl
@[simp] theorem modCore_copies (s : State) (id : Nat) (f : Core → Core) : (modCore s id f).copies = s.copies := rfl
@[simp] theorem modCore_nodeQueues (s : State) (id : Nat) (f : Core → Core) : (modCore s id f).nodeQueues = s.nodeQueues := rfl
@[simp] theorem modCore_queues (s : State) (id : Nat) (f : Core → Core) : (modCore s id f).queues = s.queues := rfl
@[simp] theorem modCore_net (s : State) (id : Nat) (f : Core → Core) : (modCore s id f).net = s.net := rfl
@[simp] theorem modCore_halos (s : State) (id : Nat) (f : Core → Core) : (modCore s id f).halos = s.halos := rfl
@[simp] theorem modCore_phaseEvents (s : State) (id : Nat) (f : Core → Core) : (modCore s id f).phaseEvents = s.phaseEvents := rfl
@[simp] theorem modCore_dieWaits (s : State) (id : Nat) (f : Core → Core) : (modCore s id f).dieWaits = s.dieWaits := rfl
@[simp] theorem modCore_owed (s : State) (id : Nat) (f : Core → Core) : (modCore s id f).owed = s.owed := rfl
@[simp] theorem modCore_phases (s : State) (id : Nat) (f : Core → Core) : (modCore s id f).phases = s.phases := rfl
@[simp] theorem modCore_conns (s : State) (id : Nat) (f : Core → Core) : (modCore s id f).conns = s.conns := rfl
@[simp] theorem modCore_links (s : State) (id : Nat) (f : Core → Core) : (modCore s id f).links = s.links := rfl
@[simp] theorem modCore_linksDown (s : State) (id : Nat) (f : Core → Core) : (modCore s id f).linksDown = s.linksDown := rfl
@[simp] theorem modCore_heads (s : State) (id : Nat) (f : Core → Core) : (modCore s id f).heads = s.heads := rfl
@[simp] theorem modCore_encoders (s : State) (id : Nat) (f : Core → Core) : (modCore s id f).encoders = s.encoders := rfl
@[simp] theorem modCore_iommu (s : State) (id : Nat) (f : Core → Core) : (modCore s id f).iommu = s.iommu := rfl
@[simp] theorem modCore_parts (s : State) (id : Nat) (f : Core → Core) : (modCore s id f).parts = s.parts := rfl
@[simp] theorem modCore_weights (s : State) (id : Nat) (f : Core → Core) : (modCore s id f).weights = s.weights := rfl
@[simp] theorem modCore_shares (s : State) (id : Nat) (f : Core → Core) : (modCore s id f).shares = s.shares := rfl
@[simp] theorem modCore_sessions (s : State) (id : Nat) (f : Core → Core) : (modCore s id f).sessions = s.sessions := rfl
@[simp] theorem modCore_scrubOn (s : State) (id : Nat) (f : Core → Core) : (modCore s id f).scrubOn = s.scrubOn := rfl
@[simp] theorem modCore_alarm (s : State) (id : Nat) (f : Core → Core) : (modCore s id f).alarm = s.alarm := rfl
@[simp] theorem modCore_coolant (s : State) (id : Nat) (f : Core → Core) : (modCore s id f).coolant = s.coolant := rfl
@[simp] theorem modCore_sTemp (s : State) (id : Nat) (f : Core → Core) : (modCore s id f).sTemp = s.sTemp := rfl
@[simp] theorem modCore_sBand (s : State) (id : Nat) (f : Core → Core) : (modCore s id f).sBand = s.sBand := rfl
@[simp] theorem modCore_boot (s : State) (id : Nat) (f : Core → Core) : (modCore s id f).boot = s.boot := rfl
@[simp] theorem modCore_fenced (s : State) (id : Nat) (f : Core → Core) : (modCore s id f).fenced = s.fenced := rfl
@[simp] theorem modCore_notices (s : State) (id : Nat) (f : Core → Core) : (modCore s id f).notices = s.notices := rfl
@[simp] theorem modCore_inputs (s : State) (id : Nat) (f : Core → Core) : (modCore s id f).inputs = s.inputs := rfl
@[simp] theorem modCore_ticks (s : State) (id : Nat) (f : Core → Core) : (modCore s id f).ticks = s.ticks := rfl
@[simp] theorem modCore_cycleOver (s : State) (id : Nat) (f : Core → Core) : (modCore s id f).cycleOver = s.cycleOver := rfl
@[simp] theorem modCore_free (s : State) (id : Nat) (f : Core → Core) : (modCore s id f).free = s.free := rfl
@[simp] theorem modCore_cur (s : State) (id : Nat) (f : Core → Core) : (modCore s id f).cur = s.cur := rfl
@[simp] theorem modCore_turn (s : State) (id : Nat) (f : Core → Core) : (modCore s id f).turn = s.turn := rfl
@[simp] theorem modCore_nextId (s : State) (id : Nat) (f : Core → Core) : (modCore s id f).nextId = s.nextId := rfl

/-! `mapCores` changes cores only. -/

@[simp] theorem mapCores_clk (s : State) (f : Core → Core) : (mapCores s f).clk = s.clk := rfl
@[simp] theorem mapCores_mem (s : State) (f : Core → Core) : (mapCores s f).mem = s.mem := rfl
@[simp] theorem mapCores_poison (s : State) (f : Core → Core) : (mapCores s f).poison = s.poison := rfl
@[simp] theorem mapCores_l2 (s : State) (f : Core → Core) : (mapCores s f).l2 = s.l2 := rfl
@[simp] theorem mapCores_sectorCopies (s : State) (f : Core → Core) : (mapCores s f).sectorCopies = s.sectorCopies := rfl
@[simp] theorem mapCores_hbm (s : State) (f : Core → Core) : (mapCores s f).hbm = s.hbm := rfl
@[simp] theorem mapCores_past (s : State) (f : Core → Core) : (mapCores s f).past = s.past := rfl
@[simp] theorem mapCores_wrote (s : State) (f : Core → Core) : (mapCores s f).wrote = s.wrote := rfl
@[simp] theorem mapCores_dies (s : State) (f : Core → Core) : (mapCores s f).dies = s.dies := rfl
@[simp] theorem mapCores_strips (s : State) (f : Core → Core) : (mapCores s f).strips = s.strips := rfl
@[simp] theorem mapCores_wgs (s : State) (f : Core → Core) : (mapCores s f).wgs = s.wgs := rfl
@[simp] theorem mapCores_launches (s : State) (f : Core → Core) : (mapCores s f).launches = s.launches := rfl
@[simp] theorem mapCores_graphs (s : State) (f : Core → Core) : (mapCores s f).graphs = s.graphs := rfl
@[simp] theorem mapCores_copies (s : State) (f : Core → Core) : (mapCores s f).copies = s.copies := rfl
@[simp] theorem mapCores_nodeQueues (s : State) (f : Core → Core) : (mapCores s f).nodeQueues = s.nodeQueues := rfl
@[simp] theorem mapCores_queues (s : State) (f : Core → Core) : (mapCores s f).queues = s.queues := rfl
@[simp] theorem mapCores_net (s : State) (f : Core → Core) : (mapCores s f).net = s.net := rfl
@[simp] theorem mapCores_halos (s : State) (f : Core → Core) : (mapCores s f).halos = s.halos := rfl
@[simp] theorem mapCores_phaseEvents (s : State) (f : Core → Core) : (mapCores s f).phaseEvents = s.phaseEvents := rfl
@[simp] theorem mapCores_dieWaits (s : State) (f : Core → Core) : (mapCores s f).dieWaits = s.dieWaits := rfl
@[simp] theorem mapCores_owed (s : State) (f : Core → Core) : (mapCores s f).owed = s.owed := rfl
@[simp] theorem mapCores_phases (s : State) (f : Core → Core) : (mapCores s f).phases = s.phases := rfl
@[simp] theorem mapCores_conns (s : State) (f : Core → Core) : (mapCores s f).conns = s.conns := rfl
@[simp] theorem mapCores_links (s : State) (f : Core → Core) : (mapCores s f).links = s.links := rfl
@[simp] theorem mapCores_linksDown (s : State) (f : Core → Core) : (mapCores s f).linksDown = s.linksDown := rfl
@[simp] theorem mapCores_heads (s : State) (f : Core → Core) : (mapCores s f).heads = s.heads := rfl
@[simp] theorem mapCores_encoders (s : State) (f : Core → Core) : (mapCores s f).encoders = s.encoders := rfl
@[simp] theorem mapCores_iommu (s : State) (f : Core → Core) : (mapCores s f).iommu = s.iommu := rfl
@[simp] theorem mapCores_parts (s : State) (f : Core → Core) : (mapCores s f).parts = s.parts := rfl
@[simp] theorem mapCores_weights (s : State) (f : Core → Core) : (mapCores s f).weights = s.weights := rfl
@[simp] theorem mapCores_shares (s : State) (f : Core → Core) : (mapCores s f).shares = s.shares := rfl
@[simp] theorem mapCores_sessions (s : State) (f : Core → Core) : (mapCores s f).sessions = s.sessions := rfl
@[simp] theorem mapCores_scrubOn (s : State) (f : Core → Core) : (mapCores s f).scrubOn = s.scrubOn := rfl
@[simp] theorem mapCores_alarm (s : State) (f : Core → Core) : (mapCores s f).alarm = s.alarm := rfl
@[simp] theorem mapCores_coolant (s : State) (f : Core → Core) : (mapCores s f).coolant = s.coolant := rfl
@[simp] theorem mapCores_sTemp (s : State) (f : Core → Core) : (mapCores s f).sTemp = s.sTemp := rfl
@[simp] theorem mapCores_sBand (s : State) (f : Core → Core) : (mapCores s f).sBand = s.sBand := rfl
@[simp] theorem mapCores_boot (s : State) (f : Core → Core) : (mapCores s f).boot = s.boot := rfl
@[simp] theorem mapCores_fenced (s : State) (f : Core → Core) : (mapCores s f).fenced = s.fenced := rfl
@[simp] theorem mapCores_notices (s : State) (f : Core → Core) : (mapCores s f).notices = s.notices := rfl
@[simp] theorem mapCores_inputs (s : State) (f : Core → Core) : (mapCores s f).inputs = s.inputs := rfl
@[simp] theorem mapCores_ticks (s : State) (f : Core → Core) : (mapCores s f).ticks = s.ticks := rfl
@[simp] theorem mapCores_cycleOver (s : State) (f : Core → Core) : (mapCores s f).cycleOver = s.cycleOver := rfl
@[simp] theorem mapCores_free (s : State) (f : Core → Core) : (mapCores s f).free = s.free := rfl
@[simp] theorem mapCores_cur (s : State) (f : Core → Core) : (mapCores s f).cur = s.cur := rfl
@[simp] theorem mapCores_turn (s : State) (f : Core → Core) : (mapCores s f).turn = s.turn := rfl
@[simp] theorem mapCores_nextId (s : State) (f : Core → Core) : (mapCores s f).nextId = s.nextId := rfl

/-! `modDie` changes dies only. -/

@[simp] theorem modDie_clk (s : State) (d : Nat) (f : Die → Die) : (modDie s d f).clk = s.clk := rfl
@[simp] theorem modDie_mem (s : State) (d : Nat) (f : Die → Die) : (modDie s d f).mem = s.mem := rfl
@[simp] theorem modDie_poison (s : State) (d : Nat) (f : Die → Die) : (modDie s d f).poison = s.poison := rfl
@[simp] theorem modDie_l2 (s : State) (d : Nat) (f : Die → Die) : (modDie s d f).l2 = s.l2 := rfl
@[simp] theorem modDie_sectorCopies (s : State) (d : Nat) (f : Die → Die) : (modDie s d f).sectorCopies = s.sectorCopies := rfl
@[simp] theorem modDie_hbm (s : State) (d : Nat) (f : Die → Die) : (modDie s d f).hbm = s.hbm := rfl
@[simp] theorem modDie_past (s : State) (d : Nat) (f : Die → Die) : (modDie s d f).past = s.past := rfl
@[simp] theorem modDie_wrote (s : State) (d : Nat) (f : Die → Die) : (modDie s d f).wrote = s.wrote := rfl
@[simp] theorem modDie_cores (s : State) (d : Nat) (f : Die → Die) : (modDie s d f).cores = s.cores := rfl
@[simp] theorem modDie_strips (s : State) (d : Nat) (f : Die → Die) : (modDie s d f).strips = s.strips := rfl
@[simp] theorem modDie_wgs (s : State) (d : Nat) (f : Die → Die) : (modDie s d f).wgs = s.wgs := rfl
@[simp] theorem modDie_launches (s : State) (d : Nat) (f : Die → Die) : (modDie s d f).launches = s.launches := rfl
@[simp] theorem modDie_graphs (s : State) (d : Nat) (f : Die → Die) : (modDie s d f).graphs = s.graphs := rfl
@[simp] theorem modDie_copies (s : State) (d : Nat) (f : Die → Die) : (modDie s d f).copies = s.copies := rfl
@[simp] theorem modDie_nodeQueues (s : State) (d : Nat) (f : Die → Die) : (modDie s d f).nodeQueues = s.nodeQueues := rfl
@[simp] theorem modDie_queues (s : State) (d : Nat) (f : Die → Die) : (modDie s d f).queues = s.queues := rfl
@[simp] theorem modDie_net (s : State) (d : Nat) (f : Die → Die) : (modDie s d f).net = s.net := rfl
@[simp] theorem modDie_halos (s : State) (d : Nat) (f : Die → Die) : (modDie s d f).halos = s.halos := rfl
@[simp] theorem modDie_phaseEvents (s : State) (d : Nat) (f : Die → Die) : (modDie s d f).phaseEvents = s.phaseEvents := rfl
@[simp] theorem modDie_dieWaits (s : State) (d : Nat) (f : Die → Die) : (modDie s d f).dieWaits = s.dieWaits := rfl
@[simp] theorem modDie_owed (s : State) (d : Nat) (f : Die → Die) : (modDie s d f).owed = s.owed := rfl
@[simp] theorem modDie_phases (s : State) (d : Nat) (f : Die → Die) : (modDie s d f).phases = s.phases := rfl
@[simp] theorem modDie_conns (s : State) (d : Nat) (f : Die → Die) : (modDie s d f).conns = s.conns := rfl
@[simp] theorem modDie_links (s : State) (d : Nat) (f : Die → Die) : (modDie s d f).links = s.links := rfl
@[simp] theorem modDie_linksDown (s : State) (d : Nat) (f : Die → Die) : (modDie s d f).linksDown = s.linksDown := rfl
@[simp] theorem modDie_heads (s : State) (d : Nat) (f : Die → Die) : (modDie s d f).heads = s.heads := rfl
@[simp] theorem modDie_encoders (s : State) (d : Nat) (f : Die → Die) : (modDie s d f).encoders = s.encoders := rfl
@[simp] theorem modDie_iommu (s : State) (d : Nat) (f : Die → Die) : (modDie s d f).iommu = s.iommu := rfl
@[simp] theorem modDie_parts (s : State) (d : Nat) (f : Die → Die) : (modDie s d f).parts = s.parts := rfl
@[simp] theorem modDie_weights (s : State) (d : Nat) (f : Die → Die) : (modDie s d f).weights = s.weights := rfl
@[simp] theorem modDie_shares (s : State) (d : Nat) (f : Die → Die) : (modDie s d f).shares = s.shares := rfl
@[simp] theorem modDie_sessions (s : State) (d : Nat) (f : Die → Die) : (modDie s d f).sessions = s.sessions := rfl
@[simp] theorem modDie_scrubOn (s : State) (d : Nat) (f : Die → Die) : (modDie s d f).scrubOn = s.scrubOn := rfl
@[simp] theorem modDie_alarm (s : State) (d : Nat) (f : Die → Die) : (modDie s d f).alarm = s.alarm := rfl
@[simp] theorem modDie_coolant (s : State) (d : Nat) (f : Die → Die) : (modDie s d f).coolant = s.coolant := rfl
@[simp] theorem modDie_sTemp (s : State) (d : Nat) (f : Die → Die) : (modDie s d f).sTemp = s.sTemp := rfl
@[simp] theorem modDie_sBand (s : State) (d : Nat) (f : Die → Die) : (modDie s d f).sBand = s.sBand := rfl
@[simp] theorem modDie_boot (s : State) (d : Nat) (f : Die → Die) : (modDie s d f).boot = s.boot := rfl
@[simp] theorem modDie_fenced (s : State) (d : Nat) (f : Die → Die) : (modDie s d f).fenced = s.fenced := rfl
@[simp] theorem modDie_notices (s : State) (d : Nat) (f : Die → Die) : (modDie s d f).notices = s.notices := rfl
@[simp] theorem modDie_inputs (s : State) (d : Nat) (f : Die → Die) : (modDie s d f).inputs = s.inputs := rfl
@[simp] theorem modDie_ticks (s : State) (d : Nat) (f : Die → Die) : (modDie s d f).ticks = s.ticks := rfl
@[simp] theorem modDie_cycleOver (s : State) (d : Nat) (f : Die → Die) : (modDie s d f).cycleOver = s.cycleOver := rfl
@[simp] theorem modDie_free (s : State) (d : Nat) (f : Die → Die) : (modDie s d f).free = s.free := rfl
@[simp] theorem modDie_cur (s : State) (d : Nat) (f : Die → Die) : (modDie s d f).cur = s.cur := rfl
@[simp] theorem modDie_turn (s : State) (d : Nat) (f : Die → Die) : (modDie s d f).turn = s.turn := rfl
@[simp] theorem modDie_nextId (s : State) (d : Nat) (f : Die → Die) : (modDie s d f).nextId = s.nextId := rfl

/-! `mapDies` changes dies only. -/

@[simp] theorem mapDies_clk (s : State) (f : Die → Die) : (mapDies s f).clk = s.clk := rfl
@[simp] theorem mapDies_mem (s : State) (f : Die → Die) : (mapDies s f).mem = s.mem := rfl
@[simp] theorem mapDies_poison (s : State) (f : Die → Die) : (mapDies s f).poison = s.poison := rfl
@[simp] theorem mapDies_l2 (s : State) (f : Die → Die) : (mapDies s f).l2 = s.l2 := rfl
@[simp] theorem mapDies_sectorCopies (s : State) (f : Die → Die) : (mapDies s f).sectorCopies = s.sectorCopies := rfl
@[simp] theorem mapDies_hbm (s : State) (f : Die → Die) : (mapDies s f).hbm = s.hbm := rfl
@[simp] theorem mapDies_past (s : State) (f : Die → Die) : (mapDies s f).past = s.past := rfl
@[simp] theorem mapDies_wrote (s : State) (f : Die → Die) : (mapDies s f).wrote = s.wrote := rfl
@[simp] theorem mapDies_cores (s : State) (f : Die → Die) : (mapDies s f).cores = s.cores := rfl
@[simp] theorem mapDies_strips (s : State) (f : Die → Die) : (mapDies s f).strips = s.strips := rfl
@[simp] theorem mapDies_wgs (s : State) (f : Die → Die) : (mapDies s f).wgs = s.wgs := rfl
@[simp] theorem mapDies_launches (s : State) (f : Die → Die) : (mapDies s f).launches = s.launches := rfl
@[simp] theorem mapDies_graphs (s : State) (f : Die → Die) : (mapDies s f).graphs = s.graphs := rfl
@[simp] theorem mapDies_copies (s : State) (f : Die → Die) : (mapDies s f).copies = s.copies := rfl
@[simp] theorem mapDies_nodeQueues (s : State) (f : Die → Die) : (mapDies s f).nodeQueues = s.nodeQueues := rfl
@[simp] theorem mapDies_queues (s : State) (f : Die → Die) : (mapDies s f).queues = s.queues := rfl
@[simp] theorem mapDies_net (s : State) (f : Die → Die) : (mapDies s f).net = s.net := rfl
@[simp] theorem mapDies_halos (s : State) (f : Die → Die) : (mapDies s f).halos = s.halos := rfl
@[simp] theorem mapDies_phaseEvents (s : State) (f : Die → Die) : (mapDies s f).phaseEvents = s.phaseEvents := rfl
@[simp] theorem mapDies_dieWaits (s : State) (f : Die → Die) : (mapDies s f).dieWaits = s.dieWaits := rfl
@[simp] theorem mapDies_owed (s : State) (f : Die → Die) : (mapDies s f).owed = s.owed := rfl
@[simp] theorem mapDies_phases (s : State) (f : Die → Die) : (mapDies s f).phases = s.phases := rfl
@[simp] theorem mapDies_conns (s : State) (f : Die → Die) : (mapDies s f).conns = s.conns := rfl
@[simp] theorem mapDies_links (s : State) (f : Die → Die) : (mapDies s f).links = s.links := rfl
@[simp] theorem mapDies_linksDown (s : State) (f : Die → Die) : (mapDies s f).linksDown = s.linksDown := rfl
@[simp] theorem mapDies_heads (s : State) (f : Die → Die) : (mapDies s f).heads = s.heads := rfl
@[simp] theorem mapDies_encoders (s : State) (f : Die → Die) : (mapDies s f).encoders = s.encoders := rfl
@[simp] theorem mapDies_iommu (s : State) (f : Die → Die) : (mapDies s f).iommu = s.iommu := rfl
@[simp] theorem mapDies_parts (s : State) (f : Die → Die) : (mapDies s f).parts = s.parts := rfl
@[simp] theorem mapDies_weights (s : State) (f : Die → Die) : (mapDies s f).weights = s.weights := rfl
@[simp] theorem mapDies_shares (s : State) (f : Die → Die) : (mapDies s f).shares = s.shares := rfl
@[simp] theorem mapDies_sessions (s : State) (f : Die → Die) : (mapDies s f).sessions = s.sessions := rfl
@[simp] theorem mapDies_scrubOn (s : State) (f : Die → Die) : (mapDies s f).scrubOn = s.scrubOn := rfl
@[simp] theorem mapDies_alarm (s : State) (f : Die → Die) : (mapDies s f).alarm = s.alarm := rfl
@[simp] theorem mapDies_coolant (s : State) (f : Die → Die) : (mapDies s f).coolant = s.coolant := rfl
@[simp] theorem mapDies_sTemp (s : State) (f : Die → Die) : (mapDies s f).sTemp = s.sTemp := rfl
@[simp] theorem mapDies_sBand (s : State) (f : Die → Die) : (mapDies s f).sBand = s.sBand := rfl
@[simp] theorem mapDies_boot (s : State) (f : Die → Die) : (mapDies s f).boot = s.boot := rfl
@[simp] theorem mapDies_fenced (s : State) (f : Die → Die) : (mapDies s f).fenced = s.fenced := rfl
@[simp] theorem mapDies_notices (s : State) (f : Die → Die) : (mapDies s f).notices = s.notices := rfl
@[simp] theorem mapDies_inputs (s : State) (f : Die → Die) : (mapDies s f).inputs = s.inputs := rfl
@[simp] theorem mapDies_ticks (s : State) (f : Die → Die) : (mapDies s f).ticks = s.ticks := rfl
@[simp] theorem mapDies_cycleOver (s : State) (f : Die → Die) : (mapDies s f).cycleOver = s.cycleOver := rfl
@[simp] theorem mapDies_free (s : State) (f : Die → Die) : (mapDies s f).free = s.free := rfl
@[simp] theorem mapDies_cur (s : State) (f : Die → Die) : (mapDies s f).cur = s.cur := rfl
@[simp] theorem mapDies_turn (s : State) (f : Die → Die) : (mapDies s f).turn = s.turn := rfl
@[simp] theorem mapDies_nextId (s : State) (f : Die → Die) : (mapDies s f).nextId = s.nextId := rfl

/-! `modWg` changes workgroups only. -/

@[simp] theorem modWg_clk (s : State) (id : Nat) (f : Wg → Wg) : (modWg s id f).clk = s.clk := rfl
@[simp] theorem modWg_mem (s : State) (id : Nat) (f : Wg → Wg) : (modWg s id f).mem = s.mem := rfl
@[simp] theorem modWg_poison (s : State) (id : Nat) (f : Wg → Wg) : (modWg s id f).poison = s.poison := rfl
@[simp] theorem modWg_l2 (s : State) (id : Nat) (f : Wg → Wg) : (modWg s id f).l2 = s.l2 := rfl
@[simp] theorem modWg_sectorCopies (s : State) (id : Nat) (f : Wg → Wg) : (modWg s id f).sectorCopies = s.sectorCopies := rfl
@[simp] theorem modWg_hbm (s : State) (id : Nat) (f : Wg → Wg) : (modWg s id f).hbm = s.hbm := rfl
@[simp] theorem modWg_past (s : State) (id : Nat) (f : Wg → Wg) : (modWg s id f).past = s.past := rfl
@[simp] theorem modWg_wrote (s : State) (id : Nat) (f : Wg → Wg) : (modWg s id f).wrote = s.wrote := rfl
@[simp] theorem modWg_cores (s : State) (id : Nat) (f : Wg → Wg) : (modWg s id f).cores = s.cores := rfl
@[simp] theorem modWg_dies (s : State) (id : Nat) (f : Wg → Wg) : (modWg s id f).dies = s.dies := rfl
@[simp] theorem modWg_strips (s : State) (id : Nat) (f : Wg → Wg) : (modWg s id f).strips = s.strips := rfl
@[simp] theorem modWg_launches (s : State) (id : Nat) (f : Wg → Wg) : (modWg s id f).launches = s.launches := rfl
@[simp] theorem modWg_graphs (s : State) (id : Nat) (f : Wg → Wg) : (modWg s id f).graphs = s.graphs := rfl
@[simp] theorem modWg_copies (s : State) (id : Nat) (f : Wg → Wg) : (modWg s id f).copies = s.copies := rfl
@[simp] theorem modWg_nodeQueues (s : State) (id : Nat) (f : Wg → Wg) : (modWg s id f).nodeQueues = s.nodeQueues := rfl
@[simp] theorem modWg_queues (s : State) (id : Nat) (f : Wg → Wg) : (modWg s id f).queues = s.queues := rfl
@[simp] theorem modWg_net (s : State) (id : Nat) (f : Wg → Wg) : (modWg s id f).net = s.net := rfl
@[simp] theorem modWg_halos (s : State) (id : Nat) (f : Wg → Wg) : (modWg s id f).halos = s.halos := rfl
@[simp] theorem modWg_phaseEvents (s : State) (id : Nat) (f : Wg → Wg) : (modWg s id f).phaseEvents = s.phaseEvents := rfl
@[simp] theorem modWg_dieWaits (s : State) (id : Nat) (f : Wg → Wg) : (modWg s id f).dieWaits = s.dieWaits := rfl
@[simp] theorem modWg_owed (s : State) (id : Nat) (f : Wg → Wg) : (modWg s id f).owed = s.owed := rfl
@[simp] theorem modWg_phases (s : State) (id : Nat) (f : Wg → Wg) : (modWg s id f).phases = s.phases := rfl
@[simp] theorem modWg_conns (s : State) (id : Nat) (f : Wg → Wg) : (modWg s id f).conns = s.conns := rfl
@[simp] theorem modWg_links (s : State) (id : Nat) (f : Wg → Wg) : (modWg s id f).links = s.links := rfl
@[simp] theorem modWg_linksDown (s : State) (id : Nat) (f : Wg → Wg) : (modWg s id f).linksDown = s.linksDown := rfl
@[simp] theorem modWg_heads (s : State) (id : Nat) (f : Wg → Wg) : (modWg s id f).heads = s.heads := rfl
@[simp] theorem modWg_encoders (s : State) (id : Nat) (f : Wg → Wg) : (modWg s id f).encoders = s.encoders := rfl
@[simp] theorem modWg_iommu (s : State) (id : Nat) (f : Wg → Wg) : (modWg s id f).iommu = s.iommu := rfl
@[simp] theorem modWg_parts (s : State) (id : Nat) (f : Wg → Wg) : (modWg s id f).parts = s.parts := rfl
@[simp] theorem modWg_weights (s : State) (id : Nat) (f : Wg → Wg) : (modWg s id f).weights = s.weights := rfl
@[simp] theorem modWg_shares (s : State) (id : Nat) (f : Wg → Wg) : (modWg s id f).shares = s.shares := rfl
@[simp] theorem modWg_sessions (s : State) (id : Nat) (f : Wg → Wg) : (modWg s id f).sessions = s.sessions := rfl
@[simp] theorem modWg_scrubOn (s : State) (id : Nat) (f : Wg → Wg) : (modWg s id f).scrubOn = s.scrubOn := rfl
@[simp] theorem modWg_alarm (s : State) (id : Nat) (f : Wg → Wg) : (modWg s id f).alarm = s.alarm := rfl
@[simp] theorem modWg_coolant (s : State) (id : Nat) (f : Wg → Wg) : (modWg s id f).coolant = s.coolant := rfl
@[simp] theorem modWg_sTemp (s : State) (id : Nat) (f : Wg → Wg) : (modWg s id f).sTemp = s.sTemp := rfl
@[simp] theorem modWg_sBand (s : State) (id : Nat) (f : Wg → Wg) : (modWg s id f).sBand = s.sBand := rfl
@[simp] theorem modWg_boot (s : State) (id : Nat) (f : Wg → Wg) : (modWg s id f).boot = s.boot := rfl
@[simp] theorem modWg_fenced (s : State) (id : Nat) (f : Wg → Wg) : (modWg s id f).fenced = s.fenced := rfl
@[simp] theorem modWg_notices (s : State) (id : Nat) (f : Wg → Wg) : (modWg s id f).notices = s.notices := rfl
@[simp] theorem modWg_inputs (s : State) (id : Nat) (f : Wg → Wg) : (modWg s id f).inputs = s.inputs := rfl
@[simp] theorem modWg_ticks (s : State) (id : Nat) (f : Wg → Wg) : (modWg s id f).ticks = s.ticks := rfl
@[simp] theorem modWg_cycleOver (s : State) (id : Nat) (f : Wg → Wg) : (modWg s id f).cycleOver = s.cycleOver := rfl
@[simp] theorem modWg_free (s : State) (id : Nat) (f : Wg → Wg) : (modWg s id f).free = s.free := rfl
@[simp] theorem modWg_cur (s : State) (id : Nat) (f : Wg → Wg) : (modWg s id f).cur = s.cur := rfl
@[simp] theorem modWg_turn (s : State) (id : Nat) (f : Wg → Wg) : (modWg s id f).turn = s.turn := rfl
@[simp] theorem modWg_nextId (s : State) (id : Nat) (f : Wg → Wg) : (modWg s id f).nextId = s.nextId := rfl

/-! `modLaunch` changes launches only. -/

@[simp] theorem modLaunch_clk (s : State) (id : Nat) (f : Launch → Launch) : (modLaunch s id f).clk = s.clk := rfl
@[simp] theorem modLaunch_mem (s : State) (id : Nat) (f : Launch → Launch) : (modLaunch s id f).mem = s.mem := rfl
@[simp] theorem modLaunch_poison (s : State) (id : Nat) (f : Launch → Launch) : (modLaunch s id f).poison = s.poison := rfl
@[simp] theorem modLaunch_l2 (s : State) (id : Nat) (f : Launch → Launch) : (modLaunch s id f).l2 = s.l2 := rfl
@[simp] theorem modLaunch_sectorCopies (s : State) (id : Nat) (f : Launch → Launch) : (modLaunch s id f).sectorCopies = s.sectorCopies := rfl
@[simp] theorem modLaunch_hbm (s : State) (id : Nat) (f : Launch → Launch) : (modLaunch s id f).hbm = s.hbm := rfl
@[simp] theorem modLaunch_past (s : State) (id : Nat) (f : Launch → Launch) : (modLaunch s id f).past = s.past := rfl
@[simp] theorem modLaunch_wrote (s : State) (id : Nat) (f : Launch → Launch) : (modLaunch s id f).wrote = s.wrote := rfl
@[simp] theorem modLaunch_cores (s : State) (id : Nat) (f : Launch → Launch) : (modLaunch s id f).cores = s.cores := rfl
@[simp] theorem modLaunch_dies (s : State) (id : Nat) (f : Launch → Launch) : (modLaunch s id f).dies = s.dies := rfl
@[simp] theorem modLaunch_strips (s : State) (id : Nat) (f : Launch → Launch) : (modLaunch s id f).strips = s.strips := rfl
@[simp] theorem modLaunch_wgs (s : State) (id : Nat) (f : Launch → Launch) : (modLaunch s id f).wgs = s.wgs := rfl
@[simp] theorem modLaunch_graphs (s : State) (id : Nat) (f : Launch → Launch) : (modLaunch s id f).graphs = s.graphs := rfl
@[simp] theorem modLaunch_copies (s : State) (id : Nat) (f : Launch → Launch) : (modLaunch s id f).copies = s.copies := rfl
@[simp] theorem modLaunch_nodeQueues (s : State) (id : Nat) (f : Launch → Launch) : (modLaunch s id f).nodeQueues = s.nodeQueues := rfl
@[simp] theorem modLaunch_queues (s : State) (id : Nat) (f : Launch → Launch) : (modLaunch s id f).queues = s.queues := rfl
@[simp] theorem modLaunch_net (s : State) (id : Nat) (f : Launch → Launch) : (modLaunch s id f).net = s.net := rfl
@[simp] theorem modLaunch_halos (s : State) (id : Nat) (f : Launch → Launch) : (modLaunch s id f).halos = s.halos := rfl
@[simp] theorem modLaunch_phaseEvents (s : State) (id : Nat) (f : Launch → Launch) : (modLaunch s id f).phaseEvents = s.phaseEvents := rfl
@[simp] theorem modLaunch_dieWaits (s : State) (id : Nat) (f : Launch → Launch) : (modLaunch s id f).dieWaits = s.dieWaits := rfl
@[simp] theorem modLaunch_owed (s : State) (id : Nat) (f : Launch → Launch) : (modLaunch s id f).owed = s.owed := rfl
@[simp] theorem modLaunch_phases (s : State) (id : Nat) (f : Launch → Launch) : (modLaunch s id f).phases = s.phases := rfl
@[simp] theorem modLaunch_conns (s : State) (id : Nat) (f : Launch → Launch) : (modLaunch s id f).conns = s.conns := rfl
@[simp] theorem modLaunch_links (s : State) (id : Nat) (f : Launch → Launch) : (modLaunch s id f).links = s.links := rfl
@[simp] theorem modLaunch_linksDown (s : State) (id : Nat) (f : Launch → Launch) : (modLaunch s id f).linksDown = s.linksDown := rfl
@[simp] theorem modLaunch_heads (s : State) (id : Nat) (f : Launch → Launch) : (modLaunch s id f).heads = s.heads := rfl
@[simp] theorem modLaunch_encoders (s : State) (id : Nat) (f : Launch → Launch) : (modLaunch s id f).encoders = s.encoders := rfl
@[simp] theorem modLaunch_iommu (s : State) (id : Nat) (f : Launch → Launch) : (modLaunch s id f).iommu = s.iommu := rfl
@[simp] theorem modLaunch_parts (s : State) (id : Nat) (f : Launch → Launch) : (modLaunch s id f).parts = s.parts := rfl
@[simp] theorem modLaunch_weights (s : State) (id : Nat) (f : Launch → Launch) : (modLaunch s id f).weights = s.weights := rfl
@[simp] theorem modLaunch_shares (s : State) (id : Nat) (f : Launch → Launch) : (modLaunch s id f).shares = s.shares := rfl
@[simp] theorem modLaunch_sessions (s : State) (id : Nat) (f : Launch → Launch) : (modLaunch s id f).sessions = s.sessions := rfl
@[simp] theorem modLaunch_scrubOn (s : State) (id : Nat) (f : Launch → Launch) : (modLaunch s id f).scrubOn = s.scrubOn := rfl
@[simp] theorem modLaunch_alarm (s : State) (id : Nat) (f : Launch → Launch) : (modLaunch s id f).alarm = s.alarm := rfl
@[simp] theorem modLaunch_coolant (s : State) (id : Nat) (f : Launch → Launch) : (modLaunch s id f).coolant = s.coolant := rfl
@[simp] theorem modLaunch_sTemp (s : State) (id : Nat) (f : Launch → Launch) : (modLaunch s id f).sTemp = s.sTemp := rfl
@[simp] theorem modLaunch_sBand (s : State) (id : Nat) (f : Launch → Launch) : (modLaunch s id f).sBand = s.sBand := rfl
@[simp] theorem modLaunch_boot (s : State) (id : Nat) (f : Launch → Launch) : (modLaunch s id f).boot = s.boot := rfl
@[simp] theorem modLaunch_fenced (s : State) (id : Nat) (f : Launch → Launch) : (modLaunch s id f).fenced = s.fenced := rfl
@[simp] theorem modLaunch_notices (s : State) (id : Nat) (f : Launch → Launch) : (modLaunch s id f).notices = s.notices := rfl
@[simp] theorem modLaunch_inputs (s : State) (id : Nat) (f : Launch → Launch) : (modLaunch s id f).inputs = s.inputs := rfl
@[simp] theorem modLaunch_ticks (s : State) (id : Nat) (f : Launch → Launch) : (modLaunch s id f).ticks = s.ticks := rfl
@[simp] theorem modLaunch_cycleOver (s : State) (id : Nat) (f : Launch → Launch) : (modLaunch s id f).cycleOver = s.cycleOver := rfl
@[simp] theorem modLaunch_free (s : State) (id : Nat) (f : Launch → Launch) : (modLaunch s id f).free = s.free := rfl
@[simp] theorem modLaunch_cur (s : State) (id : Nat) (f : Launch → Launch) : (modLaunch s id f).cur = s.cur := rfl
@[simp] theorem modLaunch_turn (s : State) (id : Nat) (f : Launch → Launch) : (modLaunch s id f).turn = s.turn := rfl
@[simp] theorem modLaunch_nextId (s : State) (id : Nat) (f : Launch → Launch) : (modLaunch s id f).nextId = s.nextId := rfl

/-! `modQueue` changes queues only. -/

@[simp] theorem modQueue_clk (s : State) (q : Nat) (f : Queue → Queue) : (modQueue s q f).clk = s.clk := rfl
@[simp] theorem modQueue_mem (s : State) (q : Nat) (f : Queue → Queue) : (modQueue s q f).mem = s.mem := rfl
@[simp] theorem modQueue_poison (s : State) (q : Nat) (f : Queue → Queue) : (modQueue s q f).poison = s.poison := rfl
@[simp] theorem modQueue_l2 (s : State) (q : Nat) (f : Queue → Queue) : (modQueue s q f).l2 = s.l2 := rfl
@[simp] theorem modQueue_sectorCopies (s : State) (q : Nat) (f : Queue → Queue) : (modQueue s q f).sectorCopies = s.sectorCopies := rfl
@[simp] theorem modQueue_hbm (s : State) (q : Nat) (f : Queue → Queue) : (modQueue s q f).hbm = s.hbm := rfl
@[simp] theorem modQueue_past (s : State) (q : Nat) (f : Queue → Queue) : (modQueue s q f).past = s.past := rfl
@[simp] theorem modQueue_wrote (s : State) (q : Nat) (f : Queue → Queue) : (modQueue s q f).wrote = s.wrote := rfl
@[simp] theorem modQueue_cores (s : State) (q : Nat) (f : Queue → Queue) : (modQueue s q f).cores = s.cores := rfl
@[simp] theorem modQueue_dies (s : State) (q : Nat) (f : Queue → Queue) : (modQueue s q f).dies = s.dies := rfl
@[simp] theorem modQueue_strips (s : State) (q : Nat) (f : Queue → Queue) : (modQueue s q f).strips = s.strips := rfl
@[simp] theorem modQueue_wgs (s : State) (q : Nat) (f : Queue → Queue) : (modQueue s q f).wgs = s.wgs := rfl
@[simp] theorem modQueue_launches (s : State) (q : Nat) (f : Queue → Queue) : (modQueue s q f).launches = s.launches := rfl
@[simp] theorem modQueue_graphs (s : State) (q : Nat) (f : Queue → Queue) : (modQueue s q f).graphs = s.graphs := rfl
@[simp] theorem modQueue_copies (s : State) (q : Nat) (f : Queue → Queue) : (modQueue s q f).copies = s.copies := rfl
@[simp] theorem modQueue_nodeQueues (s : State) (q : Nat) (f : Queue → Queue) : (modQueue s q f).nodeQueues = s.nodeQueues := rfl
@[simp] theorem modQueue_net (s : State) (q : Nat) (f : Queue → Queue) : (modQueue s q f).net = s.net := rfl
@[simp] theorem modQueue_halos (s : State) (q : Nat) (f : Queue → Queue) : (modQueue s q f).halos = s.halos := rfl
@[simp] theorem modQueue_phaseEvents (s : State) (q : Nat) (f : Queue → Queue) : (modQueue s q f).phaseEvents = s.phaseEvents := rfl
@[simp] theorem modQueue_dieWaits (s : State) (q : Nat) (f : Queue → Queue) : (modQueue s q f).dieWaits = s.dieWaits := rfl
@[simp] theorem modQueue_owed (s : State) (q : Nat) (f : Queue → Queue) : (modQueue s q f).owed = s.owed := rfl
@[simp] theorem modQueue_phases (s : State) (q : Nat) (f : Queue → Queue) : (modQueue s q f).phases = s.phases := rfl
@[simp] theorem modQueue_conns (s : State) (q : Nat) (f : Queue → Queue) : (modQueue s q f).conns = s.conns := rfl
@[simp] theorem modQueue_links (s : State) (q : Nat) (f : Queue → Queue) : (modQueue s q f).links = s.links := rfl
@[simp] theorem modQueue_linksDown (s : State) (q : Nat) (f : Queue → Queue) : (modQueue s q f).linksDown = s.linksDown := rfl
@[simp] theorem modQueue_heads (s : State) (q : Nat) (f : Queue → Queue) : (modQueue s q f).heads = s.heads := rfl
@[simp] theorem modQueue_encoders (s : State) (q : Nat) (f : Queue → Queue) : (modQueue s q f).encoders = s.encoders := rfl
@[simp] theorem modQueue_iommu (s : State) (q : Nat) (f : Queue → Queue) : (modQueue s q f).iommu = s.iommu := rfl
@[simp] theorem modQueue_parts (s : State) (q : Nat) (f : Queue → Queue) : (modQueue s q f).parts = s.parts := rfl
@[simp] theorem modQueue_weights (s : State) (q : Nat) (f : Queue → Queue) : (modQueue s q f).weights = s.weights := rfl
@[simp] theorem modQueue_shares (s : State) (q : Nat) (f : Queue → Queue) : (modQueue s q f).shares = s.shares := rfl
@[simp] theorem modQueue_sessions (s : State) (q : Nat) (f : Queue → Queue) : (modQueue s q f).sessions = s.sessions := rfl
@[simp] theorem modQueue_scrubOn (s : State) (q : Nat) (f : Queue → Queue) : (modQueue s q f).scrubOn = s.scrubOn := rfl
@[simp] theorem modQueue_alarm (s : State) (q : Nat) (f : Queue → Queue) : (modQueue s q f).alarm = s.alarm := rfl
@[simp] theorem modQueue_coolant (s : State) (q : Nat) (f : Queue → Queue) : (modQueue s q f).coolant = s.coolant := rfl
@[simp] theorem modQueue_sTemp (s : State) (q : Nat) (f : Queue → Queue) : (modQueue s q f).sTemp = s.sTemp := rfl
@[simp] theorem modQueue_sBand (s : State) (q : Nat) (f : Queue → Queue) : (modQueue s q f).sBand = s.sBand := rfl
@[simp] theorem modQueue_boot (s : State) (q : Nat) (f : Queue → Queue) : (modQueue s q f).boot = s.boot := rfl
@[simp] theorem modQueue_fenced (s : State) (q : Nat) (f : Queue → Queue) : (modQueue s q f).fenced = s.fenced := rfl
@[simp] theorem modQueue_notices (s : State) (q : Nat) (f : Queue → Queue) : (modQueue s q f).notices = s.notices := rfl
@[simp] theorem modQueue_inputs (s : State) (q : Nat) (f : Queue → Queue) : (modQueue s q f).inputs = s.inputs := rfl
@[simp] theorem modQueue_ticks (s : State) (q : Nat) (f : Queue → Queue) : (modQueue s q f).ticks = s.ticks := rfl
@[simp] theorem modQueue_cycleOver (s : State) (q : Nat) (f : Queue → Queue) : (modQueue s q f).cycleOver = s.cycleOver := rfl
@[simp] theorem modQueue_free (s : State) (q : Nat) (f : Queue → Queue) : (modQueue s q f).free = s.free := rfl
@[simp] theorem modQueue_cur (s : State) (q : Nat) (f : Queue → Queue) : (modQueue s q f).cur = s.cur := rfl
@[simp] theorem modQueue_turn (s : State) (q : Nat) (f : Queue → Queue) : (modQueue s q f).turn = s.turn := rfl
@[simp] theorem modQueue_nextId (s : State) (q : Nat) (f : Queue → Queue) : (modQueue s q f).nextId = s.nextId := rfl

/-! `modHead` changes display heads only. -/

@[simp] theorem modHead_clk (s : State) (h : Nat) (g : Head → Head) : (modHead s h g).clk = s.clk := rfl
@[simp] theorem modHead_mem (s : State) (h : Nat) (g : Head → Head) : (modHead s h g).mem = s.mem := rfl
@[simp] theorem modHead_poison (s : State) (h : Nat) (g : Head → Head) : (modHead s h g).poison = s.poison := rfl
@[simp] theorem modHead_l2 (s : State) (h : Nat) (g : Head → Head) : (modHead s h g).l2 = s.l2 := rfl
@[simp] theorem modHead_sectorCopies (s : State) (h : Nat) (g : Head → Head) : (modHead s h g).sectorCopies = s.sectorCopies := rfl
@[simp] theorem modHead_hbm (s : State) (h : Nat) (g : Head → Head) : (modHead s h g).hbm = s.hbm := rfl
@[simp] theorem modHead_past (s : State) (h : Nat) (g : Head → Head) : (modHead s h g).past = s.past := rfl
@[simp] theorem modHead_wrote (s : State) (h : Nat) (g : Head → Head) : (modHead s h g).wrote = s.wrote := rfl
@[simp] theorem modHead_cores (s : State) (h : Nat) (g : Head → Head) : (modHead s h g).cores = s.cores := rfl
@[simp] theorem modHead_dies (s : State) (h : Nat) (g : Head → Head) : (modHead s h g).dies = s.dies := rfl
@[simp] theorem modHead_strips (s : State) (h : Nat) (g : Head → Head) : (modHead s h g).strips = s.strips := rfl
@[simp] theorem modHead_wgs (s : State) (h : Nat) (g : Head → Head) : (modHead s h g).wgs = s.wgs := rfl
@[simp] theorem modHead_launches (s : State) (h : Nat) (g : Head → Head) : (modHead s h g).launches = s.launches := rfl
@[simp] theorem modHead_graphs (s : State) (h : Nat) (g : Head → Head) : (modHead s h g).graphs = s.graphs := rfl
@[simp] theorem modHead_copies (s : State) (h : Nat) (g : Head → Head) : (modHead s h g).copies = s.copies := rfl
@[simp] theorem modHead_nodeQueues (s : State) (h : Nat) (g : Head → Head) : (modHead s h g).nodeQueues = s.nodeQueues := rfl
@[simp] theorem modHead_queues (s : State) (h : Nat) (g : Head → Head) : (modHead s h g).queues = s.queues := rfl
@[simp] theorem modHead_net (s : State) (h : Nat) (g : Head → Head) : (modHead s h g).net = s.net := rfl
@[simp] theorem modHead_halos (s : State) (h : Nat) (g : Head → Head) : (modHead s h g).halos = s.halos := rfl
@[simp] theorem modHead_phaseEvents (s : State) (h : Nat) (g : Head → Head) : (modHead s h g).phaseEvents = s.phaseEvents := rfl
@[simp] theorem modHead_dieWaits (s : State) (h : Nat) (g : Head → Head) : (modHead s h g).dieWaits = s.dieWaits := rfl
@[simp] theorem modHead_owed (s : State) (h : Nat) (g : Head → Head) : (modHead s h g).owed = s.owed := rfl
@[simp] theorem modHead_phases (s : State) (h : Nat) (g : Head → Head) : (modHead s h g).phases = s.phases := rfl
@[simp] theorem modHead_conns (s : State) (h : Nat) (g : Head → Head) : (modHead s h g).conns = s.conns := rfl
@[simp] theorem modHead_links (s : State) (h : Nat) (g : Head → Head) : (modHead s h g).links = s.links := rfl
@[simp] theorem modHead_linksDown (s : State) (h : Nat) (g : Head → Head) : (modHead s h g).linksDown = s.linksDown := rfl
@[simp] theorem modHead_encoders (s : State) (h : Nat) (g : Head → Head) : (modHead s h g).encoders = s.encoders := rfl
@[simp] theorem modHead_iommu (s : State) (h : Nat) (g : Head → Head) : (modHead s h g).iommu = s.iommu := rfl
@[simp] theorem modHead_parts (s : State) (h : Nat) (g : Head → Head) : (modHead s h g).parts = s.parts := rfl
@[simp] theorem modHead_weights (s : State) (h : Nat) (g : Head → Head) : (modHead s h g).weights = s.weights := rfl
@[simp] theorem modHead_shares (s : State) (h : Nat) (g : Head → Head) : (modHead s h g).shares = s.shares := rfl
@[simp] theorem modHead_sessions (s : State) (h : Nat) (g : Head → Head) : (modHead s h g).sessions = s.sessions := rfl
@[simp] theorem modHead_scrubOn (s : State) (h : Nat) (g : Head → Head) : (modHead s h g).scrubOn = s.scrubOn := rfl
@[simp] theorem modHead_alarm (s : State) (h : Nat) (g : Head → Head) : (modHead s h g).alarm = s.alarm := rfl
@[simp] theorem modHead_coolant (s : State) (h : Nat) (g : Head → Head) : (modHead s h g).coolant = s.coolant := rfl
@[simp] theorem modHead_sTemp (s : State) (h : Nat) (g : Head → Head) : (modHead s h g).sTemp = s.sTemp := rfl
@[simp] theorem modHead_sBand (s : State) (h : Nat) (g : Head → Head) : (modHead s h g).sBand = s.sBand := rfl
@[simp] theorem modHead_boot (s : State) (h : Nat) (g : Head → Head) : (modHead s h g).boot = s.boot := rfl
@[simp] theorem modHead_fenced (s : State) (h : Nat) (g : Head → Head) : (modHead s h g).fenced = s.fenced := rfl
@[simp] theorem modHead_notices (s : State) (h : Nat) (g : Head → Head) : (modHead s h g).notices = s.notices := rfl
@[simp] theorem modHead_inputs (s : State) (h : Nat) (g : Head → Head) : (modHead s h g).inputs = s.inputs := rfl
@[simp] theorem modHead_ticks (s : State) (h : Nat) (g : Head → Head) : (modHead s h g).ticks = s.ticks := rfl
@[simp] theorem modHead_cycleOver (s : State) (h : Nat) (g : Head → Head) : (modHead s h g).cycleOver = s.cycleOver := rfl
@[simp] theorem modHead_free (s : State) (h : Nat) (g : Head → Head) : (modHead s h g).free = s.free := rfl
@[simp] theorem modHead_cur (s : State) (h : Nat) (g : Head → Head) : (modHead s h g).cur = s.cur := rfl
@[simp] theorem modHead_turn (s : State) (h : Nat) (g : Head → Head) : (modHead s h g).turn = s.turn := rfl
@[simp] theorem modHead_nextId (s : State) (h : Nat) (g : Head → Head) : (modHead s h g).nextId = s.nextId := rfl

/-! `Strip.onStrands`, and with it `setPc`, `advance` and `block`, changes strands only. -/

@[simp] theorem onStrands_wg (p : Strip) (x : Strands) (f : Strand → Strand) : (p.onStrands x f).wg = p.wg := rfl
@[simp] theorem onStrands_index (p : Strip) (x : Strands) (f : Strand → Strand) : (p.onStrands x f).index = p.index := rfl
@[simp] theorem onStrands_die (p : Strip) (x : Strands) (f : Strand → Strand) : (p.onStrands x f).die = p.die := rfl
@[simp] theorem onStrands_core (p : Strip) (x : Strands) (f : Strand → Strand) : (p.onStrands x f).core = p.core := rfl
@[simp] theorem onStrands_bay (p : Strip) (x : Strands) (f : Strand → Strand) : (p.onStrands x f).bay = p.bay := rfl
@[simp] theorem onStrands_slice (p : Strip) (x : Strands) (f : Strand → Strand) : (p.onStrands x f).slice = p.slice := rfl
@[simp] theorem onStrands_slot (p : Strip) (x : Strands) (f : Strand → Strand) : (p.onStrands x f).slot = p.slot := rfl
@[simp] theorem onStrands_v (p : Strip) (x : Strands) (f : Strand → Strand) : (p.onStrands x f).v = p.v := rfl
@[simp] theorem onStrands_s (p : Strip) (x : Strands) (f : Strand → Strand) : (p.onStrands x f).s = p.s := rfl
@[simp] theorem onStrands_sPoison (p : Strip) (x : Strands) (f : Strand → Strand) : (p.onStrands x f).sPoison = p.sPoison := rfl
@[simp] theorem onStrands_status (p : Strip) (x : Strands) (f : Strand → Strand) : (p.onStrands x f).status = p.status := rfl
@[simp] theorem onStrands_fpflags (p : Strip) (x : Strands) (f : Strand → Strand) : (p.onStrands x f).fpflags = p.fpflags := rfl
@[simp] theorem onStrands_tokens (p : Strip) (x : Strands) (f : Strand → Strand) : (p.onStrands x f).tokens = p.tokens := rfl
@[simp] theorem onStrands_flights (p : Strip) (x : Strands) (f : Strand → Strand) : (p.onStrands x f).flights = p.flights := rfl
@[simp] theorem onStrands_floor (p : Strip) (x : Strands) (f : Strand → Strand) : (p.onStrands x f).floor = p.floor := rfl
@[simp] theorem onStrands_cause (p : Strip) (x : Strands) (f : Strand → Strand) : (p.onStrands x f).cause = p.cause := rfl
@[simp] theorem onStrands_mask (p : Strip) (x : Strands) (f : Strand → Strand) : (p.onStrands x f).mask = p.mask := rfl
@[simp] theorem onStrands_trapPc (p : Strip) (x : Strands) (f : Strand → Strand) : (p.onStrands x f).trapPc = p.trapPc := rfl
@[simp] theorem onStrands_trapWord (p : Strip) (x : Strands) (f : Strand → Strand) : (p.onStrands x f).trapWord = p.trapWord := rfl
@[simp] theorem onStrands_info0 (p : Strip) (x : Strands) (f : Strand → Strand) : (p.onStrands x f).info0 = p.info0 := rfl
@[simp] theorem onStrands_info1 (p : Strip) (x : Strands) (f : Strand → Strand) : (p.onStrands x f).info1 = p.info1 := rfl
@[simp] theorem onStrands_asyncs (p : Strip) (x : Strands) (f : Strand → Strand) : (p.onStrands x f).asyncs = p.asyncs := rfl
@[simp] theorem onStrands_waits (p : Strip) (x : Strands) (f : Strand → Strand) : (p.onStrands x f).waits = p.waits := rfl
@[simp] theorem onStrands_noted (p : Strip) (x : Strands) (f : Strand → Strand) : (p.onStrands x f).noted = p.noted := rfl
@[simp] theorem onStrands_zeroFetch (p : Strip) (x : Strands) (f : Strand → Strand) : (p.onStrands x f).zeroFetch = p.zeroFetch := rfl
@[simp] theorem onStrands_fetchX (p : Strip) (x : Strands) (f : Strand → Strand) : (p.onStrands x f).fetchX = p.fetchX := rfl
@[simp] theorem onStrands_yieldUntil (p : Strip) (x : Strands) (f : Strand → Strand) : (p.onStrands x f).yieldUntil = p.yieldUntil := rfl
@[simp] theorem onStrands_lease (p : Strip) (x : Strands) (f : Strand → Strand) : (p.onStrands x f).lease = p.lease := rfl

/-! `Strip.setStatus` changes STRIP_STATUS only. -/

@[simp] theorem setStatus_wg (p : Strip) (b : Word) : (p.setStatus b).wg = p.wg := rfl
@[simp] theorem setStatus_index (p : Strip) (b : Word) : (p.setStatus b).index = p.index := rfl
@[simp] theorem setStatus_die (p : Strip) (b : Word) : (p.setStatus b).die = p.die := rfl
@[simp] theorem setStatus_core (p : Strip) (b : Word) : (p.setStatus b).core = p.core := rfl
@[simp] theorem setStatus_bay (p : Strip) (b : Word) : (p.setStatus b).bay = p.bay := rfl
@[simp] theorem setStatus_slice (p : Strip) (b : Word) : (p.setStatus b).slice = p.slice := rfl
@[simp] theorem setStatus_slot (p : Strip) (b : Word) : (p.setStatus b).slot = p.slot := rfl
@[simp] theorem setStatus_strands (p : Strip) (b : Word) : (p.setStatus b).strands = p.strands := rfl
@[simp] theorem setStatus_v (p : Strip) (b : Word) : (p.setStatus b).v = p.v := rfl
@[simp] theorem setStatus_s (p : Strip) (b : Word) : (p.setStatus b).s = p.s := rfl
@[simp] theorem setStatus_sPoison (p : Strip) (b : Word) : (p.setStatus b).sPoison = p.sPoison := rfl
@[simp] theorem setStatus_fpflags (p : Strip) (b : Word) : (p.setStatus b).fpflags = p.fpflags := rfl
@[simp] theorem setStatus_tokens (p : Strip) (b : Word) : (p.setStatus b).tokens = p.tokens := rfl
@[simp] theorem setStatus_flights (p : Strip) (b : Word) : (p.setStatus b).flights = p.flights := rfl
@[simp] theorem setStatus_floor (p : Strip) (b : Word) : (p.setStatus b).floor = p.floor := rfl
@[simp] theorem setStatus_cause (p : Strip) (b : Word) : (p.setStatus b).cause = p.cause := rfl
@[simp] theorem setStatus_mask (p : Strip) (b : Word) : (p.setStatus b).mask = p.mask := rfl
@[simp] theorem setStatus_trapPc (p : Strip) (b : Word) : (p.setStatus b).trapPc = p.trapPc := rfl
@[simp] theorem setStatus_trapWord (p : Strip) (b : Word) : (p.setStatus b).trapWord = p.trapWord := rfl
@[simp] theorem setStatus_info0 (p : Strip) (b : Word) : (p.setStatus b).info0 = p.info0 := rfl
@[simp] theorem setStatus_info1 (p : Strip) (b : Word) : (p.setStatus b).info1 = p.info1 := rfl
@[simp] theorem setStatus_asyncs (p : Strip) (b : Word) : (p.setStatus b).asyncs = p.asyncs := rfl
@[simp] theorem setStatus_waits (p : Strip) (b : Word) : (p.setStatus b).waits = p.waits := rfl
@[simp] theorem setStatus_noted (p : Strip) (b : Word) : (p.setStatus b).noted = p.noted := rfl
@[simp] theorem setStatus_zeroFetch (p : Strip) (b : Word) : (p.setStatus b).zeroFetch = p.zeroFetch := rfl
@[simp] theorem setStatus_fetchX (p : Strip) (b : Word) : (p.setStatus b).fetchX = p.fetchX := rfl
@[simp] theorem setStatus_yieldUntil (p : Strip) (b : Word) : (p.setStatus b).yieldUntil = p.yieldUntil := rfl
@[simp] theorem setStatus_lease (p : Strip) (b : Word) : (p.setStatus b).lease = p.lease := rfl

/-! `Strip.raise` changes STRIP_FPFLAGS only. -/

@[simp] theorem raise_wg (p : Strip) (fl : Flags) : (p.raise fl).wg = p.wg := rfl
@[simp] theorem raise_index (p : Strip) (fl : Flags) : (p.raise fl).index = p.index := rfl
@[simp] theorem raise_die (p : Strip) (fl : Flags) : (p.raise fl).die = p.die := rfl
@[simp] theorem raise_core (p : Strip) (fl : Flags) : (p.raise fl).core = p.core := rfl
@[simp] theorem raise_bay (p : Strip) (fl : Flags) : (p.raise fl).bay = p.bay := rfl
@[simp] theorem raise_slice (p : Strip) (fl : Flags) : (p.raise fl).slice = p.slice := rfl
@[simp] theorem raise_slot (p : Strip) (fl : Flags) : (p.raise fl).slot = p.slot := rfl
@[simp] theorem raise_strands (p : Strip) (fl : Flags) : (p.raise fl).strands = p.strands := rfl
@[simp] theorem raise_v (p : Strip) (fl : Flags) : (p.raise fl).v = p.v := rfl
@[simp] theorem raise_s (p : Strip) (fl : Flags) : (p.raise fl).s = p.s := rfl
@[simp] theorem raise_sPoison (p : Strip) (fl : Flags) : (p.raise fl).sPoison = p.sPoison := rfl
@[simp] theorem raise_status (p : Strip) (fl : Flags) : (p.raise fl).status = p.status := rfl
@[simp] theorem raise_tokens (p : Strip) (fl : Flags) : (p.raise fl).tokens = p.tokens := rfl
@[simp] theorem raise_floor (p : Strip) (fl : Flags) : (p.raise fl).floor = p.floor := rfl
@[simp] theorem raise_cause (p : Strip) (fl : Flags) : (p.raise fl).cause = p.cause := rfl
@[simp] theorem raise_mask (p : Strip) (fl : Flags) : (p.raise fl).mask = p.mask := rfl
@[simp] theorem raise_trapPc (p : Strip) (fl : Flags) : (p.raise fl).trapPc = p.trapPc := rfl
@[simp] theorem raise_trapWord (p : Strip) (fl : Flags) : (p.raise fl).trapWord = p.trapWord := rfl
@[simp] theorem raise_info0 (p : Strip) (fl : Flags) : (p.raise fl).info0 = p.info0 := rfl
@[simp] theorem raise_info1 (p : Strip) (fl : Flags) : (p.raise fl).info1 = p.info1 := rfl
@[simp] theorem raise_asyncs (p : Strip) (fl : Flags) : (p.raise fl).asyncs = p.asyncs := rfl
@[simp] theorem raise_waits (p : Strip) (fl : Flags) : (p.raise fl).waits = p.waits := rfl
@[simp] theorem raise_zeroFetch (p : Strip) (fl : Flags) : (p.raise fl).zeroFetch = p.zeroFetch := rfl
@[simp] theorem raise_fetchX (p : Strip) (fl : Flags) : (p.raise fl).fetchX = p.fetchX := rfl
@[simp] theorem raise_yieldUntil (p : Strip) (fl : Flags) : (p.raise fl).yieldUntil = p.yieldUntil := rfl
@[simp] theorem raise_lease (p : Strip) (fl : Flags) : (p.raise fl).lease = p.lease := rfl

/-! `Strip.putS` changes s registers only. -/

@[simp] theorem putS_wg (p : Strip) (r : Nat) (w : Word) : (p.putS r w).wg = p.wg := rfl
@[simp] theorem putS_index (p : Strip) (r : Nat) (w : Word) : (p.putS r w).index = p.index := rfl
@[simp] theorem putS_die (p : Strip) (r : Nat) (w : Word) : (p.putS r w).die = p.die := rfl
@[simp] theorem putS_core (p : Strip) (r : Nat) (w : Word) : (p.putS r w).core = p.core := rfl
@[simp] theorem putS_bay (p : Strip) (r : Nat) (w : Word) : (p.putS r w).bay = p.bay := rfl
@[simp] theorem putS_slice (p : Strip) (r : Nat) (w : Word) : (p.putS r w).slice = p.slice := rfl
@[simp] theorem putS_slot (p : Strip) (r : Nat) (w : Word) : (p.putS r w).slot = p.slot := rfl
@[simp] theorem putS_strands (p : Strip) (r : Nat) (w : Word) : (p.putS r w).strands = p.strands := rfl
@[simp] theorem putS_v (p : Strip) (r : Nat) (w : Word) : (p.putS r w).v = p.v := rfl
@[simp] theorem putS_status (p : Strip) (r : Nat) (w : Word) : (p.putS r w).status = p.status := rfl
@[simp] theorem putS_fpflags (p : Strip) (r : Nat) (w : Word) : (p.putS r w).fpflags = p.fpflags := rfl
@[simp] theorem putS_tokens (p : Strip) (r : Nat) (w : Word) : (p.putS r w).tokens = p.tokens := rfl
@[simp] theorem putS_floor (p : Strip) (r : Nat) (w : Word) : (p.putS r w).floor = p.floor := rfl
@[simp] theorem putS_cause (p : Strip) (r : Nat) (w : Word) : (p.putS r w).cause = p.cause := rfl
@[simp] theorem putS_mask (p : Strip) (r : Nat) (w : Word) : (p.putS r w).mask = p.mask := rfl
@[simp] theorem putS_trapPc (p : Strip) (r : Nat) (w : Word) : (p.putS r w).trapPc = p.trapPc := rfl
@[simp] theorem putS_trapWord (p : Strip) (r : Nat) (w : Word) : (p.putS r w).trapWord = p.trapWord := rfl
@[simp] theorem putS_info0 (p : Strip) (r : Nat) (w : Word) : (p.putS r w).info0 = p.info0 := rfl
@[simp] theorem putS_info1 (p : Strip) (r : Nat) (w : Word) : (p.putS r w).info1 = p.info1 := rfl
@[simp] theorem putS_asyncs (p : Strip) (r : Nat) (w : Word) : (p.putS r w).asyncs = p.asyncs := rfl
@[simp] theorem putS_waits (p : Strip) (r : Nat) (w : Word) : (p.putS r w).waits = p.waits := rfl
@[simp] theorem putS_noted (p : Strip) (r : Nat) (w : Word) : (p.putS r w).noted = p.noted := rfl
@[simp] theorem putS_zeroFetch (p : Strip) (r : Nat) (w : Word) : (p.putS r w).zeroFetch = p.zeroFetch := rfl
@[simp] theorem putS_fetchX (p : Strip) (r : Nat) (w : Word) : (p.putS r w).fetchX = p.fetchX := rfl
@[simp] theorem putS_yieldUntil (p : Strip) (r : Nat) (w : Word) : (p.putS r w).yieldUntil = p.yieldUntil := rfl
@[simp] theorem putS_lease (p : Strip) (r : Nat) (w : Word) : (p.putS r w).lease = p.lease := rfl

/-! `Strip.putV` changes v registers only. -/

@[simp] theorem putV_wg (p : Strip) (r : Nat) (x : Strands) (vals : List Word) : (p.putV r x vals).wg = p.wg := rfl
@[simp] theorem putV_index (p : Strip) (r : Nat) (x : Strands) (vals : List Word) : (p.putV r x vals).index = p.index := rfl
@[simp] theorem putV_die (p : Strip) (r : Nat) (x : Strands) (vals : List Word) : (p.putV r x vals).die = p.die := rfl
@[simp] theorem putV_core (p : Strip) (r : Nat) (x : Strands) (vals : List Word) : (p.putV r x vals).core = p.core := rfl
@[simp] theorem putV_bay (p : Strip) (r : Nat) (x : Strands) (vals : List Word) : (p.putV r x vals).bay = p.bay := rfl
@[simp] theorem putV_slice (p : Strip) (r : Nat) (x : Strands) (vals : List Word) : (p.putV r x vals).slice = p.slice := rfl
@[simp] theorem putV_slot (p : Strip) (r : Nat) (x : Strands) (vals : List Word) : (p.putV r x vals).slot = p.slot := rfl
@[simp] theorem putV_strands (p : Strip) (r : Nat) (x : Strands) (vals : List Word) : (p.putV r x vals).strands = p.strands := rfl
@[simp] theorem putV_s (p : Strip) (r : Nat) (x : Strands) (vals : List Word) : (p.putV r x vals).s = p.s := rfl
@[simp] theorem putV_sPoison (p : Strip) (r : Nat) (x : Strands) (vals : List Word) : (p.putV r x vals).sPoison = p.sPoison := rfl
@[simp] theorem putV_status (p : Strip) (r : Nat) (x : Strands) (vals : List Word) : (p.putV r x vals).status = p.status := rfl
@[simp] theorem putV_fpflags (p : Strip) (r : Nat) (x : Strands) (vals : List Word) : (p.putV r x vals).fpflags = p.fpflags := rfl
@[simp] theorem putV_tokens (p : Strip) (r : Nat) (x : Strands) (vals : List Word) : (p.putV r x vals).tokens = p.tokens := rfl
@[simp] theorem putV_floor (p : Strip) (r : Nat) (x : Strands) (vals : List Word) : (p.putV r x vals).floor = p.floor := rfl
@[simp] theorem putV_cause (p : Strip) (r : Nat) (x : Strands) (vals : List Word) : (p.putV r x vals).cause = p.cause := rfl
@[simp] theorem putV_mask (p : Strip) (r : Nat) (x : Strands) (vals : List Word) : (p.putV r x vals).mask = p.mask := rfl
@[simp] theorem putV_trapPc (p : Strip) (r : Nat) (x : Strands) (vals : List Word) : (p.putV r x vals).trapPc = p.trapPc := rfl
@[simp] theorem putV_trapWord (p : Strip) (r : Nat) (x : Strands) (vals : List Word) : (p.putV r x vals).trapWord = p.trapWord := rfl
@[simp] theorem putV_info0 (p : Strip) (r : Nat) (x : Strands) (vals : List Word) : (p.putV r x vals).info0 = p.info0 := rfl
@[simp] theorem putV_info1 (p : Strip) (r : Nat) (x : Strands) (vals : List Word) : (p.putV r x vals).info1 = p.info1 := rfl
@[simp] theorem putV_asyncs (p : Strip) (r : Nat) (x : Strands) (vals : List Word) : (p.putV r x vals).asyncs = p.asyncs := rfl
@[simp] theorem putV_waits (p : Strip) (r : Nat) (x : Strands) (vals : List Word) : (p.putV r x vals).waits = p.waits := rfl
@[simp] theorem putV_noted (p : Strip) (r : Nat) (x : Strands) (vals : List Word) : (p.putV r x vals).noted = p.noted := rfl
@[simp] theorem putV_zeroFetch (p : Strip) (r : Nat) (x : Strands) (vals : List Word) : (p.putV r x vals).zeroFetch = p.zeroFetch := rfl
@[simp] theorem putV_fetchX (p : Strip) (r : Nat) (x : Strands) (vals : List Word) : (p.putV r x vals).fetchX = p.fetchX := rfl
@[simp] theorem putV_yieldUntil (p : Strip) (r : Nat) (x : Strands) (vals : List Word) : (p.putV r x vals).yieldUntil = p.yieldUntil := rfl
@[simp] theorem putV_lease (p : Strip) (r : Nat) (x : Strands) (vals : List Word) : (p.putV r x vals).lease = p.lease := rfl

/-! `Strip.modToken` changes tokens only. -/

@[simp] theorem modToken_wg (p : Strip) (k : Nat) (f : Token → Token) : (p.modToken k f).wg = p.wg := rfl
@[simp] theorem modToken_index (p : Strip) (k : Nat) (f : Token → Token) : (p.modToken k f).index = p.index := rfl
@[simp] theorem modToken_die (p : Strip) (k : Nat) (f : Token → Token) : (p.modToken k f).die = p.die := rfl
@[simp] theorem modToken_core (p : Strip) (k : Nat) (f : Token → Token) : (p.modToken k f).core = p.core := rfl
@[simp] theorem modToken_bay (p : Strip) (k : Nat) (f : Token → Token) : (p.modToken k f).bay = p.bay := rfl
@[simp] theorem modToken_slice (p : Strip) (k : Nat) (f : Token → Token) : (p.modToken k f).slice = p.slice := rfl
@[simp] theorem modToken_slot (p : Strip) (k : Nat) (f : Token → Token) : (p.modToken k f).slot = p.slot := rfl
@[simp] theorem modToken_strands (p : Strip) (k : Nat) (f : Token → Token) : (p.modToken k f).strands = p.strands := rfl
@[simp] theorem modToken_v (p : Strip) (k : Nat) (f : Token → Token) : (p.modToken k f).v = p.v := rfl
@[simp] theorem modToken_s (p : Strip) (k : Nat) (f : Token → Token) : (p.modToken k f).s = p.s := rfl
@[simp] theorem modToken_sPoison (p : Strip) (k : Nat) (f : Token → Token) : (p.modToken k f).sPoison = p.sPoison := rfl
@[simp] theorem modToken_status (p : Strip) (k : Nat) (f : Token → Token) : (p.modToken k f).status = p.status := rfl
@[simp] theorem modToken_fpflags (p : Strip) (k : Nat) (f : Token → Token) : (p.modToken k f).fpflags = p.fpflags := rfl
@[simp] theorem modToken_flights (p : Strip) (k : Nat) (f : Token → Token) : (p.modToken k f).flights = p.flights := rfl
@[simp] theorem modToken_floor (p : Strip) (k : Nat) (f : Token → Token) : (p.modToken k f).floor = p.floor := rfl
@[simp] theorem modToken_cause (p : Strip) (k : Nat) (f : Token → Token) : (p.modToken k f).cause = p.cause := rfl
@[simp] theorem modToken_mask (p : Strip) (k : Nat) (f : Token → Token) : (p.modToken k f).mask = p.mask := rfl
@[simp] theorem modToken_trapPc (p : Strip) (k : Nat) (f : Token → Token) : (p.modToken k f).trapPc = p.trapPc := rfl
@[simp] theorem modToken_trapWord (p : Strip) (k : Nat) (f : Token → Token) : (p.modToken k f).trapWord = p.trapWord := rfl
@[simp] theorem modToken_info0 (p : Strip) (k : Nat) (f : Token → Token) : (p.modToken k f).info0 = p.info0 := rfl
@[simp] theorem modToken_info1 (p : Strip) (k : Nat) (f : Token → Token) : (p.modToken k f).info1 = p.info1 := rfl
@[simp] theorem modToken_asyncs (p : Strip) (k : Nat) (f : Token → Token) : (p.modToken k f).asyncs = p.asyncs := rfl
@[simp] theorem modToken_waits (p : Strip) (k : Nat) (f : Token → Token) : (p.modToken k f).waits = p.waits := rfl
@[simp] theorem modToken_noted (p : Strip) (k : Nat) (f : Token → Token) : (p.modToken k f).noted = p.noted := rfl
@[simp] theorem modToken_zeroFetch (p : Strip) (k : Nat) (f : Token → Token) : (p.modToken k f).zeroFetch = p.zeroFetch := rfl
@[simp] theorem modToken_fetchX (p : Strip) (k : Nat) (f : Token → Token) : (p.modToken k f).fetchX = p.fetchX := rfl
@[simp] theorem modToken_yieldUntil (p : Strip) (k : Nat) (f : Token → Token) : (p.modToken k f).yieldUntil = p.yieldUntil := rfl
@[simp] theorem modToken_lease (p : Strip) (k : Nat) (f : Token → Token) : (p.modToken k f).lease = p.lease := rfl

end Sys2Proof.Machine
end

