-- ==== Sys2Proof/Laws/Memory.lean ====
section
/-! SUPPORT. Every operation that writes memory keeps its canonical form, and changes the bytes that it writes and no other;
reset's memory and the memory that `withFetchWord` makes are canonical. What an update of a core or a die reads back. -/
namespace Sys2Proof.Machine

/-! ## The canonical form -/

theorem reset_wf : State.reset.mem.wf = true := rfl

theorem Memory.wf_put {m : Memory} (h : m.wf = true) (a : Nat) (x : Byte) : Memory.wf (cellPut (0 : Byte) m a x) = true :=
  cellsWf_cellPut (0 : Byte) m a x h

theorem Memory.wf_putAll {m : Memory} (h : m.wf = true) (a : Nat) (l : List Byte) :
    Memory.wf (cellPutAll (0 : Byte) m a l) = true := cellsWf_cellPutAll (0 : Byte) l m a h

theorem Memory.wf_fold {m : Memory} (h : m.wf = true) (line : Nat) (l : Table Byte) :
    Memory.wf (l.foldl (fun m b => cellPut (0 : Byte) m (line + b.1) b.2) m) = true := by
  induction l generalizing m with
  | nil => exact h
  | cons b l ih => exact ih (Memory.wf_put h _ _)

theorem cellsAbove_weaken {β : Type} [DecidableEq β] (dflt : β) (m : List (Nat × β)) (k lo : Nat) (hlo : lo ≤ k)
    (h : cellsAbove dflt (some k) m = true) : cellsAbove dflt (some lo) m = true := by
  cases m with
  | nil => rfl
  | cons c m =>
    obtain ⟨a, v⟩ := c
    simp only [cellsAbove, Bool.and_eq_true, decide_eq_true_eq] at h ⊢
    exact ⟨⟨by omega, h.1.2⟩, h.2⟩

theorem cellsAbove_filter {β : Type} [DecidableEq β] (dflt : β) (p : Nat × β → Bool) (m : List (Nat × β)) (lo : Option Nat)
    (h : cellsAbove dflt lo m = true) : cellsAbove dflt lo (m.filter p) = true := by
  induction m generalizing lo with
  | nil => rfl
  | cons c m ih =>
    obtain ⟨a, v⟩ := c
    simp only [cellsAbove, Bool.and_eq_true] at h
    rw [List.filter_cons]
    split
    · simp only [cellsAbove, Bool.and_eq_true]
      exact ⟨h.1, ih _ h.2⟩
    · cases lo with
      | none =>
        have hm : cellsAbove dflt none m = true := by
          cases m with
          | nil => rfl
          | cons d m =>
            have h2 := h.2
            simp only [cellsAbove, Bool.and_eq_true, Bool.true_and] at h2 ⊢
            exact ⟨h2.1.2, h2.2⟩
        exact ih _ hm
      | some l => exact ih _ (cellsAbove_weaken dflt m a l (by have := h.1.1; simp at this; omega) h.2)

/-- Removing cells keeps the form. -/
theorem Memory.wf_filter {m : Memory} (h : m.wf = true) (p : Nat × Byte → Bool) : Memory.wf (m.filter p) = true :=
  cellsAbove_filter (0 : Byte) p m none h

@[simp] theorem addDigest_mem (s : State) (launches : List Nat) (line : Nat) (old new : List Byte) :
    (addDigest s launches line old new).mem = s.mem := by
  unfold addDigest
  induction launches generalizing s with
  | nil => rfl
  | cons l ls ih => exact (ih _).trans rfl

@[simp] theorem notePast_mem (s : State) (pa n : Nat) : (notePast s pa n).mem = s.mem := by
  unfold notePast; split <;> rfl
@[simp] theorem notePast_poison (s : State) (pa n : Nat) : (notePast s pa n).poison = s.poison := by
  unfold notePast; split <;> rfl

/-! ## The L2 -/

theorem putLine_wf {s : State} (h : s.mem.wf = true) (line : Nat) (d : LineData) : (putLine s line d).mem.wf = true :=
  Memory.wf_putAll h _ _

@[simp] theorem dropCopies_mem (s : State) (line : Nat) : (dropCopies s line).mem = s.mem := by
  unfold dropCopies; split <;> rfl
@[simp] theorem dropCopies_hbm (s : State) (line : Nat) : (dropCopies s line).hbm = s.hbm := by
  unfold dropCopies; split <;> rfl

theorem l2Evict_wf {s : State} (h : s.mem.wf = true) (line : Nat) : (l2Evict s line).mem.wf = true := by
  have hd : (dropCopies s line).mem.wf = true := by rw [dropCopies_mem]; exact h
  unfold l2Evict
  split
  · exact h
  · dsimp only
    split
    · exact hd
    · split
      · exact hd
      · split
        · exact hd
        · exact putLine_wf (s := { dropCopies s line with l2 := _, hbm := _ }) hd _ _

/-- An eviction changes no memory where no line hides HBM's. -/
theorem l2Evict_mem {s : State} (h : Unhidden s) (line : Nat) : (l2Evict s line).mem = s.mem := by
  unfold l2Evict
  split
  · rfl
  · rename_i l hl
    dsimp only
    rw [dropCopies_hbm]
    split
    · exact dropCopies_mem s line
    · rename_i hb hh
      split
      · exact dropCopies_mem s line
      · rename_i hd
        split
        · exact dropCopies_mem s line
        · rename_i hq
          obtain ⟨e, he, hd'⟩ := h line hb hh hq
          rw [hl] at he; cases he; exact absurd hd' hd

theorem l2Free_wf {s : State} (h : s.mem.wf = true) (w : Option Way) : (l2Free s w).mem.wf = true := by
  unfold l2Free
  split
  · exact h
  · exact l2Evict_wf (s := { s with free := s.free + 1 }) h _
  · exact h

/-- A way given up changes no memory where no line hides HBM's. -/
theorem l2Free_mem {s : State} (h : Unhidden s) (w : Option Way) : (l2Free s w).mem = s.mem := by
  unfold l2Free
  split
  · rfl
  · exact l2Evict_mem (s := { s with free := s.free + 1 }) h _
  · rfl

theorem l2Alloc_wf {s : State} (h : s.mem.wf = true) (line cp : Nat) : (l2Alloc s line cp).mem.wf = true := by
  unfold l2Alloc
  split
  · exact h
  · exact l2Free_wf h _

theorem l2Alloc_mem {s : State} (h : Unhidden s) (line cp : Nat) : (l2Alloc s line cp).mem = s.mem := by
  unfold l2Alloc
  split
  · rfl
  · exact l2Free_mem h _

theorem l2Copy_mem {s : State} (h : Unhidden s) (line sector cp : Nat) : (l2Copy s line sector cp).mem = s.mem := by
  unfold l2Copy
  split
  · rfl
  · exact l2Free_mem h _

theorem l2Atomic_wf {s : State} (h : s.mem.wf = true) (line cp : Nat) : (l2Atomic s line cp).mem.wf = true := by
  unfold l2Atomic
  rw [dropCopies_mem]; exact l2Alloc_wf h line cp

theorem l2Atomic_mem {s : State} (h : Unhidden s) (line cp : Nat) : (l2Atomic s line cp).mem = s.mem := by
  unfold l2Atomic
  rw [dropCopies_mem]; exact l2Alloc_mem h line cp

theorem l2Write_wf {s : State} (h : s.mem.wf = true) (line cp : Nat) : (l2Write s line cp).mem.wf = true := by
  unfold l2Write
  split
  · exact h
  · dsimp only
    split <;> exact l2Atomic_wf h line cp

/-- What a write does to the L2 first changes no memory where no line hides HBM's. -/
theorem l2Write_mem {s : State} (h : Unhidden s) (line cp : Nat) : (l2Write s line cp).mem = s.mem := by
  unfold l2Write
  split
  · rfl
  · dsimp only
    split <;> exact l2Atomic_mem h line cp

theorem l2Drop_wf {s : State} (h : s.mem.wf = true) (line : Nat) : (l2Drop s line).mem.wf = true := by
  have hd : (dropCopies s line).mem.wf = true := by rw [dropCopies_mem]; exact h
  unfold l2Drop
  dsimp only
  split
  · exact hd
  · apply putLine_wf
    rw [notePast_mem]
    exact hd

/-! ## Writes at home -/

/-- What `writeHomeAs` leaves in memory. -/
theorem writeHomeAs_mem (s : State) (cp : Nat) (launches : List Nat) (pa : Nat) (b : List Byte) :
    (writeHomeAs s cp launches pa b).mem =
      if populated pa then cellPutAll (0 : Byte) (l2Write s (lineOf pa) cp).mem pa b else s.mem := by
  unfold writeHomeAs
  split
  · dsimp only
    split <;> simp
  · rfl

/-- What `writeLine` leaves in memory. -/
theorem writeLine_mem (s : State) (cp : Nat) (launches : List Nat) (line : Nat) (b : Table Byte) :
    (writeLine s cp launches line b).mem = if populated (line * 128) then
      b.foldl (fun m b => cellPut (0 : Byte) m (line * 128 + b.1) b.2) (l2Write s line cp).mem else s.mem := by
  unfold writeLine
  split
  · dsimp only
    split <;> simp
  · rfl

theorem writeHomeAs_wf {s : State} (h : s.mem.wf = true) (cp : Nat) (launches : List Nat) (pa : Nat) (b : List Byte) :
    (writeHomeAs s cp launches pa b).mem.wf = true := by
  rw [writeHomeAs_mem]; split
  · exact Memory.wf_putAll (l2Write_wf h _ _) _ _
  · exact h

theorem writeHome_wf {s : State} (h : s.mem.wf = true) (launches : List Nat) (pa : Nat) (b : List Byte) :
    (writeHome s launches pa b).mem.wf = true := writeHomeAs_wf h 0 launches pa b

theorem writeLine_wf {s : State} (h : s.mem.wf = true) (cp : Nat) (launches : List Nat) (line : Nat) (b : Table Byte) :
    (writeLine s cp launches line b).mem.wf = true := by
  rw [writeLine_mem]; split
  · exact Memory.wf_fold (l2Write_wf h _ _) _ _
  · exact h

theorem zeroPage_wf {s : State} (h : s.mem.wf = true) (die pa : Nat) (hp : populated pa = true) :
    (zeroPage s die pa).mem.wf = true := by
  have hl : ∀ (l : List Nat) (s : State), s.mem.wf = true →
      (l.foldl (fun s i => l2Write s (lineOf pa + i) 0) s).mem.wf = true := by
    intro l
    induction l with
    | nil => exact fun _ h => h
    | cons i l ih => exact fun s h => ih _ (l2Write_wf h _ _)
  unfold zeroPage
  rw [if_pos hp]
  apply Memory.wf_filter
  rw [notePast_mem]
  exact hl _ s h

theorem dropLine_wf {s : State} (h : s.mem.wf = true) (core line : Nat) : (dropLine s core line).mem.wf = true := by
  have hm : (dropRdc (dropRc s core line) (core / 96) line).mem = s.mem := by
    simp only [dropRdc, dropRc, modDie_mem, modCore_mem]
  unfold dropLine; dsimp only
  split
  · rw [hm]; exact h
  · exact l2Drop_wf (by rw [hm]; exact h) line

theorem placeBytes_wf {m : Memory} (h : m.wf = true) (a : Nat) (b : List Byte) : (placeBytes m a b).wf = true :=
  Memory.wf_putAll h a b

theorem placeWord_mem (s : State) (w : Nat) : (placeWord s w).mem = placeBytes (placeBytes (placeBytes s.mem probeRoot
    (leBytes 8 (probeTable + 3))) probeTable (leBytes 8 0x1D)) probePc (leBytes 8 w) := by
  simp only [placeWord]

theorem placeWord_wf {s : State} (h : s.mem.wf = true) (w : Nat) : (placeWord s w).mem.wf = true := by
  rw [placeWord_mem]
  exact placeBytes_wf (placeBytes_wf (placeBytes_wf h _ _) _ _) _ _

theorem moduleReset_mem (s : State) : (moduleReset s).mem = s.mem := rfl

/-! ## What a write changes -/

/-- The bytes that `writeHomeAs` writes. -/
theorem writeHomeAs_same {s : State} (h : s.mem.wf = true) (cp : Nat) (launches : List Nat) {pa : Nat}
    (hp : populated pa = true) (b : List Byte) {k : Nat} (hk : k < b.length) :
    cellGet (0 : Byte) (writeHomeAs s cp launches pa b).mem (pa + k) = b[k] := by
  rw [writeHomeAs_mem, if_pos hp]
  exact cellGet_cellPutAll (0 : Byte) b _ pa k hk (l2Write_wf h _ _)

/-- `writeHomeAs` leaves every other byte alone. -/
theorem writeHomeAs_ne {s : State} (h : s.mem.wf = true) (hu : Unhidden s) (cp : Nat) (launches : List Nat) (pa : Nat)
    (b : List Byte) {a : Nat} (ha : a < pa ∨ pa + b.length ≤ a) :
    cellGet (0 : Byte) (writeHomeAs s cp launches pa b).mem a = cellGet (0 : Byte) s.mem a := by
  rw [writeHomeAs_mem]; split
  · rw [cellGet_cellPutAll_ne (0 : Byte) b _ pa a ha (l2Write_wf h _ _), l2Write_mem hu]
  · rfl

/-- `writeLine` leaves every byte that is not listed alone. -/
theorem writeLine_ne {s : State} (h : s.mem.wf = true) (hu : Unhidden s) (cp : Nat) (launches : List Nat) (line : Nat)
    (b : Table Byte) {a : Nat} (ha : ∀ c ∈ b, a ≠ line * 128 + c.1) :
    cellGet (0 : Byte) (writeLine s cp launches line b).mem a = cellGet (0 : Byte) s.mem a := by
  rw [writeLine_mem]; split
  · rw [l2Write_mem hu]
    suffices H : ∀ (m : Memory), m.wf = true →
        cellGet (0 : Byte) (b.foldl (fun m b => cellPut (0 : Byte) m (line * 128 + b.1) b.2) m) a = cellGet (0 : Byte) m a from H _ h
    induction b with
    | nil => exact fun _ _ => rfl
    | cons c b ih =>
      intro m hm
      rw [List.foldl_cons, ih (fun c hc => ha c (List.mem_cons_of_mem _ hc)) _ (Memory.wf_put hm _ _)]
      exact cellGet_cellPut_ne (0 : Byte) m _ a c.2 (ha c List.mem_cons_self) hm
  · rfl

/-! ## What an update reads back -/

@[simp] theorem coreOf_putCore_same (s : State) (id : Nat) (c : Core) : coreOf (putCore s id c) id = c := by
  simp [coreOf, putCore]

@[simp] theorem coreOf_modCore_same (s : State) (id : Nat) (f : Core → Core) : coreOf (modCore s id f) id = f (coreOf s id) :=
  coreOf_putCore_same s id _

theorem coreOf_modCore_ne (s : State) {id other : Nat} (h : other ≠ id) (f : Core → Core) :
    coreOf (modCore s id f) other = coreOf s other := by
  simp [coreOf, modCore, putCore, tableGet_tablePut_ne _ _ _ _ h]

theorem getD_listMod {α : Type} (l : List α) (i j : Nat) (f : α → α) (d : α) :
    (listMod l i f).getD j d = if i = j ∧ i < l.length then f (l.getD j d) else l.getD j d := by
  induction l generalizing i j with
  | nil => simp [listMod]
  | cons x l ih =>
    cases i with
    | zero => cases j <;> simp [listMod]
    | succ i =>
      cases j with
      | zero => simp [listMod]
      | succ j => simpa [listMod] using ih i j

theorem dieOf_modDie_same (s : State) {d : Nat} (h : d < s.dies.length) (f : Die → Die) : dieOf (modDie s d f) d = f (dieOf s d) := by
  unfold dieOf modDie
  rw [getD_listMod, if_pos ⟨rfl, h⟩]

theorem dieOf_modDie_ne (s : State) {d other : Nat} (h : other ≠ d) (f : Die → Die) :
    dieOf (modDie s d f) other = dieOf s other := by
  unfold dieOf modDie
  rw [getD_listMod, if_neg (fun e => h e.1.symm)]

/-! ## What a read of a home depends on -/

/-- A read of a range depends on the bytes and the poison marks of that range alone. -/
theorem readHome_congr {s t : State} {pa n : Nat} (hm : ∀ q, pa ≤ q → q < pa + n → cellGet (0 : Byte) t.mem q = cellGet (0 : Byte) s.mem q)
    (hp : ∀ w, pa / 8 ≤ w → w * 8 < pa + n → (w ∈ t.poison ↔ w ∈ s.poison)) : readHome t pa n = readHome s pa n := by
  have bytes : cellRange (0 : Byte) t.mem pa n = cellRange (0 : Byte) s.mem pa n := by
    rw [cellRange_eq, cellRange_eq]
    exact List.map_congr_left fun i hi => hm _ (by omega) (by have := List.mem_range.mp hi; omega)
  have marks : anyPoison t pa n = anyPoison s pa n := by
    rw [Bool.eq_iff_iff]
    simp only [anyPoison, List.any_eq_true, Bool.and_eq_true, decide_eq_true_eq]
    exact exists_congr fun w => ⟨fun h => ⟨(hp w h.2.1 h.2.2).1 h.1, h.2⟩, fun h => ⟨(hp w h.2.1 h.2.2).2 h.1, h.2⟩⟩
  rw [readHome, readHome, bytes, marks]

theorem readEntry_congr {s t : State} {at_ : Nat} (hm : ∀ q, at_ ≤ q → q < at_ + 8 → cellGet (0 : Byte) t.mem q = cellGet (0 : Byte) s.mem q)
    (hp : ∀ w, at_ / 8 ≤ w → w * 8 < at_ + 8 → (w ∈ t.poison ↔ w ∈ s.poison)) : readEntry t at_ = readEntry s at_ := by
  rw [readEntry, readEntry, readHome_congr hm hp]

end Sys2Proof.Machine
end

