-- ==== Sys2Proof/Laws/PerInstr.lean ====
section
/-! SUPPORT. For each constructor: the word of a well-formed instruction is read back as that instruction. -/
namespace Sys2Proof.Laws.RoundTrip

/-- The raw decoder reads a well-formed instruction's word as that instruction. -/
def Statement (i : Instr) : Prop := i.WellFormed → ∀ w, encode i = some w → decodeRaw w = i

theorem of_word {i : Instr} {v w : DWord} (h : some v = some w) (e : decodeRaw v = i) : decodeRaw w = i :=
  Option.some.inj h ▸ e

theorem lane_raw {m n : Nat} {i : Instr} (hm : m < 128) (hn : n < 2 ^ 56)
    (h : laneAt m (pack false m n) = some i) : decodeRaw (pack false m n) = i := by
  simp [decodeRaw, pipeOf_pack _ m n hm hn, laneInstr, majorOf_pack _ m n hm hn, h]

theorem uniform_raw {m n : Nat} {i : Instr} (hm : m < 128) (hn : n < 2 ^ 56)
    (h : uniformAt m (pack true m n) = some i) : decodeRaw (pack true m n) = i := by
  simp [decodeRaw, pipeOf_pack _ m n hm hn, uniformInstr, majorOf_pack _ m n hm hn, h]

theorem iadd (f : FmtR) : Statement (.iadd f) := fun _ _ hw =>
  of_word hw (lane_raw (by omega) f.num_lt (congrArg (fun g => some (Instr.iadd g)) (fmtR_pack _ 0x01 (by omega) f)))
theorem isub (f : FmtR) : Statement (.isub f) := fun _ _ hw =>
  of_word hw (lane_raw (by omega) f.num_lt (congrArg (fun g => some (Instr.isub g)) (fmtR_pack _ 0x02 (by omega) f)))
theorem imul (f : FmtR) : Statement (.imul f) := fun _ _ hw =>
  of_word hw (lane_raw (by omega) f.num_lt (congrArg (fun g => some (Instr.imul g)) (fmtR_pack _ 0x03 (by omega) f)))
theorem imulh (f : FmtR) : Statement (.imulh f) := fun _ _ hw =>
  of_word hw (lane_raw (by omega) f.num_lt (congrArg (fun g => some (Instr.imulh g)) (fmtR_pack _ 0x04 (by omega) f)))
theorem imad (f : FmtR) : Statement (.imad f) := fun _ _ hw =>
  of_word hw (lane_raw (by omega) f.num_lt (congrArg (fun g => some (Instr.imad g)) (fmtR_pack _ 0x05 (by omega) f)))
theorem idiv (f : FmtR) : Statement (.idiv f) := fun _ _ hw =>
  of_word hw (lane_raw (by omega) f.num_lt (congrArg (fun g => some (Instr.idiv g)) (fmtR_pack _ 0x06 (by omega) f)))
theorem irem (f : FmtR) : Statement (.irem f) := fun _ _ hw =>
  of_word hw (lane_raw (by omega) f.num_lt (congrArg (fun g => some (Instr.irem g)) (fmtR_pack _ 0x07 (by omega) f)))
theorem imin (f : FmtR) : Statement (.imin f) := fun _ _ hw =>
  of_word hw (lane_raw (by omega) f.num_lt (congrArg (fun g => some (Instr.imin g)) (fmtR_pack _ 0x08 (by omega) f)))
theorem imax (f : FmtR) : Statement (.imax f) := fun _ _ hw =>
  of_word hw (lane_raw (by omega) f.num_lt (congrArg (fun g => some (Instr.imax g)) (fmtR_pack _ 0x09 (by omega) f)))
theorem iabs (f : FmtR) : Statement (.iabs f) := fun _ _ hw =>
  of_word hw (lane_raw (by omega) f.num_lt (congrArg (fun g => some (Instr.iabs g)) (fmtR_pack _ 0x0A (by omega) f)))
theorem ineg (f : FmtR) : Statement (.ineg f) := fun _ _ hw =>
  of_word hw (lane_raw (by omega) f.num_lt (congrArg (fun g => some (Instr.ineg g)) (fmtR_pack _ 0x0B (by omega) f)))
theorem icmp (f : FmtR) : Statement (.icmp f) := fun _ _ hw =>
  of_word hw (lane_raw (by omega) f.num_lt (congrArg (fun g => some (Instr.icmp g)) (fmtR_pack _ 0x0C (by omega) f)))
theorem isel (f : FmtR) : Statement (.isel f) := fun _ _ hw =>
  of_word hw (lane_raw (by omega) f.num_lt (congrArg (fun g => some (Instr.isel g)) (fmtR_pack _ 0x0D (by omega) f)))
theorem iand (f : FmtR) : Statement (.iand f) := by
  intro h w hw
  obtain rfl := Option.some.inj hw
  have hm := h.ok.2
  simp [shape, shapeLogic, shapeR] at hm
  exact lane_raw (by omega) f.num_lt (by simp [laneAt, fmtR_pack _ 0x0E (by omega), hm])
theorem ior (f : FmtR) : Statement (.ior f) := by
  intro h w hw
  obtain rfl := Option.some.inj hw
  have hm := h.ok.2
  simp [shape, shapeLogic, shapeR] at hm
  exact lane_raw (by omega) f.num_lt (by simp [laneAt, fmtR_pack _ 0x0E (by omega), hm])
theorem ixor (f : FmtR) : Statement (.ixor f) := by
  intro h w hw
  obtain rfl := Option.some.inj hw
  have hm := h.ok.2
  simp [shape, shapeLogic, shapeR] at hm
  exact lane_raw (by omega) f.num_lt (by simp [laneAt, fmtR_pack _ 0x0E (by omega), hm])
theorem iandn (f : FmtR) : Statement (.iandn f) := by
  intro h w hw
  obtain rfl := Option.some.inj hw
  have hm := h.ok.2
  simp [shape, shapeLogic, shapeR] at hm
  exact lane_raw (by omega) f.num_lt (by simp [laneAt, fmtR_pack _ 0x0E (by omega), hm])
theorem ishl (f : FmtR) : Statement (.ishl f) := fun _ _ hw =>
  of_word hw (lane_raw (by omega) f.num_lt (congrArg (fun g => some (Instr.ishl g)) (fmtR_pack _ 0x0F (by omega) f)))
theorem ishr (f : FmtR) : Statement (.ishr f) := fun _ _ hw =>
  of_word hw (lane_raw (by omega) f.num_lt (congrArg (fun g => some (Instr.ishr g)) (fmtR_pack _ 0x10 (by omega) f)))
theorem isar (f : FmtR) : Statement (.isar f) := fun _ _ hw =>
  of_word hw (lane_raw (by omega) f.num_lt (congrArg (fun g => some (Instr.isar g)) (fmtR_pack _ 0x11 (by omega) f)))
theorem ifshl (f : FmtR) : Statement (.ifshl f) := fun _ _ hw =>
  of_word hw (lane_raw (by omega) f.num_lt (congrArg (fun g => some (Instr.ifshl g)) (fmtR_pack _ 0x12 (by omega) f)))
theorem ifshr (f : FmtR) : Statement (.ifshr f) := fun _ _ hw =>
  of_word hw (lane_raw (by omega) f.num_lt (congrArg (fun g => some (Instr.ifshr g)) (fmtR_pack _ 0x13 (by omega) f)))
theorem bfx (f : FmtR) : Statement (.bfx f) := fun _ _ hw =>
  of_word hw (lane_raw (by omega) f.num_lt (congrArg (fun g => some (Instr.bfx g)) (fmtR_pack _ 0x14 (by omega) f)))
theorem bfi (f : FmtR) : Statement (.bfi f) := fun _ _ hw =>
  of_word hw (lane_raw (by omega) f.num_lt (congrArg (fun g => some (Instr.bfi g)) (fmtR_pack _ 0x15 (by omega) f)))
theorem popc (f : FmtR) : Statement (.popc f) := by
  intro h w hw
  obtain rfl := Option.some.inj hw
  have hm := h.ok.2
  simp [shape, shapeCount, shapeR] at hm
  exact lane_raw (by omega) f.num_lt (by simp [laneAt, fmtR_pack _ 0x16 (by omega), hm])
theorem clz (f : FmtR) : Statement (.clz f) := by
  intro h w hw
  obtain rfl := Option.some.inj hw
  have hm := h.ok.2
  simp [shape, shapeCount, shapeR] at hm
  exact lane_raw (by omega) f.num_lt (by simp [laneAt, fmtR_pack _ 0x16 (by omega), hm])
theorem ctz (f : FmtR) : Statement (.ctz f) := by
  intro h w hw
  obtain rfl := Option.some.inj hw
  have hm := h.ok.2
  simp [shape, shapeCount, shapeR] at hm
  exact lane_raw (by omega) f.num_lt (by simp [laneAt, fmtR_pack _ 0x16 (by omega), hm])
theorem brev (f : FmtR) : Statement (.brev f) := by
  intro h w hw
  obtain rfl := Option.some.inj hw
  have hm := h.ok.2
  simp [shape, shapeCount, shapeR] at hm
  exact lane_raw (by omega) f.num_lt (by simp [laneAt, fmtR_pack _ 0x16 (by omega), hm])
theorem bperm (f : FmtR) : Statement (.bperm f) := fun _ _ hw =>
  of_word hw (lane_raw (by omega) f.num_lt (congrArg (fun g => some (Instr.bperm g)) (fmtR_pack _ 0x17 (by omega) f)))
theorem lea (f : FmtR) : Statement (.lea f) := fun _ _ hw =>
  of_word hw (lane_raw (by omega) f.num_lt (congrArg (fun g => some (Instr.lea g)) (fmtR_pack _ 0x18 (by omega) f)))
theorem isad (f : FmtR) : Statement (.isad f) := fun _ _ hw =>
  of_word hw (lane_raw (by omega) f.num_lt (congrArg (fun g => some (Instr.isad g)) (fmtR_pack _ 0x19 (by omega) f)))
theorem mov (f : FmtR) : Statement (.mov f) := fun _ _ hw =>
  of_word hw (lane_raw (by omega) f.num_lt (congrArg (fun g => some (Instr.mov g)) (fmtR_pack _ 0x1A (by omega) f)))
theorem movi (f : FmtI) : Statement (.movi f) := fun _ _ hw =>
  of_word hw (lane_raw (by omega) f.num_lt (congrArg (fun g => some (Instr.movi g)) (fmtI_pack _ 0x1B (by omega) f)))
theorem dot4 (f : FmtR) : Statement (.dot4 f) := fun _ _ hw =>
  of_word hw (lane_raw (by omega) f.num_lt (congrArg (fun g => some (Instr.dot4 g)) (fmtR_pack _ 0x1C (by omega) f)))
theorem dot8 (f : FmtR) : Statement (.dot8 f) := fun _ _ hw =>
  of_word hw (lane_raw (by omega) f.num_lt (congrArg (fun g => some (Instr.dot8 g)) (fmtR_pack _ 0x1D (by omega) f)))
theorem fadd (f : FmtR) : Statement (.fadd f) := fun _ _ hw =>
  of_word hw (lane_raw (by omega) f.num_lt (congrArg (fun g => some (Instr.fadd g)) (fmtR_pack _ 0x20 (by omega) f)))
theorem fsub (f : FmtR) : Statement (.fsub f) := fun _ _ hw =>
  of_word hw (lane_raw (by omega) f.num_lt (congrArg (fun g => some (Instr.fsub g)) (fmtR_pack _ 0x21 (by omega) f)))
theorem fmul (f : FmtR) : Statement (.fmul f) := fun _ _ hw =>
  of_word hw (lane_raw (by omega) f.num_lt (congrArg (fun g => some (Instr.fmul g)) (fmtR_pack _ 0x22 (by omega) f)))
theorem ffma (f : FmtR) : Statement (.ffma f) := fun _ _ hw =>
  of_word hw (lane_raw (by omega) f.num_lt (congrArg (fun g => some (Instr.ffma g)) (fmtR_pack _ 0x23 (by omega) f)))
theorem fmin (f : FmtR) : Statement (.fmin f) := fun _ _ hw =>
  of_word hw (lane_raw (by omega) f.num_lt (congrArg (fun g => some (Instr.fmin g)) (fmtR_pack _ 0x24 (by omega) f)))
theorem fmax (f : FmtR) : Statement (.fmax f) := fun _ _ hw =>
  of_word hw (lane_raw (by omega) f.num_lt (congrArg (fun g => some (Instr.fmax g)) (fmtR_pack _ 0x25 (by omega) f)))
theorem fcmp (f : FmtR) : Statement (.fcmp f) := fun _ _ hw =>
  of_word hw (lane_raw (by omega) f.num_lt (congrArg (fun g => some (Instr.fcmp g)) (fmtR_pack _ 0x26 (by omega) f)))
theorem fclass (f : FmtR) : Statement (.fclass f) := fun _ _ hw =>
  of_word hw (lane_raw (by omega) f.num_lt (congrArg (fun g => some (Instr.fclass g)) (fmtR_pack _ 0x27 (by omega) f)))
theorem frnd (f : FmtR) : Statement (.frnd f) := fun _ _ hw =>
  of_word hw (lane_raw (by omega) f.num_lt (congrArg (fun g => some (Instr.frnd g)) (fmtR_pack _ 0x28 (by omega) f)))
theorem fscale (f : FmtR) : Statement (.fscale f) := fun _ _ hw =>
  of_word hw (lane_raw (by omega) f.num_lt (congrArg (fun g => some (Instr.fscale g)) (fmtR_pack _ 0x29 (by omega) f)))
theorem frcp (f : FmtR) : Statement (.frcp f) := fun _ _ hw =>
  of_word hw (lane_raw (by omega) f.num_lt (congrArg (fun g => some (Instr.frcp g)) (fmtR_pack _ 0x2A (by omega) f)))
theorem frsq (f : FmtR) : Statement (.frsq f) := fun _ _ hw =>
  of_word hw (lane_raw (by omega) f.num_lt (congrArg (fun g => some (Instr.frsq g)) (fmtR_pack _ 0x2B (by omega) f)))
theorem fsqrt (f : FmtR) : Statement (.fsqrt f) := fun _ _ hw =>
  of_word hw (lane_raw (by omega) f.num_lt (congrArg (fun g => some (Instr.fsqrt g)) (fmtR_pack _ 0x2C (by omega) f)))
theorem fdiv (f : FmtR) : Statement (.fdiv f) := fun _ _ hw =>
  of_word hw (lane_raw (by omega) f.num_lt (congrArg (fun g => some (Instr.fdiv g)) (fmtR_pack _ 0x2D (by omega) f)))
theorem fex2 (f : FmtR) : Statement (.fex2 f) := fun _ _ hw =>
  of_word hw (lane_raw (by omega) f.num_lt (congrArg (fun g => some (Instr.fex2 g)) (fmtR_pack _ 0x2E (by omega) f)))
theorem flg2 (f : FmtR) : Statement (.flg2 f) := fun _ _ hw =>
  of_word hw (lane_raw (by omega) f.num_lt (congrArg (fun g => some (Instr.flg2 g)) (fmtR_pack _ 0x2F (by omega) f)))
theorem fsinpi (f : FmtR) : Statement (.fsinpi f) := fun _ _ hw =>
  of_word hw (lane_raw (by omega) f.num_lt (congrArg (fun g => some (Instr.fsinpi g)) (fmtR_pack _ 0x30 (by omega) f)))
theorem fcospi (f : FmtR) : Statement (.fcospi f) := fun _ _ hw =>
  of_word hw (lane_raw (by omega) f.num_lt (congrArg (fun g => some (Instr.fcospi g)) (fmtR_pack _ 0x31 (by omega) f)))
theorem ftanh (f : FmtR) : Statement (.ftanh f) := fun _ _ hw =>
  of_word hw (lane_raw (by omega) f.num_lt (congrArg (fun g => some (Instr.ftanh g)) (fmtR_pack _ 0x32 (by omega) f)))
theorem hfma2 (f : FmtR) : Statement (.hfma2 f) := fun _ _ hw =>
  of_word hw (lane_raw (by omega) f.num_lt (congrArg (fun g => some (Instr.hfma2 g)) (fmtR_pack _ 0x33 (by omega) f)))
theorem fdot2 (f : FmtR) : Statement (.fdot2 f) := fun _ _ hw =>
  of_word hw (lane_raw (by omega) f.num_lt (congrArg (fun g => some (Instr.fdot2 g)) (fmtR_pack _ 0x34 (by omega) f)))
theorem cvt (f : FmtR) : Statement (.cvt f) := fun _ _ hw =>
  of_word hw (lane_raw (by omega) f.num_lt (congrArg (fun g => some (Instr.cvt g)) (fmtR_pack _ 0x35 (by omega) f)))
theorem cvtpk (f : FmtR) : Statement (.cvtpk f) := fun _ _ hw =>
  of_word hw (lane_raw (by omega) f.num_lt (congrArg (fun g => some (Instr.cvtpk g)) (fmtR_pack _ 0x36 (by omega) f)))
theorem cvtxp (f : FmtR) : Statement (.cvtxp f) := fun _ _ hw =>
  of_word hw (lane_raw (by omega) f.num_lt (congrArg (fun g => some (Instr.cvtxp g)) (fmtR_pack _ 0x37 (by omega) f)))
theorem shfl (f : FmtR) : Statement (.shfl f) := fun _ _ hw =>
  of_word hw (lane_raw (by omega) f.num_lt (congrArg (fun g => some (Instr.shfl g)) (fmtR_pack _ 0x40 (by omega) f)))
theorem gshfl (f : FmtR) : Statement (.gshfl f) := fun _ _ hw =>
  of_word hw (lane_raw (by omega) f.num_lt (congrArg (fun g => some (Instr.gshfl g)) (fmtR_pack _ 0x41 (by omega) f)))
theorem vote (f : FmtR) : Statement (.vote f) := fun _ _ hw =>
  of_word hw (lane_raw (by omega) f.num_lt (congrArg (fun g => some (Instr.vote g)) (fmtR_pack _ 0x42 (by omega) f)))
theorem red (f : FmtR) : Statement (.red f) := fun _ _ hw =>
  of_word hw (lane_raw (by omega) f.num_lt (congrArg (fun g => some (Instr.red g)) (fmtR_pack _ 0x43 (by omega) f)))
theorem scan (f : FmtR) : Statement (.scan f) := fun _ _ hw =>
  of_word hw (lane_raw (by omega) f.num_lt (congrArg (fun g => some (Instr.scan g)) (fmtR_pack _ 0x44 (by omega) f)))
theorem isect (f : FmtR) : Statement (.isect f) := fun _ _ hw =>
  of_word hw (lane_raw (by omega) f.num_lt (congrArg (fun g => some (Instr.isect g)) (fmtR_pack _ 0x45 (by omega) f)))
theorem smerge (f : FmtR) : Statement (.smerge f) := fun _ _ hw =>
  of_word hw (lane_raw (by omega) f.num_lt (congrArg (fun g => some (Instr.smerge g)) (fmtR_pack _ 0x46 (by omega) f)))
theorem sort16 (f : FmtR) : Statement (.sort16 f) := fun _ _ hw =>
  of_word hw (lane_raw (by omega) f.num_lt (congrArg (fun g => some (Instr.sort16 g)) (fmtR_pack _ 0x47 (by omega) f)))
theorem matchKeys (f : FmtR) : Statement (.matchKeys f) := fun _ _ hw =>
  of_word hw (lane_raw (by omega) f.num_lt (congrArg (fun g => some (Instr.matchKeys g)) (fmtR_pack _ 0x48 (by omega) f)))
theorem jarv (f : FmtR) : Statement (.jarv f) := fun _ _ hw =>
  of_word hw (lane_raw (by omega) f.num_lt (congrArg (fun g => some (Instr.jarv g)) (fmtR_pack _ 0x49 (by omega) f)))
theorem jwait (f : FmtR) : Statement (.jwait f) := fun _ _ hw =>
  of_word hw (lane_raw (by omega) f.num_lt (congrArg (fun g => some (Instr.jwait g)) (fmtR_pack _ 0x4A (by omega) f)))
theorem bra (f : FmtB) : Statement (.bra f) := fun _ _ hw =>
  of_word hw (lane_raw (by omega) f.num_lt (congrArg (fun g => some (Instr.bra g)) (fmtB_pack _ 0x50 (by omega) f)))
theorem brx (f : FmtR) : Statement (.brx f) := fun _ _ hw =>
  of_word hw (lane_raw (by omega) f.num_lt (congrArg (fun g => some (Instr.brx g)) (fmtR_pack _ 0x51 (by omega) f)))
theorem call (f : FmtB) : Statement (.call f) := fun _ _ hw =>
  of_word hw (lane_raw (by omega) f.num_lt (congrArg (fun g => some (Instr.call g)) (fmtB_pack _ 0x52 (by omega) f)))
theorem ret (f : FmtR) : Statement (.ret f) := fun _ _ hw =>
  of_word hw (lane_raw (by omega) f.num_lt (congrArg (fun g => some (Instr.ret g)) (fmtR_pack _ 0x53 (by omega) f)))
theorem exit (f : FmtR) : Statement (.exit f) := fun _ _ hw =>
  of_word hw (lane_raw (by omega) f.num_lt (congrArg (fun g => some (Instr.exit g)) (fmtR_pack _ 0x54 (by omega) f)))
theorem nop (f : FmtR) : Statement (.nop f) := fun _ _ hw =>
  of_word hw (lane_raw (by omega) f.num_lt (congrArg (fun g => some (Instr.nop g)) (fmtR_pack _ 0x55 (by omega) f)))
theorem ldg (f : FmtM) : Statement (.ldg f) := fun _ _ hw =>
  of_word hw (lane_raw (by omega) f.num_lt (congrArg (fun g => some (Instr.ldg g)) (fmtM_pack _ 0x58 (by omega) f)))
theorem stg (f : FmtM) : Statement (.stg f) := fun _ _ hw =>
  of_word hw (lane_raw (by omega) f.num_lt (congrArg (fun g => some (Instr.stg g)) (fmtM_pack _ 0x59 (by omega) f)))
theorem ldc (f : FmtM) : Statement (.ldc f) := fun _ _ hw =>
  of_word hw (lane_raw (by omega) f.num_lt (congrArg (fun g => some (Instr.ldc g)) (fmtM_pack _ 0x5A (by omega) f)))
theorem ldga (f : FmtMA) : Statement (.ldga f) := fun _ _ hw =>
  of_word hw (lane_raw (by omega) f.num_lt (congrArg (fun g => some (Instr.ldga g)) (fmtMA_pack _ 0x5B (by omega) f)))
theorem stgr (f : FmtMA) : Statement (.stgr f) := fun _ _ hw =>
  of_word hw (lane_raw (by omega) f.num_lt (congrArg (fun g => some (Instr.stgr g)) (fmtMA_pack _ 0x5C (by omega) f)))
theorem ldl (f : FmtM) : Statement (.ldl f) := fun _ _ hw =>
  of_word hw (lane_raw (by omega) f.num_lt (congrArg (fun g => some (Instr.ldl g)) (fmtM_pack _ 0x5D (by omega) f)))
theorem stl (f : FmtM) : Statement (.stl f) := fun _ _ hw =>
  of_word hw (lane_raw (by omega) f.num_lt (congrArg (fun g => some (Instr.stl g)) (fmtM_pack _ 0x5E (by omega) f)))
theorem atomg (f : FmtMA) : Statement (.atomg f) := fun _ _ hw =>
  of_word hw (lane_raw (by omega) f.num_lt (congrArg (fun g => some (Instr.atomg g)) (fmtMA_pack _ 0x5F (by omega) f)))
theorem atoml (f : FmtMA) : Statement (.atoml f) := fun _ _ hw =>
  of_word hw (lane_raw (by omega) f.num_lt (congrArg (fun g => some (Instr.atoml g)) (fmtMA_pack _ 0x60 (by omega) f)))
theorem redg (f : FmtMA) : Statement (.redg f) := fun _ _ hw =>
  of_word hw (lane_raw (by omega) f.num_lt (congrArg (fun g => some (Instr.redg g)) (fmtMA_pack _ 0x61 (by omega) f)))
theorem pref (f : FmtM) : Statement (.pref f) := fun _ _ hw =>
  of_word hw (lane_raw (by omega) f.num_lt (congrArg (fun g => some (Instr.pref g)) (fmtM_pack _ 0x62 (by omega) f)))
theorem vlook (f : FmtR) : Statement (.vlook f) := fun _ _ hw =>
  of_word hw (lane_raw (by omega) f.num_lt (congrArg (fun g => some (Instr.vlook g)) (fmtR_pack _ 0x68 (by omega) f)))
theorem vsten (f : FmtR) : Statement (.vsten f) := fun _ _ hw =>
  of_word hw (lane_raw (by omega) f.num_lt (congrArg (fun g => some (Instr.vsten g)) (fmtR_pack _ 0x69 (by omega) f)))
theorem vmarch (f : FmtR) : Statement (.vmarch f) := fun _ _ hw =>
  of_word hw (lane_raw (by omega) f.num_lt (congrArg (fun g => some (Instr.vmarch g)) (fmtR_pack _ 0x6A (by omega) f)))
theorem vprobe (f : FmtR) : Statement (.vprobe f) := fun _ _ hw =>
  of_word hw (lane_raw (by omega) f.num_lt (congrArg (fun g => some (Instr.vprobe g)) (fmtR_pack _ 0x6B (by omega) f)))
theorem vins (f : FmtMA) : Statement (.vins f) := fun _ _ hw =>
  of_word hw (lane_raw (by omega) f.num_lt (congrArg (fun g => some (Instr.vins g)) (fmtMA_pack _ 0x6C (by omega) f)))
theorem vact (f : FmtMA) : Statement (.vact f) := fun _ _ hw =>
  of_word hw (lane_raw (by omega) f.num_lt (congrArg (fun g => some (Instr.vact g)) (fmtMA_pack _ 0x6D (by omega) f)))
theorem enq (f : FmtR) : Statement (.enq f) := fun _ _ hw =>
  of_word hw (lane_raw (by omega) f.num_lt (congrArg (fun g => some (Instr.enq g)) (fmtR_pack _ 0x70 (by omega) f)))
theorem sadd (f : FmtR) : Statement (.sadd f) := fun _ _ hw =>
  of_word hw (uniform_raw (by omega) f.num_lt (congrArg (fun g => some (Instr.sadd g)) (fmtR_pack _ 0x01 (by omega) f)))
theorem ssub (f : FmtR) : Statement (.ssub f) := fun _ _ hw =>
  of_word hw (uniform_raw (by omega) f.num_lt (congrArg (fun g => some (Instr.ssub g)) (fmtR_pack _ 0x02 (by omega) f)))
theorem smul (f : FmtR) : Statement (.smul f) := fun _ _ hw =>
  of_word hw (uniform_raw (by omega) f.num_lt (congrArg (fun g => some (Instr.smul g)) (fmtR_pack _ 0x03 (by omega) f)))
theorem smulh (f : FmtR) : Statement (.smulh f) := fun _ _ hw =>
  of_word hw (uniform_raw (by omega) f.num_lt (congrArg (fun g => some (Instr.smulh g)) (fmtR_pack _ 0x04 (by omega) f)))
theorem smad (f : FmtR) : Statement (.smad f) := fun _ _ hw =>
  of_word hw (uniform_raw (by omega) f.num_lt (congrArg (fun g => some (Instr.smad g)) (fmtR_pack _ 0x05 (by omega) f)))
theorem smin (f : FmtR) : Statement (.smin f) := fun _ _ hw =>
  of_word hw (uniform_raw (by omega) f.num_lt (congrArg (fun g => some (Instr.smin g)) (fmtR_pack _ 0x06 (by omega) f)))
theorem smax (f : FmtR) : Statement (.smax f) := fun _ _ hw =>
  of_word hw (uniform_raw (by omega) f.num_lt (congrArg (fun g => some (Instr.smax g)) (fmtR_pack _ 0x07 (by omega) f)))
theorem scmp (f : FmtR) : Statement (.scmp f) := fun _ _ hw =>
  of_word hw (uniform_raw (by omega) f.num_lt (congrArg (fun g => some (Instr.scmp g)) (fmtR_pack _ 0x08 (by omega) f)))
theorem ssel (f : FmtR) : Statement (.ssel f) := fun _ _ hw =>
  of_word hw (uniform_raw (by omega) f.num_lt (congrArg (fun g => some (Instr.ssel g)) (fmtR_pack _ 0x09 (by omega) f)))
theorem sand (f : FmtR) : Statement (.sand f) := fun _ _ hw =>
  of_word hw (uniform_raw (by omega) f.num_lt (congrArg (fun g => some (Instr.sand g)) (fmtR_pack _ 0x0A (by omega) f)))
theorem sor (f : FmtR) : Statement (.sor f) := fun _ _ hw =>
  of_word hw (uniform_raw (by omega) f.num_lt (congrArg (fun g => some (Instr.sor g)) (fmtR_pack _ 0x0B (by omega) f)))
theorem sxor (f : FmtR) : Statement (.sxor f) := fun _ _ hw =>
  of_word hw (uniform_raw (by omega) f.num_lt (congrArg (fun g => some (Instr.sxor g)) (fmtR_pack _ 0x0C (by omega) f)))
theorem sshl (f : FmtR) : Statement (.sshl f) := fun _ _ hw =>
  of_word hw (uniform_raw (by omega) f.num_lt (congrArg (fun g => some (Instr.sshl g)) (fmtR_pack _ 0x0D (by omega) f)))
theorem sshr (f : FmtR) : Statement (.sshr f) := fun _ _ hw =>
  of_word hw (uniform_raw (by omega) f.num_lt (congrArg (fun g => some (Instr.sshr g)) (fmtR_pack _ 0x0E (by omega) f)))
theorem ssar (f : FmtR) : Statement (.ssar f) := fun _ _ hw =>
  of_word hw (uniform_raw (by omega) f.num_lt (congrArg (fun g => some (Instr.ssar g)) (fmtR_pack _ 0x0F (by omega) f)))
theorem sbfx (f : FmtR) : Statement (.sbfx f) := fun _ _ hw =>
  of_word hw (uniform_raw (by omega) f.num_lt (congrArg (fun g => some (Instr.sbfx g)) (fmtR_pack _ 0x10 (by omega) f)))
theorem spopc (f : FmtR) : Statement (.spopc f) := fun _ _ hw =>
  of_word hw (uniform_raw (by omega) f.num_lt (congrArg (fun g => some (Instr.spopc g)) (fmtR_pack _ 0x11 (by omega) f)))
theorem slea (f : FmtR) : Statement (.slea f) := fun _ _ hw =>
  of_word hw (uniform_raw (by omega) f.num_lt (congrArg (fun g => some (Instr.slea g)) (fmtR_pack _ 0x12 (by omega) f)))
theorem smov (f : FmtR) : Statement (.smov f) := fun _ _ hw =>
  of_word hw (uniform_raw (by omega) f.num_lt (congrArg (fun g => some (Instr.smov g)) (fmtR_pack _ 0x13 (by omega) f)))
theorem smovi (f : FmtI) : Statement (.smovi f) := fun _ _ hw =>
  of_word hw (uniform_raw (by omega) f.num_lt (congrArg (fun g => some (Instr.smovi g)) (fmtI_pack _ 0x14 (by omega) f)))
theorem sfadd (f : FmtR) : Statement (.sfadd f) := fun _ _ hw =>
  of_word hw (uniform_raw (by omega) f.num_lt (congrArg (fun g => some (Instr.sfadd g)) (fmtR_pack _ 0x20 (by omega) f)))
theorem sfmul (f : FmtR) : Statement (.sfmul f) := fun _ _ hw =>
  of_word hw (uniform_raw (by omega) f.num_lt (congrArg (fun g => some (Instr.sfmul g)) (fmtR_pack _ 0x21 (by omega) f)))
theorem sffma (f : FmtR) : Statement (.sffma f) := fun _ _ hw =>
  of_word hw (uniform_raw (by omega) f.num_lt (congrArg (fun g => some (Instr.sffma g)) (fmtR_pack _ 0x22 (by omega) f)))
theorem scvt (f : FmtR) : Statement (.scvt f) := fun _ _ hw =>
  of_word hw (uniform_raw (by omega) f.num_lt (congrArg (fun g => some (Instr.scvt g)) (fmtR_pack _ 0x23 (by omega) f)))
theorem sld (f : FmtM) : Statement (.sld f) := fun _ _ hw =>
  of_word hw (uniform_raw (by omega) f.num_lt (congrArg (fun g => some (Instr.sld g)) (fmtM_pack _ 0x28 (by omega) f)))
theorem sst (f : FmtM) : Statement (.sst f) := fun _ _ hw =>
  of_word hw (uniform_raw (by omega) f.num_lt (congrArg (fun g => some (Instr.sst g)) (fmtM_pack _ 0x29 (by omega) f)))
theorem fence (f : FmtMA) : Statement (.fence f) := by
  intro h w hw
  obtain rfl := Option.some.inj hw
  have hm := h.ok.1
  simp only [shape, shapeMA, fnIn, List.contains_cons, List.contains_nil, Bool.or_false, beq_iff_eq] at hm
  have hn : f.fn ≠ 1 := by intro e; rw [e] at hm; simp at hm
  exact uniform_raw (by omega) f.num_lt (by simpa [uniformAt, fmtMA_pack _ 0x2A (by omega)] using hn)
theorem fencePromote (f : FmtMA) : Statement (.fencePromote f) := by
  intro h w hw
  obtain rfl := Option.some.inj hw
  have hm := h.ok.1
  simp only [shape, shapeMA, fnIn, List.contains_cons, List.contains_nil, Bool.or_false, beq_iff_eq] at hm
  have hn : f.fn = 1 := BitVec.eq_of_toNat_eq (by simpa using hm)
  exact uniform_raw (by omega) f.num_lt (by simpa [uniformAt, fmtMA_pack _ 0x2A (by omega)] using hn)
theorem discard (f : FmtR) : Statement (.discard f) := fun _ _ hw =>
  of_word hw (uniform_raw (by omega) f.num_lt (congrArg (fun g => some (Instr.discard g)) (fmtR_pack _ 0x2B (by omega) f)))
theorem dgst (f : FmtR) : Statement (.dgst f) := fun _ _ hw =>
  of_word hw (uniform_raw (by omega) f.num_lt (congrArg (fun g => some (Instr.dgst g)) (fmtR_pack _ 0x2C (by omega) f)))
theorem sbra (f : FmtB) : Statement (.sbra f) := fun _ _ hw =>
  of_word hw (uniform_raw (by omega) f.num_lt (congrArg (fun g => some (Instr.sbra g)) (fmtB_pack _ 0x30 (by omega) f)))
theorem sbrx (f : FmtR) : Statement (.sbrx f) := fun _ _ hw =>
  of_word hw (uniform_raw (by omega) f.num_lt (congrArg (fun g => some (Instr.sbrx g)) (fmtR_pack _ 0x31 (by omega) f)))
theorem jinit (f : FmtR) : Statement (.jinit f) := fun _ _ hw =>
  of_word hw (uniform_raw (by omega) f.num_lt (congrArg (fun g => some (Instr.jinit g)) (fmtR_pack _ 0x32 (by omega) f)))
theorem sgetm (f : FmtR) : Statement (.sgetm f) := fun _ _ hw =>
  of_word hw (uniform_raw (by omega) f.num_lt (congrArg (fun g => some (Instr.sgetm g)) (fmtR_pack _ 0x33 (by omega) f)))
theorem yield (f : FmtR) : Statement (.yield f) := fun _ _ hw =>
  of_word hw (uniform_raw (by omega) f.num_lt (congrArg (fun g => some (Instr.yield g)) (fmtR_pack _ 0x34 (by omega) f)))
theorem bar (f : FmtR) : Statement (.bar f) := fun _ _ hw =>
  of_word hw (uniform_raw (by omega) f.num_lt (congrArg (fun g => some (Instr.bar g)) (fmtR_pack _ 0x35 (by omega) f)))
theorem grow (f : FmtR) : Statement (.grow f) := fun _ _ hw =>
  of_word hw (uniform_raw (by omega) f.num_lt (congrArg (fun g => some (Instr.grow g)) (fmtR_pack _ 0x36 (by omega) f)))
theorem shrink (f : FmtR) : Statement (.shrink f) := fun _ _ hw =>
  of_word hw (uniform_raw (by omega) f.num_lt (congrArg (fun g => some (Instr.shrink g)) (fmtR_pack _ 0x37 (by omega) f)))
theorem hbeat (f : FmtR) : Statement (.hbeat f) := fun _ _ hw =>
  of_word hw (uniform_raw (by omega) f.num_lt (congrArg (fun g => some (Instr.hbeat g)) (fmtR_pack _ 0x38 (by omega) f)))
theorem launch (f : FmtE) : Statement (.launch f) := fun _ _ hw =>
  of_word hw (uniform_raw (by omega) f.num_lt (congrArg (fun g => some (Instr.launch g)) (fmtE_pack _ 0x40 (by omega) f)))
theorem cancel (f : FmtE) : Statement (.cancel f) := fun _ _ hw =>
  of_word hw (uniform_raw (by omega) f.num_lt (congrArg (fun g => some (Instr.cancel g)) (fmtE_pack _ 0x41 (by omega) f)))
theorem ccnt (f : FmtE) : Statement (.ccnt f) := fun _ _ hw =>
  of_word hw (uniform_raw (by omega) f.num_lt (congrArg (fun g => some (Instr.ccnt g)) (fmtE_pack _ 0x42 (by omega) f)))
theorem wait (f : FmtR) : Statement (.wait f) := fun _ _ hw =>
  of_word hw (uniform_raw (by omega) f.num_lt (congrArg (fun g => some (Instr.wait g)) (fmtR_pack _ 0x48 (by omega) f)))
theorem cpyin (f : FmtE) : Statement (.cpyin f) := fun _ _ hw =>
  of_word hw (uniform_raw (by omega) f.num_lt (congrArg (fun g => some (Instr.cpyin g)) (fmtE_pack _ 0x49 (by omega) f)))
theorem cpyout (f : FmtE) : Statement (.cpyout f) := fun _ _ hw =>
  of_word hw (uniform_raw (by omega) f.num_lt (congrArg (fun g => some (Instr.cpyout g)) (fmtE_pack _ 0x4A (by omega) f)))
theorem cpygg (f : FmtE) : Statement (.cpygg f) := fun _ _ hw =>
  of_word hw (uniform_raw (by omega) f.num_lt (congrArg (fun g => some (Instr.cpygg g)) (fmtE_pack _ 0x4B (by omega) f)))
theorem cpymc (f : FmtE) : Statement (.cpymc f) := fun _ _ hw =>
  of_word hw (uniform_raw (by omega) f.num_lt (congrArg (fun g => some (Instr.cpymc g)) (fmtE_pack _ 0x4C (by omega) f)))
theorem cpyt (f : FmtE) : Statement (.cpyt f) := fun _ _ hw =>
  of_word hw (uniform_raw (by omega) f.num_lt (congrArg (fun g => some (Instr.cpyt g)) (fmtE_pack _ 0x4D (by omega) f)))
theorem cpytn (f : FmtE) : Statement (.cpytn f) := fun _ _ hw =>
  of_word hw (uniform_raw (by omega) f.num_lt (congrArg (fun g => some (Instr.cpytn g)) (fmtE_pack _ 0x4E (by omega) f)))
theorem mma (f : FmtE) : Statement (.mma f) := fun _ _ hw =>
  of_word hw (uniform_raw (by omega) f.num_lt (congrArg (fun g => some (Instr.mma g)) (fmtE_pack _ 0x50 (by omega) f)))
theorem mmasp (f : FmtE) : Statement (.mmasp f) := fun _ _ hw =>
  of_word hw (uniform_raw (by omega) f.num_lt (congrArg (fun g => some (Instr.mmasp g)) (fmtE_pack _ 0x51 (by omega) f)))
theorem mzero (f : FmtE) : Statement (.mzero f) := fun _ _ hw =>
  of_word hw (uniform_raw (by omega) f.num_lt (congrArg (fun g => some (Instr.mzero g)) (fmtE_pack _ 0x52 (by omega) f)))
theorem mloadb (f : FmtE) : Statement (.mloadb f) := fun _ _ hw =>
  of_word hw (uniform_raw (by omega) f.num_lt (congrArg (fun g => some (Instr.mloadb g)) (fmtE_pack _ 0x53 (by omega) f)))
theorem mdrain (f : FmtE) : Statement (.mdrain f) := fun _ _ hw =>
  of_word hw (uniform_raw (by omega) f.num_lt (congrArg (fun g => some (Instr.mdrain g)) (fmtE_pack _ 0x54 (by omega) f)))
theorem mlease (f : FmtR) : Statement (.mlease f) := fun _ _ hw =>
  of_word hw (uniform_raw (by omega) f.num_lt (congrArg (fun g => some (Instr.mlease g)) (fmtR_pack _ 0x55 (by omega) f)))
theorem spproj (f : FmtE) : Statement (.spproj f) := fun _ _ hw =>
  of_word hw (uniform_raw (by omega) f.num_lt (congrArg (fun g => some (Instr.spproj g)) (fmtE_pack _ 0x58 (by omega) f)))
theorem spsort (f : FmtE) : Statement (.spsort f) := fun _ _ hw =>
  of_word hw (uniform_raw (by omega) f.num_lt (congrArg (fun g => some (Instr.spsort g)) (fmtE_pack _ 0x59 (by omega) f)))
theorem spblnd (f : FmtE) : Statement (.spblnd f) := fun _ _ hw =>
  of_word hw (uniform_raw (by omega) f.num_lt (congrArg (fun g => some (Instr.spblnd g)) (fmtE_pack _ 0x5A (by omega) f)))
theorem spback (f : FmtE) : Statement (.spback f) := fun _ _ hw =>
  of_word hw (uniform_raw (by omega) f.num_lt (congrArg (fun g => some (Instr.spback g)) (fmtE_pack _ 0x5B (by omega) f)))
theorem rxreg (f : FmtE) : Statement (.rxreg f) := fun _ _ hw =>
  of_word hw (uniform_raw (by omega) f.num_lt (congrArg (fun g => some (Instr.rxreg g)) (fmtE_pack _ 0x60 (by omega) f)))
theorem rxdereg (f : FmtE) : Statement (.rxdereg f) := fun _ _ hw =>
  of_word hw (uniform_raw (by omega) f.num_lt (congrArg (fun g => some (Instr.rxdereg g)) (fmtE_pack _ 0x61 (by omega) f)))
theorem route (f : FmtE) : Statement (.route f) := fun _ _ hw =>
  of_word hw (uniform_raw (by omega) f.num_lt (congrArg (fun g => some (Instr.route g)) (fmtE_pack _ 0x62 (by omega) f)))
theorem recv (f : FmtE) : Statement (.recv f) := fun _ _ hw =>
  of_word hw (uniform_raw (by omega) f.num_lt (congrArg (fun g => some (Instr.recv g)) (fmtE_pack _ 0x63 (by omega) f)))
theorem retn (f : FmtE) : Statement (.retn f) := fun _ _ hw =>
  of_word hw (uniform_raw (by omega) f.num_lt (congrArg (fun g => some (Instr.retn g)) (fmtE_pack _ 0x64 (by omega) f)))
theorem escq (f : FmtE) : Statement (.escq f) := fun _ _ hw =>
  of_word hw (uniform_raw (by omega) f.num_lt (congrArg (fun g => some (Instr.escq g)) (fmtE_pack _ 0x65 (by omega) f)))
theorem halo (f : FmtE) : Statement (.halo f) := fun _ _ hw =>
  of_word hw (uniform_raw (by omega) f.num_lt (congrArg (fun g => some (Instr.halo g)) (fmtE_pack _ 0x68 (by omega) f)))
theorem phwait (f : FmtR) : Statement (.phwait f) := fun _ _ hw =>
  of_word hw (uniform_raw (by omega) f.num_lt (congrArg (fun g => some (Instr.phwait g)) (fmtR_pack _ 0x69 (by omega) f)))
theorem valloc (f : FmtR) : Statement (.valloc f) := fun _ _ hw =>
  of_word hw (uniform_raw (by omega) f.num_lt (congrArg (fun g => some (Instr.valloc g)) (fmtR_pack _ 0x6C (by omega) f)))
theorem vfree (f : FmtR) : Statement (.vfree f) := fun _ _ hw =>
  of_word hw (uniform_raw (by omega) f.num_lt (congrArg (fun g => some (Instr.vfree g)) (fmtR_pack _ 0x6D (by omega) f)))
theorem wfence (f : FmtMA) : Statement (.wfence f) := fun _ _ hw =>
  of_word hw (uniform_raw (by omega) f.num_lt (congrArg (fun g => some (Instr.wfence g)) (fmtMA_pack _ 0x6E (by omega) f)))
theorem trap (f : FmtI) : Statement (.trap f) := fun _ _ hw =>
  of_word hw (uniform_raw (by omega) f.num_lt (congrArg (fun g => some (Instr.trap g)) (fmtI_pack _ 0x70 (by omega) f)))
theorem rte (f : FmtR) : Statement (.rte f) := fun _ _ hw =>
  of_word hw (uniform_raw (by omega) f.num_lt (congrArg (fun g => some (Instr.rte g)) (fmtR_pack _ 0x71 (by omega) f)))
theorem sprr (f : FmtI) : Statement (.sprr f) := fun _ _ hw =>
  of_word hw (uniform_raw (by omega) f.num_lt (congrArg (fun g => some (Instr.sprr g)) (fmtI_pack _ 0x72 (by omega) f)))
theorem sprw (f : FmtI) : Statement (.sprw f) := fun _ _ hw =>
  of_word hw (uniform_raw (by omega) f.num_lt (congrArg (fun g => some (Instr.sprw g)) (fmtI_pack _ 0x73 (by omega) f)))
theorem asyncTrapEntry (strip : Nat) : Statement (.asyncTrapEntry strip) := fun _ _ h => nomatch (h : none = some _)
theorem longLatencyResultArrival (strip win : Nat) (part : AccessPart) : Statement (.longLatencyResultArrival strip win part) := fun _ _ h => nomatch (h : none = some _)
theorem spillRefillArrival (strip reg : Nat) : Statement (.spillRefillArrival strip reg) := fun _ _ h => nomatch (h : none = some _)
theorem growClaimGrant (core slice : Nat) : Statement (.growClaimGrant core slice) := fun _ _ h => nomatch (h : none = some _)
theorem scbDrain (core entry : Nat) : Statement (.scbDrain core entry) := fun _ _ h => nomatch (h : none = some _)
theorem engineCommandStart (core cmd : Nat) : Statement (.engineCommandStart core cmd) := fun _ _ h => nomatch (h : none = some _)
theorem commandCompletion (core cmd : Nat) : Statement (.commandCompletion core cmd) := fun _ _ h => nomatch (h : none = some _)
theorem mintOperation (die req : Nat) : Statement (.mintOperation die req) := fun _ _ h => nomatch (h : none = some _)
theorem translationFault (strip : Nat) (va : BitVec 48) (kind access : BitVec 8) : Statement (.translationFault strip va kind access) := fun _ _ h => nomatch (h : none = some _)
theorem routeDeliveryArrival (msg : Nat) : Statement (.routeDeliveryArrival msg) := fun _ _ h => nomatch (h : none = some _)
theorem routeRetry (core entry slot : Nat) : Statement (.routeRetry core entry slot) := fun _ _ h => nomatch (h : none = some _)
theorem routeAnswerArrival (msg : Nat) : Statement (.routeAnswerArrival msg) := fun _ _ h => nomatch (h : none = some _)
theorem dropNoticeArrival (msg : Nat) : Statement (.dropNoticeArrival msg) := fun _ _ h => nomatch (h : none = some _)
theorem escrowDeadline (core entry : Nat) : Statement (.escrowDeadline core entry) := fun _ _ h => nomatch (h : none = some _)
theorem launchCommand (queue : Nat) : Statement (.launchCommand queue) := fun _ _ h => nomatch (h : none = some _)
theorem graphCommand (queue : Nat) : Statement (.graphCommand queue) := fun _ _ h => nomatch (h : none = some _)
theorem copyCommand (queue : Nat) : Statement (.copyCommand queue) := fun _ _ h => nomatch (h : none = some _)
theorem cancelCommand (queue : Nat) : Statement (.cancelCommand queue) := fun _ _ h => nomatch (h : none = some _)
theorem closeCommand (queue : Nat) : Statement (.closeCommand queue) := fun _ _ h => nomatch (h : none = some _)
theorem launchForward (die launch : Nat) : Statement (.launchForward die launch) := fun _ _ h => nomatch (h : none = some _)
theorem workgroupDispatch (die launch target : Nat) : Statement (.workgroupDispatch die launch target) := fun _ _ h => nomatch (h : none = some _)
theorem stealRequest (die thief victim : Nat) : Statement (.stealRequest die thief victim) := fun _ _ h => nomatch (h : none = some _)
theorem stripRetirement (strip : Nat) : Statement (.stripRetirement strip) := fun _ _ h => nomatch (h : none = some _)
theorem workGraphConsumerDispatch (queue target : Nat) : Statement (.workGraphConsumerDispatch queue target) := fun _ _ h => nomatch (h : none = some _)
theorem phaseCountEvent (ev : Nat) : Statement (.phaseCountEvent ev) := fun _ _ h => nomatch (h : none = some _)
theorem queueHalted (queue : Nat) : Statement (.queueHalted queue) := fun _ _ h => nomatch (h : none = some _)
theorem watchdogHeartbeatExpiry (die launch : Nat) : Statement (.watchdogHeartbeatExpiry die launch) := fun _ _ h => nomatch (h : none = some _)
theorem watchdogWallClockExpiry (launch : Nat) : Statement (.watchdogWallClockExpiry launch) := fun _ _ h => nomatch (h : none = some _)
theorem timeSliceExpiry (die job : Nat) : Statement (.timeSliceExpiry die job) := fun _ _ h => nomatch (h : none = some _)
theorem workgroupSave (wg : Nat) : Statement (.workgroupSave wg) := fun _ _ h => nomatch (h : none = some _)
theorem workgroupRestore (wg target : Nat) : Statement (.workgroupRestore wg target) := fun _ _ h => nomatch (h : none = some _)
theorem haloEntryDelivery (entry : Nat) : Statement (.haloEntryDelivery entry) := fun _ _ h => nomatch (h : none = some _)
theorem scaleOutPacketReceive (conn : Nat) (pkt : Packet) : Statement (.scaleOutPacketReceive conn pkt) := fun _ _ h => nomatch (h : none = some _)
theorem scaleOutAck (conn : Nat) (ack : PacketAck) : Statement (.scaleOutAck conn ack) := fun _ _ h => nomatch (h : none = some _)
theorem scaleOutRetransmit (conn : Nat) : Statement (.scaleOutRetransmit conn) := fun _ _ h => nomatch (h : none = some _)
theorem linkFlitRetry (link : Nat) (good : Bool) : Statement (.linkFlitRetry link good) := fun _ _ h => nomatch (h : none = some _)
theorem correctableError (die : Nat) (site : ErrSite) : Statement (.correctableError die site) := fun _ _ h => nomatch (h : none = some _)
theorem uncorrectableError (die : Nat) (site : ErrSite) : Statement (.uncorrectableError die site) := fun _ _ h => nomatch (h : none = some _)
theorem patrolScrub (die : Nat) (found : ScrubErrors) : Statement (.patrolScrub die found) := fun _ _ h => nomatch (h : none = some _)
theorem hbmScrub (die : Nat) (found : ScrubErrors) : Statement (.hbmScrub die found) := fun _ _ h => nomatch (h : none = some _)
theorem qbell (queue : Nat) : Statement (.qbell queue) := fun _ _ h => nomatch (h : none = some _)
theorem tibell (die : Nat) : Statement (.tibell die) := fun _ _ h => nomatch (h : none = some _)
theorem savereq (die part : Nat) : Statement (.savereq die part) := fun _ _ h => nomatch (h : none = some _)
theorem fqansRetry (die : Nat) (seq : BitVec 64) : Statement (.fqansRetry die seq) := fun _ _ h => nomatch (h : none = some _)
theorem fqansZero (die : Nat) (seq : BitVec 64) : Statement (.fqansZero die seq) := fun _ _ h => nomatch (h : none = some _)
theorem fqansAbort (die : Nat) (seq : BitVec 64) : Statement (.fqansAbort die seq) := fun _ _ h => nomatch (h : none = some _)
theorem fqcons (die : Nat) (value : BitVec 64) : Statement (.fqcons die value) := fun _ _ h => nomatch (h : none = some _)
theorem registerWrite (pa : BitVec 44) (value : BitVec 64) : Statement (.registerWrite pa value) := fun _ _ h => nomatch (h : none = some _)
theorem flip (head : Nat) (value : BitVec 64) : Statement (.flip head value) := fun _ _ h => nomatch (h : none = some _)
theorem keyreq (head : Nat) : Statement (.keyreq head) := fun _ _ h => nomatch (h : none = some _)
theorem ioinvAsid (asid : BitVec 16) : Statement (.ioinvAsid asid) := fun _ _ h => nomatch (h : none = some _)
theorem ioinvAll : Statement .ioinvAll := fun _ _ h => nomatch (h : none = some _)
theorem displayFrameStart (head : Nat) : Statement (.displayFrameStart head) := fun _ _ h => nomatch (h : none = some _)
theorem encodedFrameWrite (enc : Nat) : Statement (.encodedFrameWrite enc) := fun _ _ h => nomatch (h : none = some _)
theorem deviceDmaAccess (bdf : BitVec 16) (va : BitVec 48) (len : Nat) (write : Option (List Byte)) : Statement (.deviceDmaAccess bdf va len write) := fun _ _ h => nomatch (h : none = some _)
theorem mgmtReadStatus (session : Nat) (num : BitVec 64) : Statement (.mgmtReadStatus session num) := fun _ _ h => nomatch (h : none = some _)
theorem mgmtReadErrorLog (session : Nat) (num after : BitVec 64) : Statement (.mgmtReadErrorLog session num after) := fun _ _ h => nomatch (h : none = some _)
theorem mgmtSetPartitions (session : Nat) (num : BitVec 64) (map owners weights : List Nat) (shares : List (Nat × Nat × Nat)) : Statement (.mgmtSetPartitions session num map owners weights shares) := fun _ _ h => nomatch (h : none = some _)
theorem mgmtPatrolScrub (session : Nat) (num : BitVec 64) (on : Bool) : Statement (.mgmtPatrolScrub session num on) := fun _ _ h => nomatch (h : none = some _)
theorem mgmtSetPowerCap (session : Nat) (num : BitVec 64) (die watts : Nat) : Statement (.mgmtSetPowerCap session num die watts) := fun _ _ h => nomatch (h : none = some _)
theorem mgmtLoadFirmware (session : Nat) (num : BitVec 64) (image : FwImage) : Statement (.mgmtLoadFirmware session num image) := fun _ _ h => nomatch (h : none = some _)
theorem mgmtAttestation (session : Nat) (num : BitVec 64) (nonce : BitVec 256) : Statement (.mgmtAttestation session num nonce) := fun _ _ h => nomatch (h : none = some _)
theorem mgmtModuleReset (session : Nat) (num : BitVec 64) : Statement (.mgmtModuleReset session num) := fun _ _ h => nomatch (h : none = some _)
theorem mgmtRaiseSecurityVersion (session : Nat) (num : BitVec 64) : Statement (.mgmtRaiseSecurityVersion session num) := fun _ _ h => nomatch (h : none = some _)
theorem boot (image : Option FwImage) (failed : SelfTest) : Statement (.boot image failed) := fun _ _ h => nomatch (h : none = some _)
theorem powerCapThrottle (die watts : Nat) : Statement (.powerCapThrottle die watts) := fun _ _ h => nomatch (h : none = some _)
theorem thermalThrottleBand (die temp : Nat) : Statement (.thermalThrottleBand die temp) := fun _ _ h => nomatch (h : none = some _)
theorem thermalCriticalBand (die temp : Nat) : Statement (.thermalCriticalBand die temp) := fun _ _ h => nomatch (h : none = some _)
theorem thermalReset (die temp : Nat) : Statement (.thermalReset die temp) := fun _ _ h => nomatch (h : none = some _)
theorem coolantAlarm (inlet flow : Nat) : Statement (.coolantAlarm inlet flow) := fun _ _ h => nomatch (h : none = some _)
theorem illegalInstruction (word : BitVec 64) : Statement (.illegalInstruction word) := fun h => nomatch (h : some 1 = none)
theorem retnAnswerRetry (core cmd : Nat) : Statement (.retnAnswerRetry core cmd) := fun _ _ h => nomatch (h : none = some _)
theorem copyNodeCompletion (copy : Nat) : Statement (.copyNodeCompletion copy) := fun _ _ h => nomatch (h : none = some _)
theorem haltCleared (queue : Nat) : Statement (.haltCleared queue) := fun _ _ h => nomatch (h : none = some _)
theorem mgmtSession (anchor : Option Nat) : Statement (.mgmtSession anchor) := fun _ _ h => nomatch (h : none = some _)
theorem mgmtMalformedRequest (session : Nat) (num : BitVec 64) : Statement (.mgmtMalformedRequest session num) := fun _ _ h => nomatch (h : none = some _)

end Sys2Proof.Laws.RoundTrip
end

