-- ==== Sys2Proof/Tests/Slice0.lean ====
section
/-! SUPPORT. Own tests: the words of every mnemonic, the words printed in the spec, ill-formed words, one step of
some instructions of every family, and for every statement of Obligations.lean states that meet its hypotheses. -/
namespace Sys2Proof.Tests
open Sys2Proof Sys2Proof.Machine

/-! ## Words -/

/-- Every word decodes to its instruction, and encodes back. -/
def allDecode (l : List (DWord × Instr)) : Bool := l.all fun w =>
  match decode w.1 with
  | .ok i => i == w.2 && encode i == some w.1
  | .error _ => false

/-- The reason a word is rejected with. -/
def rejects (w : DWord) : Option Reject := match decode w with
  | .ok _ => none
  | .error e => some e

/-! Each word below is put together from the major of R66-R68 and the layout of R56, with the operand rules of the
instruction's own rule. -/

theorem test_decode_integer_iadd :
    allDecode [(0x01109C0621200008, .iadd ⟨1, 19, ⟨true, 6⟩, ⟨false, 0x109⟩, ⟨false, 0⟩, 0, 0, true, 0⟩),
      (0x0220A40621400008, .isub ⟨2, 20, ⟨true, 6⟩, ⟨false, 0x10a⟩, ⟨false, 0⟩, 0, 0, true, 0⟩),
      (0x0310980660A00008, .imul ⟨1, 19, ⟨false, 6⟩, ⟨false, 0x305⟩, ⟨false, 0⟩, 0, 0, true, 0⟩),
      (0x0407FB4280E00000, .imulh ⟨0, 255, ⟨false, 0x342⟩, ⟨true, 7⟩, ⟨false, 0⟩, 0, 0, false, 0⟩),
      (0x0530940400C42008, .imad ⟨3, 18, ⟨true, 4⟩, ⟨false, 6⟩, ⟨false, 0x108⟩, 0, 0, true, 0⟩),
      (0x0600380180400240, .idiv ⟨0, 7, ⟨false, 1⟩, ⟨true, 2⟩, ⟨false, 0⟩, 9, 0, false, 0⟩),
      (0x07304102004003C0, .irem ⟨3, 8, ⟨false, 0x102⟩, ⟨false, 2⟩, ⟨false, 0⟩, 15, 0, false, 0⟩),
      (0x0840380167E00000, .imin ⟨4, 7, ⟨false, 1⟩, ⟨false, 0x33f⟩, ⟨false, 0⟩, 0, 0, false, 0⟩),
      (0x09503AFF00200000, .imax ⟨5, 7, ⟨false, 0x2ff⟩, ⟨false, 1⟩, ⟨false, 0⟩, 0, 0, false, 0⟩),
      (0x0A601CC800000008, .iabs ⟨6, 3, ⟨true, 0xc8⟩, ⟨false, 0⟩, ⟨false, 0⟩, 0, 0, true, 0⟩),
      (0x0B2020CA00000000, .ineg ⟨2, 4, ⟨false, 0xca⟩, ⟨false, 0⟩, ⟨false, 0⟩, 0, 0, false, 0⟩),
      (0x0C30480280800005, .icmp ⟨3, 9, ⟨false, 2⟩, ⟨true, 4⟩, ⟨false, 0⟩, 0, 0, false, 5⟩),
      (0x0D20500380841800, .isel ⟨2, 10, ⟨false, 3⟩, ⟨true, 4⟩, ⟨false, 0x106⟩, 0, 0, false, 0⟩),
      (0x0E20500460400000, .iand ⟨2, 10, ⟨false, 4⟩, ⟨false, 0x302⟩, ⟨false, 0⟩, 0, 0, false, 0⟩),
      (0x0E00580480A00001, .ior ⟨0, 11, ⟨false, 4⟩, ⟨true, 5⟩, ⟨false, 0⟩, 0, 0, false, 1⟩),
      (0x0E005B0400A00002, .ixor ⟨0, 11, ⟨false, 0x304⟩, ⟨false, 5⟩, ⟨false, 0⟩, 0, 0, false, 2⟩)] = true := by decide

theorem test_decode_integer_iandn :
    allDecode [(0x0E20610480C00003, .iandn ⟨2, 12, ⟨false, 0x104⟩, ⟨true, 6⟩, ⟨false, 0⟩, 0, 0, false, 3⟩),
      (0x0F00080280600000, .ishl ⟨0, 1, ⟨false, 2⟩, ⟨true, 3⟩, ⟨false, 0⟩, 0, 0, false, 0⟩),
      (0x1020100460600000, .ishr ⟨2, 2, ⟨false, 4⟩, ⟨false, 0x303⟩, ⟨false, 0⟩, 0, 0, false, 0⟩),
      (0x1100090500600000, .isar ⟨0, 1, ⟨false, 0x105⟩, ⟨false, 3⟩, ⟨false, 0⟩, 0, 0, false, 0⟩),
      (0x12000C02006C1C00, .ifshl ⟨0, 1, ⟨true, 2⟩, ⟨false, 3⟩, ⟨false, 0x307⟩, 0, 0, false, 0⟩),
      (0x1300080220701000, .ifshr ⟨0, 1, ⟨false, 2⟩, ⟨false, 0x103⟩, ⟨true, 4⟩, 0, 0, false, 0⟩),
      (0x1410080261000000, .bfx ⟨1, 1, ⟨false, 2⟩, ⟨false, 0x308⟩, ⟨false, 0⟩, 0, 0, false, 0⟩),
      (0x1500080200641000, .bfi ⟨0, 1, ⟨false, 2⟩, ⟨false, 3⟩, ⟨false, 0x104⟩, 0, 0, false, 0⟩),
      (0x16202C0600000000, .popc ⟨2, 5, ⟨true, 6⟩, ⟨false, 0⟩, ⟨false, 0⟩, 0, 0, false, 0⟩),
      (0x1600280600000001, .clz ⟨0, 5, ⟨false, 6⟩, ⟨false, 0⟩, ⟨false, 0⟩, 0, 0, false, 1⟩),
      (0x1620290600000002, .ctz ⟨2, 5, ⟨false, 0x106⟩, ⟨false, 0⟩, ⟨false, 0⟩, 0, 0, false, 2⟩),
      (0x16002C0700000003, .brev ⟨0, 5, ⟨true, 7⟩, ⟨false, 0⟩, ⟨false, 0⟩, 0, 0, false, 3⟩),
      (0x17002807810C0400, .bperm ⟨0, 5, ⟨false, 7⟩, ⟨true, 8⟩, ⟨false, 0x301⟩, 0, 0, false, 0⟩),
      (0x1810310481200003, .lea ⟨1, 6, ⟨false, 0x104⟩, ⟨true, 9⟩, ⟨false, 0⟩, 0, 0, false, 3⟩),
      (0x1970280180400C08, .isad ⟨7, 5, ⟨false, 1⟩, ⟨true, 2⟩, ⟨false, 3⟩, 0, 0, true, 0⟩),
      (0x1A20310C00000000, .mov ⟨2, 6, ⟨false, 0x10c⟩, ⟨false, 0⟩, ⟨false, 0⟩, 0, 0, false, 0⟩)] = true := by decide

theorem test_decode_integer_movi :
    allDecode [(0x1B010800DEADBEEF, .movi ⟨0, 33, ⟨false, 0⟩, 0xdeadbeef⟩),
      (0x1C002C0100400C0A, .dot4 ⟨0, 5, ⟨true, 1⟩, ⟨false, 2⟩, ⟨false, 3⟩, 0, 0, true, 2⟩),
      (0x1D002801004C0C03, .dot8 ⟨0, 5, ⟨false, 1⟩, ⟨false, 2⟩, ⟨false, 0x303⟩, 0, 0, false, 3⟩)] = true := by decide

theorem test_decode_float_fadd :
    allDecode [(0x20802C0120400018, .fadd ⟨8, 5, ⟨true, 1⟩, ⟨false, 0x102⟩, ⟨false, 0⟩, 0, 1, true, 0⟩),
      (0x2190300280800020, .fsub ⟨9, 6, ⟨false, 2⟩, ⟨true, 4⟩, ⟨false, 0⟩, 0, 2, false, 0⟩),
      (0x22A02B2100200030, .fmul ⟨10, 5, ⟨false, 0x321⟩, ⟨false, 1⟩, ⟨false, 0⟩, 0, 3, false, 0⟩),
      (0x2380280100500C28, .ffma ⟨8, 5, ⟨false, 1⟩, ⟨false, 2⟩, ⟨true, 3⟩, 0, 2, true, 0⟩),
      (0x24B0280120400001, .fmin ⟨11, 5, ⟨false, 1⟩, ⟨false, 0x102⟩, ⟨false, 0⟩, 0, 0, false, 1⟩),
      (0x2590340200800000, .fmax ⟨9, 6, ⟨true, 2⟩, ⟨false, 4⟩, ⟨false, 0⟩, 0, 0, false, 0⟩),
      (0x2680280164400007, .fcmp ⟨8, 5, ⟨false, 1⟩, ⟨false, 0x322⟩, ⟨false, 0⟩, 0, 0, false, 7⟩),
      (0x27C02C0100000000, .fclass ⟨12, 5, ⟨true, 1⟩, ⟨false, 0⟩, ⟨false, 0⟩, 0, 0, false, 0⟩),
      (0x28A0280300000030, .frnd ⟨10, 5, ⟨false, 3⟩, ⟨false, 0⟩, ⟨false, 0⟩, 0, 3, false, 0⟩),
      (0x2990400A80600018, .fscale ⟨9, 8, ⟨false, 10⟩, ⟨true, 3⟩, ⟨false, 0⟩, 0, 1, true, 0⟩),
      (0x2A81443200000040, .frcp ⟨8, 40, ⟨true, 50⟩, ⟨false, 0⟩, ⟨false, 0⟩, 1, 0, false, 0⟩),
      (0x2B814C3300000090, .frsq ⟨8, 41, ⟨true, 51⟩, ⟨false, 0⟩, ⟨false, 0⟩, 2, 1, false, 0⟩),
      (0x2C903404000000D8, .fsqrt ⟨9, 6, ⟨true, 4⟩, ⟨false, 0⟩, ⟨false, 0⟩, 3, 1, true, 0⟩),
      (0x2DA02804206000B0, .fdiv ⟨10, 5, ⟨false, 4⟩, ⟨false, 0x103⟩, ⟨false, 0⟩, 2, 3, false, 0⟩),
      (0x2E815434000000E0, .fex2 ⟨8, 42, ⟨true, 52⟩, ⟨false, 0⟩, ⟨false, 0⟩, 3, 2, false, 0⟩),
      (0x2F815C3500000130, .flg2 ⟨8, 43, ⟨true, 53⟩, ⟨false, 0⟩, ⟨false, 0⟩, 4, 3, false, 0⟩)] = true := by decide

theorem test_decode_float_fsinpi :
    allDecode [(0x3081643600000140, .fsinpi ⟨8, 44, ⟨true, 54⟩, ⟨false, 0⟩, ⟨false, 0⟩, 5, 0, false, 0⟩),
      (0x31816C3700000190, .fcospi ⟨8, 45, ⟨true, 55⟩, ⟨false, 0⟩, ⟨false, 0⟩, 6, 1, false, 0⟩),
      (0x32817438000001E0, .ftanh ⟨8, 46, ⟨true, 56⟩, ⟨false, 0⟩, ⟨false, 0⟩, 7, 2, false, 0⟩),
      (0x33B0280180400C28, .hfma2 ⟨11, 5, ⟨false, 1⟩, ⟨true, 2⟩, ⟨false, 3⟩, 0, 2, true, 0⟩),
      (0x34A02C01004C0008, .fdot2 ⟨10, 5, ⟨true, 1⟩, ⟨false, 2⟩, ⟨false, 0x300⟩, 0, 0, true, 0⟩),
      (0x35002C0301000038, .cvt ⟨0, 5, ⟨true, 3⟩, ⟨false, 8⟩, ⟨false, 0⟩, 0, 3, true, 0⟩),
      (0x36C0280301101018, .cvtpk ⟨12, 5, ⟨false, 3⟩, ⟨false, 8⟩, ⟨true, 4⟩, 0, 1, true, 0⟩),
      (0x37802C0301AC9000, .cvtxp ⟨8, 5, ⟨true, 3⟩, ⟨false, 13⟩, ⟨false, 0x324⟩, 0, 0, false, 0⟩)] = true := by decide

theorem test_decode_cross_strand_and_branch_shfl :
    allDecode [(0x4000240360400007, .shfl ⟨0, 4, ⟨true, 3⟩, ⟨false, 0x302⟩, ⟨false, 0⟩, 0, 0, false, 7⟩),
      (0x4120200280A00003, .gshfl ⟨2, 4, ⟨false, 2⟩, ⟨true, 5⟩, ⟨false, 0⟩, 0, 0, false, 3⟩),
      (0x4200200300000006, .vote ⟨0, 4, ⟨false, 3⟩, ⟨false, 0⟩, ⟨false, 0⟩, 0, 0, false, 6⟩),
      (0x4380240300000005, .red ⟨8, 4, ⟨true, 3⟩, ⟨false, 0⟩, ⟨false, 0⟩, 0, 0, false, 5⟩),
      (0x4410180300000008, .scan ⟨1, 3, ⟨false, 3⟩, ⟨false, 0⟩, ⟨false, 0⟩, 0, 0, true, 0⟩),
      (0x4510200380A00000, .isect ⟨1, 4, ⟨false, 3⟩, ⟨true, 5⟩, ⟨false, 0⟩, 0, 0, false, 0⟩),
      (0x4680340300A00000, .smerge ⟨8, 6, ⟨true, 3⟩, ⟨false, 5⟩, ⟨false, 0⟩, 0, 0, false, 0⟩),
      (0x4700200320A001C0, .sort16 ⟨0, 4, ⟨false, 3⟩, ⟨false, 0x105⟩, ⟨false, 0⟩, 7, 0, false, 0⟩),
      (0x4820240600000000, .matchKeys ⟨2, 4, ⟨true, 6⟩, ⟨false, 0⟩, ⟨false, 0⟩, 0, 0, false, 0⟩),
      (0x4900010C00000000, .jarv ⟨0, 0, ⟨false, 0x10c⟩, ⟨false, 0⟩, ⟨false, 0⟩, 0, 0, false, 0⟩),
      (0x4A0002FF00000000, .jwait ⟨0, 0, ⟨false, 0x2ff⟩, ⟨false, 0⟩, ⟨false, 0⟩, 0, 0, false, 0⟩),
      (0x50400402FFFFFFFD, .bra ⟨4, 0, ⟨true, 2⟩, 0xfffffffd⟩),
      (0x5130040400C00000, .brx ⟨3, 0, ⟨true, 4⟩, ⟨false, 6⟩, ⟨false, 0⟩, 0, 0, false, 0⟩),
      (0x522040057FFFFFFF, .call ⟨2, 8, ⟨false, 5⟩, 0x7fffffff⟩),
      (0x5300010400000000, .ret ⟨0, 0, ⟨false, 0x104⟩, ⟨false, 0⟩, ⟨false, 0⟩, 0, 0, false, 0⟩),
      (0x5400000000000000, .exit ⟨0, 0, ⟨false, 0⟩, ⟨false, 0⟩, ⟨false, 0⟩, 0, 0, false, 0⟩)] = true := by decide

theorem test_decode_cross_strand_and_branch_nop :
    allDecode [(0x5500000000000000, .nop ⟨0, 0, ⟨false, 0⟩, ⟨false, 0⟩, ⟨false, 0⟩, 0, 0, false, 0⟩)] = true := by decide

theorem test_decode_memory_ldg :
    allDecode [(0x58900C032080016F, .ldg ⟨9, 1, ⟨true, 3⟩, ⟨false, 0x104⟩, ⟨false, 0⟩, 5, 2, 3, true, true⟩),
      (0x5930030581001839, .stg ⟨3, 0, ⟨false, 0x305⟩, ⟨true, 8⟩, ⟨false, 6⟩, 0, 3, 2, false, true⟩),
      (0x5A60480121000046, .ldc ⟨6, 9, ⟨false, 1⟩, ⟨false, 0x108⟩, ⟨false, 0⟩, 1, 0, 1, true, false⟩),
      (0x5B30200020C001A3, .ldga ⟨3, 4, ⟨false, 0⟩, ⟨false, 0x106⟩, ⟨false, 0⟩, 6, 4, 1, true⟩),
      (0x5C20000080C0241C, .stgr ⟨2, 0, ⟨false, 0⟩, ⟨true, 6⟩, ⟨false, 9⟩, 0, 3, 2, false⟩),
      (0x5D2049088020010B, .ldl ⟨2, 9, ⟨false, 0x108⟩, ⟨true, 1⟩, ⟨false, 0⟩, 4, 0, 2, true, true⟩),
      (0x5E40000200902000, .stl ⟨4, 0, ⟨false, 2⟩, ⟨false, 4⟩, ⟨true, 8⟩, 0, 0, 0, false, false⟩),
      (0x5F902406210029D7, .atomg ⟨9, 4, ⟨true, 6⟩, ⟨false, 0x108⟩, ⟨false, 10⟩, 7, 2, 3, true⟩),
      (0x6000200680E0004C, .atoml ⟨0, 4, ⟨false, 6⟩, ⟨true, 7⟩, ⟨false, 0⟩, 1, 1, 2, false⟩),
      (0x61A000068100001C, .redg ⟨10, 0, ⟨false, 6⟩, ⟨true, 8⟩, ⟨false, 0⟩, 0, 3, 2, false⟩),
      (0x621003062080001E, .pref ⟨1, 0, ⟨false, 0x306⟩, ⟨false, 0x104⟩, ⟨false, 0⟩, 0, 1, 3, true, false⟩),
      (0x68003404210000C1, .vlook ⟨0, 6, ⟨true, 4⟩, ⟨false, 0x108⟩, ⟨false, 0⟩, 3, 0, false, 1⟩),
      (0x6903200821400042, .vsten ⟨0, 100, ⟨false, 8⟩, ⟨false, 0x10a⟩, ⟨false, 0⟩, 1, 0, false, 2⟩),
      (0x6A00A00C21104141, .vmarch ⟨0, 20, ⟨false, 12⟩, ⟨false, 0x108⟩, ⟨true, 16⟩, 5, 0, false, 1⟩),
      (0x6B00AC0C21000000, .vprobe ⟨0, 21, ⟨true, 12⟩, ⟨false, 0x108⟩, ⟨false, 0⟩, 0, 0, false, 0⟩),
      (0x6C00A408204000E6, .vins ⟨0, 20, ⟨true, 8⟩, ⟨false, 0x102⟩, ⟨false, 0⟩, 3, 4, 3, false⟩)] = true := by decide

theorem test_decode_memory_vact :
    allDecode [(0x6D20AC092040009A, .vact ⟨2, 21, ⟨true, 9⟩, ⟨false, 0x102⟩, ⟨false, 0⟩, 2, 3, 1, false⟩),
      (0x70F03CF020C00100, .enq ⟨15, 7, ⟨true, 0xf0⟩, ⟨false, 0x106⟩, ⟨false, 0⟩, 4, 0, false, 0⟩)] = true := by decide

theorem test_decode_scalar_sadd :
    allDecode [(0x8120A10E6A800008, .sadd ⟨2, 20, ⟨false, 0x10e⟩, ⟨false, 0x354⟩, ⟨false, 0⟩, 0, 0, true, 0⟩),
      (0x820FF80661200000, .ssub ⟨0, 511, ⟨false, 6⟩, ⟨false, 0x309⟩, ⟨false, 0⟩, 0, 0, false, 0⟩),
      (0x8310990660A00008, .smul ⟨1, 19, ⟨false, 0x106⟩, ⟨false, 0x305⟩, ⟨false, 0⟩, 0, 0, true, 0⟩),
      (0x8420910621000000, .smulh ⟨2, 18, ⟨false, 0x106⟩, ⟨false, 0x108⟩, ⟨false, 0⟩, 0, 0, false, 0⟩),
      (0x8500290120400C08, .smad ⟨0, 5, ⟨false, 0x101⟩, ⟨false, 0x102⟩, ⟨false, 3⟩, 0, 0, true, 0⟩),
      (0x8670290160400000, .smin ⟨7, 5, ⟨false, 0x101⟩, ⟨false, 0x302⟩, ⟨false, 0⟩, 0, 0, false, 0⟩),
      (0x8760290120400000, .smax ⟨6, 5, ⟨false, 0x101⟩, ⟨false, 0x102⟩, ⟨false, 0⟩, 0, 0, false, 0⟩),
      (0x8820290220800004, .scmp ⟨2, 5, ⟨false, 0x102⟩, ⟨false, 0x104⟩, ⟨false, 0⟩, 0, 0, false, 4⟩),
      (0x89002901204C0C00, .ssel ⟨0, 5, ⟨false, 0x101⟩, ⟨false, 0x102⟩, ⟨false, 0x303⟩, 0, 0, false, 0⟩),
      (0x8A20310821400000, .sand ⟨2, 6, ⟨false, 0x108⟩, ⟨false, 0x10a⟩, ⟨false, 0⟩, 0, 0, false, 0⟩),
      (0x8B00310801400000, .sor ⟨0, 6, ⟨false, 0x108⟩, ⟨false, 10⟩, ⟨false, 0⟩, 0, 0, false, 0⟩),
      (0x8C20330821400000, .sxor ⟨2, 6, ⟨false, 0x308⟩, ⟨false, 0x10a⟩, ⟨false, 0⟩, 0, 0, false, 0⟩),
      (0x8D00310861400000, .sshl ⟨0, 6, ⟨false, 0x108⟩, ⟨false, 0x30a⟩, ⟨false, 0⟩, 0, 0, false, 0⟩),
      (0x8E20310821600000, .sshr ⟨2, 6, ⟨false, 0x108⟩, ⟨false, 0x10b⟩, ⟨false, 0⟩, 0, 0, false, 0⟩),
      (0x8F00300821600000, .ssar ⟨0, 6, ⟨false, 8⟩, ⟨false, 0x10b⟩, ⟨false, 0⟩, 0, 0, false, 0⟩),
      (0x9000310821600000, .sbfx ⟨0, 6, ⟨false, 0x108⟩, ⟨false, 0x10b⟩, ⟨false, 0⟩, 0, 0, false, 0⟩)] = true := by decide

theorem test_decode_scalar_spopc :
    allDecode [(0x9120310800000000, .spopc ⟨2, 6, ⟨false, 0x108⟩, ⟨false, 0⟩, ⟨false, 0⟩, 0, 0, false, 0⟩),
      (0x9200310860C00002, .slea ⟨0, 6, ⟨false, 0x108⟩, ⟨false, 0x306⟩, ⟨false, 0⟩, 0, 0, false, 2⟩),
      (0x9329600800000000, .smov ⟨2, 300, ⟨false, 8⟩, ⟨false, 0⟩, ⟨false, 0⟩, 0, 0, false, 0⟩),
      (0x940FF80012345678, .smovi ⟨0, 511, ⟨false, 0⟩, 0x12345678⟩),
      (0xA080290164200018, .sfadd ⟨8, 5, ⟨false, 0x101⟩, ⟨false, 0x321⟩, ⟨false, 0⟩, 0, 1, true, 0⟩),
      (0xA180290120400030, .sfmul ⟨8, 5, ⟨false, 0x101⟩, ⟨false, 0x102⟩, ⟨false, 0⟩, 0, 3, false, 0⟩),
      (0xA280290120440C20, .sffma ⟨8, 5, ⟨false, 0x101⟩, ⟨false, 0x102⟩, ⟨false, 0x103⟩, 0, 2, false, 0⟩),
      (0xA380290700000010, .scvt ⟨8, 5, ⟨false, 0x107⟩, ⟨false, 0⟩, ⟨false, 0⟩, 0, 1, false, 0⟩),
      (0xA8404307208000DA, .sld ⟨4, 8, ⟨false, 0x307⟩, ⟨false, 0x104⟩, ⟨false, 0⟩, 3, 1, 2, true, false⟩),
      (0xA930010520841825, .sst ⟨3, 0, ⟨false, 0x105⟩, ⟨false, 0x104⟩, ⟨false, 0x106⟩, 0, 2, 1, false, true⟩),
      (0xAA00000000000026, .fence ⟨0, 0, ⟨false, 0⟩, ⟨false, 0⟩, ⟨false, 0⟩, 0, 4, 3, false⟩),
      (0xAA1001050000001A, .fencePromote ⟨1, 0, ⟨false, 0x105⟩, ⟨false, 0⟩, ⟨false, 0⟩, 0, 3, 1, false⟩),
      (0xAB00010821400000, .discard ⟨0, 0, ⟨false, 0x108⟩, ⟨false, 0x10a⟩, ⟨false, 0⟩, 0, 0, false, 0⟩),
      (0xAC00A00000000080, .dgst ⟨0, 20, ⟨false, 0⟩, ⟨false, 0⟩, ⟨false, 0⟩, 2, 0, false, 0⟩),
      (0xB010010780000000, .sbra ⟨1, 0, ⟨false, 0x107⟩, 0x80000000⟩),
      (0xB120010660200000, .sbrx ⟨2, 0, ⟨false, 0x106⟩, ⟨false, 0x301⟩, ⟨false, 0⟩, 0, 0, false, 0⟩)] = true := by decide

theorem test_decode_scalar_jinit :
    allDecode [(0xB203180000000000, .jinit ⟨0, 99, ⟨false, 0⟩, ⟨false, 0⟩, ⟨false, 0⟩, 0, 0, false, 0⟩),
      (0xB303100000000003, .sgetm ⟨0, 98, ⟨false, 0⟩, ⟨false, 0⟩, ⟨false, 0⟩, 0, 0, false, 3⟩),
      (0xB400030800000000, .yield ⟨0, 0, ⟨false, 0x308⟩, ⟨false, 0⟩, ⟨false, 0⟩, 0, 0, false, 0⟩),
      (0xB5D0000000000001, .bar ⟨13, 0, ⟨false, 0⟩, ⟨false, 0⟩, ⟨false, 0⟩, 0, 0, false, 1⟩),
      (0xB600010300000000, .grow ⟨0, 0, ⟨false, 0x103⟩, ⟨false, 0⟩, ⟨false, 0⟩, 0, 0, false, 0⟩),
      (0xB700031000000000, .shrink ⟨0, 0, ⟨false, 0x310⟩, ⟨false, 0⟩, ⟨false, 0⟩, 0, 0, false, 0⟩),
      (0xB800000000000000, .hbeat ⟨0, 0, ⟨false, 0⟩, ⟨false, 0⟩, ⟨false, 0⟩, 0, 0, false, 0⟩)] = true := by decide

theorem test_decode_engine_launch :
    allDecode [(0xC000011460200038, .launch ⟨0, 0, ⟨false, 0x114⟩, ⟨false, 0x301⟩, ⟨false, 0⟩, 0, true, 6, 0⟩),
      (0xC10001160000002E, .cancel ⟨0, 0, ⟨false, 0x116⟩, ⟨false, 0⟩, ⟨false, 0⟩, 0, true, 3, 2⟩),
      (0xC200C10200000240, .ccnt ⟨0, 24, ⟨false, 0x102⟩, ⟨false, 0⟩, ⟨false, 0⟩, 9, false, 0, 0⟩),
      (0xC80001FF00000000, .wait ⟨0, 0, ⟨false, 0x1ff⟩, ⟨false, 0⟩, ⟨false, 0⟩, 0, 0, false, 0⟩),
      (0xC9000106210C243F, .cpyin ⟨0, 0, ⟨false, 0x106⟩, ⟨false, 0x108⟩, ⟨false, 0x309⟩, 0, true, 7, 3⟩),
      (0xCA00000661042425, .cpyout ⟨0, 0, ⟨false, 6⟩, ⟨false, 0x308⟩, ⟨false, 0x109⟩, 0, true, 1, 1⟩),
      (0xCB0001060104242A, .cpygg ⟨0, 0, ⟨false, 0x106⟩, ⟨false, 8⟩, ⟨false, 0x109⟩, 0, true, 2, 2⟩),
      (0xCC00010621042400, .cpymc ⟨0, 0, ⟨false, 0x106⟩, ⟨false, 0x108⟩, ⟨false, 0x109⟩, 0, false, 0, 0⟩),
      (0xCD00000621042434, .cpyt ⟨0, 0, ⟨false, 6⟩, ⟨false, 0x108⟩, ⟨false, 0x109⟩, 0, true, 5, 0⟩),
      (0xCE00010621842431, .cpytn ⟨0, 0, ⟨false, 0x106⟩, ⟨false, 0x10c⟩, ⟨false, 0x109⟩, 0, true, 4, 1⟩),
      (0xD06001046000002F, .mma ⟨6, 0, ⟨false, 0x104⟩, ⟨false, 0x300⟩, ⟨false, 0⟩, 0, true, 3, 3⟩),
      (0xD1C00108202C0829, .mmasp ⟨12, 0, ⟨false, 0x108⟩, ⟨false, 0x101⟩, ⟨false, 0x302⟩, 0, true, 2, 1⟩),
      (0xD200030300000024, .mzero ⟨0, 0, ⟨false, 0x303⟩, ⟨false, 0⟩, ⟨false, 0⟩, 0, true, 1, 0⟩),
      (0xD3A0010421200001, .mloadb ⟨10, 0, ⟨false, 0x104⟩, ⟨false, 0x109⟩, ⟨false, 0⟩, 0, false, 0, 1⟩),
      (0xD4B001046020002B, .mdrain ⟨11, 0, ⟨false, 0x104⟩, ⟨false, 0x301⟩, ⟨false, 0⟩, 0, true, 2, 3⟩),
      (0xD500000000000000, .mlease ⟨0, 0, ⟨false, 0⟩, ⟨false, 0⟩, ⟨false, 0⟩, 0, 0, false, 0⟩)] = true := by decide

theorem test_decode_engine_spproj :
    allDecode [(0xD800010421042824, .spproj ⟨0, 0, ⟨false, 0x104⟩, ⟨false, 0x108⟩, ⟨false, 0x10a⟩, 0, true, 1, 0⟩),
      (0xD900010461200028, .spsort ⟨0, 0, ⟨false, 0x104⟩, ⟨false, 0x309⟩, ⟨false, 0⟩, 0, true, 2, 0⟩),
      (0xDA00010420EC202C, .spblnd ⟨0, 0, ⟨false, 0x104⟩, ⟨false, 0x107⟩, ⟨false, 0x308⟩, 0, true, 3, 0⟩),
      (0xDB00010420E42000, .spback ⟨0, 0, ⟨false, 0x104⟩, ⟨false, 0x107⟩, ⟨false, 0x108⟩, 0, false, 0, 0⟩)] = true := by decide

theorem test_decode_system :
    allDecode [(0xE000011800000024, .rxreg ⟨0, 0, ⟨false, 0x118⟩, ⟨false, 0⟩, ⟨false, 0⟩, 0, true, 1, 0⟩),
      (0xE100011900000028, .rxdereg ⟨0, 0, ⟨false, 0x119⟩, ⟨false, 0⟩, ⟨false, 0⟩, 0, true, 2, 0⟩),
      (0xE200012024A49025, .route ⟨0, 0, ⟨false, 0x120⟩, ⟨false, 0x125⟩, ⟨false, 0x124⟩, 0, true, 1, 1⟩),
      (0xE300E11422A00100, .recv ⟨0, 28, ⟨false, 0x114⟩, ⟨false, 0x115⟩, ⟨false, 0⟩, 4, false, 0, 0⟩),
      (0xE400013461200028, .retn ⟨0, 0, ⟨false, 0x134⟩, ⟨false, 0x309⟩, ⟨false, 0⟩, 0, true, 2, 0⟩),
      (0xE501630100000040, .escq ⟨0, 44, ⟨false, 0x301⟩, ⟨false, 0⟩, ⟨false, 0⟩, 1, false, 0, 0⟩),
      (0xE800010420CC0434, .halo ⟨0, 0, ⟨false, 0x104⟩, ⟨false, 0x106⟩, ⟨false, 0x301⟩, 0, true, 5, 0⟩),
      (0xE900010420E00000, .phwait ⟨0, 0, ⟨false, 0x104⟩, ⟨false, 0x107⟩, ⟨false, 0⟩, 0, 0, false, 0⟩),
      (0xEC09610400000141, .valloc ⟨0, 300, ⟨false, 0x104⟩, ⟨false, 0⟩, ⟨false, 0⟩, 5, 0, false, 1⟩),
      (0xED00010421200001, .vfree ⟨0, 0, ⟨false, 0x104⟩, ⟨false, 0x109⟩, ⟨false, 0⟩, 0, 0, false, 1⟩),
      (0xEE00000000000012, .wfence ⟨0, 0, ⟨false, 0⟩, ⟨false, 0⟩, ⟨false, 0⟩, 0, 2, 1, false⟩),
      (0xF00000000000CAFE, .trap ⟨0, 0, ⟨false, 0⟩, 0xcafe⟩),
      (0xF100000000000001, .rte ⟨0, 0, ⟨false, 0⟩, ⟨false, 0⟩, ⟨false, 0⟩, 0, 0, false, 1⟩),
      (0xF201400000000017, .sprr ⟨0, 40, ⟨false, 0⟩, 0x17⟩),
      (0xF300010500000012, .sprw ⟨0, 0, ⟨false, 0x105⟩, 0x12⟩)] = true := by decide

/-! ## Ill-formed words: one for each check (R69) -/

theorem test_reject_code2_int_type : rejects 0x0180000000000000 = some .badFunction := by decide
theorem test_reject_code2_load_size : rejects 0x5870000000000000 = some .badFunction := by decide
theorem test_reject_code2_fence_fn : rejects 0xAA20000000000006 = some .badFunction := by decide
theorem test_reject_code2_condition : rejects 0x5050000000000000 = some .badFunction := by decide
theorem test_reject_code3_logic_mod : rejects 0x0E00000000000004 = some .badControlField := by decide
theorem test_reject_code3_compare : rejects 0x0C00000000000006 = some .badControlField := by decide
theorem test_reject_code3_order : rejects 0xAA00000000000010 = some .badControlField := by decide
theorem test_reject_code3_width : rejects 0xAA00000000000017 = some .badControlField := by decide
theorem test_reject_code4_unused_source : rejects 0x5500000100000000 = some .nonzeroUnusedField := by decide
theorem test_reject_code4_lookahead : rejects 0x0100000000000040 = some .nonzeroUnusedField := by decide
theorem test_reject_code4_token : rejects 0xCD00010001000004 = some .nonzeroUnusedField := by decide
theorem test_reject_code5_selector : rejects 0x1A00035500000000 = some .reservedSelector := by decide
theorem test_reject_code6_last_use_of_s : rejects 0x1A00050000000000 = some .badLastUse := by decide
theorem test_reject_code6_uniform : rejects 0x9300040400000000 = some .badLastUse := by decide
theorem test_reject_code7_lane_destination : rejects 0x1B08000000000000 = some .badDestination := by decide
theorem test_reject_code8_pair_at_511 : rejects 0x932FF80000000000 = some .missingSRegister := by decide
theorem test_reject_code9_odd_pair : rejects 0x1A20080100000000 = some .misalignedGroup := by decide
theorem test_reject_code10_constant : rejects 0x4900030000000000 = some .badOperandKind := by decide
theorem test_code1_reserved_major : decodeTableWord 64 0x1E00000000000000 = some (.illegalInstruction 0x1E00000000000000) := by
  decide
theorem test_code1_zero_word : decodeTableWord 64 0 = some (.illegalInstruction 0) := by decide
theorem test_code1_ones_word :
    decodeTableWord 64 0xFFFFFFFFFFFFFFFF = some (.illegalInstruction 0xFFFFFFFFFFFFFFFF) := by decide
theorem test_ill_formed_terms :
    wellFormed (.iadd ⟨8, 0, ⟨false, 0⟩, ⟨false, 0⟩, ⟨false, 0⟩, 0, 0, false, 0⟩) = false ∧
    wellFormed (.mov ⟨0, 0, ⟨true, 0x100⟩, ⟨false, 0⟩, ⟨false, 0⟩, 0, 0, false, 0⟩) = false ∧
    wellFormed (.movi ⟨0, 256, ⟨false, 0⟩, 0⟩) = false ∧ wellFormed (.illegalInstruction 0) = false ∧
    wellFormed (.movi ⟨0, 255, ⟨false, 0⟩, 0⟩) = true := by decide
theorem test_table_word : decodeTableWord 64 0x5500000000000000 =
    some (.nop ⟨0, 0, ⟨false, 0⟩, ⟨false, 0⟩, ⟨false, 0⟩, 0, 0, false, 0⟩) := by decide

/-! ## One step

`start i g` is the machine after reset with the word of `i` placed where the next step fetches, its strip changed by
`g`; `after` is that strip one step later. -/

def start (i : Instr) (g : Strip → Strip) : State :=
  let s := State.reset.withFetchWord 64 ((encode i).getD 0).toNat
  { s with strips := tableMod s.strips 0 g }
def outcome (s : State) : Option State := match step s with
  | .next t => some t
  | _ => none
def after (i : Instr) (g : Strip → Strip) : Option Strip := (outcome (start i g)).bind fun t => tableGet t.strips 0

/-- v registers with their values for strands 0, 1, ... (0 beyond), and s registers. -/
def vreg (l : List Nat) : VReg := ⟨false, 0xFFFF, 0, (List.range 16).map fun k => BitVec.ofNat 32 (l.getD k 0)⟩
def regs (vs : List (Nat × List Nat)) (ss : List (Nat × Nat)) (p : Strip) : Strip :=
  { p with v := vs.map fun r => (r.1, vreg r.2), s := ss.map fun r => (r.1, BitVec.ofNat 32 r.2) }
/-- The first values of v registers after a step, with STRIP_FPFLAGS. -/
def vOut (i : Instr) (g : Strip → Strip) (rs : List Nat) (n : Nat) : Option (List (List Nat) × Nat) :=
  (after i g).map fun p => (rs.map fun r => (List.range n).map fun k => (p.readV r k).toNat, p.fpflags.toNat)
/-- The values of s registers after a step, with STRIP_FPFLAGS. -/
def sOut (i : Instr) (g : Strip → Strip) (rs : List Nat) : Option (List Nat × Nat) :=
  (after i g).map fun p => (rs.map fun r => (p.readS r).toNat, p.fpflags.toNat)
/-- What an outstanding result holds for its first strands, with the flags it will raise. -/
def held (i : Instr) (g : Strip → Strip) (n : Nat) : Option (List (List Nat) × Nat) :=
  (after i g).bind fun p => p.flights.head?.map fun f => ((f.got.take n).map fun l => l.map BitVec.toNat, f.flags.toNat)

/-- Sources: v registers and constants. -/
def v (n : BitVec 10) : Src := ⟨false, n⟩
def s' (n : BitVec 10) : Src := ⟨false, 0x100 + n⟩
def k' (n : BitVec 10) : Src := ⟨false, 0x300 + n⟩
def no : Src := ⟨false, 0⟩
/-- A format R instruction's fields without last-use bits, lookahead or rounding. -/
def fr (fn : BitVec 4) (d : BitVec 9) (a b c : Src) (sat : Bool) (mod : BitVec 3) : FmtR := ⟨fn, d, a, b, c, 0, 0, sat, mod⟩

-- R34, R78: 0xFFFFFFFF + 1 as N32 saturates and raises SAT (bit 5); as I32 it is -1 + 1
theorem test_iadd_saturates : vOut (.iadd (fr 1 3 (v 1) (v 2) no true 0))
    (regs [(1, [0xFFFFFFFF, 7]), (2, [1, 8])] []) [3] 3 = some ([[0xFFFFFFFF, 15, 0]], 32) := by decide
theorem test_iadd_wraps : vOut (.iadd (fr 0 3 (v 1) (v 2) no false 0))
    (regs [(1, [0xFFFFFFFF, 0x7FFFFFFF]), (2, [1, 1])] []) [3] 2 = some ([[0, 0x80000000]], 0) := by decide
-- R78 with R34: I8 wraps to -128 - 1 = 127, sign-extended
theorem test_isub_i8 : vOut (.isub (fr 6 3 (v 1) (k' 1) no false 0)) (regs [(1, [0x80, 0])] []) [3] 2 =
    some ([[127, 0xFFFFFFFF]], 0) := by decide
-- R78: a 64-bit product keeps its low 64 bits, low word first (R10)
theorem test_imul_pair : vOut (.imul (fr 3 4 (v 0) (v 2) no false 0))
    (regs [(0, [0xFFFFFFFF]), (1, [0]), (2, [0x10]), (3, [1])] []) [4, 5] 1 =
    some ([[0xFFFFFFF0], [0xE]], 0) := by decide
-- R79: the high half of (-2^31) * (-2^31) = 2^62
theorem test_imulh : vOut (.imulh (fr 0 3 (v 1) (v 1) no false 0)) (regs [(1, [0x80000000])] []) [3] 1 =
    some ([[0x40000000]], 0) := by decide
theorem test_imad : vOut (.imad (fr 0 3 (v 1) (k' 5) (s' 2) false 0)) (regs [(1, [7])] [(2, 100)]) [3] 1 =
    some ([[156]], 0) := by decide
-- R80: x / 0 is all ones, -2^31 / -1 is -2^31
theorem test_idiv_corners : held (.idiv (fr 0 3 (v 1) (v 2) no false 0))
    (regs [(1, [5, 0x80000000, 0xFFFFFFF9]), (2, [0, 0xFFFFFFFF, 2])] []) 3 =
    some ([[0xFFFFFFFF], [0x80000000], [0xFFFFFFFD]], 0) := by decide
theorem test_irem_corners : held (.irem (fr 0 3 (v 1) (v 2) no false 0))
    (regs [(1, [5, 0x80000000, 0xFFFFFFF9]), (2, [0, 0xFFFFFFFF, 2])] []) 3 =
    some ([[5], [0], [0xFFFFFFFF]], 0) := by decide
-- R81: LT (2) is signed in I32 and unsigned in N32
theorem test_icmp_signed : vOut (.icmp (fr 0 3 (v 1) (k' 1) no false 2)) (regs [(1, [0xFFFFFFFF, 2])] []) [3] 2 =
    some ([[0xFFFFFFFF, 0]], 0) := by decide
theorem test_icmp_unsigned : vOut (.icmp (fr 1 3 (v 1) (k' 1) no false 2)) (regs [(1, [0xFFFFFFFF, 0])] []) [3] 2 =
    some ([[0, 0xFFFFFFFF]], 0) := by decide
theorem test_isel : vOut (.isel (fr 0 3 (v 1) (k' 5) (k' 7) false 0)) (regs [(1, [0, 0x80000000])] []) [3] 2 =
    some ([[32, 8]], 0) := by decide
theorem test_iandn : vOut (.iandn (fr 0 3 (v 1) (v 2) no false 3)) (regs [(1, [0xF0F0]), (2, [0xFF00])] []) [3] 1 =
    some ([[0x00F0]], 0) := by decide
-- R83: a count of 32 is not reduced
theorem test_ishl_by_32 : vOut (.ishl (fr 0 3 (v 1) (v 2) no false 0)) (regs [(1, [1, 1]), (2, [31, 32])] []) [3] 2 =
    some ([[0x80000000, 0]], 0) := by decide
theorem test_isar_by_40 : vOut (.isar (fr 0 3 (v 1) (v 2) no false 0))
    (regs [(1, [0x80000000, 0x7FFFFFFF]), (2, [40, 40])] []) [3] 2 = some ([[0xFFFFFFFF, 0]], 0) := by decide
-- R84: a rotation left by 36 mod 32
theorem test_ifshl : vOut (.ifshl (fr 0 3 (v 1) (v 1) (v 2) false 0)) (regs [(1, [0xF0000001]), (2, [36])] []) [3] 1 =
    some ([[0x1F]], 0) := by decide
-- R85: p = 4, w = 8 of 0x00000F80 is 0xF8, sign-extended in I32
theorem test_bfx : vOut (.bfx (fr 0 3 (v 1) (v 2) no false 0)) (regs [(1, [0xF80]), (2, [0x804])] []) [3] 1 =
    some ([[0xFFFFFFF8]], 0) := by decide
theorem test_clz_of_zero : vOut (.clz (fr 0 3 (v 1) no no false 1)) (regs [(1, [0, 1, 0x80000000])] []) [3] 3 =
    some ([[32, 31, 0]], 0) := by decide
theorem test_brev : vOut (.brev (fr 0 3 (v 1) no no false 3)) (regs [(1, [1, 0x0000000C])] []) [3] 2 =
    some ([[0x80000000, 0x30000000]], 0) := by decide
-- R87: byte 1 spreads the sign of byte 7
theorem test_bperm : vOut (.bperm (fr 0 3 (v 1) (v 2) (v 4) false 0))
    (regs [(1, [0x44332211]), (2, [0x88776655]), (4, [0x03F7])] []) [3] 1 = some ([[0x1144FF88]], 0) := by decide
-- R88: a negative I32 index, scale 8
theorem test_lea : vOut (.lea (fr 0 4 (s' 2) (v 1) no false 3)) (regs [(1, [0xFFFFFFFF])] [(2, 0x10), (3, 0x20)]) [4, 5] 1 =
    some ([[8], [0x20]], 0) := by decide
theorem test_isad : vOut (.isad (fr 0 3 (v 1) (v 2) (k' 4) false 0)) (regs [(1, [3]), (2, [10])] []) [3] 1 =
    some ([[11]], 0) := by decide
theorem test_mov_special : vOut (.mov (fr 0 3 ⟨false, 0x340⟩ no no false 0)) id [3] 4 = some ([[0, 1, 2, 3]], 0) := by decide
-- R92: signed A, unsigned B
theorem test_dot4 : vOut (.dot4 (fr 0 3 (v 1) (v 2) (k' 1) false 1)) (regs [(1, [0xFF000002]), (2, [0xFF000003])] []) [3] 1 =
    some ([[0xFFFFFF08]], 0) := by decide
-- R93, R43: 1.0 + 2^-24 rounds to 1.0 and raises NX (bit 4)
theorem test_fadd_inexact : vOut (.fadd (fr 8 3 (v 1) (v 2) no false 0))
    (regs [(1, [0x3F800000]), (2, [0x33800000])] []) [3] 1 = some ([[0x3F800000]], 16) := by decide
theorem test_ffma : vOut (.ffma (fr 8 3 (v 1) (v 2) (v 4) false 0))
    (regs [(1, [0x40000000]), (2, [0x40400000]), (4, [0x3F800000])] []) [3] 1 = some ([[0x40E00000]], 0) := by decide
-- R37, R44: infinity minus infinity is the canonical NaN and raises NV (bit 0)
theorem test_fsub_nan : vOut (.fsub (fr 8 3 (v 1) (v 2) no false 0))
    (regs [(1, [0x7F800000]), (2, [0x7F800000])] []) [3] 1 = some ([[0x7FC00000]], 1) := by decide
-- R97: bit 3 is -0
theorem test_fclass : vOut (.fclass (fr 8 3 (v 1) no no false 0))
    (regs [(1, [0x80000000, 0x7F800000, 1])] []) [3] 3 = some ([[8, 128, 32]], 0) := by decide
-- R95, R45: the minimum of a number and a NaN is the number; PROP gives the NaN
theorem test_fmin : vOut (.fmin (fr 8 3 (v 1) (v 2) no false 0))
    (regs [(1, [0x7FC00000]), (2, [0x3F800000])] []) [3] 1 = some ([[0x3F800000]], 0) := by decide
theorem test_fmax_prop : vOut (.fmax (fr 8 3 (v 1) (v 2) no false 1))
    (regs [(1, [0x7FC00000]), (2, [0x3F800000])] []) [3] 1 = some ([[0x7FC00000]], 0) := by decide
-- R98: 2.5 rounds to 2.0 without NX
theorem test_frnd : vOut (.frnd (fr 8 3 (v 1) no no false 0))
    (regs [(1, [0x40200000])] []) [3] 1 = some ([[0x40000000]], 0) := by decide
-- R94, R44: 1 / 4 is exact; 1 / 0 is infinity with DZ (bit 1); the other strands' 0 / 0 raises NV (bit 0)
theorem test_fdiv : held (.fdiv (fr 8 3 (v 1) (v 2) no false 0))
    (regs [(1, [0x3F800000, 0x3F800000]), (2, [0x40800000, 0])] []) 2 = some ([[0x3E800000], [0x7F800000]], 3) := by decide
theorem test_fsqrt : held (.fsqrt (fr 8 3 (v 1) no no false 0))
    (regs [(1, [0x40800000, 0x41100000])] []) 2 = some ([[0x40000000], [0x40400000]], 0) := by decide
-- R101: 1.0 * 0.5 + 1.0 in both halves
theorem test_hfma2 : vOut (.hfma2 (fr 10 3 (v 1) (v 2) (v 1) false 0))
    (regs [(1, [0x3C003C00]), (2, [0x38003800])] []) [3] 1 = some ([[0x3E003E00]], 0) := by decide
-- R104, R48: 1.5 to I32 is 2, with NX
theorem test_cvt_to_int : vOut (.cvt (fr 0 3 (v 1) ⟨false, 8⟩ no false 0))
    (regs [(1, [0x3FC00000, 0xC0000000])] []) [3] 2 = some ([[2, 0xFFFFFFFE]], 16) := by decide
-- R105: A in the low half, C in the high half
theorem test_cvtpk : vOut (.cvtpk (fr 11 3 (v 1) ⟨false, 8⟩ (v 2) false 0))
    (regs [(1, [0x3F800000]), (2, [0x40000000])] []) [3] 1 = some ([[0x40003F80]], 0) := by decide
-- R106: 1.0 * 2^3 into E4M3 (bias 7)
theorem test_cvtxp : vOut (.cvtxp (fr 12 3 (v 1) ⟨false, 8⟩ (k' 3) false 0))
    (regs [(1, [0x3F800000])] []) [3] 1 = some ([[0x50]], 0) := by decide

-- strands 12-15 stand at a later word, as in the examples of R163
def apart (p : Strip) : Strip :=
  { p with strands := (List.range 16).map fun k => ⟨if k < 12 then 0x10000 else 0x10040, .runnable, 0, false, false⟩ }
-- R160
theorem test_shfl_xor : vOut (.shfl (fr 0 3 (v 1) (k' 1) no false 3)) (regs [(1, [10, 11, 12, 13])] []) [3] 4 =
    some ([[11, 10, 13, 12]], 0) := by decide
theorem test_shfl_down_from_absent : vOut (.shfl (fr 0 4 (v 1) (k' 4) no false 6))
    (fun p => apart (regs [(1, [0, 0, 0, 0, 0, 0, 0, 0, 7, 8, 9, 10, 11, 12])] [] p)) [4, 5] 9 =
    some ([[0, 0, 0, 0, 7, 8, 9, 10, 0], [0xFFF, 0xFFF, 0xFFF, 0xFFF, 0xFFF, 0xFFF, 0xFFF, 0xFFF, 0xFFF]], 0) := by decide

/-! ## Words that the spec prints

Each with the fields that the spec's own text or table gives beside it. -/

theorem test_printed_lanes : allDecode [
    (0x23805402006C0410, .ffma ⟨8, 10, ⟨true, 2⟩, v 3, k' 1, 0, 1, false, 0⟩),
    (0x5820300221000049, .ldg ⟨2, 6, v 2, s' 8, no, 1, 0, 2, false, true⟩),
    (0x36B0480401001400, .cvtpk (fr 11 9 (v 4) (v 8) (v 5) false 0)),
    (0x4380400300000004, .red (fr 8 8 (v 3) no no false 4)),
    (0x4900010C00000000, .jarv (fr 0 0 (s' 12) no no false 0)),
    (0x50100002FFFFFFFD, .bra ⟨1, 0, v 2, 0xFFFFFFFD⟩),
    (0x1B00380000000001, .movi ⟨0, 7, no, 1⟩),
    (0x5B20280000400092, .ldga ⟨2, 5, no, v 2, no, 2, 2, 1, false⟩),
    (0x5C20000021401C14, .stgr ⟨2, 0, no, s' 10, v 7, 0, 2, 2, false⟩),
    (0x5F001B010100008E, .atomg ⟨0, 3, k' 1, v 8, no, 2, 1, 3, false⟩),
    (0x5D20200121800048, .ldl ⟨2, 4, v 1, s' 12, no, 1, 0, 2, false, false⟩),
    (0x5E200300806C4800, .stl ⟨2, 0, k' 0, ⟨true, 3⟩, k' 18, 0, 0, 0, false, false⟩)] = true := by decide
theorem test_printed_lanes2 : allDecode [
    (0x1810310A00800002, .lea (fr 1 6 (s' 10) (v 4) no false 2)),
    (0x0C10280421A00002, .icmp (fr 1 5 (v 4) (s' 13) no false 2)),
    (0x6100030121000014, .redg ⟨0, 0, k' 1, s' 8, no, 0, 2, 2, false⟩),
    (0x6800400421400080, .vlook ⟨0, 8, v 4, s' 10, no, 2, 0, false, 0⟩),
    (0x69008004214000C2, .vsten ⟨0, 16, v 4, s' 10, no, 3, 0, false, 2⟩),
    (0x6A00600421402041, .vmarch ⟨0, 12, v 4, s' 10, v 8, 1, 0, false, 1⟩),
    (0x6C00A00421400096, .vins ⟨0, 20, v 4, s' 10, no, 2, 2, 3, false⟩),
    (0x7030500C23C000C0, .enq ⟨3, 10, v 12, s' 30, no, 3, 0, false, 0⟩),
    (0x0510700C61700800, .imad (fr 1 14 (v 12) (k' 11) ⟨true, 2⟩ false 0)),
    (0x61A0040182000000, .redg ⟨10, 0, ⟨true, 1⟩, ⟨true, 16⟩, no, 0, 0, 0, false⟩)] = true := by decide
theorem test_printed_uniform : allDecode [
    (0xA821410321000088, .sld ⟨2, 40, s' 3, s' 8, no, 2, 0, 2, false, false⟩),
    (0xA8A1830022000000, .sld ⟨10, 48, k' 0, s' 16, no, 0, 0, 0, false, false⟩),
    (0xA920011D22CD5000, .sst ⟨2, 0, s' 29, s' 22, ⟨false, 0x354⟩, 0, 0, 0, false, false⟩),
    (0x9210510861000000, .slea (fr 1 10 (s' 8) (k' 8) no false 0)),
    (0x9400E80000001400, .smovi ⟨0, 29, no, 0x1400⟩),
    (0xB200800000000000, .jinit (fr 0 16 no no no false 0)),
    (0xB0200130FFFFFFFE, .sbra ⟨2, 0, s' 48, 0xFFFFFFFE⟩),
    (0xB530000000000001, .bar (fr 3 0 no no no false 1)),
    (0xB800000000000000, .hbeat (fr 0 0 no no no false 0)),
    (0xAC014000000000C0, .dgst ⟨0, 40, no, no, no, 3, 0, false, 0⟩),
    (0xAA1003010000001A, .fencePromote ⟨1, 0, k' 1, no, no, 0, 3, 1, false⟩),
    (0xEE0000000000000A, .wfence ⟨0, 0, no, no, no, 0, 1, 1, false⟩),
    (0xEC00F10A00000041, .valloc ⟨0, 30, s' 10, no, no, 1, 0, false, 1⟩)] = true := by decide
theorem test_printed_engines : allDecode [
    (0xC000011423000024, .launch ⟨0, 0, s' 20, s' 24, no, 0, true, 1, 0⟩),
    (0xC100011400000024, .cancel ⟨0, 0, s' 20, no, no, 0, true, 1, 0⟩),
    (0xC201411400000080, .ccnt ⟨0, 40, s' 20, no, no, 2, false, 0, 0⟩),
    (0xC800030400000000, .wait (fr 0 0 (k' 4) no no false 0)),
    (0xC900011421843428, .cpyin ⟨0, 0, s' 20, s' 12, s' 13, 0, true, 2, 0⟩),
    (0xCA0001162184342C, .cpyout ⟨0, 0, s' 22, s' 12, s' 13, 0, true, 3, 0⟩),
    (0xD0C0011023000025, .mma ⟨12, 0, s' 16, s' 24, no, 0, true, 1, 1⟩),
    (0xD200030200000000, .mzero ⟨0, 0, k' 2, no, no, 0, false, 0, 0⟩),
    (0xD4B001142380002B, .mdrain ⟨11, 0, s' 20, s' 28, no, 0, true, 2, 3⟩),
    (0xD500000000000000, .mlease (fr 0 0 no no no false 0)),
    (0xD800011022846024, .spproj ⟨0, 0, s' 16, s' 20, s' 24, 0, true, 1, 0⟩),
    (0xD900011023400024, .spsort ⟨0, 0, s' 16, s' 26, no, 0, true, 1, 0⟩),
    (0xDA000110234C0028, .spblnd ⟨0, 0, s' 16, s' 26, k' 0, 0, true, 2, 0⟩),
    (0xDB00011023447028, .spback ⟨0, 0, s' 16, s' 26, s' 28, 0, true, 2, 0⟩)] = true := by decide
theorem test_printed_routes_and_system : allDecode [
    (0xE00001080000002C, .rxreg ⟨0, 0, s' 8, no, no, 0, true, 3, 0⟩),
    (0xE200011023047025, .route ⟨0, 0, s' 16, s' 24, s' 28, 0, true, 1, 1⟩),
    (0xE301411422A00080, .recv ⟨0, 40, s' 20, s' 21, no, 2, false, 0, 0⟩),
    (0xE400012024800028, .retn ⟨0, 0, s' 32, s' 36, no, 0, true, 2, 0⟩),
    (0xE501630100000040, .escq ⟨0, 44, k' 1, no, no, 1, false, 0, 0⟩),
    (0xE80001142304682C, .halo ⟨0, 0, s' 20, s' 24, s' 26, 0, true, 3, 0⟩),
    (0xE900011E24000000, .phwait (fr 0 0 (s' 30) (s' 32) no false 0)),
    (0xF000000000000005, .trap ⟨0, 0, no, 5⟩),
    (0xF100000000000001, .rte (fr 0 0 no no no false 1)),
    (0xF201400000000010, .sprr ⟨0, 40, no, 0x10⟩),
    (0xF300010500000012, .sprw ⟨0, 0, s' 5, 0x12⟩)] = true := by decide
theorem test_gshfl : vOut (.gshfl (fr 0 3 (v 1) (k' 1) no false 1)) (regs [(1, [10, 11, 12, 13, 14, 15])] []) [3] 5 =
    some ([[11, 11, 11, 11, 15]], 0) := by decide
-- R161: ALL is false when a strand is absent
theorem test_vote_all_absent : vOut (.vote (fr 0 3 (v 1) no no false 1))
    (fun p => apart (regs [(1, List.replicate 16 1)] [] p)) [3] 1 = some ([[0]], 0) := by decide
theorem test_vote_ballot : vOut (.vote (fr 0 3 (v 1) no no false 2)) (regs [(1, [1, 0, 5])] []) [3] 1 = some ([[5]], 0) := by
  decide
-- R162: +0 and -0 differ
theorem test_match : vOut (.matchKeys (fr 0 3 (v 1) no no false 0))
    (regs [(1, [0x80000000, 0, 7, 0x80000000])] []) [3] 2 = some ([[0x0009, 0xFFF2]], 0) := by decide
-- R163: the two worked examples
theorem test_scan_example : vOut (.scan (fr 0 6 (v 3) no no false 4))
    (fun p => apart (regs [(3, (List.range 16).map (· + 1))] [] p)) [6, 7] 13 =
    some ([[1, 3, 6, 10, 15, 21, 28, 36, 45, 55, 66, 78, 0],
      [0xFFF, 0xFFF, 0xFFF, 0xFFF, 0xFFF, 0xFFF, 0xFFF, 0xFFF, 0xFFF, 0xFFF, 0xFFF, 0xFFF, 0]], 0) := by decide
theorem test_red_example : vOut (.red (fr 8 8 (v 3) no no false 0))
    (regs [(3, [0x4B800000, 0x3F800000, 0x3F800000, 0xCB800000])] []) [8] 2 =
    some ([[0x3F800000, 0x3F800000]], 16) := by decide
-- R165: a stable sort of signed keys with their payloads; strand 15's key is the least
theorem test_sort16 : (held (.sort16 (fr 0 4 (v 1) (v 2) no false 0))
    (regs [(1, List.replicate 15 5 ++ [0xFFFFFFFF]), (2, List.range 16)] []) 3) =
    some ([[0xFFFFFFFF, 15], [5, 0], [5, 1]], 0) := by decide
-- R166: the lowest of both sources
theorem test_smerge : vOut (.smerge (fr 1 4 (v 1) (v 2) no false 0))
    (regs [(1, (List.range 16).map (2 * ·)), (2, (List.range 16).map (2 * · + 1))] []) [4, 5] 3 =
    some ([[0, 1, 2], [16, 17, 18]], 0) := by decide
-- R167: both maxima equal, two members
theorem test_isect : vOut (.isect (fr 1 4 (v 1) (v 2) no false 0))
    (regs [(1, [9, 3] ++ List.replicate 14 1), (2, [3, 9] ++ List.replicate 14 2)] []) [4, 5] 3 =
    some ([[0xFFFFFFFF, 0xFFFFFFFF, 0], [0x20003, 0x20003, 0x20003]], 0) := by decide

/-- The PCs of the first strands after a step. -/
def pcs (i : Instr) (g : Strip → Strip) (n : Nat) : Option (List Nat) :=
  (after i g).map fun p => (List.range n).map fun k => (p.pcOf k).toNat
-- R107: NZ, three words back from the word after the branch
theorem test_bra : pcs (.bra ⟨1, 0, v 1, 0xFFFFFFFD⟩) (regs [(1, [1, 0])] []) 2 = some [0xFFF0, 0x10008] := by decide
-- R108, R12: bits [2:0] of the target are ignored
theorem test_brx : pcs (.brx (fr 0 0 (v 2) no no false 0)) (regs [(2, [0x1234B]), (3, [0])] []) 1 = some [0x12348] := by decide
-- R109: CALL saves the address of the next word in its D pair, low word first
theorem test_call : (vOut (.call ⟨0, 4, no, 2⟩) id [4, 5] 1, pcs (.call ⟨0, 4, no, 2⟩) id 1) =
    (some ([[0x10008], [0]], 0), some [0x10018]) := by decide
theorem test_ret : pcs (.ret (fr 0 0 (s' 4) no no false 0)) (regs [] [(4, 0x22220), (5, 1)]) 1 = some [0x100022220] := by decide
theorem test_exit : (after (.exit (fr 0 0 no no no false 0)) apart).map (fun p => (p.stOf 0, p.stOf 12)) =
    some (.exited, .runnable) := by decide
theorem test_nop : pcs (.nop (fr 0 0 no no no false 0)) apart 16 =
    some (List.replicate 12 0x10008 ++ List.replicate 4 0x10040) := by decide

-- R168, R169: PART in [15:0], ARRIVED in [31:16]; the arrival of strands 0-11 of a rejoin of 0-13 blocks them
theorem test_jinit : sOut (.jinit (fr 0 12 no no no false 0)) apart [12] = some ([0x00000FFF], 0) := by decide
theorem test_jwait_blocks : (after (.jwait (fr 0 0 (s' 12) no no false 0)) (fun p => apart (regs [] [(12, 0x3FFF)] p))).map
    (fun p => (p.stOf 0, (p.readS 12).toNat)) = some (.blocked (.join 12), 0x0FFF3FFF) := by decide
theorem test_jarv_releases : (after (.jarv (fr 0 0 (s' 12) no no false 0)) (fun p =>
    let q := apart (regs [] [(12, 0x1FFF)] p)
    { q with strands := q.strands.set 12 ⟨0x10040, .blocked (.join 12), 0, false, false⟩, s := [(12, 0x10001FFF)] })).map
    (fun p => (p.stOf 12, (p.pcOf 12).toNat, (p.readS 12).toNat)) = some (.runnable, 0x10048, 0x1FFF1FFF) := by decide

-- R170-R179
theorem test_sadd_pair : sOut (.sadd (fr 3 20 (s' 4) (s' 6) no true 0)) (regs [] [(4, 0xFFFFFFFF), (5, 0xFFFFFFFF), (6, 1)])
    [20, 21] = some ([0xFFFFFFFF, 0xFFFFFFFF], 32) := by decide
theorem test_slea : sOut (.slea (fr 1 20 (s' 4) (s' 6) no false 2)) (regs [] [(4, 0x100), (5, 1), (6, 3)]) [20, 21] =
    some ([0x10C, 1], 0) := by decide
theorem test_smov_of_v : sOut (.smov (fr 0 20 (v 3) no no false 0)) (regs [(3, [42, 43])] []) [20] = some ([42], 0) := by decide
theorem test_sgetm_live : sOut (.sgetm (fr 0 20 no no no false 0)) apart [20] = some ([0xFFF], 0) := by decide
theorem test_yield : (after (.yield (fr 0 0 (s' 3) no no false 0)) (regs [] [(3, 5000)])).map (fun p => p.yieldUntil) =
    some 1025 := by decide
theorem test_shrink : (after (.shrink (fr 0 0 (s' 3) no no false 0)) (fun p => { regs [] [(3, 20)] p with floor := 24 })).map
    (fun p => p.floor) = some 8 := by decide
theorem test_bar_alone : (after (.bar (fr 3 0 no no no false 0)) id).map (fun p => (p.stOf 0, (p.pcOf 0).toNat)) =
    some (.runnable, 0x10008) := by decide
theorem test_bar_waits : (after (.bar (fr 3 0 no no no false 1)) apart).map (fun p => (p.stOf 0, p.stOf 12)) =
    some (.blocked (.bar 3 true), .runnable) := by decide

-- R284, R281: token 1 is outstanding
theorem test_wait_blocks : (after (.wait (fr 0 0 (k' 2) no no false 0))
    (fun p => p.modToken 1 Token.issue)).map (fun p => p.stOf 0) = some (.blocked (.wait 2)) := by decide
theorem test_wait_passes : (after (.wait (fr 0 0 (k' 2) no no false 0))
    (fun p => p.modToken 2 Token.issue)).map (fun p => p.stOf 0) = some .runnable := by decide

/-- The launch of the strip with a handler. -/
def withHandler (s : State) : State :=
  { s with launches := tableMod s.launches 0 fun l => { l with lrec := { l.lrec with handler := 0x11000 } } }
def trapped (i : Instr) (g : Strip → Strip) : Option Strip :=
  (outcome (withHandler (start i g))).bind fun t => tableGet t.strips 0
-- R399, R401, R404-R406: SOFTWARE is cause 1 and saves the address after the TRAP
theorem test_trap : (trapped (.trap ⟨0, 0, no, 0xCAFE⟩) apart).map (fun p =>
    [p.cause.toNat, p.mask.toNat, p.trapPc.toNat, p.trapWord.toNat, p.info0.toNat, p.status.toNat, (p.pcOf 0).toNat,
      (p.strands.filter fun t => t.frozen).length]) =
    some [1, 0x0FFF0FFF, 0x10008, 0xF00000000000CAFE, 0xCAFE, 8, 0x11000, 4] := by decide
-- R69, R71, R411: a reserved compare code has detail code 3
theorem test_illegal : (trapped (.icmp (fr 0 3 (v 1) (v 2) no false 6)) id).map (fun p =>
    (p.cause.toNat, p.trapPc.toNat, (p.pcOf 0).toNat)) = some (0x302, 0x10000, 0x11000) := by decide
-- R143, R181: an empty entry reads 0 and sets UREAD (bit 0); with STALE_TRAP it traps and INFO0 is the selector
theorem test_uread : (after (.mov (fr 0 3 (v 7) no no false 0)) id).map
    (fun p => (p.status.toNat, (p.readV 3 0).toNat, p.validAt 3 0)) = some (1, 0, true) := by decide
def withFlags (n : Word) (s : State) : State :=
  { s with launches := tableMod s.launches 0 fun l => { l with lrec := { l.lrec with flags := n } } }
theorem test_stale : ((outcome (withFlags 0x10 (withHandler (start (.mov (fr 0 3 (v 7) no no false 0)) id)))).bind
    fun t => tableGet t.strips 0).map (fun p => (p.cause.toNat, p.status.toNat, p.info0.toNat, (p.pcOf 0).toNat)) =
    some (3, 9, 7, 0x11000) := by decide
-- R409: SKIP resumes the vectored strands after the trapping word
theorem test_rte_skip : (after (.rte (fr 0 0 no no no false 1)) (fun p => { p with
    status := 8, mask := 0xFFFF, trapPc := 0x20000 })).map (fun p => ((p.pcOf 5).toNat, p.status.toNat)) =
    some (0x20008, 0) := by decide
-- R410, R13: W1C of STRIP_STATUS bit 0
theorem test_sprw : (after (.sprw ⟨0, 0, k' 1, 0⟩) (fun p => { p with status := 7 })).map (fun p => p.status.toNat) =
    some 6 := by decide
theorem test_sprr : sOut (.sprr ⟨0, 40, no, 0x16⟩) (fun p => { p with info0 := 77 }) [40] = some ([77], 0) := by decide
/-! ## States that meet the hypotheses of the statements

`Clean`, `Ready`, `Held` and the like by one Bool each, so that a concrete state is checked by evaluation. -/

def issuesB (s : State) (p : Strip) (pc : VA) (x : Strands) : Bool :=
  tableGet s.strips s.cur == some p && canIssue s p && (p.asyncs.isEmpty || p.inTrap) && p.flights.isEmpty &&
    p.issueSet == some (pc, x) && x != 0
def readyB (i : Instr) (s : State) (p : Strip) (pc : VA) (x : Strands) : Bool :=
  issuesB s p pc x && issueCode i s p == none && noStale s p (shape i) x &&
    (readsV (shape i)).all fun r => match tableGet p.v r with
      | some e => !e.spilled
      | none => true
def cleanB (i : Instr) (s : State) (p : Strip) (pc : VA) (x : Strands) : Bool :=
  readyB i s p pc x && poisonReads p (shape i) x == []

theorem issues_of {s : State} {p : Strip} {pc : VA} {x : Strands} (h : issuesB s p pc x = true) : Issues s p pc x := by
  simp only [issuesB, Bool.and_eq_true, Bool.or_eq_true, beq_iff_eq, List.isEmpty_iff, bne_iff_ne] at h
  obtain ⟨⟨⟨⟨⟨h1, h2⟩, h3⟩, h4⟩, h5⟩, h6⟩ := h
  exact ⟨h1, h2, h3, h4, h5, h6⟩
theorem ready_of {i : Instr} {s : State} {p : Strip} {pc : VA} {x : Strands} (h : readyB i s p pc x = true) :
    Ready i s p pc x := by
  simp only [readyB, Bool.and_eq_true, beq_iff_eq, List.all_eq_true] at h
  obtain ⟨⟨⟨h1, h2⟩, h3⟩, h4⟩ := h
  refine ⟨issues_of h1, h2, fun r hr e he => ?_, h3⟩
  have := h4 r hr
  rw [he] at this
  simpa using this
theorem clean_of {i : Instr} {s : State} {p : Strip} {pc : VA} {x : Strands} (h : cleanB i s p pc x = true) :
    Clean i s p pc x := by
  simp only [cleanB, Bool.and_eq_true, beq_iff_eq] at h
  exact ⟨ready_of h.1, h.2⟩

/-- The strip of a start state. -/
def strip0 (s : State) : Strip := (tableGet s.strips 0).getD probeStrip
/-- The instruction can issue on all 16 strands at the first word. -/
def clean0 (i : Instr) (s : State) : Bool := cleanB i s (strip0 s) 0x10000 0xFFFF
def ready0 (i : Instr) (s : State) : Bool := readyB i s (strip0 s) 0x10000 0xFFFF
theorem clean0_of {i : Instr} {s : State} (h : clean0 i s = true) : Clean i s (strip0 s) 0x10000 0xFFFF := clean_of h
theorem ready0_of {i : Instr} {s : State} (h : ready0 i s = true) : Ready i s (strip0 s) 0x10000 0xFFFF := ready_of h

def roomB (p : Strip) (first n : Nat) : Bool :=
  decide (p.rows + n ≤ p.floor) && (List.range n).all fun k => match tableGet p.v (first + k) with
    | some e => !e.spilled
    | none => true
theorem room_of {p : Strip} {first n : Nat} (h : roomB p first n = true) : RoomFor p first n := by
  simp only [roomB, Bool.and_eq_true, decide_eq_true_eq, List.all_eq_true, List.mem_range] at h
  refine ⟨h.1, fun k hk e he => ?_⟩
  have := h.2 k hk
  rw [he] at this
  simpa using this

/-! ### Encoding -/

def iaddT : Instr := .iadd (fr 1 3 (v 1) (v 2) no true 0)
theorem witness_EncodeThenDecode : iaddT.WellFormed ∧ encode iaddT = some 0x0110180100400008 := by
  exact ⟨(wellFormed_iff _).1 (by decide), by decide⟩
theorem witness_DecodeThenEncode : decode 0x0110180100400008 = .ok iaddT := by rfl
theorem witness_LowestDetailCode :
    (∀ w, Instr.iadd (fr 8 3 (v 1) (v 2) (v 3) true 0) ≠ .illegalInstruction w) ∧
      illegalCode (.iadd (fr 8 3 (v 1) (v 2) (v 3) true 0)) 512 = some 2 :=
  ⟨fun _ h => Instr.noConfusion h, by decide⟩

/-! ### A step -/

theorem witness_StepRunsDecodedInstruction_event :
    (begun { State.reset with inputs := [.event (.tibell 0)] }).inputs = .event (.tibell 0) :: [] := by rfl
theorem witness_StepRunsDecodedInstruction_store :
    (begun { State.reset with inputs := [.store 0x100 [1, 2]] }).inputs = .store 0x100 [1, 2] :: [] := by rfl
/-- What the step reads at the first word of a start state, the strip picked in `s1`. -/
def fetchedB (s1 : State) : Bool :=
  let u := { s1 with cur := 0, turn := true }
  let r := xlate u (stripAgent u probeStrip) 0x10000 .exec
  tableGet s1.strips 0 == some probeStrip && probeStrip.asyncs.isEmpty && !probeStrip.zeroFetch &&
    probeStrip.issueSet == some (0x10000, 0xFFFF) && (r.1.toOption.map fun l => (l.pa, l.pr)) == some (0x10000, false) &&
    !(readHome r.2 0x10000 8).2 && cachedWord r.2 probeStrip.coreId 0x10000 == none &&
    wordVersions r.2 (openedAt r.2 probeStrip) 0x10000 == [(readHome r.2 0x10000 8).1] &&
    decodeTableWord 64 (leNat (readHome r.2 0x10000 8).1) == some iaddT
theorem witness_StepRunsDecodedInstruction :
    let s := { start iaddT id with inputs := [] }
    (begun s).inputs = [] ∧ (begun s).turn = false ∧ pickStrip (begun s) = some 0 ∧ fetchedB (begun s) = true := by decide
theorem witness_StepRunsDecodedInstruction_issue :
    let s := { start iaddT id with inputs := [.issue 0], turn := true }
    (begun s).inputs = .issue 0 :: [] ∧ ready { begun s with inputs := [] } probeStrip = true ∧
      fetchedB { begun s with inputs := [] } = true := by decide

/-! ### Lanes and scalars -/

theorem witness_LaneResults :
    (laneValue iaddT).isSome = true ∧ Clean iaddT (start iaddT id) probeStrip 0x10000 0xFFFF ∧
      ∀ first n, destOf (shape iaddT) = .v first n → RoomFor (probeStrip.issued (shape iaddT) 0xFFFF) first n :=
  ⟨by decide, clean_of (by decide), fun first n h => by
    have h' : Dest.v 3 1 = .v first n := h
    cases h'
    exact room_of (by decide)⟩
def shflT : Instr := .shfl (fr 0 4 (v 1) (k' 1) no false 7)
theorem witness_CrossStrandResults :
    (groupValue shflT).isSome = true ∧ clean0 shflT (start shflT apart) = false ∧
      Clean shflT (start shflT apart) (apart probeStrip) 0x10000 0x0FFF ∧
      ∀ first n, destOf (shape shflT) = .v first n → RoomFor ((apart probeStrip).issued (shape shflT) 0x0FFF) first n :=
  ⟨by decide, by decide, clean_of (by decide), fun first n h => by
    have h' : Dest.v 4 2 = .v first n := h
    cases h'
    exact room_of (by decide)⟩
def idivT : Instr := .idiv ⟨0, 3, v 1, v 2, no, 15, 0, false, 0⟩
theorem witness_LongLaneResults : (longValue idivT).isSome = true ∧ Clean idivT (start idivT id) probeStrip 0x10000 0xFFFF :=
  ⟨by decide, clean_of (by decide)⟩
def saddT : Instr := .sadd (fr 0 511 (s' 511) (v 255) no true 0)
theorem witness_ScalarResults : (scalarValue saddT).isSome = true ∧ Clean saddT (start saddT id) probeStrip 0x10000 0xFFFF :=
  ⟨by decide, clean_of (by decide)⟩
theorem witness_WordArithmetic : (∃ f : FmtR, (f.fn = 0 ∨ f.fn = 1) ∧ f.sat = false) ∧ ∃ f : FmtR, f.fn = 1 ∧ f.sat = true :=
  ⟨⟨fr 1 3 (v 1) (v 2) no false 0, by decide⟩, ⟨fr 1 3 (v 1) (v 2) no true 0, by decide⟩⟩
theorem witness_PairArithmetic : ∃ f : FmtR, (f.fn = 2 ∨ f.fn = 3) ∧ f.sat = false := ⟨fr 3 4 (v 0) (v 2) no false 0, by decide⟩
theorem witness_DivisionCorners_ShiftCounts_BitCounts : ∃ f : FmtR, f.fn = 0 := ⟨fr 0 4 (v 0) (v 2) no false 0, rfl⟩
def iandT (fn : BitVec 4) : Instr := .iand (fr fn 4 (v 0) (v 2) no false 0)
theorem witness_LogicalWords (fn : BitVec 4) (h : fn = 0 ∨ fn = 2) :
    (laneValue (iandT fn)).isSome = true ∧ Clean (iandT fn) (start (iandT fn) id) probeStrip 0x10000 0xFFFF ∧
      RoomFor (probeStrip.issued (shape (iandT fn)) 0xFFFF) 4 (tyRegs fn) ∧
      ((operandsOf (start (iandT fn) id) probeStrip 0xFFFF (shape (iandT fn))).aOf 15).length = tyRegs fn := by
  obtain rfl | rfl := h
  all_goals exact ⟨by decide, clean_of (by decide), room_of (by decide), by decide⟩
def ifshlT : Instr := .ifshl (fr 0 3 (v 1) (v 2) (v 4) false 0)
theorem witness_FunnelShifts : Clean ifshlT (start ifshlT id) probeStrip 0x10000 0xFFFF ∧
    RoomFor (probeStrip.issued (shape ifshlT) 0xFFFF) 3 1 := ⟨clean_of (by decide), room_of (by decide)⟩
theorem witness_IntegerResultsWrapOrSaturate : ((7 : BitVec 4).toNat < 8) ∧ intBits 7 < 32 := by decide
theorem witness_RoundingKeepsRepresentables : f64 ∈ [f64, f32, f16, bf16, e4m3, e5m2] ∧ 2 ^ 64 - 1 < 2 ^ f64.bits ∧ 3 < 4 := by
  exact ⟨by simp, by decide, by decide⟩
/-- Strand 3 has waited 256 issues and stands at a later word. -/
def starved : Strip := { probeStrip with
  strands := (List.range 16).map fun k => ⟨if k = 3 then 0x10100 else 0x10000, .runnable, if k = 3 then 256 else 7, false, false⟩ }
theorem witness_ExecutingSetChoice_starved : starved.chooseX = some (0x10100, 8) ∧ starved.runnable.getLsbD 3 = true ∧
    (starved.strands[3]?.map (·.starve)) = some 256 := by decide
theorem witness_ExecutingSetChoice_lowest : (apart probeStrip).chooseX = some (0x10000, 0x0FFF) ∧
    ∀ i < 16, (apart probeStrip).runnable.getLsbD i = true → ((apart probeStrip).strands[i]?.map (·.starve)) ≠ some 256 ∧
      ((apart probeStrip).strands[i]?.map (·.deferred)) = some false := by decide
theorem witness_ExecutingSetChoice_counts : starved.strands.length = 16 ∧ ∃ t, starved.strands[3]? = some t := ⟨by decide, _, rfl⟩
def movT : Instr := .mov (fr 0 3 (v 7) no no false 0)
theorem witness_EmptyEntryReadsZero : Clean movT (start movT id) probeStrip 0x10000 0xFFFF ∧
    RoomFor (probeStrip.issued (shape movT) 0xFFFF) 3 1 ∧ selClass 7 = .v ∧ probeStrip.validAt 7 0 = false :=
  ⟨clean_of (by decide), room_of (by decide), by decide, by decide⟩
theorem witness_LastUseKillsEntries : tableWf (regs [(1, [5]), (255, [6])] [] probeStrip).v = true ∧
    (regs [(1, [5]), (255, [6])] [] probeStrip).validAt 255 3 = true := by decide

/-! ### Traps -/

def badT : Instr := .icmp (fr 0 3 (v 1) (v 2) no false 6)
def badS : State := withHandler (start badT id)
theorem witness_IllegalInstructionTrap : (encode badT).isSome = true ∧ Issues badS probeStrip 0x10000 0xFFFF ∧
    issueCode badT badS probeStrip = some 3 ∧ probeStrip.inTrap = false ∧ handlerOf badS probeStrip ≠ 0 :=
  ⟨by decide, issues_of (by decide), by decide, by decide, by decide⟩
def staleS : State := withFlags 0x10 (withHandler (start movT id))
theorem witness_StaleReadTrap : (encode movT).isSome = true ∧ (laneValue movT).isSome = true ∧
    Issues staleS probeStrip 0x10000 0xFFFF ∧ issueCode movT staleS probeStrip = none ∧
    (∀ r ∈ readsV (shape movT), ∀ e, tableGet probeStrip.v r = some e → e.spilled = false) ∧
    (emptyReads probeStrip (shape movT) 0xFFFF).1 ≠ 0 ∧ staleTraps staleS probeStrip = true ∧ probeStrip.inTrap = false ∧
    handlerOf staleS probeStrip ≠ 0 :=
  ⟨by decide, by decide, issues_of (by decide), by decide, fun r _ e h => by simp [probeStrip, freshStrip, tableGet] at h,
    by decide, by decide, by decide, by decide⟩
theorem witness_TrapEntryState : probeStrip.strands.length = 16 ∧ ∃ u, probeStrip.strands[15]? = some u := ⟨by decide, _, rfl⟩
def trapT : Instr := .trap ⟨0, 0, no, 0xCAFE⟩
def rteT : Instr := .rte (fr 0 0 no no no false 1)
/-- In the handler, all 16 strands vectored; in the second state strand 12 and on have not come to the RTE. -/
def inHandler (p : Strip) : Strip := { p with status := 8, mask := 0xFFFF, trapPc := 0x20000 }
theorem witness_TrapAndReturn_trap : Clean trapT (withHandler (start trapT id)) probeStrip 0x10000 0xFFFF ∧
    (encode trapT).isSome = true ∧ probeStrip.inTrap = false ∧ handlerOf (withHandler (start trapT id)) probeStrip ≠ 0 :=
  ⟨clean_of (by decide), by decide, by decide, by decide⟩
theorem witness_TrapAndReturn_last : Clean rteT (start rteT inHandler) (inHandler probeStrip) 0x10000 0xFFFF ∧
    (inHandler probeStrip).vec &&& ~~~((inHandler probeStrip).atRte ||| 0xFFFF ||| (inHandler probeStrip).exited) = 0 :=
  ⟨clean_of (by decide), by decide⟩
theorem witness_TrapAndReturn_waits :
    Clean rteT (start rteT fun p => apart (inHandler p)) (apart (inHandler probeStrip)) 0x10000 0x0FFF ∧
    (apart (inHandler probeStrip)).vec &&&
      ~~~((apart (inHandler probeStrip)).atRte ||| 0x0FFF ||| (apart (inHandler probeStrip)).exited) ≠ 0 :=
  ⟨clean_of (by decide), by decide⟩
def sprrT : Instr := .sprr ⟨0, 40, no, 0x13⟩
def sprwT : Instr := .sprw ⟨0, 0, s' 5, 0x13⟩
theorem witness_SpecialRegisterAccess : Clean sprrT (start sprrT id) probeStrip 0x10000 0xFFFF ∧
    Clean sprwT (start sprwT inHandler) (inHandler probeStrip) 0x10000 0xFFFF ∧ (inHandler probeStrip).inTrap = true ∧
    probeStrip.inTrap = false := ⟨clean_of (by decide), clean_of (by decide), by decide, by decide⟩

/-! ### Control -/

theorem witness_BranchResults :
    Clean (.bra ⟨1, 0, v 1, 0xFFFFFFFD⟩) (start (.bra ⟨1, 0, v 1, 0xFFFFFFFD⟩) id) probeStrip 0x10000 0xFFFF ∧
    Clean (.brx (fr 2 0 (v 2) (v 4) no false 0)) (start (.brx (fr 2 0 (v 2) (v 4) no false 0)) id) probeStrip 0x10000 0xFFFF ∧
    Clean (.ret (fr 0 0 (s' 4) no no false 0)) (start (.ret (fr 0 0 (s' 4) no no false 0)) id) probeStrip 0x10000 0xFFFF ∧
    Clean (.sbra ⟨0, 0, no, 7⟩) (start (.sbra ⟨0, 0, no, 7⟩) id) probeStrip 0x10000 0xFFFF ∧
    Clean (.sbrx (fr 0 0 (s' 4) no no false 0)) (start (.sbrx (fr 0 0 (s' 4) no no false 0)) id) probeStrip 0x10000 0xFFFF :=
  ⟨clean_of (by decide), clean_of (by decide), clean_of (by decide), clean_of (by decide), clean_of (by decide)⟩
def callT : Instr := .call ⟨2, 4, v 1, 2⟩
theorem witness_BranchResults_call : Clean callT (start callT id) probeStrip 0x10000 0xFFFF ∧
    RoomFor (probeStrip.issued (shape callT) 0xFFFF) 4 2 := ⟨clean_of (by decide), room_of (by decide)⟩
def z : FmtR := fr 0 0 no no no false 0
def prefT : Instr := .pref ⟨1, 0, k' 6, s' 4, no, 0, 1, 3, true, false⟩
theorem witness_NopAndPrefetchOnlyAdvance : Clean (.nop z) (start (.nop z) id) probeStrip 0x10000 0xFFFF ∧
    Clean prefT (start prefT id) probeStrip 0x10000 0xFFFF := ⟨clean_of (by decide), clean_of (by decide)⟩
theorem witness_ExitEndsStrands : Clean (.exit z) (start (.exit z) apart) (apart probeStrip) 0x10000 0x0FFF ∧
    (apart probeStrip).inTrap = false ∧ tableWf (apart probeStrip).v = true ∧
    (∀ q ∈ (start (.exit z) apart).strips, q.2.wg = (apart probeStrip).wg → noBar q.2 = true) ∧
    noBar (apart probeStrip) = true ∧ (apart probeStrip).strands.length = 16 :=
  ⟨clean_of (by decide), by decide, by decide, by decide, by decide, by decide⟩
def jarvT : Instr := .jarv (fr 0 0 (s' 12) no no false 0)
def jwaitT : Instr := .jwait (fr 0 0 (s' 511) no no false 0)
/-- Strand 12 waits at a JWAIT on s12. -/
def joining (p : Strip) : Strip := { p with s := [(12, 0x10001FFF)], strands := p.strands.set 12 ⟨0x10040, .blocked (.join 12), 0, false, false⟩ }
theorem witness_RejoinRegisters : Clean (.jinit (fr 0 511 no no no false 0)) (start (.jinit (fr 0 511 no no no false 0)) id) probeStrip 0x10000 0xFFFF ∧
    Clean jarvT (start jarvT id) probeStrip 0x10000 0xFFFF ∧ Clean jwaitT (start jwaitT id) probeStrip 0x10000 0xFFFF ∧
    cellsWf (0 : Word) (joining probeStrip).s = true ∧ ∃ t, (joining probeStrip).strands[12]? = some t ∧ t.st = .blocked (.join 12) :=
  ⟨clean_of (by decide), clean_of (by decide), clean_of (by decide), by decide, _, rfl, rfl⟩
theorem witness_StripControlResults :
    Clean (.sgetm (fr 0 9 no no no false 3)) (start (.sgetm (fr 0 9 no no no false 3)) id) probeStrip 0x10000 0xFFFF ∧
    Clean (.yield (fr 0 0 (k' 2) no no false 0)) (start (.yield (fr 0 0 (k' 2) no no false 0)) id) probeStrip 0x10000 0xFFFF ∧
    Clean (.shrink (fr 0 0 (k' 2) no no false 0)) (start (.shrink (fr 0 0 (k' 2) no no false 0)) id) probeStrip 0x10000 0xFFFF ∧
    Clean (.grow (fr 0 0 (k' 2) no no false 0)) (start (.grow (fr 0 0 (k' 2) no no false 0)) id) probeStrip 0x10000 0xFFFF ∧
    Clean (.hbeat z) (start (.hbeat z) id) probeStrip 0x10000 0xFFFF ∧ (launchOfStrip (start (.hbeat z) id) probeStrip).isSome = true :=
  ⟨clean_of (by decide), clean_of (by decide), clean_of (by decide), clean_of (by decide), clean_of (by decide), by decide⟩

/-! ### Barriers and tokens -/

/-- The first core's record stands in the table, with its translation of the first GiB and a full window. -/
def tlb0 : TlbEntry := ⟨0, 0, 2 ^ 30, 0x1D⟩
def core0 : Core := { resetCore with tlb := [tlb0] }
def warm (s : State) : State :=
  modDie { s with
    cores := [(0, core0)]
    launches := tableMod s.launches 0 fun l => { l with lrec := { l.lrec with scratch := 4096, handler := 0x11000 } } } 0
    fun d => { d with tlb := [tlb0] }
/-- A start state with a warm core. -/
def ws (i : Instr) (g : Strip → Strip) : State := warm (start i g)
theorem quiet0 (i : Instr) (g : Strip → Strip) : CoreQuiet (ws i g) 0 core0 := ⟨rfl, rfl, rfl⟩
/-- A second strip of the workgroup. -/
def twoStrips (s : State) : State := { s with strips := [(0, strip0 s), (1, { probeStrip with index := 1, slot := 1 })] }

def barT : Instr := .bar (fr 15 0 no no no false 1)
theorem witness_BarrierArrivalAndRelease_waits :
    Clean barT (twoStrips (ws barT id)) probeStrip 0x10000 0xFFFF ∧ CoreQuiet (twoStrips (ws barT id)) probeStrip.coreId core0 ∧
      ∃ k ∈ (twoStrips (ws barT id)).strips, k.2.wg = probeStrip.wg ∧ k.1 ≠ (twoStrips (ws barT id)).cur ∧
        ∃ t ∈ k.2.strands, atBar 15 t = false ∧ t.st ≠ .exited :=
  ⟨clean_of (by decide), ⟨rfl, rfl, rfl⟩, (1, { probeStrip with index := 1, slot := 1 }), by decide, by decide, by decide,
    ⟨0x10000, .runnable, 0, false, false⟩, by decide, by decide, by decide⟩
/-- Strands 12 to 14 wait at the barrier already, strand 15 has exited. -/
def atBarrier (p : Strip) : Strip := { p with strands := (List.range 16).map fun k =>
  ⟨0x10000, if k = 15 then .exited else if 12 ≤ k then .blocked (.bar 15 false) else .runnable, 0, false, false⟩ }
theorem witness_BarrierArrivalAndRelease_releases :
    Clean barT (ws barT atBarrier) (atBarrier probeStrip) 0x10000 0x0FFF ∧ CoreQuiet (ws barT atBarrier) 0 core0 ∧
      (ws barT atBarrier).strips.filter (fun k => k.2.wg == (atBarrier probeStrip).wg) = [(0, atBarrier probeStrip)] ∧
      (atBarrier probeStrip).strands.length = 16 ∧
      (∀ k < 16, (0x0FFF : Strands).getLsbD k = false → ∀ u, (atBarrier probeStrip).strands[k]? = some u →
        (u.st = .exited ∨ atBar 15 u = true)) :=
  ⟨clean_of (by decide), quiet0 _ _, by decide, by decide, by decide⟩
def waitT : Instr := .wait (fr 0 0 (k' 15) no no false 0)
def tok7 (p : Strip) : Strip := p.modToken 7 Token.issue
theorem witness_WaitOnTokens : Clean waitT (start waitT id) probeStrip 0x10000 0xFFFF ∧
    probeStrip.tokensFree ((word0 (operandsOf (start waitT id) probeStrip 0xFFFF (shape waitT)).ua).setWidth 8) = true ∧
    Clean waitT (start waitT tok7) (tok7 probeStrip) 0x10000 0xFFFF ∧
    (tok7 probeStrip).tokensFree ((word0 (operandsOf (start waitT tok7) (tok7 probeStrip) 0xFFFF (shape waitT)).ua).setWidth 8)
      = false :=
  ⟨clean_of (by decide), by decide, clean_of (by decide), by decide⟩

/-! ### Memory -/

/-- A walk that ends at a leaf outside a contiguous block gives it whatever the free values. -/
theorem walk_of {s : State} {root va level at_ : Nat} {e : DWord} (h : walkFrom s va 4 0 root = .ok (e, level, at_))
    (hc : e.getLsbD 8 = false) (n : Nat) : walk { s with free := n } root va = .ok (e, pageBytes level) := by
  have hw : walkFrom { s with free := n } va 4 0 root = .ok (e, level, at_) := h
  simp only [walk, hw, hc, Bool.not_false, if_true]
def heldB (s : State) (ag : Agent) (va : Nat) (acc : Access) (lf : Leaf) : Bool :=
  (match walkFrom s va 4 0 ag.root with
    | .ok r => r.1 == 0x1D && r.2.1 == 1
    | .error _ => false) &&
  (match useEntry 0x1D (2 ^ 30) va acc with
    | .ok l => l == lf
    | .error _ => false) &&
  (coreOf s ag.core).tlb.contains ⟨ag.asid, va / 2 ^ 30 * 2 ^ 30, 2 ^ 30, 0x1D⟩ &&
  (dieOf s ag.die).tlb.contains ⟨ag.asid, va / 2 ^ 30 * 2 ^ 30, 2 ^ 30, 0x1D⟩ && olderEntries s ag va (.ok (0x1D, 2 ^ 30)) == []
theorem held_of {s : State} {ag : Agent} {va : Nat} {acc : Access} {lf : Leaf} (h : heldB s ag va acc lf = true) :
    Held s ag va acc lf 0x1D (2 ^ 30) := by
  simp only [heldB, Bool.and_eq_true, beq_iff_eq] at h
  obtain ⟨⟨⟨⟨h1, h2⟩, h3⟩, h4⟩, h5⟩ := h
  refine ⟨fun n => ?_, ?_, by decide, h3, h4, h5⟩
  · revert h1
    cases hw : walkFrom s va 4 0 ag.root with
    | ok r =>
      obtain ⟨e, level, at_⟩ := r
      intro h
      simp only [Bool.and_eq_true, beq_iff_eq] at h
      obtain ⟨rfl, rfl⟩ := h
      exact walk_of hw (by decide) n
    | error e => intro h; cases h
  · revert h2
    cases useEntry 0x1D (2 ^ 30) va acc with
    | ok r => intro h; rw [beq_iff_eq] at h; rw [h]
    | error e => intro h; cases h
def plainB (lf : Leaf) (n : Nat) : Bool :=
  !isDevice lf.pa && populated lf.pa && !lf.pr && decide (lf.pa % 128 + n ≤ 128)
theorem plain_of {lf : Leaf} {n : Nat} (h : plainB lf n = true) : lf.plain n := by
  simp only [plainB, Bool.and_eq_true, Bool.not_eq_true', decide_eq_true_eq] at h
  exact ⟨h.1.1.1, h.1.1.2, h.1.2, h.2⟩
/-- Nothing stands behind the L2. -/
theorem unhidden_nil {s : State} (h : s.hbm = []) : Unhidden s := fun l e he => by
  rw [h] at he
  cases he
/-- The strand's own place at 0x100000 + size × strand. -/
def at1M (size k : Nat) : Leaf := ⟨0x100000 + size * k, false, 0⟩
/-- v0 holds the strand's offset, v2:v3 the address of its place, v4:v5 its data, s4:s5 the base. -/
def places (size : Nat) (p : Strip) : Strip := regs
  [(0, (List.range 16).map (size * ·)), (2, (List.range 16).map (0x100000 + size * ·)), (3, []),
    (4, (List.range 16).map (0x11223300 + ·)), (5, List.replicate 16 9)] [(4, 0x100000)] p

def ldgT : Instr := .ldg ⟨2, 6, v 0, s' 4, no, 15, 0, 0, true, false⟩
def ldgaT : Instr := .ldga ⟨2, 6, no, v 2, no, 1, 2, 1, false⟩
def vmarchT : Instr := .vmarch ⟨0, 20, v 12, s' 8, v 16, 5, 0, false, 1⟩
def sldT : Instr := .sld ⟨2, 8, k' 0, s' 4, no, 1, 0, 0, false, false⟩
def ccntT : Instr := .ccnt ⟨0, 24, s' 4, no, no, 9, false, 0, 0⟩
theorem witness_AccessesGoInFlight :
    laneAccess ldgaT = true ∧ Clean ldgaT (start ldgaT (places 4)) (places 4 probeStrip) 0x10000 0xFFFF ∧
      alignFails ldgaT 0xFFFF (operandsOf (start ldgaT (places 4)) (places 4 probeStrip) 0xFFFF (shape ldgaT)) = 0 ∧
    laneAccess ldgT = true ∧ Clean ldgT (start ldgT (places 4)) (places 4 probeStrip) 0x10000 0xFFFF ∧
    Clean vmarchT (start vmarchT id) probeStrip 0x10000 0xFFFF ∧
    uniformLater sldT = true ∧ Clean sldT (start sldT (places 4)) (places 4 probeStrip) 0x10000 0xFFFF ∧
    uniformLater ccntT = true ∧ Clean ccntT (start ccntT (places 4)) (places 4 probeStrip) 0x10000 0xFFFF ∧
      pairEa (operandsOf (start ccntT (places 4)) (places 4 probeStrip) 0xFFFF (shape ccntT)).ua % 32 = 0 :=
  ⟨by decide, clean_of (by decide), by decide, by decide, clean_of (by decide), clean_of (by decide), by decide,
    clean_of (by decide), by decide, clean_of (by decide), by decide⟩
def atomgT : Instr := .atomg ⟨9, 6, v 4, v 2, v 4, 0, 2, 3, true⟩
def atomlT : Instr := .atoml ⟨0, 6, v 4, v 0, no, 0, 0, 0, true⟩
def atoml4T : Instr := .atoml ⟨0, 6, v 4, v 0, no, 0, 0, 0, false⟩
def phwaitT : Instr := .phwait (fr 0 0 (s' 4) (k' 1) no false 0)
/-- 64-bit places 4 bytes apart: every second one is misaligned; scratch places far out; a record at 0x100008. -/
theorem witness_AddressTraps_global :
    (encode atomgT).isSome = true ∧ Ready atomgT (ws atomgT (places 4)) (places 4 probeStrip) 0x10000 0xFFFF ∧
      (places 4 probeStrip).inTrap = false ∧ handlerOf (ws atomgT (places 4)) (places 4 probeStrip) ≠ 0 ∧
      alignFails atomgT 0xFFFF (operandsOf (ws atomgT (places 4)) (places 4 probeStrip) 0xFFFF (shape atomgT)) = 0xAAAA :=
  ⟨by decide, ready_of (by decide), by decide, by decide, by decide⟩
theorem witness_AddressTraps_scratch_alignment :
    (encode atomlT).isSome = true ∧ Ready atomlT (ws atomlT (places 4)) (places 4 probeStrip) 0x10000 0xFFFF ∧
      strandSet (fun k => (0xFFFF : Strands).getLsbD k &&
        (word0 ((operandsOf (ws atomlT (places 4)) (places 4 probeStrip) 0xFFFF (shape atomlT)).bOf k)).toNat % 8 != 0) = 0xAAAA :=
  ⟨by decide, ready_of (by decide), by decide⟩
def ccnt8T : Instr := .ccnt ⟨0, 24, v 2, no, no, 9, false, 0, 0⟩
def oddBase (p : Strip) : Strip := regs [] [(4, 0x100008)] p
theorem witness_AddressTraps_record :
    (encode ccntT).isSome = true ∧ Ready ccntT (ws ccntT oddBase) (oddBase probeStrip) 0x10000 0xFFFF ∧
      pairEa (operandsOf (ws ccntT oddBase) (oddBase probeStrip) 0xFFFF (shape ccntT)).ua % 32 ≠ 0 :=
  ⟨by decide, ready_of (by decide), by decide⟩
def ldlT : Instr := .ldl ⟨2, 6, k' 0, v 0, no, 0, 0, 0, false, false⟩
/-- Window of 4,096 bytes: with places 272 bytes apart, strand 15's 32-bit access ends at 4,084; 273 bytes apart, at 4,099. -/
theorem witness_AddressTraps_window :
    (encode ldlT).isSome = true ∧ Ready ldlT (ws ldlT (places 273)) (places 273 probeStrip) 0x10000 0xFFFF ∧
      scratchAccess ldlT (operandsOf (ws ldlT (places 273)) (places 273 probeStrip) 0xFFFF (shape ldlT)) 15 = some (4095, 4) ∧
      scratchSize (ws ldlT (places 273)) (places 273 probeStrip) = 4096 ∧
      scratchFails (ws ldlT (places 273)) (places 273 probeStrip) ldlT 0xFFFF
        (operandsOf (ws ldlT (places 273)) (places 273 probeStrip) 0xFFFF (shape ldlT)) = 0x8000 :=
  ⟨by decide, ready_of (by decide), by decide, by decide, by decide⟩
theorem witness_AddressTraps_atoml_in_range : (encode atoml4T).isSome = true ∧
    Ready atoml4T (ws atoml4T (places 276)) (places 276 probeStrip) 0x10000 0xFFFF ∧
    (∀ k < 16, (word0 ((operandsOf (ws atoml4T (places 276)) (places 276 probeStrip) 0xFFFF (shape atoml4T)).bOf k)).toNat % 4 = 0) ∧
    scratchFails (ws atoml4T (places 276)) (places 276 probeStrip) atoml4T 0xFFFF
        (operandsOf (ws atoml4T (places 276)) (places 276 probeStrip) 0xFFFF (shape atoml4T)) = 0x8000 :=
  ⟨by decide, ready_of (by decide), by decide, by decide⟩
/-- The strip with a load of its places outstanding. -/
def loadFlight : Flight := { newFlight (ws ldgT (places 8)) (ctxOf ldgT (ws ldgT (places 8)) (places 8 probeStrip) 0x10000 0xFFFF)
  (.v 6 1) 0xFFFF noResults 0 true with id := 5 }
theorem witness_LoadReadsCoreView :
    flightEa loadFlight 15 = some (0x100078, 4) ∧ loadFlight.instr = ldgT ∧
      (∀ k < 4, heldB (ws ldgT (places 8)) (stripAgent (ws ldgT (places 8)) probeStrip) (0x100078 + k) .read
        { at1M 8 15 with pa := (at1M 8 15).pa + k } = true) ∧
      (at1M 8 15).plain 4 ∧ Unhidden (ws ldgT (places 8)) ∧ tableGet loadFlight.part 15 = none ∧
      loadFlight.partBad.getLsbD 15 = false ∧ (∀ k < 4, (ws ldgT (places 8)).poison.contains (((at1M 8 15).pa + k) / 8) = false) ∧
      scbFind (coreOf (ws ldgT (places 8)) probeStrip.coreId) (lineOf (at1M 8 15).pa) = none ∧
      tableGet (coreOf (ws ldgT (places 8)) probeStrip.coreId).rc (lineOf (at1M 8 15).pa) = none ∧
      tableGet (dieOf (ws ldgT (places 8)) probeStrip.die).rdc (lineOf (at1M 8 15).pa) = none :=
  ⟨by decide, rfl, by decide, plain_of (by decide), unhidden_nil rfl, rfl, rfl, by decide, by decide, by decide, by decide⟩
def stgT : Instr := .stg ⟨3, 0, v 0, s' 4, v 4, 0, 0, 0, true, false⟩
def sstT : Instr := .sst ⟨4, 0, k' 0, s' 4, s' 8, 0, 0, 0, false, false⟩
theorem witness_StoresEnterTheBuffer_lanes : Clean stgT (ws stgT (places 8)) (places 8 probeStrip) 0x10000 0xFFFF ∧
    CoreQuiet (ws stgT (places 8)) 0 core0 ∧
    (∀ k < 16, let o := operandsOf (ws stgT (places 8)) (places 8 probeStrip) 0xFFFF (shape stgT)
      globalEa ⟨3, 0, v 0, s' 4, v 4, 0, 0, 0, true, false⟩ (o.aOf k) (o.bOf k) % 128 + 8 ≤ 128 ∧
      heldB (ws stgT (places 8)) (stripAgent (ws stgT (places 8)) (places 8 probeStrip))
        (globalEa ⟨3, 0, v 0, s' 4, v 4, 0, 0, 0, true, false⟩ (o.aOf k) (o.bOf k)) .write (at1M 8 k) = true ∧
      plainB (at1M 8 k) 8 = true) ∧
    ∀ j < 16, ∀ k < 16, j ≠ k → (at1M 8 j).pa + 8 ≤ (at1M 8 k).pa ∨ (at1M 8 k).pa + 8 ≤ (at1M 8 j).pa :=
  ⟨clean_of (by decide), quiet0 _ _, by decide, by decide⟩
theorem witness_StoresEnterTheBuffer_uniform : Clean sstT (ws sstT (places 8)) (places 8 probeStrip) 0x10000 0xFFFF ∧
    CoreQuiet (ws sstT (places 8)) 0 core0 ∧
    (let o := operandsOf (ws sstT (places 8)) (places 8 probeStrip) 0xFFFF (shape sstT);
      globalEa ⟨4, 0, k' 0, s' 4, s' 8, 0, 0, 0, false, false⟩ o.ua o.ub = 0x100000) ∧
    Held (ws sstT (places 8)) (stripAgent (ws sstT (places 8)) (places 8 probeStrip)) 0x100000 .write (at1M 8 0) 0x1D (2 ^ 30) ∧
    (at1M 8 0).plain 16 :=
  ⟨clean_of (by decide), quiet0 _ _, by decide, held_of (by decide), plain_of (by decide)⟩
def stgrT (scope : BitVec 3) : Instr := .stgr ⟨3, 0, no, v 2, v 4, 0, scope, 2, true⟩
def redgT : Instr := .redg ⟨0, 0, v 4, v 2, no, 0, 2, 2, false⟩
theorem witness_OrderedStoresArePosted_wide (scope : BitVec 3) (h : scope = 0 ∨ scope = 2) :
    Clean (stgrT scope) (ws (stgrT scope) (places 8)) (places 8 probeStrip) 0x10000 0xFFFF ∧
    CoreQuiet (ws (stgrT scope) (places 8)) 0 core0 ∧
    narrowScope (ws (stgrT scope) (places 8)) (places 8 probeStrip) scope.toNat = (scope == 0) ∧
    (let o := operandsOf (ws (stgrT scope) (places 8)) (places 8 probeStrip) 0xFFFF (shape (stgrT scope))
    alignFails (stgrT scope) 0xFFFF o = 0 ∧
    (∀ k < 16, pairEa (o.bOf k) = pairEa (o.bOf 0) + 8 * k) ∧ pairEa (o.bOf 0) % 128 = 0 ∧
    ∀ k < 16, pairEa (o.bOf k) % 128 + 8 ≤ 128 ∧
      heldB (ws (stgrT scope) (places 8)) (stripAgent (ws (stgrT scope) (places 8)) (places 8 probeStrip)) (pairEa (o.bOf k)) .write
        (at1M 8 k) = true ∧ plainB (at1M 8 k) 8 = true) := by
  obtain rfl | rfl := h
  all_goals exact ⟨clean_of (by decide), quiet0 _ _, by decide, by decide⟩
theorem witness_OrderedStoresArePosted_redg :
    Clean redgT (ws redgT (places 16)) (places 16 probeStrip) 0x10000 0xFFFF ∧ CoreQuiet (ws redgT (places 16)) 0 core0 ∧
    (let o := operandsOf (ws redgT (places 16)) (places 16 probeStrip) 0xFFFF (shape redgT)
    alignFails redgT 0xFFFF o = 0 ∧
    ∀ k < 16, heldB (ws redgT (places 16)) (stripAgent (ws redgT (places 16)) (places 16 probeStrip)) (pairEa (o.bOf k)) .both
        (at1M 16 k) = true ∧ plainB (at1M 16 k) 4 = true) :=
  ⟨clean_of (by decide), quiet0 _ _, by decide⟩
def stlT : Instr := .stl ⟨2, 0, k' 0, v 0, v 4, 0, 0, 0, false, false⟩
theorem witness_ScratchAccesses_ldl : Clean ldlT (ws ldlT (places 272)) (places 272 probeStrip) 0x10000 0xFFFF ∧
    scratchFails (ws ldlT (places 272)) (places 272 probeStrip) ldlT 0xFFFF
      (operandsOf (ws ldlT (places 272)) (places 272 probeStrip) 0xFFFF (shape ldlT)) = 0 ∧
    (coreOf (ws ldlT (places 272)) 0).rsb = [] ∧ (coreOf (ws ldlT (places 272)) 0).scratchPoison = [] :=
  ⟨clean_of (by decide), by decide, by decide, by decide⟩
theorem witness_ScratchAccesses_stl : Clean stlT (ws stlT (places 272)) (places 272 probeStrip) 0x10000 0xFFFF ∧
    scratchFails (ws stlT (places 272)) (places 272 probeStrip) stlT 0xFFFF
      (operandsOf (ws stlT (places 272)) (places 272 probeStrip) 0xFFFF (shape stlT)) = 0 ∧
    (coreOf (ws stlT (places 272)) 0).rsb = [] ∧ cellsWf (0 : Byte) (coreOf (ws stlT (places 272)) 0).scratch = true :=
  ⟨clean_of (by decide), by decide, by decide, by decide⟩
theorem witness_ScratchAccesses_atoml : Clean atomlT (ws atomlT (places 8)) (places 8 probeStrip) 0x10000 0xFFFF ∧
    CoreQuiet (ws atomlT (places 8)) 0 core0 ∧
    (let o := operandsOf (ws atomlT (places 8)) (places 8 probeStrip) 0xFFFF (shape atomlT)
    (∀ k < 16, (word0 (o.bOf k)).toNat % 8 = 0) ∧ scratchFails (ws atomlT (places 8)) (places 8 probeStrip) atomlT 0xFFFF o = 0 ∧
    (∀ j < 16, ∀ k < 16, j ≠ k → (word0 (o.bOf j)).toNat + 8 ≤ (word0 (o.bOf k)).toNat ∨
      (word0 (o.bOf k)).toNat + 8 ≤ (word0 (o.bOf j)).toNat)) :=
  ⟨clean_of (by decide), quiet0 _ _, by decide⟩

/-! ### Fences, drains and Mint -/

def fenceT : Instr := .fence ⟨0, 0, no, no, no, 0, 4, 3, false⟩
def fenceRelT : Instr := .fence ⟨0, 0, no, no, no, 0, 2, 2, false⟩
def wfenceT : Instr := .wfence ⟨0, 0, no, no, no, 0, 4, 1, false⟩
def promoteT : Instr := .fencePromote ⟨1, 0, k' 3, no, no, 0, 3, 1, false⟩
/-- A store buffer entry of line 0x2000 (address 0x100000) with its last two bytes, and a read-cache line. -/
def entry0 : ScbEntry := ⟨0x2000, [(126, 5), (127, 6)], [], 0, [0], 1⟩
def buffered (s : State) : State := modCore s 0 fun c => { c with scb := [entry0] }
theorem witness_FencesOrder_quiet : Clean fenceT (ws fenceT id) probeStrip 0x10000 0xFFFF ∧ CoreQuiet (ws fenceT id) 0 core0 ∧
    (dieOf (ws fenceT id) probeStrip.die).tiPending = false ∧
    Clean wfenceT (ws wfenceT id) probeStrip 0x10000 0xFFFF ∧ CoreQuiet (ws wfenceT id) 0 core0 :=
  ⟨clean_of (by decide), quiet0 _ _, by decide, clean_of (by decide), quiet0 _ _⟩
theorem witness_FencesOrder_release : Clean fenceRelT (buffered (ws fenceRelT id)) probeStrip 0x10000 0xFFFF ∧
    (coreOf (buffered (ws fenceRelT id)) probeStrip.coreId).posted = [] ∧
    narrowScope (buffered (ws fenceRelT id)) probeStrip 2 = false ∧ (dieOf (buffered (ws fenceRelT id)) 0).tiPending = false :=
  ⟨clean_of (by decide), by decide, by decide, by decide⟩
theorem witness_FencesOrder_promote : Clean promoteT (ws promoteT id) probeStrip 0x10000 0xFFFF ∧ CoreQuiet (ws promoteT id) 0 core0 ∧
    (word0 (operandsOf (ws promoteT id) probeStrip 0xFFFF (shape promoteT)).ua).toNat % 4 = 3 ∧
    (∀ k ∈ (ws promoteT id).cores, k.1 / 96 = 3 → k.2.scb = []) ∧ tableWf (ws promoteT id).cores = true :=
  ⟨clean_of (by decide), quiet0 _ _, by decide, by decide, by decide⟩
def discardT (k : BitVec 10) : Instr := .discard (fr 0 0 (s' 4) (k' k) no false 0)
set_option maxRecDepth 10000

/-- HBM holds sevens for some lines whose homes hold other bytes. -/
def behind (lines : List Nat) (s : State) : State :=
  { s with hbm := lines.map fun l => (l, ⟨⟨List.replicate 128 7, []⟩, none⟩) }
def hbmSoundB (s : State) : Bool := tableWf s.hbm && s.hbm.all fun h =>
  h.2.queued.isNone && h.2.held.bytes.length == 128 && h.2.held.poison.all (· < 16)
theorem hbmSound_of {s : State} (h : hbmSoundB s = true) : HbmSound s := by
  simp only [hbmSoundB, Bool.and_eq_true, List.all_eq_true, Option.isNone_iff_eq_none, beq_iff_eq, decide_eq_true_eq] at h
  have mem : ∀ (t : Table HbmLine) l e, tableGet t l = some e → (l, e) ∈ t := fun t l e he => by
    induction t with
    | nil => exact nomatch he
    | cons q t ih =>
      obtain ⟨k, c⟩ := q
      simp only [tableGet] at he
      split at he
      · cases he
      · split at he
        · next hk => cases he; cases hk; exact List.mem_cons_self ..
        · exact List.mem_cons_of_mem _ (ih he)
  refine ⟨h.1, fun l e he => ?_, fun l e d he hq => ?_⟩
  · exact ⟨(h.2 _ (mem _ _ _ he)).1.2, (h.2 _ (mem _ _ _ he)).2⟩
  · rw [(h.2 _ (mem _ _ _ he)).1.1] at hq
    cases hq
def discardS (k : BitVec 10) (lines : List Nat) : State := behind lines (ws (discardT k) (places 8))
def discardLeaf (k : Nat) : Leaf := ⟨0x100000 + 128 * k, false, 0⟩
def discardB (k : BitVec 10) (n : Nat) (lines : List Nat) : Bool :=
  let s := discardS k lines
  let o := operandsOf s (places 8 probeStrip) 0xFFFF (shape (discardT k))
  (dword0 o.ua).toNat == 0x100000 && (word0 o.ub).toNat == 128 * n &&
    ((List.range n).all fun j => heldB s (stripAgent s probeStrip) (vaOf (0x100000 / 128 * 128 + 128 * j)) .write (discardLeaf j)) &&
    s.mem.wf && onSdie 0x100000 == false && populated 0x100000
theorem witness_DiscardAndDrain_nothing : Clean (discardT 0) (discardS 0 []) (places 8 probeStrip) 0x10000 0xFFFF ∧
    word0 (operandsOf (discardS 0 []) (places 8 probeStrip) 0xFFFF (shape (discardT 0))).ub = 0 := ⟨clean_of (by decide), by decide⟩
/-- One line, which HBM holds otherwise. -/
theorem witness_DiscardAndDrain_discard : Clean (discardT 9) (discardS 9 [0x2000]) (places 8 probeStrip) 0x10000 0xFFFF ∧
    discardB 9 1 [0x2000] = true ∧ HbmSound (discardS 9 [0x2000]) ∧ (0x100000 % 128 + 128 * 1 + 127) / 128 ≤ 1 :=
  ⟨clean_of (by decide), by decide, hbmSound_of (by decide), by decide⟩
/-- Two lines, with nothing behind the L2. -/
theorem witness_DiscardAndDrain_lines : Clean (discardT 10) (discardS 10 []) (places 8 probeStrip) 0x10000 0xFFFF ∧
    discardB 10 2 [] = true ∧ HbmSound (discardS 10 []) ∧
    ∀ k < 2, tableGet (discardS 10 []).hbm (lineOf (discardLeaf k).pa) = none :=
  ⟨clean_of (by decide), by decide, hbmSound_of (by decide), by decide⟩
/-- The tables of the start states map the first GiB to itself. -/
theorem tables_walk {t : State} {va : Nat} (hv : va < 2 ^ 30) (h1 : readEntry t 0x2000 = (0x3003, false))
    (h2 : readEntry t 0x3000 = (0x1D, false)) : walk t 0x2000 va = .ok (0x1D, 2 ^ 30) := by
  have a : va / 2 ^ 39 % 512 = 0 := by omega
  have b : va / 2 ^ 30 % 512 = 0 := by omega
  have t1 : entryTarget false 0 0x3003 = .ok (some 0x3000) := by rfl
  have t2 : entryTarget false 1 0x1D = .ok none := by rfl
  have w : walkFrom t va 4 0 0x2000 = .ok (0x1D, 1, 0x3000) := by
    simp only [walkFrom, Nat.mul_zero, Nat.sub_zero, Nat.mul_one, Nat.zero_add, Nat.add_zero, a, h1, t1,
      show 39 - 9 = 30 from rfl, b, h2, t2]
  have c : BitVec.getLsbD (0x1D : DWord) 8 = false := by decide
  simp only [walk, w, c, Bool.not_false, if_true]
  rfl
/-- Two lines that HBM holds otherwise; the job's tables stand elsewhere. -/
theorem witness_DiscardAndDrain_apart : Clean (discardT 10) (discardS 10 [0x2000, 0x2001]) (places 8 probeStrip) 0x10000 0xFFFF ∧
    discardB 10 2 [0x2000, 0x2001] = true ∧ HbmSound (discardS 10 [0x2000, 0x2001]) ∧
    ∀ k < 2, WalkApart (discardS 10 [0x2000, 0x2001]) (stripAgent (discardS 10 [0x2000, 0x2001]) (places 8 probeStrip)).root
      (vaOf (0x100000 / 128 * 128 + 128 * k)) fun l => ∃ j < 2, l = lineOf (discardLeaf j).pa := by
  refine ⟨clean_of (by decide), by decide, hbmSound_of (by decide), fun k hk t hm hp => ?_⟩
  have root : (stripAgent (discardS 10 [0x2000, 0x2001]) (places 8 probeStrip)).root = 0x2000 := by decide
  have away : ∀ q, q < 0x4000 → ¬∃ j < 2, lineOf q = lineOf (discardLeaf j).pa := by
    rintro q hq ⟨j, hj, h⟩
    simp only [lineOf, discardLeaf] at h
    omega
  have entry : ∀ at_ < 0x3FF8, readEntry t at_ = readEntry (discardS 10 [0x2000, 0x2001]) at_ := fun at_ ha => by
    refine readEntry_congr (fun q h1 h2 => hm q (away q (by omega))) fun w h1 h2 => hp w ?_
    rintro ⟨j, hj, h⟩
    simp only [lineOf, discardLeaf] at h
    omega
  rw [root]
  have both : ∀ va < 2 ^ 30, walk t 0x2000 va = walk { discardS 10 [0x2000, 0x2001] with free := t.free } 0x2000 va := fun va hv =>
    (tables_walk hv ((entry _ (by decide)).trans (by decide)) ((entry _ (by decide)).trans (by decide))).trans
      (tables_walk (t := { discardS 10 [0x2000, 0x2001] with free := t.free }) hv (show readEntry (discardS 10 [0x2000, 0x2001]) 0x2000 = (0x3003, false) by decide)
        (show readEntry (discardS 10 [0x2000, 0x2001]) 0x3000 = (0x1D, false) by decide)).symm
  have h : k = 0 ∨ k = 1 := by omega
  obtain rfl | rfl := h
  all_goals exact both _ (by decide)
theorem witness_DiscardAndDrain_scb : let s := buffered (ws fenceRelT id)
    (coreOf s 0).scb[0]? = some entry0 ∧ scbDue s entry0 = false ∧ scbDue { s with clk := 1024 } entry0 = true ∧
      populated (entry0.line * 128) = true ∧ s.hbm = [] ∧
      (∀ h ∈ (coreOf s 0).scb, h.line = entry0.line → h = entry0) ∧ tableWf entry0.bytes = true ∧
      (∀ k ∈ entry0.bytes, k.1 < 128) ∧ s.mem.wf = true := by decide
def posted0 (o : PostedOp) (s : State) : State := modCore s 0 fun c => { c with posted := [⟨0, 1, [0], [o]⟩] }
theorem witness_DiscardAndDrain_posted : let s := posted0 (.write 0x100078 1 [1, 2, 3, 4, 5, 6, 7, 8]) (ws fenceRelT id)
    (coreOf s 0).scb[0]? = none ∧ (coreOf s 0).posted = [⟨0, 1, [0], [.write 0x100078 1 [1, 2, 3, 4, 5, 6, 7, 8]]⟩] ∧
      isDevice 0x100078 = false ∧ populated 0x100078 = true ∧ s.hbm = [] ∧ s.mem.wf = true := by decide
theorem witness_DiscardAndDrain_red : let s := posted0 (.red 0x100078 0 0 true false 5) (ws fenceRelT id)
    (coreOf s 0).scb[0]? = none ∧ (coreOf s 0).posted = [⟨0, 1, [0], [.red 0x100078 0 0 true false 5]⟩] ∧
      isDevice 0x100078 = false ∧ populated 0x100078 = true ∧ s.hbm = [] ∧ s.mem.wf = true ∧ anyPoison s 0x100078 8 = false ∧
      atomNew 0 true (leNat (cellRange (0 : Byte) s.mem 0x100078 8)) 5 0 = some 5 := by decide
def vinsT : Instr := .vins ⟨0, 20, v 8, s' 2, no, 3, 4, 3, false⟩
def vallocT : Instr := .valloc ⟨0, 300, s' 4, no, no, 5, 0, false, 1⟩
def vfreeT : Instr := .vfree (fr 0 0 (s' 4) (k' 3) no false 1)
theorem witness_MintInstructions_issue : Clean vinsT (ws vinsT id) probeStrip 0x10000 0xFFFF ∧
    Clean vallocT (ws vallocT id) probeStrip 0x10000 0xFFFF ∧ Clean vfreeT (ws vfreeT id) probeStrip 0x10000 0xFFFF ∧
    CoreQuiet (ws vfreeT id) 0 core0 := ⟨clean_of (by decide), clean_of (by decide), clean_of (by decide), quiet0 _ _⟩
/-- Bytes in memory. -/
def put (l : List (Nat × List Byte)) (s : State) : State :=
  { s with mem := l.foldl (fun m b => placeBytes m b.1 b.2) s.mem }
/-- A tree's descriptor at 0x100000 with capacities 16 and free lists at 0x100400, where the leaf ring has 16 places. -/
def tree (s : State) : State := put [(0x100008, leBytes 4 16), (0x10000C, leBytes 1 0), (0x100060, leBytes 8 0x100400),
  (0x100068, leBytes 4 16 ++ leBytes 4 16)] s
def vfreeReq (s : State) : MintReq := ⟨0, 0, stripJob s probeStrip, none, 0, vfreeT,
  operandsOf s (places 8 probeStrip) 0xFFFF (shape vfreeT), false, .fresh⟩
def freeing : State := let s := tree (ws vfreeT (places 8)); modDie s 0 fun d => { d with mint := [vfreeReq s] }
def freeMint : Walker := ⟨mintAgent (vfreeReq freeing), .mint⟩
theorem witness_MintInstructions_free : (dieOf freeing 0).mint[0]? = some (vfreeReq freeing) ∧ (vfreeReq freeing).flight = none ∧
    (vfreeReq freeing).core / 96 = 0 ∧ dieWaiting freeing (.mint 0) = false ∧
    ((readVdesc freeMint 0x100000 (Walk.start freeing)).1.map fun d => d.lcap) = some 16 ∧
    (readVdesc freeMint 0x100000 (Walk.start freeing)).2.fault = none ∧ (readVdesc freeMint 0x100000 (Walk.start freeing)).2.bad = [] := by decide

/-! ### Arrivals -/

/-- A sum's result on its way (`test` values), its window closed or open. -/
def flight (left : Nat) (d : Dest) (got : List (List Word)) (lost : List Strands) : Flight :=
  ⟨9, idivT, 0x10000, 0xFFFF, 0, left, d, lost, ⟨[], [], []⟩, got, 2, false, false, false, true, false, false, [], [], 0, []⟩
def with1 (f : Flight) : State := start (.nop z) fun p => { p with flights := [f] }
theorem witness_ResultsArrive_open : let f := flight 3 (.v 3 1) (List.replicate 16 [7]) [0]
    tableGet (with1 f).strips 0 = some { probeStrip with flights := [f] } ∧ f.undone = 0 ∧ f.long = true ∧ f.arrived = false ∧
      acquireOf f.instr = none ∧ f.left ≠ 0 := by decide
theorem witness_ResultsArrive_closed : let f := flight 0 (.v 254 2) (List.replicate 16 [7, 8]) [0, 0]
    tableGet (with1 f).strips 0 = some { probeStrip with flights := [f] } ∧ f.left = 0 ∧
      f.x &&& probeStrip.live ≠ 0 ∧ roomB probeStrip 254 2 = true ∧ f.staged = false ∧ f.undone = 0 ∧
      acquireOf f.instr = none := by decide
theorem witness_ResultsArrive_uniform : let f := flight 0 (.s 508 4) [[1, 2, 3, 4]] [0, 0, 0, 0]
    tableGet (with1 f).strips 0 = some { probeStrip with flights := [f] } ∧ f.left = 0 ∧ f.got = [[1, 2, 3, 4]] ∧
      f.undone = 0 ∧ acquireOf f.instr = none := by decide
/-- v1 is spilled; the next word reads it. -/
def spilled (p : Strip) : Strip := { p with v := [(1, ⟨true, 0xFFFF, 0, List.replicate 16 0⟩)] }
def refillS : State := let s := ws (.iadd (fr 0 3 (v 1) (v 1) no false 0)) spilled
  { s with launches := tableMod s.launches 0 fun l => { l with lrec := { l.lrec with spill := 0x100000 } } }
theorem witness_ResultsArrive_refill : tableGet refillS.strips 0 = some (spilled probeStrip) ∧
    savingStrip refillS (spilled probeStrip) = false ∧
    (nextInstr refillS (spilled probeStrip)).isSome = true ∧ rowFree refillS (spilled probeStrip) = true ∧
    ((nextInstr refillS (spilled probeStrip)).bind fun i =>
      (stepsOf 4 (readsV (shape i))).find? fun l => l.contains 1) = some [1] ∧
    spillSlot refillS (spilled probeStrip) 1 % 128 + 64 ≤ 128 ∧
    Held refillS (stripAgent refillS (spilled probeStrip)) (spillSlot refillS (spilled probeStrip) 1) .read
      ⟨spillSlot refillS (spilled probeStrip) 1, false, 0⟩ 0x1D (2 ^ 30) ∧
    Leaf.plain ⟨spillSlot refillS (spilled probeStrip) 1, false, 0⟩ 64 ∧
    (∀ k < 64, refillS.poison.contains ((spillSlot refillS (spilled probeStrip) 1 + k) / 8) = false) ∧
    scbFind (coreOf refillS 0) (lineOf (spillSlot refillS (spilled probeStrip) 1)) = none ∧ refillS.hbm = [] ∧
    (spilled probeStrip).waits = [] :=
  ⟨by decide, by decide, by decide, by decide, by decide, by decide, held_of (by decide), plain_of (by decide), by decide, by decide, rfl, rfl⟩

/-! ### Engine commands -/

def cpyinT : Instr := .cpyin ⟨0, 0, s' 4, s' 8, s' 9, 0, true, 7, 0⟩
/-- s4:s5 = 0x100000; s8 = `off`, s9 = 32. -/
def copying (off : Nat) (p : Strip) : Strip := regs [] [(4, 0x100000), (8, off), (9, 32)] p
/-- 4,064 + 32 is the end of the window of 4,096 bytes; 4,065 + 32 lies beyond. -/
theorem witness_CommandsEnterTheScoreboard_enter : (enginePlan cpyinT).isSome = true ∧
    Clean cpyinT (ws cpyinT (copying 4064)) (copying 4064 probeStrip) 0x10000 0xFFFF ∧
    CoreQuiet (ws cpyinT (copying 4064)) 0 core0 ∧ rsbRoom (ws cpyinT (copying 4064)) 0 = true ∧
    (planCpyin (ws cpyinT (copying 4064)) (copying 4064 probeStrip)
      (ctxOf cpyinT (ws cpyinT (copying 4064)) (copying 4064 probeStrip) 0x10000 0xFFFF)).others = [] ∧
    engineRange cpyinT (operandsOf (ws cpyinT (copying 4064)) (copying 4064 probeStrip) 0xFFFF (shape cpyinT)) = (4064, 32) ∧
    scratchSize (ws cpyinT (copying 4064)) (copying 4064 probeStrip) = 4096 :=
  ⟨by decide, clean_of (by decide), quiet0 _ _, by decide, by decide, by decide, by decide⟩
theorem witness_CommandsEnterTheScoreboard_trap : (encode cpyinT).isSome = true ∧
    Ready cpyinT (ws cpyinT (copying 4065)) (copying 4065 probeStrip) 0x10000 0xFFFF ∧ (copying 4065 probeStrip).inTrap = false ∧
    handlerOf (ws cpyinT (copying 4065)) (copying 4065 probeStrip) ≠ 0 ∧
    engineRange cpyinT (operandsOf (ws cpyinT (copying 4065)) (copying 4065 probeStrip) 0xFFFF (shape cpyinT)) = (4065, 32) :=
  ⟨by decide, ready_of (by decide), by decide, by decide, by decide⟩
def routeT : Instr := .route ⟨0, 0, s' 32, s' 37, s' 36, 0, true, 1, 0⟩
def recvT : Instr := .recv ⟨0, 28, s' 20, s' 21, no, 4, false, 0, 0⟩
def escqT : Instr := .escq ⟨0, 44, k' 1, no, no, 1, false, 0, 0⟩
def mleaseT : Instr := .mlease z
theorem witness_RouteLeaseAndPhaseInstructions_route : Clean routeT (ws routeT id) probeStrip 0x10000 0xFFFF ∧
    CoreQuiet (ws routeT id) 0 core0 ∧ rsbRoom (ws routeT id) 0 = true ∧ freeEscrow (ws routeT id) 0 = some 0 :=
  ⟨clean_of (by decide), quiet0 _ _, by decide, by decide⟩
/-- Inbox 5 of the workgroup: 4 positions, two arrived, one claimed. -/
def inbox0 : Inbox := ⟨5, 0, 0, 0, 0, 4, 16, 2, 2, 1, 0⟩
def boxed (s : State) : State := modCore s 0 fun c => { c with inboxes := [(3, inbox0)] }
def ident5 (p : Strip) : Strip := regs [] [(20, 5), (21, 0x0001FFFF)] p
theorem witness_RouteLeaseAndPhaseInstructions_recv : Clean recvT (boxed (ws recvT ident5)) (ident5 probeStrip) 0x10000 0xFFFF ∧
    inboxFind (boxed (ws recvT ident5)) 0 0
      (word0 (operandsOf (boxed (ws recvT ident5)) (ident5 probeStrip) 0xFFFF (shape recvT)).ua).toNat = some (3, inbox0) ∧
    Clean recvT (ws recvT ident5) (ident5 probeStrip) 0x10000 0xFFFF ∧
    inboxFind (ws recvT ident5) 0 0 (word0 (operandsOf (ws recvT ident5) (ident5 probeStrip) 0xFFFF (shape recvT)).ua).toNat = none :=
  ⟨clean_of (by decide), by decide, clean_of (by decide), by decide⟩
theorem witness_RouteLeaseAndPhaseInstructions_escq : Clean escqT (ws escqT id) probeStrip 0x10000 0xFFFF ∧
    ∀ e ∈ (coreOf (ws escqT id) probeStrip.coreId).escrow, ∀ t, e.2.deadline = some t → (ws escqT id).clk ≤ t :=
  ⟨clean_of (by decide), by decide⟩
/-- A matrix command of strip 0. -/
def mzeroC : Cmd := ⟨40, 0, 0, .mzero ⟨0, 0, k' 2, no, no, 0, false, 0, 0⟩, 0x10000, 0xFFFF, ⟨[], [], []⟩, none, [], [⟨true, 1, 2⟩],
  false, false, none, 0, probeJob, 0, []⟩
theorem witness_RouteLeaseAndPhaseInstructions_mlease : Clean mleaseT (ws mleaseT id) probeStrip 0x10000 0xFFFF ∧
    (coreOf (ws mleaseT id) 0).holder ≠ 0 + 1 ∧
    Clean mleaseT (modCore (ws mleaseT id) 0 fun c => { c with holder := 1 }) probeStrip 0x10000 0xFFFF ∧
    Clean mleaseT (modCore (ws mleaseT id) 0 fun c => { c with rsb := [mzeroC] }) probeStrip 0x10000 0xFFFF ∧
    (((coreOf (modCore (ws mleaseT id) 0 fun c => { c with rsb := [mzeroC] }) 0).rsb.filter fun k =>
      k.strip == 0 && isMatrix k.instr && k.failed.isNone && !k.shadow).getLast?) = some mzeroC :=
  ⟨clean_of (by decide), by decide, clean_of (by decide), clean_of (by decide), by decide⟩
theorem witness_RouteLeaseAndPhaseInstructions_phwait :
    Clean phwaitT (ws phwaitT (places 8)) (places 8 probeStrip) 0x10000 0xFFFF ∧
    (dword0 (operandsOf (ws phwaitT (places 8)) (places 8 probeStrip) 0xFFFF (shape phwaitT)).ua).toNat = 0x100000 ∧
    Held (ws phwaitT (places 8)) (stripAgent (ws phwaitT (places 8)) probeStrip) 0x100000 .read (at1M 8 0) 0x1D (2 ^ 30) ∧
    (at1M 8 0).plain 64 ∧ (dieOf (ws phwaitT (places 8)) 0).tiPending = false ∧
    (encode phwaitT).isSome = true ∧ Ready phwaitT (ws phwaitT oddBase) (oddBase probeStrip) 0x10000 0xFFFF ∧
    pairEa (operandsOf (ws phwaitT oddBase) (oddBase probeStrip) 0xFFFF (shape phwaitT)).ua % 64 ≠ 0 ∧
    handlerOf (ws phwaitT oddBase) (oddBase probeStrip) ≠ 0 :=
  ⟨clean_of (by decide), by decide, held_of (by decide), plain_of (by decide), by decide, by decide, ready_of (by decide),
    by decide, by decide⟩
/-- A command of strip 0 with operands s4:s5 = 0x100000, offset 64, 32 bytes, entered as number `id`. -/
def cmd (id : Nat) (i : Instr) (reads writes : List Region) (started : Bool) (failed token : Option Nat) : Cmd :=
  ⟨id, 0, 0, i, 0x10000, 0xFFFF, ⟨[[0x100000, 0, 0, 0]], [[64]], [[32]]⟩, token, reads, writes, false, started, failed, 0, probeJob, 0, []⟩
def queued (l : List Cmd) : State := modCore (ws (.nop z) (tok7)) 0 fun c => { c with rsb := l }
def cpyoutT : Instr := .cpyout ⟨0, 0, s' 4, s' 8, s' 9, 0, false, 0, 0⟩
def cpyin0T : Instr := .cpyin ⟨0, 0, s' 4, s' 8, s' 9, 0, false, 0, 0⟩
def early : Cmd := cmd 40 cpyin0T [] [⟨false, 64, 96⟩] false none none
def late : Cmd := cmd 41 cpyoutT [⟨false, 95, 97⟩] [] false none none
theorem witness_CommandStartOrder : cmdOf (queued [early]) 0 40 = some early ∧ early.started = false ∧
    cmdClear (queued [early]) 0 40 = true ∧ cmdOf (queued [early, late]) 0 41 = some late ∧
    ((coreOf (queued [early, late]) 0).rsb.find? fun q => q.id == 41) = some late ∧
    (coreOf (queued [early, late]) 0).rsb[1]? = some late ∧ (coreOf (queued [early, late]) 0).rsb[0]? = some early ∧
    conflicts early late = true := by decide
/-- A copy that may start, either way. -/
def out1 : Cmd := cmd 40 cpyoutT [⟨false, 64, 96⟩] [] false none none
theorem witness_CommandStartOrder_copies : (let s := queued [early];
      cmdOf s 0 40 = some early ∧ early.started = false ∧ early.failed = none ∧ early.stage = 0 ∧ cmdClear s 0 40 = true ∧
        cmdBase s 0 0 = some 0 ∧ early.ops.addrA = 0x100000 ∧ early.ops.nb = 64 ∧ early.ops.nc = 32 ∧ s.hbm = [] ∧ s.poison = [] ∧
        cellsWf (0 : Byte) (coreOf s 0).scratch = true) ∧
    Held (queued [early]) (cmdAgent 0 early) 0x100000 .read (at1M 8 0) 0x1D (2 ^ 30) ∧ (at1M 8 0).plain 32 ∧
    (let s := queued [out1];
      cmdOf s 0 40 = some out1 ∧ cmdClear s 0 40 = true ∧ (coreOf s 0).scratchPoison = [] ∧ s.mem.wf = true ∧ s.hbm = []) ∧
    Held (queued [out1]) (cmdAgent 0 out1) 0x100000 .write (at1M 8 0) 0x1D (2 ^ 30) :=
  ⟨by decide, held_of (by decide), plain_of (by decide), by decide, held_of (by decide)⟩
theorem witness_CommandStartOrder_others : (let s := queued [{ early with failed := some 3 }];
      cmdOf s 0 40 = some { early with failed := some 3 } ∧ cmdClear s 0 40 = true) ∧
    cmdOf (queued [{ early with started := true }]) 0 40 = some { early with started := true } := by decide
def failedC : Cmd := cmd 40 cpyin0T [] [] false (some 3) (some 7)
theorem witness_CommandCompletions_failed : cmdOf (queued [failedC]) 0 40 = some failedC ∧ failedC.failed = some 3 ∧
    failedC.token = some 7 ∧ tableGet (queued [failedC]).strips failedC.strip = some (tok7 probeStrip) ∧
    (∀ t ∈ (tok7 probeStrip).strands, t.st = .runnable) ∧
    cmdOf (queued [{ failedC with token := none }]) 0 40 = some { failedC with token := none } := by decide
/-- A multicast to cores 0 and 1 that has completed where only core 0 has a part; a matrix command that has been performed. -/
def legC : Cmd := { cmd 40 (.cpymc ⟨0, 0, s' 4, s' 8, no, 0, true, 7, 0⟩) [] [] true (some 0) (some 7) with
  ops := ⟨[[0x100000, 0]], [[64, 32]], [[3]]⟩ }
def doneC : Cmd := { mzeroC with started := true, failed := some 0, token := some 7 }
theorem witness_CommandCompletions_lost : cmdOf (queued [legC]) 0 40 = some legC ∧ lostLegs (queued [legC]) 0 legC = 1 ∧
    tableGet (queued [legC]).strips legC.strip = some (tok7 probeStrip) ∧ legC.token = some 7 := by decide
theorem witness_CommandCompletions_matrix : cmdOf (queued [doneC]) 0 40 = some doneC ∧ isMatrix doneC.instr = true ∧
    doneC.data = [] ∧ tableGet (queued [doneC]).strips doneC.strip = some (tok7 probeStrip) := by decide
def inC : Cmd := cmd 40 cpyin0T [] [⟨false, 64, 96⟩] true none none
def outC : Cmd := cmd 40 cpyoutT [⟨false, 64, 96⟩] [] true none none
theorem witness_CommandCompletions_copies : (cmdOf (queued [inC]) 0 40 = some inC ∧ inC.failed = none ∧ inC.started = true ∧
      inC.stage = 0 ∧ inC.token = none ∧ (queued [inC]).hbm = [] ∧ cmdBase (queued [inC]) 0 0 = some 0 ∧
      inC.ops.addrA = 0x100000 ∧ inC.ops.nb = 64 ∧ inC.ops.nc = 32 ∧
      (∀ w ∈ (queued [inC]).poison, w / 16 ≠ lineOf 0x100000) ∧
      cellsWf (0 : Byte) (coreOf (queued [inC]) 0).scratch = true) ∧
    Held (queued [inC]) (cmdAgent 0 inC) 0x100000 .read (at1M 8 0) 0x1D (2 ^ 30) ∧ (at1M 8 0).plain 32 ∧
    (cmdOf (queued [outC]) 0 40 = some outC ∧ outC.failed = none ∧ outC.started = true ∧ outC.stage = 0 ∧ (queued [outC]).hbm = [] ∧
      (coreOf (queued [outC]) 0).scratchPoison = [] ∧ (queued [outC]).mem.wf = true) ∧
    Held (queued [outC]) (cmdAgent 0 outC) 0x100000 .write (at1M 8 0) 0x1D (2 ^ 30) :=
  ⟨by decide, held_of (by decide), plain_of (by decide), by decide, held_of (by decide)⟩
/-- RXREG of identifier 7: ring at 1,024, 4 rows of 128 bytes. -/
def regC : Cmd := { cmd 40 (.rxreg ⟨0, 0, s' 24, no, no, 0, false, 0, 0⟩) [] [] true none none with ops := ⟨[[7, 1024, 4, 128]], [], []⟩ }
theorem witness_CommandCompletions_rxreg : cmdOf (queued [regC]) 0 40 = some regC ∧ rxregOk regC.ops (cmdScratch (queued [regC]) regC) = true ∧
    dirFind (queued [regC]) (regC.ops.aAt 0) = none ∧ regC.failed = none ∧ regC.started = true ∧
    (List.range 8).find? (fun n => (tableGet (coreOf (queued [regC]) 0).inboxes n).isNone) = some 0 ∧
    (queued [regC]).dies.length = 4 := by decide

/-! ### Faults, grants and errors -/

/-- A strip on die 0 with nothing cached; die 0 has a fault ring of 4 at 0x500000 and an error ring of 4 at 0x600000. -/
def rings (d : Die) : Die :=
  let d := { d with fqbase := 0x500000, fqcap := 4, fqprod := 3, fqcons := 0, fseq := 3 }
  { d with elbase := 0x600000, elcap := 4, elprod := 3 }
def ringed : State := modDie (start (.nop z) id) 0 rings
theorem witness_FaultsAreReportedAndAnswered_report : tableGet ringed.strips 0 = some probeStrip ∧ probeStrip.die < ringed.dies.length ∧
    (dieOf ringed 0).faults = [] ∧ (dieOf ringed 0).fqprod.toNat - (dieOf ringed 0).fqcons.toNat < (dieOf ringed 0).fqcap.toNat ∧
    probeStrip.waits.contains (dieOf ringed 0).fseq = false ∧ populated (0x500000 + 32 * 3) = true ∧ ringed.mem.wf = true ∧ ringed.hbm = [] := by decide
def fault0 (kind : Nat) (written : Bool) : FaultEntry := ⟨2, 0, 0x40000, kind, 0x40000123, 1, 0, 1, [0], written⟩
/-- Strip 0 waits on entry 2, of the given kind. -/
def waiting (kind : Nat) (written : Bool) : State :=
  let s := modDie ringed 0 fun d => { d with faults := [fault0 kind written] }
  { s with strips := [(0, { probeStrip with waits := [2] })] }
theorem witness_FaultsAreReportedAndAnswered_again :
    (dieOf (waiting 1 true) 0).faults.find? (fun g => g.asid == (stripAgent (waiting 1 true) probeStrip).asid &&
      g.page == (0x40000FFF : BitVec 48).toNat / 4096 && g.kind == (1 : BitVec 8).toNat) = some (fault0 1 true) ∧
    (fault0 1 true).who.contains (2 * 0) = true ∧ (fault0 1 true).who.contains (2 * 1) = false ∧
    probeStrip.die < (waiting 1 true).dies.length := by decide
/-- The fault ring is full: a new entry waits for room. -/
def noRoom : State := modDie (start (.nop z) id) 0 fun d => { d with fqbase := 0x500000, fqcap := 4, fqprod := 4, fqcons := 0, fseq := 4 }
theorem witness_FaultsAreReportedAndAnswered_noRoom : tableGet noRoom.strips 0 = some probeStrip ∧ probeStrip.die < noRoom.dies.length ∧
    (dieOf noRoom 0).faults = [] ∧ (dieOf noRoom 0).fqcap.toNat ≤ (dieOf noRoom 0).fqprod.toNat - (dieOf noRoom 0).fqcons.toNat := by
  decide
theorem settled_of {s : State} (h : (s.owed.isEmpty && s.graphs.isEmpty && s.nodeQueues.isEmpty) = true) : Settled s := by
  simp only [Bool.and_eq_true, List.isEmpty_iff] at h
  exact ⟨h.1.1, h.1.2, h.2⟩
theorem witness_FaultsAreReportedAndAnswered_answers : outstanding (waiting 4 true) 0 2 = some (fault0 4 true) ∧
    (fault0 4 true).kind = kindPoison ∧ Settled (waiting 4 true) ∧ outstanding (waiting 1 true) 0 2 = some (fault0 1 true) ∧
    (fault0 1 true).kind ≠ kindPoison ∧ outstanding (waiting 1 true) 0 3 = none :=
  ⟨by decide, by decide, settled_of (by decide), by decide, by decide, by decide⟩
def copy0 : Copy := ⟨.node 0 0, probeJob, 0x100000, 0x100100, 32, 0⟩
def copyWaits : State := { waiting 1 true with
  strips := [(0, probeStrip)], copies := [(6, copy0)], dieWaits := [⟨0, 2, .copy 6⟩] }
theorem witness_FaultsAreReportedAndAnswered_abort :
    (outstanding copyWaits 0 2 = some (fault0 1 true) ∧ waitingLaunches copyWaits 0 2 = [] ∧
      copyWaits.dieWaits.filter (fun w => w.die == 0 && w.seq == 2) = [⟨0, 2, .copy 6⟩] ∧
      tableGet copyWaits.copies 6 = some copy0) ∧ Settled copyWaits ∧
    waitingLaunches (waiting 1 true) 0 2 = [0] ∧
      Settled (stopLaunch (settleEntry (waiting 1 true) 0 2) 0 .aborted) :=
  ⟨by decide, settled_of (by decide), by decide, settled_of (by decide)⟩
/-- The fault ring is full and an entry waits for room. -/
def fullRing : State := modDie (waiting 1 false) 0 fun d => { d with fqprod := 4 }
theorem witness_FaultsAreReportedAndAnswered_fqcons : (∀ g ∈ (dieOf (waiting 1 true) 0).faults, g.written = true) ∧
    (dieOf fullRing 0).faults = [] ++ [fault0 1 false] ∧ (fault0 1 false).written = false ∧
    (dieOf fullRing 0).fqprod.toNat - (1 : BitVec 64).toNat < (dieOf fullRing 0).fqcap.toNat ∧
    populated (0x500000 + 32 * (4 % 4)) = true ∧ fullRing.mem.wf = true ∧ fullRing.hbm = [] := by decide
/-- A GROW claim of strip 0 to `floor` at the head of its slice's queue. -/
def claimed (floor : Nat) : State := modCore (start (.nop z) id) 0 fun c => { c with claims := [(0, [.grow 9 0 floor 0 0])] }
theorem witness_GrantsTrapsAndWatches_grow : claimsOf (claimed 384) 0 0 = .grow 9 0 384 0 0 :: [] ∧
    tableGet (claimed 384).strips 0 = some probeStrip ∧ claimedWith (claimed 384) probeStrip 384 ≤ 384 ∧
    384 < claimedWith { claimed 384 with strips := [(0, probeStrip), (1, { probeStrip with index := 1 })] } probeStrip 384 := by decide
/-- An admission claim at the head of a slice's queue, of a launch that is running or of one that has ended. -/
def admitting (launch : Nat) : State := modCore (start (.nop z) id) 0 fun c => { c with claims := [(0, [.admission 9 (.launch 0 launch 0) 8 0])] }
theorem witness_GrantsTrapsAndWatches_admission : claimsOf (admitting 0) 0 0 = .admission 9 (.launch 0 0 0) 8 0 :: [] ∧
    claimsOf (admitting 5) 0 0 = .admission 9 (.launch 0 5 0) 8 0 :: [] ∧ tableGet (admitting 5).launches 5 = none ∧
    claimsOf (admitting 5) 0 1 = [] := by decide
def async0 : AsyncTrap := ⟨causeTIMEOUT, 0x10020, 3, 7⟩
def pending0 (p : Strip) : Strip := { p with asyncs := [async0] }
theorem witness_GrantsTrapsAndWatches_async : let s := withHandler (start (.nop z) pending0)
    tableGet s.strips 0 = some (pending0 probeStrip) ∧ savingStrip s (pending0 probeStrip) = false ∧
      (pending0 probeStrip).chooseX = some (0x10000, 0xFFFF) ∧ handlerOf s (pending0 probeStrip) ≠ 0 ∧
      (pending0 (inHandler probeStrip)).inTrap = true ∧ probeStrip.asyncs = [] := by decide
/-- The launch is watched: persistent with a heartbeat of 1,000, or with a wall clock limit of 1,000; cycle 1,400,001. -/
def watched (persistent : Bool) (clk : Nat) : State := let s := start (.nop z) id
  { s with
    clk := clk
    launches := tableMod s.launches 0 fun l => { l with
      job := { l.job with watchdog := true }
      lrec := { l.lrec with flags := if persistent then 8 else 0, hbperiod := 1000, walllim := if persistent then 0 else 1000 }
      work := [⟨[], [], true, 0, none⟩] } }
theorem witness_GrantsTrapsAndWatches_heartbeat : ((tableGet (watched true 2800000).launches 0).map fun l =>
      (l.lrec.persistent, l.job.watchdog, l.work.map (·.beat))) = some (true, true, [0]) ∧
    0 + 2 * 1000 * 1400 ≤ (watched true 2800000).clk ∧ (watched true 2799999).clk < 0 + 2 * 1000 * 1400 ∧
    Settled (stopLaunch { watched true 2800000 with notices := (watched true 2800000).notices ++ [(0, .watchdog, [])] } 0 .watchdog) :=
  ⟨by decide, by decide, by decide, settled_of (by decide)⟩
theorem witness_GrantsTrapsAndWatches_wall : ((tableGet (watched false 1400000).launches 0).map fun l =>
      (l.lrec.persistent, l.job.watchdog, l.lrec.walllim, l.started, l.start)) = some (false, true, 1000, true, 0) ∧
    0 + 1000 * 1400 ≤ (watched false 1400000).clk ∧ (watched false 1399999).clk < 0 + 1000 * 1400 ∧
    Settled (stopLaunch { watched false 1400000 with notices := (watched false 1400000).notices ++ [(0, .watchdog, [])] } 0 .watchdog) ∧
    tableWf (watched false 1400000).wgs = true :=
  ⟨by decide, by decide, by decide, settled_of (by decide), by decide⟩
/-- Job 0's slice of 10 cycles is over at cycle 10; a launch of job 1 waits, or nothing. -/
def sliced (other : Bool) : State := let s := modDie (start (.nop z) id) 0 fun d => { d with slices := [⟨0, 0⟩] }
  { s with
    clk := 10 * 1400
    launches := (tableMod s.launches 0 fun l => { l with job := { l.job with slice := 10 } }) ++
      (if other then [(1, { probeLaunch with job := { probeJob with index := 1 }, open_ := true, work := [⟨[(0, 4)], [], true, 0, none⟩] })] else []) }
theorem witness_GrantsTrapsAndWatches_slice : sliceOver (sliced true) 0 0 = true ∧ (∀ q ∈ (sliced true).strips, stripDone (sliced true) q.1 q.2 = false) ∧
    sliceOver (sliced false) 0 0 = true ∧ (∀ q ∈ (sliced false).strips, stripDone (sliced false) q.1 q.2 = false) ∧ othersWait (sliced true) 0 0 (residentPrio (sliced true) 0 0) = true ∧
    othersWait (sliced false) 0 0 (residentPrio (sliced false) 0 0) = false ∧ sliceOver (start (.nop z) id) 0 0 = false ∧
    ((tableGet (sliced true).wgs 0).map fun w => (w.die, (launchJob (sliced true) w.launch).index, (launchJob (sliced true) w.launch).part))
      = some (0, 0, 0) := by decide
theorem logOpen_ringed : LogOpen ringed 0 0x600060 := by
  exact ⟨by decide, by decide, by decide, by decide, by decide, by decide, unhidden_nil rfl⟩
theorem witness_ErrorsAreMaskedOrRecorded : LogOpen ringed 0 0x600060 ∧ siteCorrects (.hbm 0x100000) = true ∧
    (let s := modDie ringed 0 fun d => { d with elprod := 4 };
      (dieOf s 0).lastErr = none ∧ (dieOf s 0).elcap.toNat ≤ (dieOf s 0).elprod.toNat - (dieOf s 0).elcons.toNat) ∧
    populated (0x100000 : BitVec 44).toNat = true ∧ ((0x100000 : BitVec 44).toNat / 8 * 8 + 8 ≤ 0x600060) ∧
    State.reset.scrubOn = true ∧ { State.reset with scrubOn := false }.scrubOn = false :=
  ⟨logOpen_ringed, by decide, by decide, by decide, by decide, by decide, by decide⟩
/-- Line 0x2000 stands in an L2, clean or modified; HBM's contents for it differ from its home's. -/
def inL2 (dirty : Bool) : State := { ringed with l2 := [(0x2000, ⟨dirty, 0, 0, 0⟩)] }
def dirtyBehind : State := { inL2 true with hbm := [(0x2000, ⟨⟨List.replicate 128 7, []⟩, none⟩)] }
theorem witness_ErrorsAreMaskedOrRecorded_l2 : tableGet ringed.hbm 0x2000 = none ∧ tableGet ringed.l2 0x2000 = none ∧
    LogOpen (inL2 true) 0 0x600060 ∧ LogOpen (inL2 false) 0 0x600060 ∧
    tableGet (inL2 true).l2 0x2000 = some ⟨true, 0, 0, 0⟩ ∧ tableGet (inL2 false).l2 0x2000 = some ⟨false, 0, 0, 0⟩ ∧
    tableGet (inL2 false).hbm 0x2000 = none ∧ (0x100000 : BitVec 44).toNat / 128 = 0x2000 :=
  ⟨by decide, by decide, ⟨by decide, by decide, by decide, by decide, by decide, by decide, unhidden_nil rfl⟩,
    ⟨by decide, by decide, by decide, by decide, by decide, by decide, unhidden_nil rfl⟩, by decide, by decide, by decide, by decide⟩
theorem witness_ErrorsAreMaskedOrRecorded_hbm : LogOpen dirtyBehind 0 0x600060 ∧ (tableGet dirtyBehind.hbm 0x2000).isSome = true := by
  refine ⟨⟨by decide, by decide, by decide, by decide, by decide, by decide, fun l h hl _ => ?_⟩, by decide⟩
  have e : l = 0x2000 := by
    simp only [dirtyBehind, tableGet] at hl
    split at hl
    · cases hl
    · split at hl
      · assumption
      · cases hl
  exact ⟨⟨true, 0, 0, 0⟩, by rw [e]; decide, rfl⟩
/-- 15 failures in a row on link 5 of die 1, whose ring is open; the 16th takes it down. -/
def linkS (n : Nat) (down : List Nat) : State := modDie { ringed with
  links := [(5, n)], linksDown := down } 1 rings
theorem logOpen_link : LogOpen (linkS 15 []) (linkHome 5) 0x600060 :=
  ⟨by decide, by decide, by decide, by decide, by decide, by decide, unhidden_nil rfl⟩
theorem witness_ErrorsAreMaskedOrRecorded_link : (linkS 15 [5]).linksDown.contains 5 = true ∧
    (linkS 14 []).linksDown.contains 5 = false ∧ (tableGet (linkS 14 []).links 5).getD 0 + 1 < 16 ∧
    16 ≤ (tableGet (linkS 15 []).links 5).getD 0 + 1 ∧ LogOpen (linkS 15 []) (linkHome 5) 0x600060 ∧
    (linkJobs { linkS 15 [] with strips := [], launches := [] } 5 = []) ∧ (linkS 15 []).conns = [] ∧ Settled (linkS 15 []) :=
  ⟨by decide, by decide, by decide, by decide, logOpen_link, by decide, by decide, settled_of (by decide)⟩

/-! ### Routes -/

/-- A ROUTE of one row to two slots: tile at 0 (16 bytes), table at 16, staging at 32 (32 bytes), output at 64,
status at 80; E = 4 in F32. Its escrow entry 3 is open; the inboxes are those of `boxed`. -/
def routeC : Cmd := { cmd 40 (.route ⟨0, 0, s' 32, s' 37, s' 36, 0, false, 0, 0⟩) [] [] true none none with
  ops := ⟨[[0, 16, 32, 64]], [[1 + 0x100 + 8 * 0x200000]], [[80]]⟩ }
def routeArgs0 : RouteArgs := routeArgs ⟨0, 0, s' 32, s' 37, s' 36, 0, false, 0, 0⟩ routeC.ops
def escrow0 (slots : List SlotState) (time : Option Nat) : Escrow := ⟨.open, 9, 0, 40, slots, time, []⟩
def routing (slots : List SlotState) (net : List Message) : State :=
  let s := modCore (ws (.nop z) id) 0 fun c => { c with
    rsb := [routeC], inboxes := [(3, inbox0)], escrow := [(3, escrow0 slots none)]
    scratch := [(16, 5), (24, 5)] }
  { modDie s 1 fun d => { d with directory := [⟨5, 0, 0, 0, 3, 0, true⟩] } with net := net }
def handle0 : DWord := makeHandle 9 0 3 1 0
def toFive : Message := .delivery handle0 5 (List.replicate 16 1) 0 true
/-- The state in which a message to a handle is judged. -/
def judged (s : State) (h : DWord) : State := expireOf { s with net := s.net.eraseIdx 0 } h
theorem witness_RouteMessagesArrive_accept : let s := routing [.sent, .inFlight] [toFive]
    let v := judged s handle0
    s.net[0]? = some toFive ∧ overtakes s 0 = false ∧ dirFind v 5 = some ⟨5, 0, 0, 0, 3, 0, true⟩ ∧
      tableGet (coreOf v 0).inboxes 3 = some inbox0 ∧ (List.replicate 16 (1 : Byte)).length ≤ inbox0.rb ∧
      inbox0.rsv ≠ inbox0.fre + inbox0.cap ∧ 0 < inbox0.cap ∧ handleSlotOf v handle0 = some (0, 3, 1, .inFlight) ∧
      cellsWf (0 : Byte) (coreOf v 0).scratch = true := by decide
def fullBox : Inbox := { inbox0 with rsv := 4, arr := 4 }
theorem witness_RouteMessagesArrive_refuse : let s := routing [.sent, .inFlight] [toFive]
    let r := modCore s 0 fun c => { c with inboxes := [(3, fullBox)] }
    let g := modDie s 1 fun d => { d with directory := [] }
    dirFind (judged g handle0) 5 = none ∧ handleSlotOf (judged g handle0) handle0 = some (0, 3, 1, .inFlight) ∧ overtakes g 0 = false ∧
      g.net[0]? = some toFive ∧ r.net[0]? = some toFive ∧ overtakes r 0 = false ∧
      dirFind (judged r handle0) 5 = some ⟨5, 0, 0, 0, 3, 0, true⟩ ∧ tableGet (coreOf (judged r handle0) 0).inboxes 3 = some fullBox ∧
      fullBox.rsv = fullBox.fre + fullBox.cap ∧ handleSlotOf (judged r handle0) handle0 = some (0, 3, 1, .inFlight) ∧
      routeCmd (judged r handle0) 0 40 = some (routeC, routeArgs0, 0) ∧ routeArgs0.drop = false := by decide
/-- A delivery of the same core to the same inbox came before it. -/
theorem witness_RouteMessagesArrive_overtakes :
    overtakes (routing [.inFlight, .inFlight] [.delivery (makeHandle 9 0 3 0 0) 5 (List.replicate 16 1) 0 true, toFive]) 1 = true := by decide
theorem witness_RouteMessagesArrive_expire : let s := routing [.sent, .inFlight] []
    (∀ core n e time, escrowHome s handle0 = some (core, n, e) → (escrowOf s core n).deadline = some time → s.clk ≤ time) := by
  intro s core n e time h ht
  have h0 : escrowHome s handle0 = some (0, 3, escrow0 [.sent, .inFlight] none) := by decide
  rw [h0] at h
  cases h
  cases (show (escrowOf (routing [.sent, .inFlight] []) 0 3).deadline = none by decide).symm.trans ht
theorem witness_RouteMessagesArrive_drop : let s := routing [.sent, .sent] [.drop handle0]
    let g := routing [.sent, .sent] [.drop (makeHandle 8 0 3 1 0)]
    s.net[0]? = some (.drop handle0) ∧ escrowSaved s handle0 = false ∧ handleSlotOf (judged s handle0) handle0 = some (0, 3, 1, .sent) ∧
      g.net[0]? = some (.drop (makeHandle 8 0 3 1 0)) ∧ escrowSaved g (makeHandle 8 0 3 1 0) = false ∧
      handleSlotOf (judged g (makeHandle 8 0 3 1 0)) (makeHandle 8 0 3 1 0) = none := by decide
theorem witness_RouteMessagesArrive_retry : let s := routing [.sent, .waiting 0] []
    (escrowOf s 0 3).slots[1]? = some (.waiting 0) ∧ (escrowOf s 0 3).cmd = 40 ∧ routeCmd s 0 40 = some (routeC, routeArgs0, 0) ∧
      (escrowOf s 0 3).deadline = none ∧ wgSaving s routeC.wg = false ∧
      0 ≤ s.clk ∧ (escrowOf s 0 3).st = .open ∧ routeEntry s 0 0 routeArgs0 1 = some (5, 0, 0) ∧ s.clk < 7 := by decide
theorem witness_RouteMessagesArrive_answer : let s := routing [.sent, .sent] [.answer handle0 (List.replicate 16 1) 50 0]
    s.net[0]? = some (.answer handle0 (List.replicate 16 1) 50 0) ∧ escrowSaved (judged s handle0) handle0 = false ∧
      handleSlotOf (judged s handle0) handle0 = some (0, 3, 1, .sent) ∧ routeCmd (judged s handle0) 0 40 = some (routeC, routeArgs0, 0) ∧
      (List.replicate 16 (1 : Byte)).length = 4 * routeArgs0.e ∧ (List.replicate 12 (1 : Byte)).length ≠ 4 * routeArgs0.e ∧
      handleSlotOf s (makeHandle 8 0 3 1 0) = none ∧ handleOk (makeHandle 8 0 3 1 0) = true := by decide
def image0 : Image := ⟨0x900000, 4096, 0, 7, probeWg, [], [], [[]], [[]], [[]], [[]], [], [(0, 3, escrow0 [.sent, .sent] none)], [], 0⟩
theorem witness_RouteMessagesArrive_saved : let s := modDie (routing [.sent, .sent] [.answer handle0 [] 50 0]) 0 fun d => { d with images := [image0] }
    s.net[0]? = some (.answer handle0 [] 50 0) ∧ escrowSaved (judged s handle0) handle0 = true ∧ escrowSaved s handle0 = true := by decide
theorem witness_RouteMessagesArrive_deadline : let s := { routing [.sent, .sent] [] with clk := 101 }
    let d := modCore s 0 fun c => { c with escrow := [(3, escrow0 [.sent, .returned] (some 100))] }
    (escrowOf d 0 3).deadline = some 100 ∧ (escrowOf d 0 3).st = .open ∧ routeCmd d 0 (escrowOf d 0 3).cmd = some (routeC, routeArgs0, 0) ∧
      (tableGet d.wgs routeC.wg).isSome = true ∧ 100 < d.clk ∧ ((tableGet d.wgs routeC.wg).bind fun w => w.saving) = none := by decide
/-- A RETN of two answers, the first of them refused at its target. -/
def retnC : Cmd := { cmd 41 (.retn ⟨0, 0, s' 4, s' 8, no, 0, false, 0, 0⟩) [] [] true none none with
  ops := ⟨[[0, 128, 0, 0]], [[16]], []⟩, data := [ansRefused, ansTaken] }
theorem witness_RouteMessagesArrive_retn :
    let s := modCore (routing [.sent, .sent] []) 0 fun c => { c with rsb := [retnC] }
    cmdOf s 0 41 = some retnC ∧ wgSaving s retnC.wg = false ∧ (∀ j < 2, retnC.data.getD j 0 = ansRefused ↔ j = 0) ∧
      handleOk (BitVec.ofNat 64 (leNat (windowBytes s 0 0 (retnC.ops.aAt 1) 8).1)) = true ∧
      ({ retnC with data := [ansTaken] }).data.contains ansRefused = false := by decide

/-! ### Queues -/


/-- An entry of queue 0: a ring of 4 at 0x220000, priority 1, its flags, job 0, first sequence number 100, PROD and ACC, and
a completion ring at 0x230000. -/
def queueBytes (flags prod acc : Nat) : List Byte := leBytes 8 0x220000 ++ leBytes 4 4 ++ leBytes 1 1 ++ leBytes 1 1 ++
  leBytes 1 flags ++ leBytes 1 0 ++ leBytes 8 0 ++ leBytes 8 100 ++ leBytes 8 prod ++ leBytes 8 acc ++ leBytes 8 0x230000 ++ leBytes 8 0
/-- Job 0 in the job table at 0x210000: valid, ceiling 0, its page tables. -/
def jobBytes (ceil : Nat) : List Byte := leBytes 2 0 ++ leBytes 1 0 ++ leBytes 1 ceil ++ leBytes 1 1 ++ List.replicate 11 0 ++
  leBytes 8 probeJob.root
/-- A command with sequence number 101, of a kind, with ARG 0x240000. -/
def entryBytes (kind : Nat) : List Byte := leBytes 8 101 ++ leBytes 1 kind ++ List.replicate 7 0 ++ leBytes 8 0x240000
def queue0 (flags prod acc ceil kind : Nat) : State :=
  put [(0x200000, queueBytes flags prod acc), (0x210000, jobBytes ceil), (0x220040, entryBytes kind)]
    (modDie (ws (.nop z) id) 0 fun d => { d with qtab := 0x200000, jobtab := 0x210000 })
def accepts (s : State) : Bool := (queueOf s 0).accepted.isEmpty && s.phaseEvents.isEmpty && queueOpen s 0 && !queueHaltBit s 0 &&
  decide (queueField s 0 0x20 8 = queueField s 0 0x28 8 + 1) && decide (1 ≤ queueField s 0 0x08 4) &&
  populated (queueAt s 0 + 0x28) && s.mem.wf
/-- How the next entry would end. -/
def nextEnds (s : State) : Option (Option Status) × Bool :=
  let j := jobEntry s 0 (queueField s 0 0x10 2)
  let r := readHome s (ringAt s 0 (queueField s 0 0x28 8)) 64
  let ok := !j.2 && jobOk 0 0 j.1
  let e := endsOf s 0 r.1 r.2 101 (if ok then parseJob 0 j.1 else noJob) ok
  (e.1, e.2.mem == s.mem && e.2.hbm.isEmpty)
theorem witness_QueueAcceptance_accepts : accepts (queue0 1 2 1 1 1) = true ∧ nextEnds (queue0 1 2 1 1 1) = (some none, true) ∧
    dieWaiting (queue0 1 2 1 1 1) (.queue 0) = false := by decide
theorem witness_QueueAcceptance_invalid : accepts (queue0 1 2 1 0 1) = true ∧ nextEnds (queue0 1 2 1 0 1) = (some (some .invalid), true) ∧
    nextEnds (queue0 1 2 1 1 0) = (some (some .invalid), true) ∧ nextEnds (queue0 1 2 1 1 6) = (some (some .invalid), true) := by decide
theorem witness_QueueAcceptance_waits : queueOpen (queue0 0 2 1 1 1) 0 = false ∧ queueHaltBit (queue0 5 2 1 1 1) 0 = true ∧
    queueField (queue0 1 1 1 1 1) 0 0x20 8 ≤ queueField (queue0 1 1 1 1 1) 0 0x28 8 := by decide
/-- Queue 0 has taken a halt. -/
def halted0 (flags : Nat) : State := modQueue (queue0 flags 1 1 1 1) 0 fun u => { u with halted := true }
theorem witness_QueueAcceptance_halt : populated (queueAt (queue0 5 2 1 1 1) 0 + 0x0E) = true ∧ (queue0 5 2 1 1 1).mem.wf = true ∧
    queueHaltBit (queue0 5 2 1 1 1) 0 = true ∧ (queueOf (queue0 5 2 1 1 1) 0).halted = false ∧
    queueHaltBit (halted0 9) 0 = false ∧ (queueOf (halted0 9) 0).halted = true ∧
    queueField (halted0 9) 0 0x20 8 ≤ queueField (halted0 9) 0 0x28 8 ∧ (halted0 9).mem.wf = true := by decide
/-- Job 0 as read, with a job record at 0x250000. -/
def job0 : Job := { probeJob with jrec := 0x250000, ceil := 1, slice := 2000, pool := List.replicate 4 (0, 0) }
/-- Queue 0 has accepted a command of a kind at position 1. -/
def accepted0 (kind level : Nat) (arg : DWord) (ends : Option Status) : Accepted := ⟨1, job0, 101, kind, level, arg, 0, ends, false, 0⟩
def holding (c : Accepted) (l : List (Nat × List Byte)) : State :=
  let s := modQueue (queue0 1 2 2 1 c.kind) 0 fun u => { u with accepted := [c] }
  put l { s with
    launches := [], strips := [], wgs := []
    l2 := [0x4200, 0x4400, 0x4800, 0x4801, 0x4820, 0x4840, 0x4A00, 0x4C00].map fun l => (l, ⟨false, 0, 0, 0⟩) }
def early0 (kind : Nat) : State := holding (accepted0 kind 0 0x240000 (some .invalid)) []
theorem witness_QueueAcceptance_ends : ∀ kind, kind ∈ [1, 2, 3, 4, 5] →
    nextCommand (early0 kind) 0 = some (accepted0 kind 0 0x240000 (some .invalid)) ∧ dieWaiting (early0 kind) (.queue 0) = false ∧
      Settled (completeCommand (early0 kind) 0 1 0 .invalid 0) := by
  intro kind h
  simp only [List.mem_cons, List.not_mem_nil, or_false] at h
  rcases h with rfl | rfl | rfl | rfl | rfl
  all_goals exact ⟨by decide, by decide, settled_of (by decide)⟩
theorem witness_QueueAcceptance_none : nextCommand (queue0 1 1 1 1 1) 0 = none := by decide

/-! ### Commands that run -/

/-- A dense launch record of 8 workgroups, all of them on die 0, with its counter record at 0x260000. -/
def lrecBytes : List Byte := leBytes 8 0x10000 ++ leBytes 8 0 ++ leBytes 8 0 ++ leBytes 8 0 ++ leBytes 8 0x260000 ++ leBytes 4 0 ++
  leBytes 4 16 ++ leBytes 2 64 ++ leBytes 2 8 ++ leBytes 4 0 ++ leBytes 1 0 ++ leBytes 1 1 ++ leBytes 1 1 ++ leBytes 1 1 ++
  leBytes 4 0 ++ leBytes 4 8 ++ leBytes 4 1 ++ leBytes 4 1 ++ leBytes 4 0 ++ leBytes 8 0 ++ leBytes 8 0 ++ leBytes 8 0 ++
  leBytes 4 0 ++ leBytes 4 8
def launch0 : State := holding (accepted0 1 0 0x240000 none) [(0x240000, lrecBytes)]
theorem witness_QueueCommandsRun_launch : nextCommand launch0 0 = some (accepted0 1 0 0x240000 none) ∧
    dieWaiting launch0 (.queue 0) = false ∧ Settled launch0 ∧
    ((readLrec launch0 0 job0 (.queue 0) 0x240000).1.map fun r => (r.1.range.head?, r.2)) = some (some (0, 8), false) ∧
    (readLrec launch0 0 job0 (.queue 0) 0x240000).2 = launch0 ∧
    phaseRead launch0 0 job0 (.queue 0) 0 = (some 0, launch0) := ⟨by decide, by decide, settled_of (by decide), by decide, by decide, rfl⟩
/-- A graph of two empty nodes, the second after the first; its counter record is at 0x260000. -/
def graph0 : State := holding (accepted0 2 0 0x240000 none) [(0x240000, leBytes 8 0x260000 ++ leBytes 8 2 ++ leBytes 8 0x241000 ++ leBytes 8 0x242000),
  (0x241000, leBytes 2 0 ++ leBytes 2 0 ++ leBytes 4 0 ++ leBytes 2 1), (0x241020, leBytes 2 0 ++ leBytes 2 1), (0x242000, leBytes 4 1)]
def graphHead : List Byte := ((dieRead graph0 (dieAgent 0 job0) (.queue 0) 0x240000 32).1.getD ([], true)).1
def graphNodes : List Node := [⟨0, 0, [1], [], 0, .waiting, 0, false⟩, ⟨0, 1, [], [], 0, .waiting, 0, false⟩]
theorem witness_QueueCommandsRun_graph : nextCommand graph0 0 = some (accepted0 2 0 0x240000 none) ∧
    dieWaiting graph0 (.queue 0) = false ∧ dieRead graph0 (dieAgent 0 job0) (.queue 0) 0x240000 32 = (some (graphHead, false), graph0) ∧
    recordOk (BitVec.ofNat 64 (field graphHead 0 8)) = true ∧ field graphHead 8 4 = 2 ∧ zeroBytes graphHead 0x0C 4 = true ∧
    readNodes graph0 (dieAgent 0 job0) (.queue 0) (field graphHead 0x10 8) (field graphHead 0x18 8) (List.range 2) =
      (some (graphNodes, true), graph0) ∧ edgesOk graphNodes = true := by decide
def copyQ : State := holding (accepted0 3 0 0x240000 none) [(0x240000, leBytes 8 0x100000 ++ leBytes 8 0x100100 ++ leBytes 8 32)]
theorem witness_QueueCommandsRun_copy : nextCommand copyQ 0 = some (accepted0 3 0 0x240000 none) ∧
    dieWaiting copyQ (.queue 0) = false ∧ Settled copyQ ∧
    ((dieRead copyQ (dieAgent 0 job0) (.queue 0) 0x240000 32).1.map fun r => (field r.1 8 8, r.2)) = some (0x100100, false) ∧
    (dieRead copyQ (dieAgent 0 job0) (.queue 0) 0x240000 32).2 = copyQ := ⟨by decide, by decide, settled_of (by decide), by decide, by decide⟩
/-- A launch of job 0 whose counter record is 0x260000 runs, or none does. -/
def cancelling (runs : Bool) : State := { holding (accepted0 4 0 0x260000 none) [] with
  launches := if runs then [(3, { probeLaunch with job := job0, lrec := { probeLrec with done := 0x260000 }, origin := .node 0 0 })] else [] }
/-- What a CANCEL of the launch finds, once what has run to its end is complete. -/
def cancelS (runs : Bool) : State := let s := startRecord (cancelling runs) 0 job0 job0.jrec
  completeFirst s (underLevel s job0 0 0x260000)
theorem witness_QueueCommandsRun_cancel : nextCommand (cancelling true) 0 = some (accepted0 4 0 0x260000 none) ∧
    dieWaiting (cancelling true) (.queue 0) = false ∧
    (((cancelS true).launches.find? fun l => l.2.lrec.done == 0x260000 && l.2.job.index == 0 && (0x260000 : DWord) != 0).map (·.1)) = some 3 ∧
    nextCommand (cancelling false) 0 = some (accepted0 4 0 0x260000 none) ∧ (cancelS false).launches = [] ∧
    Settled (completeCommand (cancelS false) 0 1 0 .invalid 0) :=
  ⟨by decide, by decide, by decide, by decide, by decide, settled_of (by decide)⟩
/-- The job record is RUNNING, or DONE already. -/
def closing (status : Nat) : State := holding (accepted0 5 3 0x250000 none) [(0x250008, leBytes 8 status)]
theorem witness_QueueCommandsRun_close : nextCommand (closing 1) 0 = some (accepted0 5 3 0x250000 none) ∧
    dieWaiting (closing 1) (.queue 0) = false ∧ job0.jrec = 0x250000 ∧
    (recordFinal (startRecord (closing 1) 0 job0 0x250000) 0 job0 (.queue 0) 0x250000).1 = some false ∧
    (recordFinal (startRecord (closing 2) 0 job0 0x250000) 0 job0 (.queue 0) 0x250000).1 = some true ∧
    (let t := (recordFinal (startRecord (closing 1) 0 job0 0x250000) 0 job0 (.queue 0) 0x250000).2;
      Settled (completeCommand (putStatus (putDigest t 0 job0 0x250000 0) 0 job0 0x250000 .done) 0 1 1 .done 0 0 true)) ∧
    Settled (completeCommand (recordFinal (startRecord (closing 2) 0 job0 0x250000) 0 job0 (.queue 0) 0x250000).2 0 1 0 .invalid 0) :=
  ⟨by decide, by decide, by decide, by decide, by decide, settled_of (by decide), settled_of (by decide)⟩
def copyNode : State := put [(0x100000, List.replicate 32 7)] { ws (.nop z) id with copies := [(6, copy0)] }
def copyAgent : Agent := { dieAgent 0 probeJob with poisonTrap := false }
theorem witness_QueueCommandsRun_copyNode : tableGet copyNode.copies 6 = some copy0 ∧ dieWaiting copyNode (.copy 6) = false ∧
    Settled copyNode ∧ Held copyNode copyAgent 0x100000 .read ⟨0x100000, false, 0⟩ 0x1D (2 ^ 30) ∧
    Held copyNode copyAgent 0x100100 .write ⟨0x100100, false, 0⟩ 0x1D (2 ^ 30) ∧ (⟨0x100000, false, 0⟩ : Leaf).plain 32 ∧
    (⟨0x100100, false, 0⟩ : Leaf).plain 32 ∧ (dieOf copyNode 0).tiPending = false ∧ copyNode.mem.wf = true ∧ copyNode.poison = [] ∧ copyNode.hbm = [] :=
  ⟨by decide, by decide, settled_of (by decide), held_of (by decide), held_of (by decide), plain_of (by decide), plain_of (by decide),
    by decide, by decide, rfl, rfl⟩

/-- Clauses over a queue's command that name no more of it: a launch that has started, an invalid one, a CANCEL at a level
that does not exist, a copy of nothing. -/
theorem witness_QueueCommandsRun_others :
    (let c := { accepted0 1 0 0x240000 none with started := true, runs := 4 };
      let s := { holding c [] with launches := [(3, { probeLaunch with badRecord := true, open_ := false })] };
      nextCommand s 0 = some c ∧ dieWaiting s (.queue 0) = false ∧ ((tableGet s.launches 3).map (·.badRecord)) = some true) ∧
    (let c := accepted0 4 4 0x240000 none;
      nextCommand (holding c []) 0 = some c ∧ 3 < c.level) ∧
    (let c := accepted0 5 0 0x240000 none; nextCommand (holding c []) 0 = some c) ∧
    (let s := { ws (.nop z) id with copies := [(6, { copy0 with len := 0 })] };
      tableGet s.copies 6 = some { copy0 with len := 0 } ∧ dieWaiting s (.copy 6) = false ∧ Settled s) :=
  ⟨by decide, by decide, by decide, by decide, by decide, settled_of (by decide)⟩
/-- A queue's commands wait for an answer to a fault. -/
theorem witness_QueueAcceptance_faulted : let s := { holding (accepted0 1 0 0x240000 none) [] with dieWaits := [⟨0, 2, .queue 0⟩] }
    nextCommand s 0 = some (accepted0 1 0 0x240000 none) ∧ dieWaiting s (.queue 0) = true := by decide
/-- A LAUNCH command that appends to queue 0: open to it; with the ring full; with a queue of another part. -/
def launchC (q : Nat) : Cmd := { cmd 42 (.launch ⟨0, 0, s' 20, s' 24, no, 0, false, 0, 0⟩) [] [] false none none with
  ops := ⟨[[0x240000, 0]], [[q]], []⟩ }
def appending (q prod acc : Nat) : State := modCore (queue0 3 prod acc 1 1) 0 fun c => { c with rsb := [launchC q] }
theorem witness_CommandStartOrder_launch : (∀ q ∈ [0, 64], ∀ prod ∈ [2, 5],
      cmdOf (appending q prod 1) 0 42 = some (launchC q) ∧ cmdClear (appending q prod 1) 0 42 = true) ∧
    (let s := appending 0 2 1
    queueOpen s 0 = true ∧ queueDevlaunch s 0 = true ∧ queueField s 0 0x10 2 = (launchC 0).job.index ∧
      ¬queueField s 0 0x28 8 + queueField s 0 0x08 4 ≤ queueField s 0 0x20 8 ∧ populated (queueAt s 0 + 0x20) = true ∧
      populated (queueField s 0 0x00 8 + 64 * 2) = true ∧ s.mem.wf = true ∧ s.hbm = [] ∧
      queueAt s 0 + 64 ≤ queueField s 0 0x00 8 + 64 * 2) ∧
    (let s := appending 0 5 1; queueField s 0 0x28 8 + queueField s 0 0x08 4 ≤ queueField s 0 0x20 8) ∧
    64 ≤ (launchC 64).ops.nb := by decide

/-! ### Workgroups -/

/-- A launch of 8 workgroups with nothing dispatched; `work` is what die 0 has of it. -/
def launchW (work : DieWork) (rows : Nat) : Launch := { probeLaunch with
  lrec := { probeLrec with range := [(0, 8), (0, 0), (0, 0), (0, 0)], done := 0x260000, floor := rows, g0 := 8 }, work := [work], open_ := true }
def waitingL (work : DieWork) : State := let s := ws (.nop z) id
  { s with strips := [], wgs := [], launches := [(0, launchW work 8)] }
def fresh0 : DieWork := ⟨[], [], false, 0, none⟩
theorem witness_WorkgroupsAreDispatched_forward : tableGet (waitingL fresh0).launches 0 = some (launchW fresh0 8) ∧
    mayForward (launchW fresh0 8) 0 = true ∧ (launchW fresh0 8).lrec.sparse = false ∧ dieWaiting (waitingL fresh0) (.launch 0) = false ∧
    Settled (waitingL fresh0) ∧ (launchW fresh0 8).lrec.range.getD 0 (0, 0) = (0, 8) :=
  ⟨by decide, by decide, by decide, by decide, settled_of (by decide), by decide⟩
/-- A sparse launch whose tree's descriptor is not mapped: the die's read waits for an answer. -/
def sparseL : Launch := { launchW fresh0 8 with lrec := { (launchW fresh0 8).lrec with flags := 1, vdesc := 0x40000000 } }
theorem witness_WorkgroupsAreDispatched_subGrid : (subGrid (waitingL fresh0) 0 0 (launchW fresh0 8)).1 = some [(0, 8)] ∧
    tableGet (subGrid (waitingL fresh0) 0 0 (launchW fresh0 8)).2.launches 0 = some (launchW fresh0 8) ∧
    mayForward sparseL 0 = true ∧ (subGrid { waitingL fresh0 with launches := [(0, sparseL)] } 0 0 sparseL).1 = none ∧
    mayForward (launchW ⟨[], [], true, 0, none⟩ 8) 0 = false := by decide
def given : DieWork := ⟨[(0, 8)], [], true, 0, none⟩
def batched : DieWork := ⟨[(4, 8)], [(2, [1, 2, 3])], true, 0, none⟩
theorem witness_WorkgroupsAreDispatched_first : (launchW given 8).open_ = true ∧ (launchW given 8).lrec.coop = false ∧
    (placeNext (waitingL given) 0 0 2 (launchW given 8) 0).isSome = true ∧ batchAt (launchW given 8) 0 2 = none ∧
    firstTodo (launchW given 8) 0 = some 0 ∧ mayTake (waitingL given) 0 0 (launchW given 8) = true ∧
    (∀ q ∈ (waitingL given).strips, q.2.wg ≠ (waitingL given).nextId) ∧
    ∀ c ∈ (waitingL given).cores, ∀ q ∈ c.2.posted, q.strip < (waitingL given).nextId := by decide
theorem witness_WorkgroupsAreDispatched_batch : (placeNext (waitingL batched) 0 0 2 (launchW batched 8) 1).isSome = true ∧
    batchAt (launchW batched 8) 0 2 = some 1 ∧ dieDispatches (waitingL batched) 0 = true ∧ hasImages (waitingL batched) 0 0 = false := by decide
/-- A COOP launch; one whose record is not open yet; a workgroup of more parts than the cores of a cluster; one for which there
is no place, since all rows are claimed. -/
theorem witness_WorkgroupsAreDispatched_others :
    (let l := { launchW given 8 with lrec := { (launchW given 8).lrec with flags := 4 } };
      l.open_ = true ∧ l.badRecord = false ∧ l.consumerOf = 0 ∧ l.lrec.coop = true) ∧
    { launchW given 8 with open_ := false }.open_ = false ∧
    (let l := { launchW given 8 with lrec := { (launchW given 8).lrec with span := 5, strands := 80 } };
      4 < l.lrec.span ∧ firstTodo l 0 = some 0 ∧ mayTake { waitingL given with launches := [(0, l)] } 0 0 l = true ∧
        (placeNext { waitingL given with launches := [(0, l)] } 0 0 0 l 0).isSome = true) ∧
    (let l := launchW given 385;
      firstTodo l 0 = some 0 ∧ batchAt l 0 2 = none ∧
        placeNext { waitingL given with launches := [(0, l)] } 0 0 2 l 0 = none) := by decide
/-- A batch is at most eight; the last of a range may be one workgroup. -/
theorem test_handBatch : handBatch 2 ⟨[(0, 20)], [], true, 0, none⟩ = ⟨[(8, 20)], [(2, [1, 2, 3, 4, 5, 6, 7])], true, 0, none⟩ ∧
    handBatch 2 ⟨[(7, 8)], [], true, 0, none⟩ = ⟨[], [], true, 0, none⟩ := by decide
theorem witness_WorkgroupsAreDispatched_steal : tableWf (waitingL batched).launches = true ∧
    heldBy (waitingL batched) 0 3 = 0 ∧ heldBy (waitingL batched) 0 2 = 3 ∧
    heldBy (waitingL given) 0 2 < 2 ∧ (3 : Nat) / 6 = 2 / 6 := by decide
/-- All strands have exited. -/
def exited (p : Strip) : Strip := { p with strands := p.strands.map fun t => { t with st := .exited } }
theorem witness_WorkgroupsAreDispatched_retire : tableGet (ws (.nop z) exited).strips 0 = some (exited probeStrip) ∧
    tableGet (ws (.nop z) exited).wgs 0 = some probeWg ∧ stripDone (ws (.nop z) exited) 0 (exited probeStrip) = true ∧
    stripsOf (detachStrip (ws (.nop z) exited) 0 (exited probeStrip)) 0 = [] ∧
    (let s := twoStrips (ws (.nop z) exited); stripsOf (detachStrip s 0 (exited probeStrip)) 0 ≠ []) ∧
    stripDone (ws (.nop z) id) 0 probeStrip = false := by decide
/-- The workgroup is being saved, and die 0 has a pool for its image at 0x900000. -/
def saving0 : Wg := { probeWg with saving := some 0 }
def savingL : Launch := { probeLaunch with job := { probeJob with pool := [(0x900000, 0x100000)] } }
def savingS : State := let s := ws (.nop z) (regs [(1, [5])] [])
  { s with wgs := [(0, saving0)], launches := [(0, savingL)] }
/-- The state after a save. -/
def savedOf : SaveEnd → Option State
  | .saved s => some s
  | _ => none
theorem witness_WorkgroupsAreSaved : tableGet savingS.wgs 0 = some saving0 ∧ tableWf savingS.wgs = true ∧
    tableGet savingS.launches 0 = some savingL ∧ stopWg savingS 0 saving0 = savingS ∧ wgStopped savingS 0 = true ∧
    dieWaiting savingS (.launch 0) = false ∧ (savedOf (saveWg savingS 0 0 saving0 savingL)).isSome = true ∧ probeWg.saving = none := by decide
/-- A save with no place in the pool, and one that meets an unmapped spill area of a register. -/
def noRoomS : State := { savingS with launches := [(0, { savingL with job := { probeJob with pool := [(0x900000, 0)] } })] }
def saveNoRoomB : SaveEnd → Bool
  | .noRoom => true
  | _ => false
theorem witness_WorkgroupsAreSaved_noRoom : saveNoRoomB (saveWg noRoomS 0 0 saving0 { savingL with
    job := { probeJob with pool := [(0x900000, 0)] } }) = true ∧ stopWg noRoomS 0 saving0 = noRoomS ∧ wgStopped noRoomS 0 = true := by
  decide
/-- The workgroup's spill area is not mapped, and one of its registers stands there. -/
def spilledS : State := { savingS with
  strips := [(0, spilled probeStrip)], launches := [(0, { savingL with lrec := { probeLrec with spill := 0x40000000 } })] }
def saveWaitsB : SaveEnd → Bool
  | .waits _ _ _ => true
  | _ => false
theorem witness_WorkgroupsAreSaved_waits : stopWg spilledS 0 saving0 = spilledS ∧ wgStopped spilledS 0 = true ∧
    saveWaitsB (saveWg spilledS 0 0 saving0 { savingL with lrec := { probeLrec with spill := 0x40000000 } }) = true := by decide
theorem witness_WorkgroupsAreSaved_stopped : (saveSet savingS 0 saving0).all (wgStopped savingS) = true ∧
    (saveSet savingS 0 saving0).foldl (fun s id => match tableGet s.wgs id with
      | some g => stopWg s id g
      | none => s) savingS = savingS := by decide
/-- An image with one strip, whose body says version 1. -/
def image1 : Image := ⟨0x900000, 8192, 0, 7, probeWg, [(9, { probeStrip with wg := 7 })], [], [[]], [[]], [[]], [[]], [], [], [], 0⟩
def restoringS (parts : List Nat) : State := let s := put [(0x900000, leBytes 4 1)] (modDie (ws (.nop z) id) 0 fun d => { d with images := [image1] })
  { s with strips := [], wgs := [], parts := parts, launches := [(0, savingL)] }
def restoredOf : RestoreEnd → Option State
  | .done s => some s
  | _ => none
def noPlaceB : RestoreEnd → Bool
  | .noPlace => true
  | _ => false
def noRowsB : RestoreEnd → Bool
  | .noRows => true
  | _ => false
/-- Sector 1 has one bay left, bay 288, whose four slices are full but for four rows each. -/
def crowded : State := { restoringS State.reset.parts with
  fenced := (List.range 287).map (289 + ·)
  strips := (List.range 4).map fun k => (k, { probeStrip with core := 24, bay := 0, slice := k, floor := 380, wg := 3 }) }
def restoreEnd (s : State) : RestoreEnd := restoreAll (applyTi s 0) savingL [(image1, [1])]
theorem witness_WorkgroupsAreRestored : let s := restoringS State.reset.parts
    (s.dies.flatMap fun d => d.images).find? (fun m => m.wgId == 7) = some image1 ∧ tableGet s.launches image1.wg.launch = some savingL ∧
    mayRestore s image1 savingL = true ∧ versionOk s image1 = true ∧ (List.range 4).filter (fun d => image1.wg.die == d) = [0] ∧
    (restoredOf (restoreEnd s)).isSome = true := by decide
theorem witness_WorkgroupsAreRestored_noPlace : noPlaceB (restoreEnd (restoringS (List.replicate 16 1))) = true ∧
    mayRestore (restoringS (List.replicate 16 1)) image1 savingL = true := by decide
theorem witness_WorkgroupsAreRestored_noRows : noRowsB (restoreEnd crowded) = true ∧ mayRestore crowded image1 savingL = true := by decide
/-- A second image of the launch waits for the first. -/
theorem witness_WorkgroupsAreRestored_waits :
    let s := modDie (restoringS State.reset.parts) 0 fun d => { d with images := [image1, { image1 with wgId := 8 }] }
    (allImages s).find? (fun m => m.wgId == 8) = some { image1 with wgId := 8 } ∧
      tableGet s.launches image1.wg.launch = some savingL ∧ mayRestore s { image1 with wgId := 8 } savingL = false ∧
      (allImages s).find? (fun m => m.wgId == 9) = none := by decide

/-! ### Work-graph consumers -/

/-- Queue 5 of a graph has five published records, of which two are dispatched; a consumer takes at most two. -/
def nq0 (launch : Nat) : NodeQueue := ⟨0, 0, 0x270000, 0, probeJob, launch, [(0, 2, false)], 1⟩
def nqBytes (disp : Nat) : List Byte := leBytes 8 0x280000 ++ leBytes 4 16 ++ leBytes 4 16 ++ leBytes 8 0x290000 ++ leBytes 8 5 ++ leBytes 8 5 ++
  leBytes 8 disp ++ leBytes 8 0 ++ leBytes 4 2 ++ leBytes 4 0
def consuming (disp : Nat) : State := put [(0x270000, nqBytes disp)] { ws (.nop z) id with
  strips := [], wgs := [], l2 := [(0x4E00, ⟨false, 0, 0, 0⟩)], nodeQueues := [(5, nq0 1)], launches := [(0, { launchW given 8 with consumerOf := 6 })] }
def nqRead0 (disp : Nat) : List Byte := ((nqRead (consuming disp) 5 (nq0 1)).1.getD [])
theorem witness_QueueCommandsRun_consumer : tableGet (consuming 2).nodeQueues 5 = some (nq0 1) ∧ dieWaiting (consuming 2) (.nodeQueue 5) = false ∧
    nqRead (consuming 2) 5 (nq0 1) = (some (nqRead0 2), consuming 2) ∧ field (nqRead0 2) 0x20 8 = 5 ∧ field (nqRead0 2) 0x28 8 = 2 ∧
    mayTake (consuming 2) 0 0 { launchW given 8 with consumerOf := 6 } = true ∧
    tableGet (consuming 2).launches 0 = some { launchW given 8 with consumerOf := 6 } ∧
    (placeWg (consuming 2) (ownClaim (.consumer 5 3)) 0 0 { launchW given 8 with consumerOf := 6 } (targetCores 0 1 3)
      ⟨1, 0, 0, noLeaf, (2, 2), field (nqRead0 2) 0 8, field (nqRead0 2) 8 4, 1⟩).isSome = true ∧
    nqRead (consuming 5) 5 (nq0 1) = (some (nqRead0 5), consuming 5) ∧ field (nqRead0 5) 0x20 8 ≤ field (nqRead0 5) 0x28 8 := by decide

/-! ### Phases, halos and packets -/

/-- A record of one member and no deliveries expected, at step 6; of two members; with deliveries expected; with STEPS 7. -/
def phase0 (members expect steps : Nat) : Phase := ⟨6, 0, members, 0, expect, 0, 2, 0, steps⟩
theorem witness_PhasesHalosAndPackets_counts : ((phase0 1 0 0).event none).count = 7 ∧
    (phase0 2 0 0).event none = ⟨6, 1, 2, 1, 0, 0, 2, 0, 0⟩ ∧ (phase0 1 1 0).event none = ⟨6, 1, 1, 1, 1, 0, 2, 0, 0⟩ ∧
    (phase0 1 0 7).event none = ⟨7, 2, 1, 0, 0, 2, 0, 0, 7⟩ ∧ (phase0 1 0 0).event (some 6) = ⟨6, 1, 1, 0, 0, 1, 2, 0, 0⟩ ∧
    (phase0 1 0 0).event (some 7) = ⟨6, 1, 1, 0, 0, 0, 3, 0, 0⟩ ∧ (phase0 1 0 0).event (some 5) = ⟨6, 1, 1, 0, 0, 0, 2, 1, 0⟩ ∧
    (phase0 0 1 0).event (some 6) = ⟨7, 1, 0, 0, 1, 2, 0, 0, 0⟩ := by decide
def phaseEv : PhaseEvent := ⟨0x2A0000, probeJob, 0, none, none⟩
def phasing (status : Nat) : State := put [(0x2A0000, leBytes 8 6 ++ leBytes 8 status), (0x2A0020, leBytes 4 2)]
  { ws (.nop z) id with phaseEvents := [phaseEv] }
theorem witness_PhasesHalosAndPackets_phase : (phasing 1).phaseEvents[0]? = some phaseEv ∧ dieWaiting (phasing 1) (.phase 0x2A0000 0) = false ∧
    (phasing 1).hbm = [] ∧ vaOf (0x2A0000 : DWord).toNat % 64 = 0 ∧
    Held (phasing 1) (dieAgent 0 probeJob) (vaOf (0x2A0000 : DWord).toNat) .both ⟨0x2A0000, false, 0⟩ 0x1D (2 ^ 30) ∧
    (⟨0x2A0000, false, 0⟩ : Leaf).plain 64 ∧ (phasing 1).mem.wf = true ∧ (phasing 1).poison = [] ∧
    (parsePhase (readHome (phasing 1) 0x2A0000 64).1).status = 1 ∧
    Held (phasing 2) (dieAgent 0 probeJob) (vaOf (0x2A0000 : DWord).toNat) .both ⟨0x2A0000, false, 0⟩ 0x1D (2 ^ 30) ∧
    (parsePhase (readHome (phasing 2) 0x2A0000 64).1).status = 2 :=
  ⟨by decide, by decide, rfl, by decide, held_of (by decide), plain_of (by decide), by decide, by decide, by decide,
    held_of (by decide), by decide⟩
/-- A HALO whose plan at 0x2B0000 has two entries, the header of leaf 1 to leaf 2 of the same tree on die 1 and on die 2,
where the partition holds no sector; the tree's descriptor is at 0x2C0000 and its headers at 0x2D0000. Entry `k` is due. -/
def haloC : Cmd := { cmd 40 (.halo ⟨0, 0, s' 4, s' 8, k' 0, 0, false, 0, 0⟩) [] [] true none none with
  ops := ⟨[[0x2B0000, 0]], [[0, 2]], [[9]]⟩ }
def haloB (d : Nat) : List Byte := leBytes 4 1 ++ leBytes 4 2 ++ leBytes 1 d ++ leBytes 1 4 ++ List.replicate 6 0 ++ leBytes 8 0x2C0000 ++ List.replicate 8 0
def halving (l : List HaloFlight) : State :=
  let s := put [(0x2B0000, leBytes 4 2 ++ leBytes 4 0 ++ leBytes 8 0x2C0000), (0x2B0040, haloB 1), (0x2B0060, haloB 2),
    (0x2C0008, leBytes 4 16), (0x2C0020, leBytes 8 0x2D0000), (0x2C0068, leBytes 4 16 ++ leBytes 4 16),
    (0x2D0040, List.replicate 17 0xA5)] (ws (.nop z) id)
  { modDie (modCore s 0 fun c => { c with rsb := [haloC] }) 1 fun d => { d with tlb := [tlb0] } with
    halos := l
    cores := [(0, { core0 with rsb := [haloC] }), (96, core0)]
    parts := [0, 0, 0, 0, 0, 0, 0, 0, 3, 3, 3, 3, 3, 3, 3, 3] }
/-- Entry `i` of the HALO under way, and the state without it. -/
def haloF (i : Nat) : HaloFlight := ⟨0, 40, i, probeJob, 0, 0x2B0000, 9, false⟩
def spl0 : Spl := .start (halving []) false
def haloE (d : Nat) : HaloEntry := ⟨1, 2, d, 4, 0, 0x2C0000, 0⟩
def haloTree : Vdesc := ⟨0, 0, 16, 0, 0, 0, 0x2D0000, 0, 0, 0, List.replicate 4 (0, 0), 0, 16, 16⟩
def haloH : List Byte := leBytes 4 2 ++ leBytes 4 0 ++ leBytes 8 0x2C0000 ++ List.replicate 48 0
def haloRow : List Byte := List.replicate 12 0xA5 ++ [1, 0, 0, 0, 0xA5]
set_option maxRecDepth 100000 in
theorem witness_PhasesHalosAndPackets_halo : (halving [haloF 0]).halos[0]? = some (haloF 0) ∧
    (openEntry (haloF 0) spl0).1 = .near (haloE 1) haloTree ⟨none, none, some haloRow⟩ ∧
    (writeEntry (openEntry (haloF 0) spl0).2.s (haloThere (haloF 0) 1) (destWrites haloTree 2 ⟨none, none, some haloRow⟩) 0).1 = true ∧
    (halving [haloF 1]).halos[0]? = some (haloF 1) ∧ (openEntry (haloF 1) spl0).1 = .refused ∧
    (let h := { haloF 0 with plan := 0x40000000 }
    (openEntry h spl0).1 = .stopped (haloAgent h) ∧ (openEntry h spl0).2.fault.isSome = true) := by
  exact ⟨rfl, by decide, by decide, rfl, by decide, by decide⟩
set_option maxRecDepth 100000 in
theorem witness_PhasesHalosAndPackets_entry : leafInside 0 haloTree = false ∧ leafInside 1 haloTree = true ∧ leafInside 2 haloTree = true ∧
    leafInside 16 haloTree = false ∧ connOf spl0.s 2 0 = none ∧ holdsSector spl0.s 0 2 = false ∧ holdsSector spl0.s 0 1 = true ∧
    (splVdesc spl0 (haloThere (haloF 0) 1) 0x2C0000).1 = some haloTree ∧
    (splVdesc spl0 (haloThere (haloF 0) 1) 0x2C0000).2.stop = false ∧
    (sourceParts (haloAgent (haloF 0)) haloTree (haloE 1) (splVdesc spl0 (haloThere (haloF 0) 1) 0x2C0000).2).1.isSome = true := by
  exact ⟨by decide, by decide, by decide, by decide, by decide, by decide, by decide, by decide, by decide, by decide⟩
/-- An open connection with a receive region of 4,096 bytes at 0x2E0000, packet 7 next, packet 3 unacknowledged. -/
def conn0 (up : Bool) (tries : Nat) : Conn := ⟨up, probeJob, 0x2E0000, 4096, 4, 7, [(⟨3, .writes 0 [1]⟩, 40, tries, 100)], []⟩
def connS (up : Bool) (tries clk : Nat) : State := { modCore (ws (.nop z) id) 0 (fun c => { c with rsb := [haloC] }) with
  conns := [(2, conn0 up tries)], clk := clk }
theorem witness_PhasesHalosAndPackets_packet : tableGet (connS true 0 0).conns 2 = some (conn0 true 0) ∧ (conn0 true 0).up = true ∧
    (⟨7, .writes 4080 [1, 2]⟩ : Packet).seq.toNat = (conn0 true 0).recvSeq ∧ (4080 : Word).toNat + [(1 : Byte), 2].length ≤ (conn0 true 0).size ∧
    (conn0 true 0).size < (4095 : Word).toNat + [(1 : Byte), 2].length ∧ (conn0 false 0).up = false ∧
    (⟨6, .writes 0 []⟩ : Packet).seq.toNat ≠ (conn0 true 0).recvSeq ∧
    vaOf ((conn0 true 0).base.toNat + (4080 : Word).toNat) = 0x2E0FF0 ∧
    Held (connS true 0 0) (dieAgent 0 probeJob) 0x2E0FF0 .write ⟨0x2E0FF0, false, 0⟩ 0x1D (2 ^ 30) ∧
    (⟨0x2E0FF0, false, 0⟩ : Leaf).plain 2 ∧ (connS true 0 0).mem.wf = true :=
  ⟨by decide, by decide, by decide, by decide, by decide, by decide, by decide, by decide, held_of (by decide), plain_of (by decide), by decide⟩
theorem witness_PhasesHalosAndPackets_retransmit : tableGet (connS true 63 28100).conns 2 = some (conn0 true 63) ∧
    (∀ u ∈ (conn0 true 0).unacked, (28099 : Nat) < u.2.2.2 + 28000) ∧ (∃ u ∈ (conn0 true 0).unacked, u.2.2.2 + 28000 ≤ 28100) ∧
    (∀ u ∈ (conn0 true 63).unacked, u.2.2.2 + 28000 ≤ 28100 → u.2.2.1 < 64) ∧
    (∃ u ∈ (conn0 true 64).unacked, u.2.2.2 + 28000 ≤ 28100 ∧ 64 ≤ u.2.2.1) ∧ cmdOf (connS true 64 28100) 0 40 = some haloC := by
  exact ⟨by decide, by decide, ⟨_, List.mem_singleton.2 rfl, by decide⟩, by decide, ⟨_, List.mem_singleton.2 rfl, by decide, by decide⟩, by decide⟩

/-- An entry over a connection; a packet with a halo entry; reports of packets that the other side did not perform. -/
def connected : State := { halving [] with conns := [(2, conn0 true 0)] }
set_option maxRecDepth 100000 in
theorem witness_PhasesHalosAndPackets_far : (match haloRead (haloF 0) { haloE 1 with conn := 3 } haloTree (.start connected false) with
    | (.far c m, _) => c == 2 && m.dleaf.toNat == 2
    | _ => false) = true := by decide
theorem witness_PhasesHalosAndPackets_reports : tableGet (connS true 0 0).conns 2 = some (conn0 true 0) ∧
    ((conn0 true 0).unacked.find? fun u => u.1.seq.toNat == 3) = some (⟨3, .writes 0 [1]⟩, 40, 0, 100) ∧ packetRefused ≠ packetDone ∧
    ((conn0 true 0).unacked.find? fun u => u.1.seq.toNat == 2) = none ∧ (⟨7, .writes 0 []⟩ : Packet).seq.toNat = (conn0 true 0).recvSeq ∧
    tableGet (connS true 0 0).conns 3 = none := by decide
/-- A count whose record is not mapped. -/
def lostEv : PhaseEvent := ⟨0x40000000, probeJob, 0, none, none⟩
theorem witness_PhasesHalosAndPackets_lost : let s := { ws (.nop z) id with phaseEvents := [lostEv] }
    s.phaseEvents[0]? = some lostEv ∧ dieWaiting s (.phase 0x40000000 0) = false ∧
      (match (xlateRange s (dieAgent 0 probeJob) (vaOf (0x40000000 : DWord).toNat) 64 .both).1 with
        | .error e => e == (0x40000000, 1)
        | .ok _ => false) = true := by decide

/-! ### The S-die -/

theorem witness_DeviceRegistersAct_addresses : (0x20000003070 : BitVec 44).toNat = 2 * 2 ^ 40 + 3 * 0x1000 + 0x70 ∧
    (0x20000010F20 : BitVec 44).toNat = 2 * 2 ^ 40 + 0x10000 + 15 * 256 + 0x20 ∧
    (0x20000010F78 : BitVec 44).toNat = 2 * 2 ^ 40 + 0x10000 + 15 * 256 + 0x78 ∧
    (0x20000004008 : BitVec 44).toNat = 2 * 2 ^ 40 + 0x4008 ∧ (0x10000 : BitVec 64).getLsbD 16 = true ∧
    (0x20000000001 : BitVec 44).toNat % 8 ≠ 0 ∧ (0x10000000000 : BitVec 44).toNat / 2 ^ 40 ≠ 2 ∧ State.reset.heads.length = 16 := by decide
/-- Head 3 of partition 0, 2 by 2 pixels from 0x300000, a bitstream ring at 0x310000 of the given capacity. -/
def head0 (cap : Nat) : Head := { resetHead with
  owner := 0x100, fbaddr := 0x300000, pitch := 128, mode := 0x20002, codec := 0x10000, bsbase := 0x310000, bscap := BitVec.ofNat 64 cap,
  live := [0x20002, 128, 0x10000, 0, 0x310000, BitVec.ofNat 64 cap] }
def display (h : Head) (shares : List (Nat × Nat × Nat)) : State := { State.reset with
  heads := listPut State.reset.heads 3 h, shares := shares }
def inShares (s : State) (h : Head) : Bool := (List.range h.height).all fun j =>
  inShare s h.part (s.shares.length + 1) (0x300000 + j * h.liveAt 1) (0x300000 + j * h.liveAt 1 + 4 * h.width)
theorem witness_DeviceRegistersAct_frame : headOf (display (head0 4096) [(0, 0, 0x400000)]) 3 = head0 4096 ∧ (head0 4096).enabled = true ∧
    (head0 4096).live = (head0 4096).config ∧ (head0 4096).width = 2 ∧ (head0 4096).height = 2 ∧
    inShares (display (head0 4096) [(0, 0, 0x400000)]) (head0 4096) = true ∧ inShares (display (head0 4096) [(0, 0, 0x300080)]) (head0 4096) = false ∧
    resetHead.enabled = false := by decide
/-- Head 3 has handed a frame over. -/
def framed (cap : Nat) : State := display { head0 cap with frame := some (5, 77, false, true), scan := List.replicate 16 0 } []
theorem witness_DeviceRegistersAct_encode : nextHead (framed 4096) 0 = some (3, 3 * 65536 + 1) ∧
    (headOf (framed 4096) 3).frame = some (5, 77, false, true) ∧ keyDue (headOf (framed 4096) 3) false = true ∧
    nextHead (framed 0) 0 = some (3, 3 * 65536 + 1) ∧ (headOf (framed 0) 3).liveAt 5 = 0 := by decide
/-- The IOMMU's table at 0x320000; requester 2's entry binds job 0. -/
def iommuS : State := put [(0x320010, leBytes 8 1), (0x210000, jobBytes 1)]
  { modDie ringed 0 (fun d => { d with jobtab := 0x210000 }) with iommu := ⟨0x320000, []⟩ }
theorem witness_DeviceRegistersAct_dma : LogOpen iommuS 0 0x600060 ∧ requesterJob iommuS 1 = none ∧
    requesterJob iommuS 2 = some (parseJob 0 (jobEntry iommuS 0 0).1) ∧
    (ioXlate iommuS (parseJob 0 (jobEntry iommuS 0 0).1) 0x100040 .write).1 = some ⟨0x100040, false, 0⟩ ∧
    populated 0x100040 = true ∧ (ioXlate iommuS (parseJob 0 (jobEntry iommuS 0 0).1) 0x100040 .write).2.mem.wf = true :=
  ⟨⟨by decide, by decide, by decide, by decide, by decide, by decide, unhidden_nil rfl⟩, by decide, by decide, by decide, by decide, by decide⟩

theorem witness_DeviceRegistersAct_pieces : let j := parseJob 0 (jobEntry iommuS 0 0).1
    (ioXlate iommuS j 0x100040 .write).2.hbm = [] ∧ (ioXlateAll iommuS j .write [(0x40000000, 4)]).1 = none ∧
      ((ioXlateAll iommuS j .write [(0x100040, 4)]).1.map fun ps => ps.all fun p => populated p.leaf.pa) = some true := by decide

/-! ### Management -/

def image2 : FwImage := ⟨[], 0, [], [], [], [], 7, [.observe, .operate, .firmware]⟩
/-- A session of a role, request 1 answered; the running image has version 7. -/
def managed (r : Option Role) (recovery : Bool) : State := { State.reset with
  sessions := [(5, ⟨r, [(1, 0, [])]⟩)], boot := ⟨recovery, if recovery then none else some image2, 3, 0, 0, []⟩ }
def session0 (r : Option Role) : Session := ⟨r, [(1, 0, [])]⟩
theorem witness_ManagementBootAndLimits_roles : tableGet (managed (some .observe) false).sessions 5 = some (session0 (some .observe)) ∧
    (session0 (some .observe)).answered.any (fun a => a.1 == 1) = true ∧ (session0 (some .observe)).answered.any (fun a => a.1 == 2) = false ∧
    (∀ op, op ∈ [1, 2, 7] → served (managed (some .observe) false) (session0 (some .observe)) op = true) ∧
    (∀ op, op ∈ [3, 4, 5, 6, 8, 9] → served (managed (some .observe) false) (session0 (some .observe)) op = false) ∧
    (∀ op, op ∈ [1, 2, 3, 4, 5, 6, 7, 8, 9] → served (managed (some .firmware) false) (session0 (some .firmware)) op = true) ∧
    (∀ op, op ∈ [6, 9] → served (managed (some .operate) false) (session0 (some .operate)) op = false) ∧
    (∀ op, op ∈ [1, 6, 8] → served (managed none true) (session0 none) op = true) := by decide
theorem witness_ManagementBootAndLimits_partitions : jobsRun (managed (some .operate) false) = false ∧ jobsRun (start (.nop z) id) = true ∧
    (State.reset.parts.all (· < 16)) = true ∧ (managed (some .firmware) false).boot.image = some image2 ∧
    (managed (some .firmware) false).boot.fuseMin ≤ image2.version ∧ image2.version ≤ 64 := by decide
theorem witness_ManagementBootAndLimits_sessions : State.reset.boot.recovery = true ∧ (managed none false).boot.recovery = false ∧
    image2.anchors[1]? = some .operate ∧ image2.anchors[3]? = none ∧ State.reset.boot.image = none ∧
    (managed none false).boot.image.isSome = true ∧ ringed.boot.image = none := by decide
theorem witness_ManagementBootAndLimits_boot : LogOpen ringed (1151 / 1152) 0x600060 ∧ ringed.boot.failures.contains (.bay 1151) = false ∧
    LogOpen ringed (95 / 96) 0x600060 ∧ ringed.boot.failures.contains (.core 95) = false := ⟨logOpen_ringed, by decide, logOpen_ringed, by decide⟩
theorem witness_ManagementBootAndLimits_limits : 0 < State.reset.dies.length ∧ (dieOf State.reset 0).cap < 651 ∧
    (dieOf ringed 0).band = bandOf 95 ∧ (dieOf ringed 0).band = .normal ∧ LogOpen ringed 0 0x600060 :=
  ⟨by decide, by decide, by decide, by decide, logOpen_ringed⟩

/-! ### The form of strips -/

theorem stripsWf_of {s : State} (h : (tableWf s.strips && s.strips.all fun q => decide (q.2.strands.length = 16) &&
    cellsWf (0 : Word) q.2.s && tableWf q.2.v && q.2.v.all fun r => decide (r.2.vals.length = 16)) = true) : StripsWf s := by
  simp only [Bool.and_eq_true, List.all_eq_true, decide_eq_true_eq] at h
  exact ⟨h.1, fun q hq => (h.2 q hq).1.1.1, fun q hq => (h.2 q hq).1.1.2, fun q hq => ⟨(h.2 q hq).1.2, (h.2 q hq).2⟩⟩
theorem witness_RegisterInstructionsKeepTheForm :
    (StripsWf (start iaddT id) ∧ (laneValue iaddT).isSome = true ∧ Clean iaddT (start iaddT id) probeStrip 0x10000 0xFFFF ∧
      RoomFor (probeStrip.issued (shape iaddT) 0xFFFF) 3 1 ∧ destOf (shape iaddT) = .v 3 1) ∧
    (StripsWf (start shflT id) ∧ (groupValue shflT).isSome = true ∧ Clean shflT (start shflT id) probeStrip 0x10000 0xFFFF ∧
      RoomFor (probeStrip.issued (shape shflT) 0xFFFF) 4 2 ∧ destOf (shape shflT) = .v 4 2) ∧
    StripsWf (start saddT id) ∧ (scalarValue saddT).isSome = true ∧ Clean saddT (start saddT id) probeStrip 0x10000 0xFFFF :=
  ⟨⟨stripsWf_of (by decide), by decide, clean_of (by decide), room_of (by decide), by decide⟩,
    ⟨stripsWf_of (by decide), by decide, clean_of (by decide), room_of (by decide), by decide⟩,
    stripsWf_of (by decide), by decide, clean_of (by decide)⟩

/-! ### Witnesses of further clauses -/

theorem witness_StepRunsDecodedInstruction_connect :
    (begun { start (.nop z) id with inputs := [.connect 255 0 4096 0x2E0000] }).inputs = .connect 255 0 4096 0x2E0000 :: [] := by decide
/-- The pair forms have operands. -/
theorem witness_PairForms : (fr 2 4 no no no false 0).fn = 2 ∧ (fr 3 4 no no no false 0).fn = 3 ∧ (fr 1 4 no no no false 0).fn = 1 ∧
    (fr 3 4 no no no false 0).sat = false ∧ pair64 5 7 = (0x700000005 : DWord) := by decide
/-- The read cache, or the RDC of another die, holds the load's line as it was. -/
def cached7 : CacheLine := ⟨List.replicate 128 7, [], false⟩
def rcHeld : State := modCore (ws ldgT (places 8)) 0 fun c => { c with rc := [(0x2000, cached7)] }
def loadHeldB (s : State) : Bool := heldB s (stripAgent s probeStrip) 0x100078 .read (at1M 8 15) && s.hbm.isEmpty &&
  (scbFind (coreOf s 0) (lineOf (at1M 8 15).pa)).isNone && flightEa loadFlight 15 == some (0x100078, 4)
theorem witness_LoadReadsCoreView_copies : loadHeldB rcHeld = true ∧ (at1M 8 15).plain 4 ∧
    tableGet (coreOf rcHeld 0).rc (lineOf (at1M 8 15).pa) = some cached7 ∧ cached7.poison = [] ∧
    (∀ k < 4, rcHeld.poison.contains (((at1M 8 15).pa + k) / 8) = false) ∧
    (dieOf rcHeld 0).rdc = [] ∧ (0x100078 % 4 = 0) ∧ 0x100078 % 128 + 4 ≤ 128 :=
  ⟨by decide, plain_of (by decide), by decide, rfl, by decide, by decide, by decide, by decide⟩
/-- The word that the strand reads is poisoned. -/
def poisonedWord : State := { ws ldgT (places 8) with poison := [0x100078 / 8] }
theorem witness_LoadReadsCoreView_poison : loadHeldB poisonedWord = true ∧ isDevice (at1M 8 15).pa = false ∧
    populated (at1M 8 15).pa = true ∧ poisonedWord.poison.contains (((at1M 8 15).pa + 3) / 8) = true ∧
    tableGet (coreOf poisonedWord 0).rc (lineOf (at1M 8 15).pa) = none ∧
    tableGet (dieOf poisonedWord 0).rdc (lineOf (at1M 8 15).pa) = none := by decide
/-- Three posted writes: the first two share a line; the last may pass both. -/
def postedThree (s : State) : State := modCore s 0 fun c => { c with posted :=
  [⟨0, 1, [0], [.write 0x100078 1 [1, 2]]⟩, ⟨0, 2, [0], [.write 0x10007A 1 [3, 4]]⟩, ⟨0, 4, [0], [.write 0x100080 1 [5, 6]]⟩] }
theorem witness_DiscardAndDrain_order : let s := postedThree (ws fenceRelT id)
    (coreOf s 0).scb.length + (coreOf s 0).posted.length ≤ 3 ∧
    (∃ r, (coreOf s 0).posted[0]? = some r ∧ 0x2000 ∈ postedLines r ∧
      ∃ q, (coreOf s 0).posted[1]? = some q ∧ 0x2000 ∈ postedLines q) ∧
    ∃ q, (coreOf s 0).posted[2]? = some q ∧ postedLines q = [0x2001] ∧
      ((coreOf s 0).posted.take 2).all (fun r => !((postedLines r).contains 0x2001)) = true := by
  exact ⟨by decide, ⟨_, rfl, by decide, _, rfl, by decide⟩, ⟨_, rfl, by decide, by decide⟩⟩
theorem witness_ResultsArrive_sound : (flight 0 (.v 254 2) [] [0, 0]).spoilt = [] := rfl
theorem witness_CommandStartOrder_present : (launchC 0).ops.nb < 64 ∧ populated (queueAt (appending 0 2 1) 0) = true := by decide
/-- No strip is done, nothing is posted, no deadline runs and no LAUNCH or CANCEL waits; or the launch's only strip is done and its
workgroup takes the launch with it. -/
def doneWatched : State := { watched true 2800000 with strips := [(0, exited probeStrip)] }
theorem witness_GrantsTrapsAndWatches_quiet :
    (∀ q ∈ (watched true 2800000).strips, stripDone (watched true 2800000) q.1 q.2 = false) ∧
    (∀ c ∈ (sliced true).cores, c.2.posted = [] ∧ ∀ e ∈ c.2.escrow, ∀ n, e.2.deadline = some n → (sliced true).clk ≤ n) ∧
    (∀ c ∈ (watched true 0).cores, ∀ k ∈ c.2.rsb, k.launch = 0 → k.shadow = true ∨ k.failed.isSome = true ∨
      (∀ f, k.instr ≠ .launch f) ∧ ∀ f, k.instr ≠ .cancel f) ∧
    (pending0 probeStrip).waits = [] ∧ (pending0 probeStrip).zeroFetch = false ∧
    ({ pending0 probeStrip with zeroFetch := true } : Strip).zeroFetch = true ∧
    (tableGet (watched true 2800000).launches 0).isSome = true := by
  refine ⟨by decide, ?_, ?_, by decide, by decide, by decide, by decide⟩
  · intro c hc; exact absurd hc (by rw [show (sliced true).cores = [] by decide]; exact List.not_mem_nil)
  · intro c hc; exact absurd hc (by rw [show (watched true 0).cores = [] by decide]; exact List.not_mem_nil)
theorem witness_GrantsTrapsAndWatches_completed : let l := ((tableGet doneWatched.launches 0).getD probeLaunch)
    tableGet (completeFirst doneWatched fun m => m.address == l.address && m.seq == l.seq && m.origin == l.origin).launches 0 = none := by
  decide
theorem witness_ErrorsAreMaskedOrRecorded_numbers : linkOk 5 = true ∧ linkOk 4 = false ∧ linkOk 1 = true ∧ linkOk 15 = true ∧ linkOk 16 = true ∧
    linkOk 23 = true ∧ linkOk 24 = false ∧ ((List.range 24).filter linkOk).length = 6 + 4 + 8 := by decide
/-- Queue 0 with its ring, its entry and its job table present, and no log doorbell. -/
theorem witness_QueueAcceptance_present : let s := queue0 1 2 1 1 1
    populated (queueAt s 0) = true ∧ populated (ringAt s 0 1) = true ∧
      populated (jobAt s (queueOwner s 0) (queueField s 0 0x10 2)) = true ∧ (dieOf s (queueOwner s 0)).tiPending = false ∧
      (acquireScope s (dieAgent 0 job0) 4).mem = s.mem := by decide
/-- The CANCEL's launch stands after what is below it has been drained, or has gone with that. -/
theorem witness_QueueCommandsRun_drained :
    let s := drainFor (fun _ l => underLevel (cancelS true) job0 0 0x260000 l) (cancelS true)
    ((s.launches.find? fun l => l.2.lrec.done == 0x260000 && l.2.job.index == 0 && (0x260000 : DWord) != 0).map (·.1)) = some 3 ∧
      Settled (haltLaunch s 3 .cancelled) ∧
      Settled (completeCommand { haltLaunch s 3 .cancelled with cycleOver := true } 0 1 1 .done 0 0 true) :=
  ⟨by decide, settled_of (by decide), settled_of (by decide)⟩
/-- A launch with a CANCEL of itself outstanding. -/
def selfCancel : Cmd := { cmd 42 (.cancel ⟨0, 0, s' 20, s' 24, no, 0, false, 0, 0⟩) [] [] true none none with
  ops := ⟨[[0x260000, 0]], [], []⟩, launch := 3, job := job0, strip := 0 }
def selfCancelled : State := modCore (cancelling true) 0 fun c => { c with rsb := [selfCancel] }
theorem witness_QueueCommandsRun_gone :
    let s1 := (let s := startRecord selfCancelled 0 job0 job0.jrec; completeFirst s (underLevel s job0 0 0x260000))
    let s2 := drainFor (fun _ l => underLevel s1 job0 0 0x260000 l) s1
    nextCommand selfCancelled 0 = some (accepted0 4 0 0x260000 none) ∧ s1.launches.length = 1 ∧ s2.launches = [] ∧
      Settled (completeCommand { s2 with cycleOver := true } 0 1 1 .done 0 0 true) :=
  ⟨by decide, by decide, by decide, settled_of (by decide)⟩
/-- A sparse COOP launch of command 1 of queue 0, whose leaves are counted on all dies: too many for its partition, or few. -/
def counted (n : Nat) : Launch := { launchW given 8 with
  lrec := { (launchW given 8).lrec with flags := 5, strands := 1536 }, origin := .command 0 1, work := [⟨[(0, n)], [], true, 0, none⟩] }
def countedS (n pos : Nat) : State := { holding { accepted0 1 0 0x240000 none with pos := pos } [] with
  launches := [(0, counted n)], parts := List.replicate 16 0 }
theorem witness_WorkgroupsAreDispatched_counted : (counted 9).lrec.countsFirst = true ∧ (counted 9).work.all (·.forwarded) = true ∧
    ((queueOf (countedS 1 1) 0).accepted.find? fun c => c.pos == 1).isSome = true ∧
    sparseMisfit (countedS 1 1) (counted 1) = false ∧ sparseMisfit (countedS 97 1) (counted 97) = true ∧
    prevDone (queueOf (countedS 97 1) 0) { accepted0 1 0 0x240000 none with pos := 1 } = true ∧
    (let u := modQueue (countedS 97 1) 0 fun u => { u with accepted := accepted0 1 0 0x240000 none :: u.accepted.map fun c => { c with pos := 2 } };
      prevDone (queueOf u 0) { accepted0 1 0 0x240000 none with pos := 2 } = false) := by decide
/-- A cluster's batch goes on, waits for an image, or finds no rows. -/
theorem witness_WorkgroupsAreDispatched_ahead : noneAhead (waitingL batched) 0 (launchW batched 8) = true ∧
    (let s := modDie (waitingL batched) 0 fun d => { d with images := [{ image1 with wg := { probeWg with launch := 0 } }] };
      hasImages s 0 0 = true) ∧
    (let s := { waitingL batched with launches := [(0, launchW batched 385)] };
      batchAt (launchW batched 385) 0 2 = some 1 ∧ placeNext s 0 0 2 (launchW batched 385) 1 = none ∧
        noneAhead s 0 (launchW batched 385) = true) := by decide
theorem witness_WorkgroupsAreDispatched_claims : placeNext (unclaimed (waitingL given)) 0 0 2 (launchW given 385) 0 = none ∧
    claimWaits (modCore (waitingL given) 8 fun c => { c with claims := [(0, [.admission 9 (.launch 0 0 2) 8 0])] }) (launchOwn 0 0 2) = true := by
  decide
/-- The images of `restoringS` are placed, and one of another version is not restored. -/
theorem witness_WorkgroupsAreRestored_placed : let s := applyTi (restoringS State.reset.parts) 0
    (placeImages (restoreOwn [7]) savingL [(loadImage s savingL.lrec image1, [1])] [] s).isSome = true ∧
    (let t := restoringS (List.replicate 16 1);
      placeImages (restoreOwn [7]) savingL [(loadImage t savingL.lrec image1, [1])] [] t = none ∧
        placeImages (restoreOwn [7]) savingL [(loadImage t savingL.lrec image1, [1])] [] (unclaimed t) = none) ∧
    (placeImages (restoreOwn [7]) savingL [(loadImage crowded savingL.lrec image1, [1])] [] (unclaimed crowded)).isSome = true ∧
    (let t := put [(0x900000, leBytes 4 2)] (restoringS State.reset.parts);
      versionOk t image1 = false ∧ mayRestore t image1 savingL = true) := by decide
/-- An entry that waits for its count, and connections that cannot be opened. -/
theorem witness_PhasesHalosAndPackets_sent : (halving [{ haloF 0 with sent := true }]).halos[0]? = some { haloF 0 with sent := true } ∧
    ((tableGet (connS true 0 0).conns 2).map (·.up)) = some true ∧ (tableGet (connS true 0 0).conns 3).isNone = true ∧
    ({ connS true 0 0 with linksDown := [19] }.linksDown.contains (16 + connPort 3)) = true ∧
    (connS true 0 0).linksDown.contains (16 + connPort 3) = false := by decide
/-- A write of a register at an address that is no multiple of 8, with die 0's log open. -/
theorem witness_DeviceRegistersAct_misaligned : LogOpen ringed 0 0x600060 ∧ (0x20000000004 : BitVec 44).toNat / 2 ^ 40 = 2 ∧
    (0x20000000004 : BitVec 44).toNat % 8 ≠ 0 := ⟨logOpen_ringed, by decide, by decide⟩
/-- Head 3 scans a frame in its partition's share, and one beyond it with die 0's log open. -/
def scanning (hi : Nat) : State := { ringed with heads := listPut State.reset.heads 3 (head0 4096), shares := [(0, 0, hi)] }
theorem witness_DeviceRegistersAct_scan :
    let k := { head0 4096 with fbaddr := 0x300000, flipped := (0x300000 : DWord) }
    frameInside (scanning 0x400000) k = true ∧ frameInside (scanning 0x300080) k = false ∧ (k.width, k.height) = (2, 2) ∧
      LogOpen (scanning 0x300080) 0 0x600060 :=
  ⟨by decide, by decide, by decide, ⟨by decide, by decide, by decide, by decide, by decide, by decide, unhidden_nil rfl⟩⟩
/-- BT.709 in limited range: black, white and blue. -/
theorem test_bt709 : lumaSample false ⟨0, 0, 0⟩ = 16 ∧ lumaSample false ⟨255, 255, 255⟩ = 235 ∧ lumaSample true ⟨1023, 1023, 1023⟩ = 940 ∧
    chromaSample false 18556 255 ⟨0, 0, 255⟩ = 240 ∧ chromaSample true 18556 1023 ⟨0, 0, 1023⟩ = 960 := by decide
/-- A 10-bit frame for HEVC Main is coded by its 8 high bits. -/
theorem test_hevc_main : codedSamples { resetHead with live := [0x100000000, 0, 1], scan := [1023, 4, 3] } = [255, 1, 0] := by decide
theorem witness_DeviceRegistersAct_requester : populated (requesterAt iommuS 1) = true ∧ populated (requesterAt iommuS 2) = true ∧
    isDevice 0x20000000000 = true ∧ isDevice 0x100040 = false := by decide
theorem witness_ManagementBootAndLimits_sdie : ringed.sBand = .normal ∧ ringed.sBand = bandOf 95 ∧ LogOpen ringed 0 0x600060 ∧
    (∀ d < 4, ∀ k < (dieOf State.reset d).elcap.toNat, populated ((dieOf State.reset d).elbase.toNat + 32 * k) = true) :=
  ⟨by decide, by decide, logOpen_ringed, by decide⟩
theorem witness_RegisterInstructionsKeepTheForm_memory : State.reset.mem.wf = true ∧ (ws (.nop z) id).mem.wf = true := by decide
/-- A read through a sector's own slice of a line homed in another leaves one copy there (R232). -/
theorem test_sector_copy : (l2Copy { State.reset with l2 := [(0, ⟨false, 0, 0, 0⟩)] } 0 2 0).sectorCopies.length = 1 := by decide

end Sys2Proof.Tests
end

section
/-! PROOFS. A step and what a strip fetches (O5): each choice of `doing` and of `fetchNext` said once. -/
namespace Sys2Proof.Machine

/-! ## What a step does -/

/-- Every instruction and event answers a next state: each arm of `exec` is a `.next` of its own (log 42). -/
theorem exec_next (i : Instr) (s : State) : ∃ t, exec i s = .next t := by
  cases i <;> exact ⟨_, rfl⟩

theorem step_of_doing {s t : State} {i : Instr} (h : doing s = .perform i t) : step s = exec i t := by
  rw [step, h]

theorem step_of_nothing {s t : State} (h : doing s = .nothing t) : step s = .next t := by
  rw [step, h]

/-- An input comes before anything the machine would choose itself. -/
theorem doing_input {s : State} {inp : Input} {rest : List Input} (h : (begun s).inputs = inp :: rest) :
    doing s = doInput { begun s with inputs := rest } inp := by
  simp only [doing, h]

/-- With no input and no event's turn, the strip that the machine picks issues. -/
theorem doing_pick {s : State} {id : Nat} (hi : (begun s).inputs = []) (ht : (begun s).turn = false)
    (hp : pickStrip (begun s) = some id) : doing s = doIssue (begun s) id := by
  simp only [doing, hi, ht, hp, Bool.false_and, Bool.false_eq_true, if_false]

/-- An input that names a ready strip makes it issue. -/
theorem doing_issue {s : State} {id : Nat} {p : Strip} {rest : List Input} (hi : (begun s).inputs = .issue id :: rest)
    (hp : tableGet (begun s).strips id = some p) (hr : ready { begun s with inputs := rest } p = true) :
    doing s = doIssue { begun s with inputs := rest } id := by
  simp only [doing_input hi, doInput, hp, hr, if_true]

/-! ## What a strip fetches -/

/-- A word that decodes is the raw decoder's instruction. -/
theorem decodeRaw_of_decode {w : DWord} {i : Instr} (h : decode w = .ok i) : decodeRaw w = i := by
  unfold decode at h
  dsimp only at h
  split at h
  · exact Except.ok.inj h
  · split at h
    · exact Except.ok.inj h
    · cases h

/-- A word with one version since its launch opened is fetched as it stands. -/
theorem pickVersion_single {s : State} {wrote pa : Nat} {b : List Byte} (h : wordVersions s wrote pa = [b]) :
    pickVersion s wrote pa = (BitVec.ofNat 64 (leNat b), s) := by
  simp [pickVersion, h]

/-- A fetch of a sound, unchanged word that the instruction cache has not reads memory and fills the cache (R18). -/
theorem fetchAt_uncached {s t : State} {p : Strip} {pc : VA} {lf : Leaf} {b : List Byte}
    (hx : xlate s (stripAgent s p) pc.toNat .exec = (.ok lf, t)) (hc : cachedWord t p.coreId lf.pa = none)
    (hb : readHome t lf.pa 8 = (b, false)) (hl : lf.pr = false) (hv : wordVersions t (openedAt t p) lf.pa = [b]) :
    fetchAt s p pc = (.word (BitVec.ofNat 64 (leNat b)) false lf.pa,
      fillIc t p.coreId lf.pa (BitVec.ofNat 64 (leNat b))) := by
  simp [fetchAt, hx, hc, fetchMemory, hb, hl, pickVersion_single hv]

/-- The strip that issues fetches the instruction of the sound word at its PC. -/
theorem fetchNext_word {s t : State} {p : Strip} {pc : VA} {x : Strands} {w : DWord} {pa : Nat}
    (hp : tableGet s.strips s.cur = some p) (hset : p.issueSet = some (pc, x)) (hz : p.zeroFetch = false)
    (hf : fetchAt s p pc = (.word w false pa, t)) : fetchNext s = .issue (decodeRaw w) t := by
  simp [fetchNext, hp, hset, hz, hf]

/-- A strip without a trap to take performs the instruction that it fetches. -/
theorem doIssue_fetched {s t : State} {id : Nat} {p : Strip} {i : Instr} (hp : tableGet s.strips id = some p)
    (ha : p.asyncDue = false) (hf : fetchNext { s with cur := id, turn := true } = .issue i t) :
    doIssue s id = .perform i t := by
  simp [doIssue, hp, ha, hf]

/-- No trap is due that is not pending, or that a handler holds off (R400). -/
theorem asyncDue_false {p : Strip} (h : p.asyncs = [] ∨ p.inTrap = true) : p.asyncDue = false := by
  rcases h with h | h <;> simp [Strip.asyncDue, h]

end Sys2Proof.Machine

namespace Sys2Proof.Proofs
open Sys2Proof Sys2Proof.Machine

/-- Settles O5: the five clauses follow `doing` and `fetchNext`; the fetch reads the one version of the word. -/
theorem stepRunsDecodedInstruction : Obligations.StepRunsDecodedInstruction := by
  refine ⟨fun s i rest h => step_of_doing (doing_input h), fun s pa b rest h => step_of_nothing (doing_input h),
    fun s conn job size base rest h => step_of_nothing (doing_input h), exec_next, ?_⟩
  intro s s1 s2 id p pc x lf b i hwho hp ha hz hset hx hb hl hv hc hd
  have chosen : doing s = doIssue s1 id := by
    rcases hwho with ⟨hi, ht, hk, rfl⟩ | ⟨rest, hi, rfl, hr⟩
    · exact doing_pick hi ht hk
    · exact doing_issue hi hp hr
  have fetched : fetchNext { s1 with cur := id, turn := true }
      = .issue i (fillIc s2 p.coreId lf.pa (BitVec.ofNat 64 (leNat b))) :=
    decodeRaw_of_decode hd ▸ fetchNext_word hp hset hz (fetchAt_uncached hx hc hb hl hv)
  exact step_of_doing (chosen.trans (doIssue_fetched hp (asyncDue_false ha) fetched))

end Sys2Proof.Proofs
end

section
/-! PROOFS. SPRR and SPRW (O34): what they change of a strip, and TRAP_PC in halves. -/
namespace Sys2Proof.Machine

/-! ## SPRR and SPRW -/

/-- The special registers belong to the strip and its core: where the strips stand does not matter to a read (R404). -/
@[simp] theorem sprRead_putStrip (s : State) (id : Nat) (q p : Strip) (n : Nat) :
    sprRead (putStrip s id q) p n = sprRead s p n := by
  unfold sprRead; split <;> rfl

/-- SPRW changes no more of a strip than its two flag registers and TRAP_PC (R404). -/
theorem sprWrite_frame (p : Strip) (n : Nat) (w : Word) : ∃ status fpflags trapPc,
    p.sprWrite n w = { p with status := status, fpflags := fpflags, trapPc := trapPc } := by
  unfold Strip.sprWrite
  split
  · exact ⟨_, _, _, rfl⟩
  · exact ⟨_, _, _, rfl⟩
  · split <;> exact ⟨_, _, _, rfl⟩
  · split <;> exact ⟨_, _, _, rfl⟩
  · exact ⟨_, _, _, rfl⟩

@[simp] theorem sprWrite_flights (p : Strip) (n : Nat) (w : Word) : (p.sprWrite n w).flights = p.flights := by
  obtain ⟨_, _, _, h⟩ := sprWrite_frame p n w
  rw [h]

@[simp] theorem sprWrite_noted (p : Strip) (n : Nat) (w : Word) : (p.sprWrite n w).noted = p.noted := by
  obtain ⟨_, _, _, h⟩ := sprWrite_frame p n w
  rw [h]

/-- SPRR on a clean strip: the register it names in its s register (R410). -/
theorem execSprr_clean {f : FmtI} {s : State} {p : Strip} {pc : VA} {x : Strands} (h : Clean (.sprr f) s p pc x) :
    execSprr f s = .next (afterStrip s p x (shape (.sprr f)) fun q =>
      (q.writeS x f.d.toNat [sprRead s q f.imm.toNat]).advance x) := by
  unfold execSprr
  refine congrArg _ (strip_clean h ?_ ?_ ?_)
  · simp [ctxOf]
  · simp [writeS_flights (issued_flights h.noResult _ _)]
  · simp [writeS_noted]

/-- SPRW on a clean strip: the write by the register's access code (R410). -/
theorem execSprw_clean {f : FmtI} {s : State} {p : Strip} {pc : VA} {x : Strands} (h : Clean (.sprw f) s p pc x) :
    execSprw f s = .next (afterStrip s p x (shape (.sprw f)) fun q =>
      (q.sprWrite f.imm.toNat (word0 (operandsOf s p x (shape (.sprw f))).ua)).advance x) := by
  unfold execSprw
  refine congrArg _ (strip_clean h ?_ ?_ ?_)
  · simp [ctxOf]
  · simp [issued_flights h.noResult]
  · simp

/-! ## TRAP_PC in halves -/

/-- The mask of a word's bits [31:3] takes the rest of a division by 8 away. -/
theorem and_mask_toNat (w : Word) : (w &&& 0xFFFFFFF8).toNat = w.toNat / 8 * 8 := by
  have mask : ∀ i < 32, (0xFFFFFFF8 : Word).getLsbD i = decide (3 ≤ i) := by decide
  have e : w &&& (0xFFFFFFF8 : Word) = (w >>> 3) <<< 3 := BitVec.eq_of_getLsbD_eq fun i hi => by
    rw [BitVec.getLsbD_and, mask i hi, BitVec.getLsbD_shiftLeft, BitVec.getLsbD_ushiftRight]
    by_cases h : 3 ≤ i
    · simp [h, hi, show ¬ i < 3 by omega, show 3 + (i - 3) = i by omega]
    · simp [h, show i < 3 by omega]
  rw [e, BitVec.toNat_shiftLeft, BitVec.toNat_ushiftRight, Nat.shiftLeft_eq, Nat.shiftRight_eq_div_pow]
  omega

/-- A virtual address's high half as a number. -/
theorem highHalf_toNat (a : VA) : (a.extractLsb' 32 16).toNat = a.toNat / 2 ^ 32 := by
  have := a.isLt
  rw [BitVec.extractLsb'_toNat, Nat.shiftRight_eq_div_pow]
  omega

/-- TRAP_PC's low half written by SPRW: the address keeps its high half and its bits [2:0] are 0 (R404, R405). -/
theorem sprWrite_trapPcLow (p : Strip) (w : Word) (h : p.inTrap = true) : ∃ a : VA,
    p.sprWrite 0x012 w = { p with trapPc := a } ∧ a.extractLsb' 0 32 = w &&& 0xFFFFFFF8 ∧
      a.extractLsb' 32 16 = p.trapPc.extractLsb' 32 16 := by
  have ht := p.trapPc.isLt
  have hw := w.isLt
  refine ⟨_, if_pos h, BitVec.eq_of_toNat_eq ?_, BitVec.eq_of_toNat_eq ?_⟩
  · rw [BitVec.extractLsb'_toNat, Nat.shiftRight_zero, and_mask_toNat, BitVec.toNat_ofNat]; omega
  · rw [highHalf_toNat, highHalf_toNat, BitVec.toNat_ofNat]; omega

/-- TRAP_PC's high half written by SPRW: the address keeps its low half (R404). -/
theorem sprWrite_trapPcHigh (p : Strip) (w : Word) (h : p.inTrap = true) : ∃ b : VA,
    p.sprWrite 0x013 w = { p with trapPc := b } ∧ b.extractLsb' 0 32 = p.trapPc.extractLsb' 0 32 ∧
      b.extractLsb' 32 16 = w.extractLsb' 0 16 := by
  have ht := p.trapPc.isLt
  refine ⟨_, if_pos h, BitVec.eq_of_toNat_eq ?_, BitVec.eq_of_toNat_eq ?_⟩
  · rw [BitVec.extractLsb'_toNat, BitVec.extractLsb'_toNat, Nat.shiftRight_zero, Nat.shiftRight_zero,
      BitVec.toNat_ofNat]
    omega
  · rw [highHalf_toNat, BitVec.toNat_ofNat, BitVec.extractLsb'_toNat, Nat.shiftRight_zero]; omega

end Sys2Proof.Machine

namespace Sys2Proof.Proofs
open Sys2Proof Sys2Proof.Machine

/-- Settles O34: both issues go straight to their effect; the registers are `sprRead` and `Strip.sprWrite` number by
number. -/
theorem specialRegisterAccess : Obligations.SpecialRegisterAccess := by
  refine ⟨fun f s p pc x h => execSprr_clean h, fun f s p pc x h => execSprw_clean h, fun s p w => ?_⟩
  refine ⟨rfl, rfl, rfl, rfl, ?_, ?_, rfl, rfl, rfl, rfl, rfl, rfl, rfl, rfl, fun h => ?_, fun h => ?_, ?_⟩
  · exact BitVec.eq_of_toNat_eq (by simp [sprRead])
  · exact BitVec.eq_of_toNat_eq (by simp [sprRead, Nat.shiftRight_eq_div_pow])
  · obtain ⟨a, ha, halow, hahigh⟩ := sprWrite_trapPcLow p w h
    obtain ⟨b, hb, hblow, hbhigh⟩ := sprWrite_trapPcHigh p w h
    exact ⟨a, b, ha, halow, hahigh, hb, hblow, hbhigh⟩
  · simp [Strip.sprWrite, h]
  · intro n hn
    simp only [List.mem_cons, List.not_mem_nil, or_false] at hn
    rcases hn with rfl | rfl | rfl | rfl | rfl | rfl | rfl | rfl <;> rfl

end Sys2Proof.Proofs
end

section
/-! PROOFS. Writes of the machine's own hardware and error records: what they leave alone, and the record in an open log. -/
namespace Sys2Proof.Machine

/-! ## What a write at home leaves alone

A write of the machine's own hardware changes memory, the L2 and HBM behind it, the bytes noted for older fetches and the
counter of free values; a record changes a die's log registers besides. Every other field is compared in one equation. -/

/-- A state without what a write at home can change. -/
def State.besideMemory (s : State) : State :=
  { s with mem := [], poison := [], l2 := [], sectorCopies := [], hbm := [], past := [], wrote := 0, free := 0 }

/-- A state without what an error record can change: memory, and the dies' registers. -/
def State.besideLogs (s : State) : State := { s.besideMemory with dies := [] }

@[simp] theorem notePast_besideMemory (s : State) (pa n : Nat) : (notePast s pa n).besideMemory = s.besideMemory := by
  unfold notePast; split <;> rfl

@[simp] theorem dropCopies_besideMemory (s : State) (line : Nat) : (dropCopies s line).besideMemory = s.besideMemory := by
  unfold dropCopies; split <;> rfl

@[simp] theorem l2Evict_besideMemory (s : State) (line : Nat) : (l2Evict s line).besideMemory = s.besideMemory := by
  have gone := dropCopies_besideMemory s line
  unfold l2Evict
  split
  · rfl
  · dsimp only
    split
    · exact gone
    · split
      · exact gone
      · split <;> exact gone

@[simp] theorem l2Free_besideMemory (s : State) (w : Option Way) : (l2Free s w).besideMemory = s.besideMemory := by
  unfold l2Free
  split
  · rfl
  · exact l2Evict_besideMemory _ _
  · rfl

@[simp] theorem l2Alloc_besideMemory (s : State) (line cp : Nat) : (l2Alloc s line cp).besideMemory = s.besideMemory := by
  unfold l2Alloc
  split
  · rfl
  · exact l2Free_besideMemory s _

@[simp] theorem l2Atomic_besideMemory (s : State) (line cp : Nat) : (l2Atomic s line cp).besideMemory = s.besideMemory := by
  unfold l2Atomic
  rw [dropCopies_besideMemory, l2Alloc_besideMemory]

@[simp] theorem l2Write_besideMemory (s : State) (line cp : Nat) : (l2Write s line cp).besideMemory = s.besideMemory := by
  unfold l2Write
  split
  · rfl
  · dsimp only
    split <;> exact l2Atomic_besideMemory s line cp

/-- A write at home for no launch changes memory and what stands behind it, and nothing else. -/
@[simp] theorem writeHome_besideMemory (s : State) (pa : Nat) (b : List Byte) :
    (writeHome s [] pa b).besideMemory = s.besideMemory := by
  unfold writeHome writeHomeAs
  split
  · exact (notePast_besideMemory _ _ _).trans (l2Write_besideMemory s _ _)
  · rfl

/-! ## What a record leaves alone -/

theorem besideLogs_of_besideMemory {s t : State} (h : t.besideMemory = s.besideMemory) : t.besideLogs = s.besideLogs :=
  congrArg (fun u : State => { u with dies := [] }) h

@[simp] theorem modDie_besideLogs (s : State) (die : Nat) (f : Die → Die) : (modDie s die f).besideLogs = s.besideLogs :=
  rfl

/-- A record changes memory and the dies' registers, and nothing else (R425). -/
@[simp] theorem logError_besideLogs (s : State) (die unit : Nat) (sev : Severity) (pos : Nat) :
    (logError s die unit sev pos).besideLogs = s.besideLogs := by
  have written (pa : Nat) (b : List Byte) : (writeHome s [] pa b).besideLogs = s.besideLogs :=
    besideLogs_of_besideMemory (writeHome_besideMemory s pa b)
  have appended (d : Die) (base : Nat) : (logError.append die unit sev pos s d base).besideLogs = s.besideLogs := by
    unfold logError.append
    split
    · exact written _ _
    · rfl
  unfold logError
  dsimp only
  split
  · split
    · exact written _ _
    · exact appended _ _
  · exact appended _ _

@[simp] theorem noteBeyond_besideLogs (s : State) (die pa : Nat) : (noteBeyond s die pa).besideLogs = s.besideLogs := by
  unfold noteBeyond
  split
  · rfl
  · exact logError_besideLogs _ _ _ _ _

@[simp] theorem logThermal_besideLogs (s : State) (die : Nat) (sev : Severity) (temp : Nat) :
    (logThermal s die sev temp).besideLogs = s.besideLogs := by
  unfold logThermal
  split <;> exact logError_besideLogs _ _ _ _ _

/-- Steps that each leave alone what records leave alone do so together. -/
theorem foldl_besideLogs {α : Type} {f : State → α → State} (h : ∀ s x, (f s x).besideLogs = s.besideLogs)
    (l : List α) (s : State) : (l.foldl f s).besideLogs = s.besideLogs := by
  induction l generalizing s with
  | nil => rfl
  | cons x l ih => exact (ih _).trans (h s x)

@[simp] theorem noteLogReads_besideLogs (s : State) (die : Nat) : (noteLogReads s die).besideLogs = s.besideLogs :=
  foldl_besideLogs (fun s _ => noteBeyond_besideLogs s _ _) _ s

section
variable {s t : State} (h : t.besideLogs = s.besideLogs)
include h

theorem boot_of_besideLogs : t.boot = s.boot := (congrArg State.boot h :)
theorem fenced_of_besideLogs : t.fenced = s.fenced := (congrArg State.fenced h :)
theorem strips_of_besideLogs : t.strips = s.strips := (congrArg State.strips h :)
end

/-! ## A record in an open log -/

@[simp] theorem length_errorRecord (s : State) (die unit : Nat) (sev : Severity) (pos : Nat) :
    (errorRecord s die unit sev pos).length = 32 := by
  simp [errorRecord]

/-- The registers of a die's log after a record of an event in slot `ix` (R425). -/
def Die.logged (d : Die) (event : Nat × Nat × Nat × Nat × Nat) : Die :=
  { d with elprod := d.elprod + 1, elseq := d.elseq + 1, lastErr := some event }

/-- A record in an open log: its 32 bytes at the ring's place, and the log's registers one further. -/
theorem logError_open {s : State} {die at_ : Nat} (h : LogOpen s die at_) (unit : Nat) (sev : Severity) (pos : Nat) :
    logError s die unit sev pos = modDie (writeHome s [] at_ (errorRecord s die unit sev pos)) die fun d =>
      d.logged (unit, sev.code, pos, s.clk, (dieOf s die).elprod.toNat % (dieOf s die).elcap.toNat) := by
  have clk : (writeHome s [] at_ (errorRecord s die unit sev pos)).clk = s.clk :=
    (congrArg State.clk (writeHome_besideMemory s at_ _) :)
  unfold logError
  simp only [h.fresh]
  unfold logError.append
  dsimp only
  rw [if_pos h.room, ← h.place]
  exact congrArg (fun c => modDie _ die fun d => d.logged (unit, sev.code, pos, c, _)) clk

theorem dies_writeHome (s : State) (pa : Nat) (b : List Byte) : (writeHome s [] pa b).dies = s.dies :=
  (congrArg State.dies (writeHome_besideMemory s pa b) :)

/-- The dies after a record in an open log: one die's log registers are one further. -/
theorem dieOf_logError_open {s : State} {die at_ : Nat} (h : LogOpen s die at_) (unit : Nat) (sev : Severity) (pos : Nat) :
    dieOf (logError s die unit sev pos) die = (dieOf s die).logged
      (unit, sev.code, pos, s.clk, (dieOf s die).elprod.toNat % (dieOf s die).elcap.toNat) := by
  have dies := dies_writeHome s at_ (errorRecord s die unit sev pos)
  rw [logError_open h, dieOf_modDie_same _ (dies ▸ h.here)]
  unfold dieOf
  rw [dies]

/-- The record of an event stands in an open log, and no other byte of memory has changed (R425, R426). -/
theorem logged_logError {s : State} {die at_ : Nat} (h : LogOpen s die at_) (unit : Nat) (sev : Severity) (pos : Nat) :
    Logged s (logError s die unit sev pos) die at_ unit sev pos := by
  have mem : (logError s die unit sev pos).mem = (writeHome s [] at_ (errorRecord s die unit sev pos)).mem := by
    rw [logError_open h]; rfl
  have regs := dieOf_logError_open h unit sev pos
  refine ⟨by rw [regs]; rfl, by rw [regs]; rfl, fun k hk => ?_, fun a ha => ?_⟩
  · have hk' : k < (errorRecord s die unit sev pos).length := by simpa using hk
    rw [mem, List.getD_eq_getElem?_getD, List.getElem?_eq_getElem hk', Option.getD_some]
    exact writeHomeAs_same h.canonical 0 [] h.present _ hk'
  · rw [mem]
    exact writeHomeAs_ne h.canonical h.sound 0 [] at_ _ (by simpa using ha)

end Sys2Proof.Machine
end

section
/-! PROOFS. Requests of the management port, units that fail self-test, and reports of temperature. -/
namespace Sys2Proof.Machine

/-! ## Requests of the management port -/

section
variable {s : State} {x : Session} {n op : Nat} {num : DWord} {run : State → Nat × List Byte × State}

/-- A request already answered does nothing (R490). -/
theorem request_answered (hx : tableGet s.sessions n = some x) (ha : x.answered.any (fun a => a.1 == num) = true) :
    request s n num op run = s := by
  simp [request, hx, ha]

/-- A request outside the session's role is answered DENIED (R491). -/
theorem request_denied (hx : tableGet s.sessions n = some x) (ha : x.answered.any (fun a => a.1 == num) = false)
    (hs : served s x op = false) : request s n num op run = respond s n num stDENIED [] := by
  simp only [request, hx, ha, hs, Bool.false_eq_true, if_false, Bool.not_false, if_true]

/-- A request that is served runs its operation, and its answer is stored (R490). -/
theorem request_served (hx : tableGet s.sessions n = some x) (ha : x.answered.any (fun a => a.1 == num) = false)
    (hs : served s x op = true) {st : Nat} {body : List Byte} {t : State} (hr : run s = (st, body, t)) :
    request s n num op run = respond t n num st body := by
  simp only [request, hx, ha, hs, hr, Bool.false_eq_true, if_false, Bool.not_true]

/-- A request lowers the fused minimum only if its operation does. -/
theorem fuseMin_le_request (h : s.boot.fuseMin ≤ (run s).2.2.boot.fuseMin) :
    s.boot.fuseMin ≤ (request s n num op run).boot.fuseMin := by
  unfold request
  split
  · exact Nat.le_refl _
  · split
    · exact Nat.le_refl _
    · split
      · exact Nat.le_refl _
      · exact h
end

/-- An instruction is a request of operation `op`, and its operation does not lower the fused minimum. -/
def Requests (i : Instr) (n : Nat) (num : DWord) (op : Nat) : Prop := ∃ run : State → Nat × List Byte × State,
  (∀ s, exec i s = .next (request s n num op run)) ∧ ∀ s : State, s.boot.fuseMin ≤ (run s).2.2.boot.fuseMin

theorem requests_readStatus (n : Nat) (num : DWord) : Requests (.mgmtReadStatus n num) n num 1 :=
  ⟨_, fun _ => rfl, fun _ => Nat.le_refl _⟩

theorem requests_readErrorLog (n : Nat) (num after : DWord) : Requests (.mgmtReadErrorLog n num after) n num 2 := by
  refine ⟨_, fun _ => rfl, fun s => ?_⟩
  have boot : ((List.range 4).foldl noteLogReads s).boot = s.boot :=
    boot_of_besideLogs (foldl_besideLogs noteLogReads_besideLogs _ s)
  exact Nat.le_of_eq (congrArg Boot.fuseMin boot.symm)

theorem requests_setPartitions (n : Nat) (num : DWord) (map owners weights : List Nat) (shares : List (Nat × Nat × Nat)) :
    Requests (.mgmtSetPartitions n num map owners weights shares) n num 3 := by
  refine ⟨_, fun _ => rfl, fun s => ?_⟩
  dsimp only
  split
  · exact Nat.le_refl _
  · split <;> exact Nat.le_refl _

theorem requests_patrolScrub (n : Nat) (num : DWord) (on : Bool) : Requests (.mgmtPatrolScrub n num on) n num 4 :=
  ⟨_, fun _ => rfl, fun _ => Nat.le_refl _⟩

theorem requests_setPowerCap (n : Nat) (num : DWord) (die watts : Nat) :
    Requests (.mgmtSetPowerCap n num die watts) n num 5 := by
  refine ⟨_, fun _ => rfl, fun s => ?_⟩
  split <;> exact Nat.le_refl _

theorem requests_loadFirmware (n : Nat) (num : DWord) (image : FwImage) :
    Requests (.mgmtLoadFirmware n num image) n num 6 := by
  refine ⟨_, fun _ => rfl, fun s => ?_⟩
  split <;> exact Nat.le_refl _

theorem requests_attestation (n : Nat) (num : DWord) (nonce : BitVec 256) :
    Requests (.mgmtAttestation n num nonce) n num 7 := ⟨_, fun _ => rfl, fun _ => Nat.le_refl _⟩

theorem requests_moduleReset (n : Nat) (num : DWord) : Requests (.mgmtModuleReset n num) n num 8 :=
  ⟨_, fun _ => rfl, fun _ => Nat.le_refl _⟩

/-- The minimum is raised to a version that is not below it, or stays (R492). -/
theorem requests_raiseSecurityVersion (n : Nat) (num : DWord) : Requests (.mgmtRaiseSecurityVersion n num) n num 9 := by
  refine ⟨_, fun _ => rfl, fun s => ?_⟩
  dsimp only
  split
  · exact Nat.le_refl _
  · split
    · exact Nat.le_refl _
    · rename_i allowed
      exact Nat.le_of_not_lt fun below => allowed (.inl below)

/-! ## Reads of an error log -/

/-- A fold whose steps all keep its start ends there. -/
theorem foldl_fixed_of_mem {α β : Type} {f : α → β → α} {a : α} {l : List β} (h : ∀ b ∈ l, f a b = a) :
    l.foldl f a = a := by
  induction l with
  | nil => rfl
  | cons b l ih =>
    rw [List.foldl_cons, h b List.mem_cons_self]
    exact ih fun c hc => h c (List.mem_cons_of_mem _ hc)

/-- A log whose ring lies in memory that is present is read without a trace (R230). -/
theorem noteLogReads_present {s : State} {die : Nat}
    (h : ∀ k < (dieOf s die).elcap.toNat, populated ((dieOf s die).elbase.toNat + 32 * k) = true) :
    noteLogReads s die = s := by
  refine foldl_fixed_of_mem fun k hk => if_pos (h _ (Nat.mod_lt _ ?_))
  have := List.mem_range.mp hk
  omega

/-! ## Self-test and boot -/

/-- The unit code of a failed unit's record (log 17). -/
def FailedUnit.code : FailedUnit → Nat
  | .bay _ => unitSelfTest
  | .core _ => unitSelfTestCore

/-- A failed unit's bays fenced off, and the unit in the module's error record (R3). -/
def fencedOff (s : State) (u : FailedUnit) : State :=
  { s with fenced := u.bays.foldl setAdd s.fenced, boot := { s.boot with failures := s.boot.failures ++ [u] } }

/-- A failed unit that exists and is not yet recorded is fenced and recorded, with one fatal record (R3). -/
theorem fence_new {s : State} {u : FailedUnit} (hok : u.ok = true) (hn : s.boot.failures.contains u = false) :
    fence s u = logError (fencedOff s u) u.die u.code .fatal u.number := by
  have go : ¬((!u.ok) = true ∨ s.boot.failures.contains u = true) := by rw [hok, hn]; simp
  cases u <;> exact if_neg go

/-- A unit that does not exist, or is recorded already, is not fenced again. -/
theorem fence_old {s : State} {u : FailedUnit} (h : u.ok = false ∨ s.boot.failures.contains u = true) : fence s u = s :=
  if_pos (h.imp_left fun h => by rw [h]; rfl)

/-- Fencing a unit: nothing at all, or the unit's bays fenced and the unit recorded; the rest of the boot record and the
strips stay. -/
theorem fence_cases (s : State) (u : FailedUnit) : fence s u = s ∧ (u.ok = true → u ∈ s.boot.failures) ∨
    ((fence s u).fenced = u.bays.foldl setAdd s.fenced ∧
      (fence s u).boot = { s.boot with failures := s.boot.failures ++ [u] } ∧ (fence s u).strips = s.strips) := by
  cases hok : u.ok with
  | false => exact .inl ⟨fence_old (.inl hok), fun h => by cases h⟩
  | true =>
    cases hn : s.boot.failures.contains u with
    | true => exact .inl ⟨fence_old (.inr hn), fun _ => List.contains_iff_mem.mp hn⟩
    | false =>
      have rest := logError_besideLogs (fencedOff s u) u.die u.code .fatal u.number
      rw [← fence_new hok hn] at rest
      exact .inr ⟨(fenced_of_besideLogs rest :), (boot_of_besideLogs rest :), (strips_of_besideLogs rest :)⟩

theorem mem_setAdd {l : List Nat} {a n : Nat} : n ∈ setAdd l a ↔ n = a ∨ n ∈ l := by
  induction l with
  | nil => simp [setAdd]
  | cons k l ih =>
    simp only [setAdd]
    split
    · simp
    · split
      · rename_i e; simp [e]
      · simp only [List.mem_cons, ih]
        exact or_left_comm

theorem mem_foldl_setAdd {as l : List Nat} {n : Nat} : n ∈ as.foldl setAdd l ↔ n ∈ as ∨ n ∈ l := by
  induction as generalizing l with
  | nil => simp
  | cons a as ih =>
    rw [List.foldl_cons, ih, mem_setAdd, List.mem_cons, or_assoc]
    exact or_left_comm

section
variable (s : State) (us : List FailedUnit)

/-- The self-test of any units changes no more of the boot record than its list of failures. -/
theorem foldl_fence_boot : ∃ l, (us.foldl fence s).boot = { s.boot with failures := l } := by
  induction us generalizing s with
  | nil => exact ⟨_, rfl⟩
  | cons u us ih =>
    obtain ⟨l, hl⟩ := ih (fence s u)
    refine ⟨l, hl.trans ?_⟩
    rcases fence_cases s u with ⟨h, -⟩ | ⟨-, h, -⟩ <;> rw [h]

theorem foldl_fence_strips : (us.foldl fence s).strips = s.strips := by
  induction us generalizing s with
  | nil => rfl
  | cons u us ih =>
    refine (ih (fence s u)).trans ?_
    rcases fence_cases s u with ⟨h, -⟩ | ⟨-, -, h⟩ <;> rw [h]
end

/-- What is fenced stays fenced. -/
theorem fence_fenced_mono {s : State} {n : Nat} (u : FailedUnit) (h : n ∈ s.fenced) : n ∈ (fence s u).fenced := by
  rcases fence_cases s u with ⟨e, -⟩ | ⟨e, -, -⟩
  · rwa [e]
  · exact e ▸ mem_foldl_setAdd.mpr (.inr h)

theorem foldl_fence_fenced_mono {s : State} {n : Nat} (us : List FailedUnit) (h : n ∈ s.fenced) :
    n ∈ (us.foldl fence s).fenced := by
  induction us generalizing s with
  | nil => exact h
  | cons u us ih => exact ih (fence_fenced_mono u h)

/-- A unit whose failure is recorded has its bays fenced. -/
def FencedIfFailed (s : State) (u : FailedUnit) : Prop := u ∈ s.boot.failures → ∀ n ∈ u.bays, n ∈ s.fenced

theorem fencedIfFailed_fence {s : State} {u : FailedUnit} (h : FencedIfFailed s u) (v : FailedUnit) :
    FencedIfFailed (fence s v) u := by
  rcases fence_cases s v with ⟨e, -⟩ | ⟨hf, hb, -⟩
  · rwa [e]
  · intro hu n hn
    rw [hb] at hu
    rw [hf]
    rcases List.mem_append.mp hu with old | new
    · exact mem_foldl_setAdd.mpr (.inr (h old n hn))
    · exact mem_foldl_setAdd.mpr (.inl (List.mem_singleton.mp new ▸ hn))

/-- A unit that fails self-test is fenced with all its bays (R3). -/
theorem foldl_fence_fences {s : State} {u : FailedUnit} (hok : u.ok = true) (h : FencedIfFailed s u)
    {us : List FailedUnit} (hu : u ∈ us) : ∀ n ∈ u.bays, n ∈ (us.foldl fence s).fenced := by
  intro n hn
  induction us generalizing s with
  | nil => cases hu
  | cons v us ih =>
    rcases List.mem_cons.mp hu with rfl | later
    · refine foldl_fence_fenced_mono us ?_
      rcases fence_cases s u with ⟨e, recorded⟩ | ⟨e, -, -⟩
      · rw [e]; exact h (recorded hok) n hn
      · rw [e]; exact mem_foldl_setAdd.mpr (.inl hn)
    · exact ih (fencedIfFailed_fence h v) later

/-- After the self-test: the image runs if it verifies (R492). -/
def bootImage (image : Option FwImage) (s : State) : State := match image with
  | some i => if imageRuns s.boot i then runImage s i else s
  | none => s

/-- A boot of a module that runs no image: the failed units are fenced, then the image runs if it verifies (R492). -/
theorem execBoot_fresh {s : State} (h : s.boot.image = none) (image : Option FwImage) (failed : SelfTest) :
    execBoot image failed s = .next (bootImage image
      ((failed.bays.map FailedUnit.bay ++ failed.cores.map FailedUnit.core).foldl fence s)) :=
  congrArg _ (if_neg (by simp [h]))

/-! ## Records of a state whose log registers another has -/

/-- Two states have the same log on a die, the same cycle and the same memory: what a record depends on. -/
structure SameLog (s t : State) (die : Nat) : Prop where
  dies : t.dies.length = s.dies.length
  base : (dieOf t die).elbase = (dieOf s die).elbase
  cap : (dieOf t die).elcap = (dieOf s die).elcap
  prod : (dieOf t die).elprod = (dieOf s die).elprod
  cons : (dieOf t die).elcons = (dieOf s die).elcons
  seq : (dieOf t die).elseq = (dieOf s die).elseq
  last : (dieOf t die).lastErr = (dieOf s die).lastErr
  clk : t.clk = s.clk
  mem : t.mem = s.mem
  l2 : t.l2 = s.l2
  hbm : t.hbm = s.hbm

section
variable {s t : State} {die at_ : Nat} (hl : SameLog s t die) (ho : LogOpen s die at_)
include hl

theorem errorRecord_sameLog (unit : Nat) (sev : Severity) (pos : Nat) :
    errorRecord t die unit sev pos = errorRecord s die unit sev pos := by
  rw [errorRecord, errorRecord, hl.seq, hl.clk]

include ho

theorem logOpen_sameLog : LogOpen t die at_ where
  here := hl.dies ▸ ho.here
  fresh := hl.last.trans ho.fresh
  room := by rw [hl.prod, hl.cons, hl.cap]; exact ho.room
  place := by rw [hl.base, hl.prod, hl.cap]; exact ho.place
  present := ho.present
  canonical := hl.mem ▸ ho.canonical
  sound := by unfold Unhidden; rw [hl.hbm, hl.l2]; exact ho.sound

/-- A record that follows changes beside the log stands there as in the state before them. -/
theorem logged_sameLog (unit : Nat) (sev : Severity) (pos : Nat) :
    Logged s (logError t die unit sev pos) die at_ unit sev pos := by
  have h := logged_logError (logOpen_sameLog hl ho) unit sev pos
  unfold Logged at h
  rwa [errorRecord_sameLog hl, hl.prod, hl.seq, hl.mem] at h
end

/-- A change outside memory, caches, dies and the clock keeps every log. -/
theorem sameLog_of_eq {s t : State} (hd : t.dies = s.dies) (hc : t.clk = s.clk) (hm : t.mem = s.mem) (hl : t.l2 = s.l2)
    (hh : t.hbm = s.hbm) (die : Nat) : SameLog s t die := by
  have e : dieOf t die = dieOf s die := by rw [dieOf, dieOf, hd]
  constructor
  case dies => rw [hd]
  case clk => exact hc
  case mem => exact hm
  case l2 => exact hl
  case hbm => exact hh
  all_goals rw [e]

@[simp] theorem length_listMod {α : Type} (l : List α) (i : Nat) (f : α → α) : (listMod l i f).length = l.length := by
  induction l generalizing i with
  | nil => rfl
  | cons x l ih =>
    cases i with
    | zero => rfl
    | succ i => simp [listMod, ih]

/-! ## Bands -/

theorem bandOf_throttle {temp : Nat} (h1 : 95 < temp) (h2 : temp ≤ 105) : bandOf temp = .throttle := by
  rw [bandOf, if_neg (by omega), if_pos h2]

theorem bandOf_critical {temp : Nat} (h : 105 < temp) : bandOf temp = .critical := by
  rw [bandOf, if_neg (by omega), if_neg (by omega)]

/-- A die's temperature and its band as they are reported. -/
def reported (s : State) (die temp : Nat) : State :=
  if die = 4 then { s with sTemp := temp, sBand := bandOf temp }
  else modDie s die fun d => { d with temp := temp, band := bandOf temp }

section
variable {s : State} {die temp : Nat}

/-- A report in the band of the last one leaves no record. -/
theorem setBand_same (h : bandNow s die = bandOf temp) : setBand s die temp = reported s die temp := by
  simp only [setBand, h, if_true, reported]

/-- Entering the throttle band from below leaves a corrected record (R500). -/
theorem setBand_throttle (h : bandNow s die = .normal) (h1 : 95 < temp) (h2 : temp ≤ 105) :
    setBand s die temp = logThermal (reported s die temp) die .corrected temp := by
  simp [setBand, h, bandOf_throttle h1 h2, reported]

/-- Entering the critical band leaves a fatal record (R500). -/
theorem setBand_critical (h : bandNow s die ≠ .critical) (h1 : 105 < temp) :
    setBand s die temp = logThermal (reported s die temp) die .fatal temp := by
  simp [setBand, h, bandOf_critical h1, reported]
end

section
variable {s : State} {die : Nat} (hd : die < s.dies.length) (h4 : die ≠ 4) (temp : Nat)
include hd h4

/-- The registers of a C-die after a report. -/
theorem dieOf_reported : dieOf (reported s die temp) die = { dieOf s die with temp := temp, band := bandOf temp } := by
  rw [reported, if_neg h4, dieOf_modDie_same s hd]

theorem sameLog_reported : SameLog s (reported s die temp) die := by
  have e := dieOf_reported hd h4 temp
  have shape : reported s die temp = modDie s die _ := if_neg h4
  constructor
  case dies => rw [shape]; exact length_listMod _ _ _
  case clk => rw [shape]; rfl
  case mem => rw [shape]; rfl
  case l2 => rw [shape]; rfl
  case hbm => rw [shape]; rfl
  all_goals rw [e]

/-- The thermal record of a C-die that reports a band: the band and temperature stand, the record is in the die's log, and
the strips are as before. -/
theorem logThermal_reported {at_ : Nat} (ho : LogOpen s die at_) (sev : Severity) :
    (dieOf (logThermal (reported s die temp) die sev temp) die).band = bandOf temp ∧
      (dieOf (logThermal (reported s die temp) die sev temp) die).temp = temp ∧
      Logged s (logThermal (reported s die temp) die sev temp) die at_ unitThermal sev temp ∧
      (logThermal (reported s die temp) die sev temp).strips = s.strips := by
  have same := sameLog_reported hd h4 temp
  have regs := dieOf_logError_open (logOpen_sameLog same ho) unitThermal sev temp
  have strips : (reported s die temp).strips = s.strips := by rw [reported, if_neg h4]; rfl
  rw [dieOf_reported hd h4] at regs
  rw [logThermal, if_neg h4, regs]
  exact ⟨rfl, rfl, logged_sameLog same ho unitThermal sev temp,
    (strips_of_besideLogs (logError_besideLogs _ _ _ _ _)).trans strips⟩
end

theorem sameLog_reportedSdie (s : State) (temp : Nat) : SameLog s (reported s 4 temp) 0 := by
  rw [reported, if_pos rfl]
  apply sameLog_of_eq <;> rfl

theorem modDie_congr {s : State} {die : Nat} {f g : Die → Die} (h : f (dieOf s die) = g (dieOf s die)) :
    modDie s die f = modDie s die g := by
  have list : ∀ (l : List Die) (i : Nat), f (l.getD i resetDie) = g (l.getD i resetDie) →
      listMod l i f = listMod l i g := by
    intro l
    induction l with
    | nil => exact fun _ _ => rfl
    | cons d l ih =>
      intro i hi
      cases i with
      | zero => exact congrArg (· :: l) hi
      | succ i => exact congrArg (d :: ·) (ih i hi)
  exact congrArg (fun dies => { s with dies := dies }) (list s.dies die h)

/-- A record in an open log leaves every die's band. -/
theorem band_logError_open {s : State} {die at_ : Nat} (h : LogOpen s die at_) (unit : Nat) (sev : Severity) (pos d : Nat) :
    (dieOf (logError s die unit sev pos) d).band = (dieOf s d).band := by
  by_cases e : d = die
  · subst e
    rw [dieOf_logError_open h]; rfl
  · rw [logError_open h, dieOf_modDie_ne _ e, dieOf, dies_writeHome, dieOf]

/-- The thermal record of the S-die that reports a band: it stands in die 0's log, and no C-die's band changes. -/
theorem logThermal_reportedSdie {s : State} {at_ : Nat} (ho : LogOpen s 0 at_) (sev : Severity) (temp : Nat) :
    (logThermal (reported s 4 temp) 4 sev temp).sBand = bandOf temp ∧
      (logThermal (reported s 4 temp) 4 sev temp).sTemp = temp ∧
      Logged s (logThermal (reported s 4 temp) 4 sev temp) 0 at_ unitThermalSdie sev temp ∧
      (logThermal (reported s 4 temp) 4 sev temp).strips = s.strips ∧
      ∀ d, (dieOf (logThermal (reported s 4 temp) 4 sev temp) d).band = (dieOf s d).band := by
  have same := sameLog_reportedSdie s temp
  have rest := logError_besideLogs (reported s 4 temp) 0 unitThermalSdie sev temp
  exact ⟨(congrArg State.sBand rest :), (congrArg State.sTemp rest :), logged_sameLog same ho unitThermalSdie sev temp,
    (strips_of_besideLogs rest :), band_logError_open (logOpen_sameLog same ho) unitThermalSdie sev temp⟩

end Sys2Proof.Machine
end

section
/-! PROOFS. The module's management, boot and limits (O59): each operation and event on its own, then the statement. -/
namespace Sys2Proof.Machine

/-! ## The management port, operation by operation -/

section
variable {s : State} {x : Session} {n : Nat} {num : DWord} (hx : tableGet s.sessions n = some x)
  (ha : x.answered.any (fun a => a.1 == num) = false)
include hx ha

/-- A served MGMT_READ_ERROR_LOG answers the records of all dies; its reads beyond memory are recorded (R230, R490). -/
theorem execMgmtReadErrorLog_served (hs : served s x 2 = true) (after : DWord) : execMgmtReadErrorLog n num after s =
    .next (respond ((List.range 4).foldl noteLogReads s) n num stOK
      (s.dies.flatMap fun d => recordsAfter s d after.toNat)) :=
  congrArg Host.Outcome.next (request_served (run := fun s =>
    (stOK, s.dies.flatMap fun d => recordsAfter s d after.toNat, (List.range 4).foldl noteLogReads s)) hx ha hs rfl)

/-- A served MGMT_PATROL_SCRUB switches the scrub (R490). -/
theorem execMgmtPatrolScrub_served (hs : served s x 4 = true) (on : Bool) : execMgmtPatrolScrub n num on s =
    .next { respond s n num stOK [] with scrubOn := on } :=
  congrArg Host.Outcome.next
    (request_served (run := fun s => (stOK, [], { s with scrubOn := on })) hx ha hs rfl)

/-- A served MGMT_SET_POWER_CAP of a C-die sets its cap and holds it back if it draws more (R490, R499). -/
theorem execMgmtSetPowerCap_served (hs : served s x 5 = true) {die : Nat} (hd : die < 4) (watts : Nat) :
    execMgmtSetPowerCap n num die watts s =
      .next (modDie (respond s n num stOK []) die fun d => { d with cap := watts, held := watts < d.power }) :=
  congrArg Host.Outcome.next (request_served (run := fun s => if 4 ≤ die then (stMALFORMED, [], s)
    else (stOK, [], modDie s die fun d => { d with cap := watts, held := watts < d.power })) hx ha hs
    (if_neg (Nat.not_le_of_lt hd)))

/-- A served MGMT_SET_PARTITIONS of well-formed maps: refused while a job runs, else the maps stand (R490). -/
theorem execMgmtSetPartitions_served (hs : served s x 3 = true) {map owners weights : List Nat}
    (shares : List (Nat × Nat × Nat)) (hm : map.length = 16) (ho : owners.length = 16) (hw : weights.length = 16)
    (hall : ∀ m ∈ map, m < 16) : execMgmtSetPartitions n num map owners weights shares s = .next
      (if jobsRun s then respond s n num stREFUSED []
      else respond { s with
        parts := map
        weights := weights
        shares := shares
        heads := (s.heads.zip owners).map fun h => { h.1 with owner := BitVec.ofNat 64 h.2 &&& 0x10F } } n num stOK []) := by
  have wellFormed : ¬(map.length ≠ 16 ∨ owners.length ≠ 16 ∨ weights.length ≠ 16 ∨ (!map.all (· < 16)) = true) := by
    simpa [hm, ho, hw] using hall
  cases hj : jobsRun s with
  | true => exact congrArg _ (request_served hx ha hs ((if_neg wellFormed).trans (if_pos hj)))
  | false => exact congrArg _ (request_served hx ha hs ((if_neg wellFormed).trans (if_neg (by simp [hj]))))

/-- A served MGMT_LOAD_FIRMWARE runs an image that verifies and refuses another (R492). -/
theorem execMgmtLoadFirmware_served (hs : served s x 6 = true) (image : FwImage) :
    execMgmtLoadFirmware n num image s = .next
      (if imageRuns s.boot image then respond (runImage s image) n num stOK [] else respond s n num stREFUSED []) := by
  split
  · rename_i runs
    exact congrArg _ (request_served hx ha hs (if_pos runs))
  · rename_i runs
    exact congrArg _ (request_served hx ha hs (if_neg runs))

/-- A served MGMT_RAISE_SECURITY_VERSION raises the fused minimum to the running image's version (R492). -/
theorem execMgmtRaiseSecurityVersion_served (hs : served s x 9 = true) {i : FwImage} (hi : s.boot.image = some i)
    (hlow : s.boot.fuseMin ≤ i.version) (hhigh : i.version ≤ 64) : execMgmtRaiseSecurityVersion n num s = .next
      (respond { s with boot := { s.boot with fuseMin := i.version } } n num stOK []) := by
  refine congrArg _ (request_served hx ha hs ?_)
  simp only [hi]
  exact if_neg (by omega)

/-- A malformed request is answered so, whatever the session's role (R490). -/
theorem execMgmtMalformedRequest_fresh : execMgmtMalformedRequest n num s = .next (respond s n num stMALFORMED []) := by
  simp only [execMgmtMalformedRequest, hx, ha, Bool.false_eq_true, if_false]
end

/-! ## Sessions -/

/-- A session of a role, none in recovery, as it is opened (R491). -/
def opened (s : State) (r : Option Role) : State :=
  { s with sessions := tablePut s.sessions s.nextId ⟨r, []⟩, nextId := s.nextId + 1 }

section
variable {s : State} {anchor : Option Nat}

theorem execMgmtSession_recovery (hr : s.boot.recovery = true) : execMgmtSession anchor s = .next (opened s none) :=
  congrArg Host.Outcome.next (if_pos hr)

theorem execMgmtSession_anchored (hr : s.boot.recovery = false) {i : FwImage} {k : Nat} {r : Role}
    (hi : s.boot.image = some i) (hk : i.anchors[k]? = some r) :
    execMgmtSession (some k) s = .next (opened s (some r)) := by
  simp [execMgmtSession, hr, hi, hk, opened]

theorem execMgmtSession_unanchored (hr : s.boot.recovery = false) {i : FwImage} {k : Nat}
    (hi : s.boot.image = some i) (hk : i.anchors[k]? = none) : execMgmtSession (some k) s = .next s := by
  simp [execMgmtSession, hr, hi, hk]

theorem execMgmtSession_chainless (hr : s.boot.recovery = false) (h : anchor = none ∨ s.boot.image = none) :
    execMgmtSession anchor s = .next s := by
  rcases h with rfl | hi
  · simp [execMgmtSession, hr]
  · cases anchor <;> simp [execMgmtSession, hr, hi]
end

/-! ## Units that fail self-test -/

/-- A new failed unit alone, with its die's log open: one fatal record, its bays fenced, and the unit recorded (R3). -/
theorem logged_boot_failure {s : State} {u : FailedUnit} {at_ : Nat} (hok : u.ok = true)
    (hn : s.boot.failures.contains u = false) (ho : LogOpen s u.die at_) :
    Logged s (fence s u) u.die at_ u.code .fatal u.number ∧ (fence s u).fenced = u.bays.foldl setAdd s.fenced ∧
      (fence s u).boot = { s.boot with failures := s.boot.failures ++ [u] } := by
  have same : SameLog s (fencedOff s u) u.die := by apply sameLog_of_eq <;> rfl
  have rest := logError_besideLogs (fencedOff s u) u.die u.code .fatal u.number
  rw [fence_new hok hn]
  exact ⟨logged_sameLog same ho _ _ _, (fenced_of_besideLogs rest :), (boot_of_besideLogs rest :)⟩

/-- An image's run after the self-test keeps fuses, strips and fences. -/
theorem bootImage_frame (image : Option FwImage) (s : State) : (bootImage image s).boot.fuseMin = s.boot.fuseMin ∧
    (bootImage image s).strips = s.strips ∧ (bootImage image s).fenced = s.fenced := by
  unfold bootImage
  split
  · split <;> exact ⟨rfl, rfl, rfl⟩
  · exact ⟨rfl, rfl, rfl⟩

/-- A bay with no recorded failure, its own or its core's, is fenced when it fails. -/
theorem fencedIfFailed_of_not_mem {s : State} {n : Nat} (h : n ∉ s.boot.failures.flatMap FailedUnit.bays) :
    FencedIfFailed s (.bay n) := fun hf _ _ => absurd (List.mem_flatMap.mpr ⟨_, hf, List.mem_singleton_self n⟩) h

/-! ## Reports of heat and coolant -/

section
variable {s : State} {die temp : Nat}

theorem execThermalThrottleBand_same (h : bandNow s die = bandOf temp) (ht : temp ≤ 105) :
    execThermalThrottleBand die temp s = .next (reported s die temp) :=
  congrArg Host.Outcome.next ((if_pos ht).trans (setBand_same h))

theorem execThermalThrottleBand_enters (h : bandNow s die = .normal) (h1 : 95 < temp) (h2 : temp ≤ 105) :
    execThermalThrottleBand die temp s = .next (logThermal (reported s die temp) die .corrected temp) :=
  congrArg Host.Outcome.next ((if_pos h2).trans (setBand_throttle h h1 h2))

theorem execThermalCriticalBand_enters (h : bandNow s die ≠ .critical) (h1 : 105 < temp) (h2 : temp < 110) :
    execThermalCriticalBand die temp s = .next (logThermal (reported s die temp) die .fatal temp) :=
  congrArg Host.Outcome.next ((if_pos h2).trans (setBand_critical h h1))

theorem execThermalReset_below (h : temp < 110) : execThermalReset die temp s = .next s :=
  congrArg Host.Outcome.next (if_neg (Nat.not_le_of_lt h))

theorem execThermalReset_reached (h : 110 ≤ temp) :
    execThermalReset die temp s = .next (moduleReset (logThermal s die .fatal temp)) :=
  congrArg Host.Outcome.next (if_pos h)
end

theorem execCoolantAlarm_inside (s : State) {inlet flow : Nat} (h1 : inlet ≤ 40) (h2 : 4 ≤ flow) :
    execCoolantAlarm inlet flow s = .next { s with coolant := (inlet, flow), alarm := false } :=
  congrArg Host.Outcome.next (if_neg (by omega))

theorem execCoolantAlarm_outside (s : State) {inlet flow : Nat} (h : 40 < inlet ∨ flow < 4) :
    execCoolantAlarm inlet flow s = .next (logError { s with coolant := (inlet, flow), alarm := true } 0 unitCoolant
      .masked (inlet * 2 ^ 16 + flow)) :=
  congrArg Host.Outcome.next (if_pos h)

/-- A die that is held back lets no strip issue (R499). -/
theorem canIssue_held {s : State} {p : Strip} (h : (dieOf s p.die).held = true) : canIssue s p = false := by
  simp [canIssue, h]

end Sys2Proof.Machine

namespace Sys2Proof.Proofs
open Sys2Proof Sys2Proof.Machine

/-- Settles O59: the requests by `request_served`, the records by `logged_logError`, what a record leaves alone by
`logError_besideLogs`. -/
theorem managementBootAndLimits : Obligations.ManagementBootAndLimits := by
  refine ⟨?roles, ?operations, ?sessions, ?boot, ?power, ?heat, ?sdie, ?coolant⟩
  case roles =>
    intro s x n op i num after map owners weights shares on die watts image nonce hx hi
    have requests : Requests i n num op := by
      simp only [List.mem_cons, Prod.mk.injEq, List.not_mem_nil, or_false] at hi
      rcases hi with ⟨rfl, rfl⟩ | ⟨rfl, rfl⟩ | ⟨rfl, rfl⟩ | ⟨rfl, rfl⟩ | ⟨rfl, rfl⟩ | ⟨rfl, rfl⟩ | ⟨rfl, rfl⟩ | ⟨rfl, rfl⟩ |
        ⟨rfl, rfl⟩
      · exact requests_readStatus n num
      · exact requests_readErrorLog n num after
      · exact requests_setPartitions n num map owners weights shares
      · exact requests_patrolScrub n num on
      · exact requests_setPowerCap n num die watts
      · exact requests_loadFirmware n num image
      · exact requests_attestation n num nonce
      · exact requests_moduleReset n num
      · exact requests_raiseSecurityVersion n num
    obtain ⟨run, he, hfuse⟩ := requests
    refine ⟨fun answered => ?_, fun fresh denied => ?_, _, he s, fuseMin_le_request (hfuse s)⟩
    · rw [he, request_answered hx answered]
    · rw [he, request_denied hx fresh denied]; rfl
  case operations =>
    intro s x n num after map owners weights shares on die watts image nonce hx ha
    refine ⟨fun hs => ?status, fun hs => ⟨?errors, fun present => ?unrecorded⟩,
      fun hs hm ho hw hall => ⟨fun hj => ?busy, fun hj => ?partitions⟩, fun hs => ?scrub, fun hs hd => ?cap,
      fun hs => ?firmware, fun hs => ⟨Config.attest (reportBytes s nonce), ?attestation⟩,
      fun hs => ⟨respond (moduleReset s) n num stOK [], ?reset, rfl, rfl, rfl, rfl, rfl, rfl⟩,
      fun hs i hi hlow hhigh => ?version, execMgmtMalformedRequest_fresh hx ha⟩
    case status => exact congrArg _ (request_served hx ha hs rfl)
    case errors => exact execMgmtReadErrorLog_served hx ha hs after
    case unrecorded => exact foldl_fixed_of_mem fun d hd => noteLogReads_present (present d (List.mem_range.mp hd))
    case busy => exact (execMgmtSetPartitions_served hx ha hs shares hm ho hw hall).trans (by rw [if_pos hj]; rfl)
    case partitions =>
      have done := execMgmtSetPartitions_served hx ha hs shares hm ho hw hall
      rw [if_neg (by simp [hj])] at done
      exact ⟨_, done, rfl, rfl, rfl, rfl, rfl, rfl⟩
    case scrub => exact execMgmtPatrolScrub_served hx ha hs on
    case cap => exact execMgmtSetPowerCap_served hx ha hs hd watts
    case firmware => exact execMgmtLoadFirmware_served hx ha hs image
    case attestation => exact congrArg _ (request_served hx ha hs rfl)
    case reset => exact congrArg _ (request_served hx ha hs rfl)
    case version => exact execMgmtRaiseSecurityVersion_served hx ha hs hi hlow hhigh
  case sessions =>
    exact fun s k i r anchor => ⟨execMgmtSession_recovery, fun hr hi hk => execMgmtSession_anchored hr hi hk,
      fun hr hi hk => execMgmtSession_unanchored hr hi hk, execMgmtSession_chainless⟩
  case boot =>
    intro s i image bays cores at_ u
    refine ⟨fun hi => congrArg _ (if_pos hi), fun hi => execBoot_fresh hi (some i) ⟨[], []⟩, fun hi => ?self_test,
      fun hi hn hu ho => ?bay, fun hi hn hu ho => ?core⟩
    case self_test =>
      generalize hus : bays.map FailedUnit.bay ++ cores.map FailedUnit.core = us
      obtain ⟨l, hboot⟩ := foldl_fence_boot s us
      obtain ⟨hfuse, hstrips, hfenced⟩ := bootImage_frame image (us.foldl fence s)
      refine ⟨_, hus ▸ execBoot_fresh hi image ⟨bays, cores⟩, hfuse.trans (by rw [hboot]),
        hstrips.trans (foldl_fence_strips s us), fun n hn hlt hnew => ?_, fun himg => ?_⟩
      · rw [hfenced]
        have mem : FailedUnit.bay n ∈ us := hus ▸ List.mem_append_left _ (List.mem_map_of_mem hn)
        exact foldl_fence_fences (u := .bay n) (decide_eq_true hlt) (fencedIfFailed_of_not_mem hnew) mem n
          (List.mem_singleton_self n)
      · subst himg
        exact ⟨by rw [bootImage, hboot]; exact hi, by rw [bootImage, hboot]⟩
    case bay =>
      obtain ⟨record, fenced, boot⟩ := logged_boot_failure (u := .bay u) (decide_eq_true hu) hn ho
      exact ⟨_, execBoot_fresh hi none ⟨[u], []⟩, record, fenced, boot⟩
    case core =>
      obtain ⟨record, fenced, boot⟩ := logged_boot_failure (u := .core u) (decide_eq_true hu) hn ho
      refine ⟨_, execBoot_fresh hi none ⟨[], [u]⟩, record, fun b hb => ?_, boot⟩
      exact fenced ▸ mem_foldl_setAdd.mpr (.inl (List.mem_map.mpr ⟨b, List.mem_range.mpr hb, rfl⟩))
  case power =>
    intro s die watts hd
    have same := dieOf_modDie_same s hd fun d => { d with power := watts, held := d.cap < watts }
    refine ⟨_, rfl, same, fun d hne => dieOf_modDie_ne s hne _, rfl, rfl, fun hover p hp => canIssue_held ?_⟩
    rw [hp, same]
    exact decide_eq_true hover
  case heat =>
    intro s die temp at_ hd h4
    have bandNow_eq : bandNow s die = (dieOf s die).band := if_neg h4
    refine ⟨fun h1 hb => ?same, rfl, rfl, fun h1 h2 hb ho => ?throttle, fun h1 h2 hb ho => ?critical,
      execThermalReset_below, fun h => ?reset⟩
    case same =>
      refine (execThermalThrottleBand_same (bandNow_eq.trans hb) h1).trans
        (congrArg Host.Outcome.next ((if_neg h4).trans ?_))
      exact modDie_congr (by rw [← hb])
    case throttle =>
      obtain ⟨band, reading, record, -⟩ := logThermal_reported hd h4 temp ho .corrected
      rw [bandOf_throttle h1 h2] at band
      exact ⟨_, execThermalThrottleBand_enters (bandNow_eq.trans hb) h1 h2, band, reading, record,
        by rw [dieDispatches, band]; rfl⟩
    case critical =>
      obtain ⟨band, -, record, strips⟩ := logThermal_reported hd h4 temp ho .fatal
      rw [bandOf_critical h1] at band
      exact ⟨_, execThermalCriticalBand_enters (bandNow_eq ▸ hb) h1 h2, band, record,
        by rw [dieDispatches, band]; rfl, strips⟩
    case reset =>
      have boot := boot_of_besideLogs (logThermal_besideLogs s die .fatal temp)
      exact ⟨_, execThermalReset_reached h, rfl, rfl, rfl, rfl, rfl, (congrArg Boot.fuseMin boot :)⟩
  case sdie =>
    intro s temp at_
    have bandNow_eq : bandNow s 4 = s.sBand := rfl
    refine ⟨fun h1 hb => ?same, fun h1 h2 hb ho => ?throttle, fun h1 h2 hb ho => ?critical,
      fun h => ⟨_, execThermalReset_reached h, rfl, rfl, rfl⟩⟩
    case same =>
      refine (execThermalThrottleBand_same (bandNow_eq.trans hb) h1).trans
        (congrArg Host.Outcome.next ((if_pos rfl).trans ?_))
      rw [← hb]
    case throttle =>
      obtain ⟨band, reading, record, -, others⟩ := logThermal_reportedSdie ho .corrected temp
      exact ⟨_, execThermalThrottleBand_enters (bandNow_eq.trans hb) h1 h2, band.trans (bandOf_throttle h1 h2),
        reading, record, others⟩
    case critical =>
      obtain ⟨band, reading, record, strips, others⟩ := logThermal_reportedSdie ho .fatal temp
      exact ⟨_, execThermalCriticalBand_enters hb h1 h2, band.trans (bandOf_critical h1), reading, record,
        strips, others⟩
  case coolant =>
    intro s inlet flow at_
    refine ⟨execCoolantAlarm_inside s, execCoolantAlarm_outside s, fun h ho => ?_⟩
    have same : SameLog s { s with coolant := (inlet, flow), alarm := true } 0 := by apply sameLog_of_eq <;> rfl
    have rest := logError_besideLogs { s with coolant := (inlet, flow), alarm := true } 0 unitCoolant .masked
      (inlet * 2 ^ 16 + flow)
    exact ⟨_, execCoolantAlarm_outside s h, (congrArg State.alarm rest :), (congrArg State.coolant rest :),
      logged_sameLog same ho _ _ _, (strips_of_besideLogs rest :)⟩

end Sys2Proof.Proofs
end

section
/-! PROOFS. Integer results (O11, O18): the value that an integer type keeps of an exact one, and the words that hold
it. -/
namespace Sys2Proof.Machine

/-! ## Words and numbers -/

/-- Words written from a number and read back keep its low bits. -/
theorem wordsNat_wordsOf (n x : Nat) : wordsNat (wordsOf n x) = x % 2 ^ (32 * n) := by
  induction n generalizing x with
  | zero => simp [wordsOf, wordsNat, Nat.mod_one]
  | succ n ih =>
    have cons : wordsOf (n + 1) x = BitVec.ofNat 32 x :: wordsOf n (x / 2 ^ 32) := by
      simp only [wordsOf, List.range_succ_eq_map, List.map_cons, List.map_map, Nat.mul_zero, Nat.pow_zero, Nat.div_one,
        Nat.div_div_eq_div_mul, ← Nat.pow_add]
      simp [Function.comp_def, Nat.mul_add, Nat.add_comm]
    rw [cons, wordsNat, ih, BitVec.toNat_ofNat, Nat.mul_add, Nat.mul_one, Nat.add_comm (32 * n), Nat.pow_add,
      Nat.mod_mul]

theorem two_pow_cast (n : Nat) : ((2 ^ n : Nat) : Int) = 2 ^ n := Int.natCast_pow 2 n

theorem two_pow_cast_pos (n : Nat) : (0 : Int) < (2 ^ n : Nat) := Int.natCast_pos.mpr (Nat.two_pow_pos n)

theorem cast_wrapNat (n : Nat) (x : Int) : (wrapNat n x : Int) = x % (2 ^ n : Nat) := by
  rw [wrapNat, ← two_pow_cast, Int.toNat_of_nonneg (Int.emod_nonneg x (Int.ne_of_gt (two_pow_cast_pos n)))]

theorem wrapNat_lt (n : Nat) (x : Int) : wrapNat n x < 2 ^ n := by
  have := Int.emod_lt_of_pos x (two_pow_cast_pos n)
  have := cast_wrapNat n x
  omega

/-- The word of a wrapped number is the two's complement word of the number. -/
theorem ofNat_wrapNat (x : Int) : BitVec.ofNat 32 (wrapNat 32 x) = BitVec.ofInt 32 x := by
  rw [← BitVec.ofInt_natCast, cast_wrapNat]
  exact BitVec.eq_of_toInt_eq (by rw [BitVec.toInt_ofInt, BitVec.toInt_ofInt, Int.emod_bmod])

/-- Two's complement reading is the balanced residue. -/
theorem signedOf_eq_bmod {n : Nat} (hn : 0 < n) (x : Nat) : signedOf n x = (x : Int).bmod (2 ^ n) := by
  obtain ⟨k, rfl⟩ : ∃ k, n = k + 1 := ⟨n - 1, by omega⟩
  have half : ((2 ^ (k + 1) : Nat) + 1 : Int) / 2 = (2 ^ k : Nat) := by
    rw [Nat.pow_succ]
    omega
  simp only [signedOf, Int.bmod_def, half, Nat.add_sub_cancel, ← two_pow_cast, ← Int.natCast_emod, Int.ofNat_lt]
  split
  · rw [if_neg (by omega)]
  · rw [if_pos (by omega)]

/-! ## The value that a type keeps -/

/-- The value of integer type `t` that an exact integer wraps to (R34): its residue modulo 2^n in the type's range. -/
def intWrap (t : Nat) (x : Int) : Int :=
  if intSigned t then x.bmod (2 ^ intBits t) else x % (2 ^ intBits t : Nat)

theorem intBits_pos (t : Nat) : 0 < intBits t := by
  unfold intBits
  split <;> decide

theorem intVal_eq_intWrap (t x : Nat) : intVal t x = intWrap t x := by
  simp only [intVal, intWrap, signedOf_eq_bmod (intBits_pos t), Int.natCast_emod]

/-- Residues of a multiple of 2^n wrap alike. -/
theorem intWrap_emod {t N : Nat} (h : intBits t ≤ N) (x : Int) : intWrap t (x % (2 ^ N : Nat)) = intWrap t x := by
  have dvd : ((2 ^ intBits t : Nat) : Int) ∣ (2 ^ N : Nat) := Int.natCast_dvd_natCast.mpr (Nat.pow_dvd_pow 2 h)
  unfold intWrap
  split
  · rw [← Int.emod_bmod, Int.emod_emod_of_dvd x dvd, Int.emod_bmod]
  · exact Int.emod_emod_of_dvd x dvd

theorem intWrap_eq_add_mul (t : Nat) (x : Int) : ∃ k : Int, intWrap t x = x + k * (2 ^ intBits t : Nat) := by
  unfold intWrap
  split
  · obtain ⟨k, hk⟩ := Int.dvd_bmod_sub_self (x := x) (m := 2 ^ intBits t)
    exact ⟨k, by rw [Int.mul_comm k]; omega⟩
  · obtain ⟨k, hk⟩ := Int.dvd_self_sub_emod (x := x) (m := (2 ^ intBits t : Nat))
    exact ⟨-k, by rw [Int.neg_mul, Int.mul_comm k]; omega⟩

/-- In the range of `t` (R33). -/
abbrev InRange (t : Nat) (x : Int) : Prop := intMin t ≤ x ∧ x ≤ intMax t

/-- The bounds of a signed type, doubled. -/
theorem inRange_signed {t : Nat} (h : intSigned t = true) (x : Int) :
    InRange t x ↔ -(2 ^ intBits t : Nat) ≤ x * 2 ∧ x * 2 < (2 ^ intBits t : Nat) := by
  have half : 2 ^ (intBits t - 1) * 2 = 2 ^ intBits t := Nat.two_pow_pred_mul_two (intBits_pos t)
  simp only [InRange, intMin, intMax, h, if_true]
  omega

theorem inRange_unsigned {t : Nat} (h : intSigned t = false) (x : Int) :
    InRange t x ↔ 0 ≤ x ∧ x < (2 ^ intBits t : Nat) := by
  simp only [InRange, intMin, intMax, h, Bool.false_eq_true, if_false]
  omega

theorem intWrap_inRange (t : Nat) (x : Int) : InRange t (intWrap t x) := by
  have pos : 0 < 2 ^ intBits t := Nat.two_pow_pos _
  cases h : intSigned t
  case true =>
    have := Int.le_bmod (x := x) pos
    have := Int.bmod_lt (x := x) pos
    rw [inRange_signed h, intWrap, if_pos h]
    omega
  case false =>
    rw [inRange_unsigned h, intWrap, if_neg (by simp [h])]
    exact ⟨Int.emod_nonneg x (by omega), Int.emod_lt_of_pos x (by omega)⟩

theorem intWrap_of_inRange {t : Nat} {x : Int} (hx : InRange t x) : intWrap t x = x := by
  cases h : intSigned t
  case true =>
    obtain ⟨low, high⟩ := (inRange_signed h x).mp hx
    rw [intWrap, if_pos h, Int.bmod_eq_of_le_mul_two low high]
  case false =>
    obtain ⟨low, high⟩ := (inRange_unsigned h x).mp hx
    rw [intWrap, if_neg (by simp [h]), Int.emod_eq_of_lt low high]

/-- `x` brought to the nearest end of the range of `t` (R34). -/
def intClamp (t : Nat) (x : Int) : Int := max (intMin t) (min x (intMax t))

theorem intClamp_inRange (t : Nat) (x : Int) : InRange t (intClamp t x) := by
  have : intMin t ≤ intMax t := by
    obtain ⟨low, high⟩ := intWrap_inRange t x
    exact Int.le_trans low high
  unfold InRange intClamp
  omega

theorem intClamp_eq_self_iff (t : Nat) (x : Int) : intClamp t x = x ↔ InRange t x := by
  obtain ⟨low, high⟩ := intClamp_inRange t x
  constructor
  · intro h
    rw [← h]
    exact ⟨low, high⟩
  · rintro ⟨low, high⟩
    unfold intClamp
    omega

theorem intClamp_of_gt {t : Nat} {x : Int} (h : intMax t < x) : intClamp t x = intMax t := by
  have := intClamp_inRange t x
  unfold InRange intClamp at *
  omega

theorem intClamp_of_lt {t : Nat} {x : Int} (h : x < intMin t) : intClamp t x = intMin t := by
  have := intClamp_inRange t x
  unfold InRange intClamp at *
  omega

/-! ## The words written -/

/-- A wrapped pattern of at least the type's bits is read back as the value kept. -/
theorem intVal_wrapNat {t N : Nat} (h : intBits t ≤ N) (x : Int) : intVal t (wrapNat N x) = intWrap t x := by
  rw [intVal_eq_intWrap, cast_wrapNat, intWrap_emod h]

theorem wrapNat_intWrap (t : Nat) (x : Int) : wrapNat (intBits t) (intWrap t x) = wrapNat (intBits t) x := by
  obtain ⟨k, hk⟩ := intWrap_eq_add_mul t x
  apply Int.ofNat_inj.mp
  rw [cast_wrapNat, cast_wrapNat, hk, Int.add_mul_emod_self_right]

/-- The pattern written for an exact integer: the value kept, extended to whole registers. -/
theorem wrapInt_eq (t : Nat) (x : Int) : wrapInt t x = wrapNat (max 32 (intBits t)) (intWrap t x) := by
  dsimp only [wrapInt]
  split
  case isTrue narrow =>
    have width : max 32 (intBits t) = 32 := by omega
    rw [intVal_wrapNat (Nat.le_refl _), width]
  case isFalse wide =>
    have width : max 32 (intBits t) = intBits t := by omega
    rw [width, wrapNat_intWrap]

/-- The registers of a scalar integer type (R10, R34). -/
theorem regBits_eq (t : BitVec 4) (ht : t.toNat < 8) : 32 * tyRegs t = max 32 (intBits t.toNat) := by
  revert t
  decide

theorem intResult_wraps (t : BitVec 4) (x : Int) :
    intResult t false x = (wordsOf (tyRegs t) (wrapInt t.toNat x), 0) := rfl

/-- With SAT the result is that of the clamped integer, and SAT says whether it was clamped. -/
theorem intResult_saturates (t : BitVec 4) (x : Int) :
    intResult t true x = ((intResult t false (intClamp t.toNat x)).1, if InRange t.toNat x then 0 else flagSAT) := by
  simp only [← intClamp_eq_self_iff]
  rfl

/-- In range, SAT changes nothing. -/
theorem intResult_of_inRange {t : BitVec 4} {x : Int} (h : InRange t.toNat x) :
    intResult t true x = intResult t false x := by
  rw [intResult_saturates, (intClamp_eq_self_iff _ x).mpr h, if_pos h]
  rfl

/-- Out of range, the nearest end is written and SAT is raised. -/
theorem intResult_of_not_inRange {t : BitVec 4} {x y : Int} (h : ¬ InRange t.toNat x) (hy : intClamp t.toNat x = y) :
    intResult t true x = ((intResult t false y).1, flagSAT) := by
  rw [intResult_saturates, hy, if_neg h]

theorem tyVal_wrapped {t : BitVec 4} (ht : t.toNat < 8) (x : Int) :
    tyVal t (intResult t false x).1 = intWrap t.toNat x := by
  rw [intResult_wraps, tyVal, numOf, wordsNat_wordsOf, regBits_eq t ht, wrapInt_eq, Nat.mod_eq_of_lt (wrapNat_lt ..),
    intVal_wrapNat (by omega), intWrap_of_inRange (intWrap_inRange ..)]

theorem tyVal_saturated {t : BitVec 4} (ht : t.toNat < 8) (x : Int) :
    tyVal t (intResult t true x).1 = intClamp t.toNat x := by
  rw [intResult_saturates, tyVal_wrapped ht, intWrap_of_inRange (intClamp_inRange _ x)]

/-- A type of at most 32 bits has one register. -/
theorem intResult_word {t : BitVec 4} (ht : t.toNat < 8) (narrow : intBits t.toNat ≤ 32) (x : Int) :
    intResult t false x = ([BitVec.ofInt 32 (intWrap t.toNat x)], 0) := by
  have one : tyRegs t = 1 := by
    have := regBits_eq t ht
    omega
  have width : max 32 (intBits t.toNat) = 32 := by omega
  rw [intResult_wraps, one, wrapInt_eq, width]
  simp [wordsOf, ofNat_wrapNat]

/-- A narrow result is extended to its register (R34). -/
theorem intResult_extended {t : BitVec 4} (ht : t.toNat < 8) (narrow : intBits t.toNat ≤ 32) (sat : Bool) (x : Int) :
    (intResult t sat x).1 = [BitVec.ofInt 32 (tyVal t (intResult t sat x).1)] := by
  cases sat
  case false => rw [tyVal_wrapped ht, intResult_word ht narrow]
  case true => rw [intResult_saturates, tyVal_wrapped ht, intResult_word ht narrow]

theorem tyVal_word (t : BitVec 4) (w : Word) : tyVal t [w] = intWrap t.toNat w.toNat := by
  rw [tyVal, numOf, wordsNat, wordsNat, intVal_eq_intWrap, Nat.mul_zero, Nat.add_zero]

/-- A narrow operand is read from the low bits of its register (R34). -/
theorem tyVal_lowBits (t : BitVec 4) (w : Word) :
    tyVal t [w] = intWrap t.toNat (w.toNat % 2 ^ intBits t.toNat : Nat) := by
  rw [tyVal_word, Int.natCast_emod, intWrap_emod (Nat.le_refl _)]

/-! ## Words of I32 and N32 -/

theorem ofInt_intWrap32 {t : Nat} (h : intBits t = 32) (x : Int) :
    BitVec.ofInt 32 (intWrap t x) = BitVec.ofInt 32 x := by
  rw [← ofNat_wrapNat, ← ofNat_wrapNat, ← h, wrapNat_intWrap]

/-- A 32-bit type writes the two's complement word of the exact result. -/
theorem intResult32 {t : BitVec 4} (ht : t = 0 ∨ t = 1) (x : Int) :
    intResult t false x = ([BitVec.ofInt 32 x], 0) := by
  have bits : intBits t.toNat = 32 := by rcases ht with rfl | rfl <;> rfl
  rw [intResult_word (by rcases ht with rfl | rfl <;> decide) (Nat.le_of_eq bits), ofInt_intWrap32 bits]

theorem tyVal_i32 (w : Word) : tyVal 0 [w] = w.toInt := by
  rw [tyVal_word, BitVec.toInt_eq_toNat_bmod, intWrap, if_pos (by rfl)]
  simp [intBits]

theorem inRange_n32 (x : Int) : InRange (BitVec.toNat (1 : BitVec 4)) x ↔ 0 ≤ x ∧ x < 2 ^ 32 :=
  inRange_unsigned rfl x

theorem tyVal_n32 (w : Word) : tyVal 1 [w] = w.toNat := by
  have : (w.toNat : Int) < 2 ^ 32 := Int.ofNat_lt.mpr w.isLt
  rw [tyVal_word, intWrap_of_inRange ((inRange_n32 _).mpr ⟨by omega, this⟩)]

/-- A 32-bit operand's value is that of its word, modulo 2^32. -/
theorem ofInt_tyVal32 {t : BitVec 4} (ht : t = 0 ∨ t = 1) (w : Word) : BitVec.ofInt 32 (tyVal t [w]) = w := by
  rcases ht with rfl | rfl
  · rw [tyVal_i32, BitVec.ofInt_toInt]
  · rw [tyVal_n32, BitVec.ofInt_natCast, BitVec.ofNat_toNat, BitVec.setWidth_eq]

theorem ofInt_sub32 (x y : Int) : BitVec.ofInt 32 (x - y) = BitVec.ofInt 32 x - BitVec.ofInt 32 y := by
  rw [Int.sub_eq_add_neg, BitVec.ofInt_add, BitVec.ofInt_neg, BitVec.sub_eq_add_neg]

/-! ## N32 with SAT -/

theorem intResult_n32_inside {x : Int} (low : 0 ≤ x) (high : x < 2 ^ 32) :
    intResult 1 true x = ([BitVec.ofInt 32 x], 0) := by
  rw [intResult_of_inRange ((inRange_n32 x).mpr ⟨low, high⟩), intResult32 (.inr rfl)]

theorem intResult_n32_above {x : Int} (h : 2 ^ 32 ≤ x) : intResult 1 true x = ([0xFFFFFFFF], flagSAT) := by
  have outside : ¬ InRange (BitVec.toNat (1 : BitVec 4)) x := fun hx => by
    have := (inRange_n32 x).mp hx
    omega
  rw [intResult_of_not_inRange outside (intClamp_of_gt (Int.sub_one_lt_of_le h)), intResult32 (.inr rfl)]
  rfl

theorem intResult_n32_below {x : Int} (h : x < 0) : intResult 1 true x = ([0], flagSAT) := by
  have outside : ¬ InRange (BitVec.toNat (1 : BitVec 4)) x := fun hx => by
    have := (inRange_n32 x).mp hx
    omega
  rw [intResult_of_not_inRange outside (intClamp_of_lt h), intResult32 (.inr rfl)]
  rfl

end Sys2Proof.Machine

namespace Sys2Proof.Proofs
open Sys2Proof Sys2Proof.Machine

/-- Settles O18: a written value reads back as the residue in range, or with SAT as the nearest end of the range. -/
theorem integerResultsWrapOrSaturate : Obligations.IntegerResultsWrapOrSaturate := by
  intro t x ht
  refine ⟨?wraps, ?range, rfl, tyVal_saturated ht x, congrArg Prod.snd (intResult_saturates t x),
    fun sat narrow => intResult_extended ht (Nat.le_of_lt narrow) sat x, fun w v _ low => ?operand⟩
  case wraps => rw [tyVal_wrapped ht]; exact intWrap_eq_add_mul _ x
  case range => rw [tyVal_wrapped ht]; exact intWrap_inRange _ x
  case operand => rw [tyVal_lowBits, tyVal_lowBits, low]

/-- Settles O11: a 32-bit type computes with the words themselves; N32 with SAT ends at 0 and at all ones. -/
theorem wordArithmetic : Obligations.WordArithmetic := by
  intro f a b c
  refine ⟨fun ht hs => ?wraps, fun ht hs => ?saturates⟩
  case wraps =>
    have fn : f.fn = 0 ∨ f.fn = 1 := ht
    simp only [intAdd, intSub, intMul, intMad, intNeg, hs, intResult32 fn, BitVec.ofInt_add, ofInt_sub32,
      BitVec.ofInt_mul, BitVec.ofInt_neg, ofInt_tyVal32 fn, and_self]
  case saturates =>
    have := a.isLt
    have := b.isLt
    have word (w : Word) : BitVec.ofInt 32 w.toNat = w := tyVal_n32 w ▸ ofInt_tyVal32 (.inr rfl) w
    simp only [intAdd, intSub, hs, ht, tyVal_n32]
    constructor
    · split
      case isTrue fits =>
        rw [intResult_n32_inside (by omega) (by omega), BitVec.ofInt_add, word, word]
      case isFalse exceeds => exact intResult_n32_above (by omega)
    · split
      case isTrue fits =>
        rw [intResult_n32_inside (by omega) (by omega), ofInt_sub32, word, word]
      case isFalse below => exact intResult_n32_below (by omega)

end Sys2Proof.Proofs
end

section
/-! PROOFS. Rounding of represented values (O19): a pattern as its fields, the value of each kind of pattern, and exact
values on the grid of a format. -/
namespace Sys2Proof.Machine

/-! ## Patterns and their fields -/

/-- Every format has an exponent field besides 1 below its all ones: the largest unit is above the least one. -/
theorem Flt.two_le_eb {f : Flt} (h : f ∈ [f64, f32, f16, bf16, e4m3, e5m2]) : 2 ≤ f.eb := by
  simp only [List.mem_cons, List.not_mem_nil, or_false] at h
  rcases h with rfl | rfl | rfl | rfl | rfl | rfl <;> decide

/-- The pattern with a sign, an exponent field and a fraction field (R35). -/
def Flt.pattern (f : Flt) (s : Bool) (e m : Nat) : Nat := f.sign s + (e * 2 ^ f.fb + m)

/-- Above the fraction field stand the exponent field and the sign. -/
theorem Flt.pattern_eq (f : Flt) (s : Bool) (e m : Nat) :
    f.pattern s e m = m + 2 ^ f.fb * ((if s then 2 ^ f.eb else 0) + e) := by
  rw [Flt.pattern, Flt.sign, Nat.mul_comm e, Nat.mul_add]
  cases s
  case false =>
    rw [if_neg Bool.false_ne_true, if_neg Bool.false_ne_true]
    omega
  case true =>
    rw [if_pos rfl, if_pos rfl, Nat.add_comm f.eb, Nat.pow_add]
    omega

/-- Every pattern of a format has its three fields (R36). -/
theorem Flt.exists_fields {f : Flt} {b : Nat} (hb : b < 2 ^ f.bits) :
    ∃ s, ∃ e < 2 ^ f.eb, ∃ m < 2 ^ f.fb, b = f.pattern s e m := by
  have bit : b / 2 ^ f.fb / 2 ^ f.eb < 2 := by
    rw [Nat.div_div_eq_div_mul, Nat.div_lt_iff_lt_mul (Nat.mul_pos (Nat.two_pow_pos _) (Nat.two_pow_pos _))]
    rwa [Flt.bits, Nat.pow_add, Nat.pow_add, Nat.pow_one, Nat.mul_assoc, Nat.mul_comm (2 ^ f.eb)] at hb
  have sign : (if b / 2 ^ f.fb / 2 ^ f.eb = 1 then 2 ^ f.eb else 0) = 2 ^ f.eb * (b / 2 ^ f.fb / 2 ^ f.eb) := by
    obtain h | h := Nat.le_one_iff_eq_zero_or_eq_one.mp (Nat.le_of_lt_succ bit)
    · simp [h]
    · simp [h]
  refine ⟨decide (b / 2 ^ f.fb / 2 ^ f.eb = 1), b / 2 ^ f.fb % 2 ^ f.eb, Nat.mod_lt _ (Nat.two_pow_pos _),
    b % 2 ^ f.fb, Nat.mod_lt _ (Nat.two_pow_pos _), ?_⟩
  simp only [Flt.pattern_eq, decide_eq_true_eq, sign, Nat.div_add_mod, Nat.mod_add_div]

theorem Flt.pattern_frac {f : Flt} {s : Bool} {e m : Nat} (hm : m < 2 ^ f.fb) :
    f.pattern s e m % 2 ^ f.fb = m := by
  rw [Flt.pattern_eq, Nat.add_mul_mod_self_left, Nat.mod_eq_of_lt hm]

theorem Flt.pattern_div {f : Flt} {s : Bool} {e m : Nat} (hm : m < 2 ^ f.fb) :
    f.pattern s e m / 2 ^ f.fb = (if s then 2 ^ f.eb else 0) + e := by
  rw [Flt.pattern_eq, Nat.add_mul_div_left _ _ (Nat.two_pow_pos _), Nat.div_eq_of_lt hm, Nat.zero_add]

theorem Flt.pattern_exp {f : Flt} {s : Bool} {e m : Nat} (he : e < 2 ^ f.eb) (hm : m < 2 ^ f.fb) :
    f.pattern s e m / 2 ^ f.fb % 2 ^ f.eb = e := by
  rw [Flt.pattern_div hm]
  cases s
  case false => rw [if_neg Bool.false_ne_true, Nat.zero_add, Nat.mod_eq_of_lt he]
  case true => rw [if_pos rfl, Nat.add_mod_left, Nat.mod_eq_of_lt he]

theorem Flt.pattern_sign {f : Flt} {s : Bool} {e m : Nat} (he : e < 2 ^ f.eb) (hm : m < 2 ^ f.fb) :
    (f.pattern s e m / 2 ^ (f.eb + f.fb) % 2 == 1) = s := by
  rw [Nat.add_comm, Nat.pow_add, ← Nat.div_div_eq_div_mul, Flt.pattern_div hm]
  cases s
  case false => rw [if_neg Bool.false_ne_true, Nat.zero_add, Nat.div_eq_of_lt he]; rfl
  case true => rw [if_pos rfl, Nat.add_div_left e (Nat.two_pow_pos _), Nat.div_eq_of_lt he]; rfl

/-- The exponent of the unit of a normal value's significand (R36). -/
def Flt.unitExp (f : Flt) (e : Nat) : Int := (e : Int) - f.bias - f.fb

/-- The value of a pattern in terms of its fields (R36). -/
theorem Flt.val_pattern {f : Flt} {s : Bool} {e m : Nat} (he : e < 2 ^ f.eb) (hm : m < 2 ^ f.fb) :
    f.val (f.pattern s e m) =
    if e = 0 then if m = 0 then .zero s else .fin s m f.minExp false
    else if e = 2 ^ f.eb - 1 && f.hasInf then if m = 0 then .inf s else .nan (m < 2 ^ (f.fb - 1))
    else if e = 2 ^ f.eb - 1 && m = 2 ^ f.fb - 1 then .nan false
    else .fin s (2 ^ f.fb + m) (f.unitExp e) false := by
  simp only [Flt.val, Flt.pattern_sign he hm, Flt.pattern_exp he hm, Flt.pattern_frac hm, Flt.minExp, Flt.unitExp]

/-! ## Exact values on the grid -/

theorem roundAt_self (rm : Nat) (s : Bool) (m : Nat) (e : Int) : roundAt rm s m e false e = (m, false) := by
  simp [roundAt]

theorem Flt.round_zero (f : Flt) (rm : Nat) (s : Bool) : f.round (.zero s) rm false = (f.pattern s 0 0, 0) := by
  simp [Flt.round, Flt.pattern]

theorem Flt.round_inf {f : Flt} (h : f.hasInf = true) (rm : Nat) (s : Bool) :
    f.round (.inf s) rm false = (f.pattern s (2 ^ f.eb - 1) 0, 0) := by
  simp [Flt.round, Flt.inf, Flt.pattern, h]

/-- A value whose unit is the one that rounding picks, and that is not above maxf, is delivered with no flag. -/
theorem Flt.round_grid {f : Flt} {m : Nat} {e : Int} (rm : Nat) (s : Bool) (hq : max (e + m.log2 - f.fb) f.minExp = e)
    (hm : m < 2 ^ (f.fb + 1)) (hmax : e < f.maxExp ∨ e = f.maxExp ∧ m ≤ f.maxSig) :
    f.round (.fin s m e false) rm false =
      (f.sign s + if m < 2 ^ f.fb then m else (e + f.bias + f.fb).toNat * 2 ^ f.fb + (m - 2 ^ f.fb), 0) := by
  have inside : ¬ (f.maxExp < e ∨ e = f.maxExp ∧ f.maxSig < m) := by omega
  simp [Flt.round, hq, roundAt_self, Nat.ne_of_lt hm, inside]

theorem Flt.round_subnormal {f : Flt} (hf : 2 ≤ f.eb) {m : Nat} (rm : Nat) (s : Bool) (h0 : m ≠ 0)
    (hm : m < 2 ^ f.fb) :
    f.round (.fin s m f.minExp false) rm false = (f.pattern s 0 m, 0) := by
  have low : m.log2 < f.fb := (Nat.log2_lt h0).mpr hm
  have exponents : 2 ^ 2 ≤ 2 ^ f.eb := Nat.pow_le_pow_right (by decide) hf
  have below : f.minExp < f.maxExp := by
    unfold Flt.minExp Flt.maxExp
    split <;> omega
  rw [Flt.round_grid rm s (by omega) (by rw [Nat.pow_succ]; omega) (.inl below), if_pos hm]
  simp [Flt.pattern]

/-- The fields of a normal value (R36): without infinity, the top exponent has normal values too, all but all ones. -/
def Flt.IsNormal (f : Flt) (e m : Nat) : Prop :=
  e ≠ 0 ∧ m < 2 ^ f.fb ∧ (e < 2 ^ f.eb - 1 ∨ f.hasInf = false ∧ e = 2 ^ f.eb - 1 ∧ m < 2 ^ f.fb - 1)

theorem Flt.normal_le_max {f : Flt} {e m : Nat} (h : f.IsNormal e m) :
    f.unitExp e < f.maxExp ∨ f.unitExp e = f.maxExp ∧ 2 ^ f.fb + m ≤ f.maxSig := by
  obtain ⟨h0, hm, htop⟩ := h
  unfold Flt.unitExp Flt.maxExp Flt.maxSig
  rw [Nat.pow_succ]
  cases inf : f.hasInf
  case false =>
    simp only [Bool.false_eq_true, if_false]
    omega
  case true =>
    have : e < 2 ^ f.eb - 1 := htop.resolve_right fun h => by simp [inf] at h
    simp only [if_true]
    omega

theorem Flt.round_normal {f : Flt} {e m : Nat} (rm : Nat) (s : Bool) (h : f.IsNormal e m) :
    f.round (.fin s (2 ^ f.fb + m) (f.unitExp e) false) rm false = (f.pattern s e m, 0) := by
  have ⟨h0, hm, _⟩ := h
  have log : (2 ^ f.fb + m).log2 = f.fb := (Nat.log2_eq_iff (by omega)).mpr ⟨by omega, by rw [Nat.pow_succ]; omega⟩
  have unit : max (f.unitExp e + (2 ^ f.fb + m).log2 - f.fb) f.minExp = f.unitExp e := by
    unfold Flt.unitExp Flt.minExp
    omega
  have field : (f.unitExp e + f.bias + f.fb).toNat = e := by
    unfold Flt.unitExp
    omega
  rw [Flt.round_grid rm s unit (by rw [Nat.pow_succ]; omega) (Flt.normal_le_max h), if_neg (by omega), field,
    Nat.add_sub_cancel_left, Flt.pattern]

end Sys2Proof.Machine

namespace Sys2Proof.Proofs
open Sys2Proof Sys2Proof.Machine

/-- Settles O19: by R36's cases on the fields of the pattern; each value but a NaN lies on the format's grid. -/
theorem roundingKeepsRepresentables : Obligations.RoundingKeepsRepresentables := by
  intro f b rm hf hb _
  obtain ⟨s, e, he, m, hm, rfl⟩ := Flt.exists_fields hb
  rw [Flt.val_pattern he hm]
  split
  case isTrue e0 =>
    subst e0
    split
    case isTrue m0 => exact m0 ▸ Flt.round_zero f rm s
    case isFalse subnormal => exact Flt.round_subnormal (Flt.two_le_eb hf) rm s subnormal hm
  case isFalse e0 =>
    split
    case isTrue special =>
      obtain ⟨rfl, inf⟩ : e = 2 ^ f.eb - 1 ∧ f.hasInf = true := by simpa using special
      split
      case isTrue m0 => exact m0 ▸ Flt.round_inf inf rm s
      case isFalse nan => rfl
    case isFalse finite =>
      split
      case isTrue nan => rfl
      case isFalse notNan =>
        refine Flt.round_normal rm s ⟨e0, hm, ?_⟩
        simp only [Bool.and_eq_true, decide_eq_true_eq, not_and, Bool.not_eq_true] at finite notNan
        by_cases top : e = 2 ^ f.eb - 1
        case pos =>
          have := notNan top
          exact .inr ⟨finite top, top, by omega⟩
        case neg => exact .inl (by omega)

end Sys2Proof.Proofs
end
